-- ==== Sys2Proof/Word.lean ====
section
/-! DEFINITION. The word types of the AW31: what the manual treats as bits. -/

namespace Sys2Proof

/-- One byte of the host port or of a payload (10, R169; 01, R2). -/
abbrev Byte := BitVec 8

/-- A sixteen-bit quantity: tags, load and arrival numbers, counters, the check (R3, R67, R124, R178). -/
abbrev Half := BitVec 16

/-- The 32 header bits (Table 10.5). -/
abbrev Word := BitVec 32

/-- The two bits one claim digit or symbol carries (R122). -/
abbrev Sym := BitVec 2

end Sys2Proof
end

