-- ==== Sys2Proof/Syntax.lean ====
section
/-! DEFINITION. The commands of the AW31: one constructor for each row of spec/opcode_table.json. -/

namespace Sys2Proof

/-- A command: a step of the part, whole and indivisible (95_what_each_step_holds.md). Host commands carry the
bytes of their operand (Table 10.6); the two line edges carry the interval they end, in line positions. -/
inductive Instr where
  /-- RST goes low, or power-on (R166). -/
  | hardReset
  /-- HOST_SEL rises (R170, R173). -/
  | hostSelRise
  /-- The host command STATE (R181). -/
  | state
  /-- The host command PEER with its address byte (R182). -/
  | peer (addr : Byte)
  /-- The host command COUNTERS (R180). -/
  | counters
  /-- The host command SETUP with its eight operand bytes in order (Table 10.8). -/
  | setup (address quantum reserveA reserveB reserveC retryLimit silenceLimit stepAndStore : Byte)
  /-- The host command START (R158). -/
  | start
  /-- The host command RESET (R173). -/
  | reset
  /-- The host command LOAD: tag, dest byte, lane byte, length byte, and the bytes sent after it (R172). -/
  | load (tag : Half) (dest lane len : Byte) (payload : List Byte)
  /-- The host command WITHDRAW with its tag (R80). -/
  | withdraw (tag : Half)
  /-- The host command OUTCOME (R83). -/
  | outcome
  /-- The host command FETCH (R89). -/
  | fetch
  /-- The host command FETCH_BROADCAST (R97). -/
  | fetchBroadcast
  /-- The host command NOTICE (R177). -/
  | notice
  /-- A command byte that is no known code (R170). -/
  | unknownCommand (code : Byte)
  /-- The filtered line goes active, ending a gap of `gap` positions (R143). -/
  | lineRisingEdge (gap : Nat)
  /-- The filtered line goes released, ending a pulse of `width` positions (R145). -/
  | pulseEvent (width : Nat)
  /-- A gap reaches 25 positions (R146). -/
  | frameGapBreak
  /-- A gap reaches 48 positions (R147). -/
  | lineIdle
  /-- A gap reaches 96 positions (R147). -/
  | roundGap
  /-- A pulse reaches 512 positions (R148). -/
  | lineStuck
  /-- The line stayed released through the 24th sample of an open answer window (R44). -/
  | answerWindowClose
  /-- An answer pulse is still active 44 samples after its rising edge (R45). -/
  | answerEarlyUnclassified
  /-- The line has been active for 64 samples in LEAD (R105). -/
  | leadRelease
  /-- Four samples after the CTU released its LEAD or a claim digit (R105, R107). -/
  | lossTest
  /-- Eight samples after the pulse before a claim digit fell (R106). -/
  | digitDriveStart
  /-- The line has been active for the claim digit's width (R106). -/
  | digitRelease
  /-- Eight samples into a started LEAD, or four into a claim digit (R109). -/
  | driveFaultCheck
  /-- Eight samples after the pulse before a symbol or the END fell (R112). -/
  | symbolDriveStart
  /-- The line has been active for the width of the symbol or the END (R112). -/
  | symbolRelease
  /-- Four samples into an FTX drive, or four after its release (R113). -/
  | readbackTest
  /-- Eight samples after the END of a frame the part answers (R51). -/
  | answerDriveStart
  /-- Four samples into the answer (R52). -/
  | answerDriveCheck
  /-- The line has been active for the answer's width (R51). -/
  | answerRelease
  /-- The span timebase expires (R164). -/
  | spanExpiry
  /-- HOST_SEL falls (R169). -/
  | hostSelFall
  /-- RST returns high (R166). -/
  | rstRelease
  deriving DecidableEq, Repr

end Sys2Proof
end

