-- ==== Sys2Proof/WellFormed.lean ====
section
/-! DEFINITION. Which commands can be sent: the checks on operands. -/

namespace Sys2Proof

/-- The command codes of Table 10.6, the known codes (R170). -/
def knownCodes : List Byte :=
  [0x01#8, 0x02#8, 0x03#8, 0x10#8, 0x11#8, 0x12#8, 0x20#8, 0x21#8, 0x22#8, 0x30#8, 0x31#8, 0x32#8]

/-- A LOAD length byte that is accepted, 1..32 (R172). -/
def lengthValid (len : Byte) : Bool := 1 ≤ len.toNat && len.toNat ≤ 32

/-- A command as the host, the line or a timer can send it.
LOAD: with a valid length byte exactly that many payload bytes, else none, since it is taken at the length byte
(R172). UNKNOWN_COMMAND: no known code (R170). An edge ends a gap of at most 1023 positions, and a pulse of 3 to
1023: the filter passes none shorter and the running count saturates at 1023 (R142, R143). -/
def Instr.wellFormed : Instr → Bool
  | .load _ _ _ len payload => if lengthValid len then payload.length == len.toNat else payload.isEmpty
  | .unknownCommand code => !knownCodes.contains code
  | .lineRisingEdge gap => gap ≤ 1023
  | .pulseEvent width => 3 ≤ width && width ≤ 1023
  | _ => true

end Sys2Proof
end

