-- ==== Sys2Proof/Decode.lean ====
section
/-! DEFINITION. Commands from bits. No row of spec/opcode_table.json gives bits, so `decodeTableWord` reads none; the
host port's bytes spell the host commands (Table 10.6), which `hostCommand` reads and `hostBytes` writes. -/

namespace Sys2Proof

/-- The command a word spells by the table's bits: the table gives no row bits. -/
def decodeTableWord (_nbits _w : Nat) : Option Instr := none

/-- Two bytes as a sixteen-bit number, most significant first (10.8). -/
def halfOf (hi lo : Byte) : Half := hi ++ lo

/-- A sixteen-bit number as two bytes, most significant first (10.8). -/
def halfBytes (h : Half) : List Byte := [h.extractLsb' 8 8, h.extractLsb' 0 8]

/-- Operand bytes a command code needs; 5 for LOAD, up to its length byte; `none` for an unknown code (Table 10.6). -/
def operandLengthOf (code : Byte) : Option Nat :=
  if !knownCodes.contains code then none
  else if code = 0x02#8 then some 1
  else if code = 0x10#8 then some 8
  else if code = 0x20#8 then some 5
  else if code = 0x21#8 then some 2
  else some 0

/-- The command that a command byte and its operand spell (Table 10.6). -/
def hostCommand (code : Byte) (operand : List Byte) : Option Instr :=
  if code = 0x01#8 then some .state
  else if code = 0x02#8 then
    match operand with
    | [addr] => some (.peer addr)
    | _ => none
  else if code = 0x03#8 then some .counters
  else if code = 0x10#8 then
    match operand with
    | [b0, b1, b2, b3, b4, b5, b6, b7] => some (.setup b0 b1 b2 b3 b4 b5 b6 b7)
    | _ => none
  else if code = 0x11#8 then some .start
  else if code = 0x12#8 then some .reset
  else if code = 0x20#8 then
    match operand with
    | hi :: lo :: dest :: lane :: len :: payload => some (.load (halfOf hi lo) dest lane len payload)
    | _ => none
  else if code = 0x21#8 then
    match operand with
    | [hi, lo] => some (.withdraw (halfOf hi lo))
    | _ => none
  else if code = 0x22#8 then some .outcome
  else if code = 0x30#8 then some .fetch
  else if code = 0x31#8 then some .fetchBroadcast
  else if code = 0x32#8 then some .notice
  else some (.unknownCommand code)

/-- The bytes the host clocks for a command: its code, then its operand; `none` for the steps that are no host
command (Table 10.6). -/
def hostBytes : Instr → Option (Byte × List Byte)
  | .state => some (0x01#8, [])
  | .peer addr => some (0x02#8, [addr])
  | .counters => some (0x03#8, [])
  | .setup b0 b1 b2 b3 b4 b5 b6 b7 => some (0x10#8, [b0, b1, b2, b3, b4, b5, b6, b7])
  | .start => some (0x11#8, [])
  | .reset => some (0x12#8, [])
  | .load tag dest lane len payload => some (0x20#8, halfBytes tag ++ dest :: lane :: len :: payload)
  | .withdraw tag => some (0x21#8, halfBytes tag)
  | .outcome => some (0x22#8, [])
  | .fetch => some (0x30#8, [])
  | .fetchBroadcast => some (0x31#8, [])
  | .notice => some (0x32#8, [])
  | .unknownCommand code => some (code, [])
  | .hardReset => none
  | .hostSelRise => none
  | .lineRisingEdge _ => none
  | .pulseEvent _ => none
  | .frameGapBreak => none
  | .lineIdle => none
  | .roundGap => none
  | .lineStuck => none
  | .answerWindowClose => none
  | .answerEarlyUnclassified => none
  | .leadRelease => none
  | .lossTest => none
  | .digitDriveStart => none
  | .digitRelease => none
  | .driveFaultCheck => none
  | .symbolDriveStart => none
  | .symbolRelease => none
  | .readbackTest => none
  | .answerDriveStart => none
  | .answerDriveCheck => none
  | .answerRelease => none
  | .spanExpiry => none
  | .hostSelFall => none
  | .rstRelease => none

end Sys2Proof
end

