-- ==== Sys2Proof/Config.lean ====
section
/-! DEFINITION. What the part fixes: the sizes of its stores. The spec leaves no result of a command open,
so there is no free value here. -/

namespace Sys2Proof.Config

/-- Receive slots of the pool (R1). -/
def poolSlots : Nat := 24
/-- Message slots of the Transmit Store (R66). -/
def transmitSlots : Nat := 16
/-- Records the Broadcast Ring holds (R93). -/
def ringSize : Nat := 8
/-- Notices the queue holds (R175). -/
def noticeSize : Nat := 8
/-- Peer records, one for each address 0..30 (R20). -/
def stations : Nat := 31
/-- The broadcast destination, which has no peer record (R20). -/
def broadcastDest : Nat := 31

/-- REF_CLK periods per sample for each quantum code (R141). Codes above 5 are in no profile. -/
def refClkPerSample (quantumCode : Nat) : Nat :=
  [2, 4, 10, 20, 40, 100].getD quantumCode 0

/-- The sample period in nanoseconds: REF_CLK is 16 MHz, 62.5 ns a period (R141, Table 0.4). -/
def samplePeriodNs (quantumCode : Nat) : Nat :=
  refClkPerSample quantumCode * 125 / 2

end Sys2Proof.Config
end

