-- ==== Sys2Proof/Machine/State.lean ====
section
/-! DEFINITION. The state of the AW31 as plain data, block by block, and its value after a hard reset. -/

namespace Sys2Proof.Machine

/-- The three lanes of urgency (Table 0.5). -/
inductive Lane where
  | a | b | c
  deriving DecidableEq, Repr

/-- One value for each lane. -/
structure PerLane (α : Type) where
  a : α
  b : α
  c : α
  deriving DecidableEq, Repr

/-- An advertisement, a view or a self-view: free reserve per lane and free shared (R8, R12, R21). -/
structure Advert where
  reserve : PerLane Nat
  shared : Nat
  deriving DecidableEq, Repr

/-- No free space in any component. -/
def Advert.zero : Advert := ⟨⟨0, 0, 0⟩, 0⟩

/-! ### Station Controller (Table 9.1) -/

/-- Station states (R155). -/
inductive StationState where
  | config | listening | joining | active | lineFault | halted
  deriving DecidableEq, Repr

/-- Halt reasons (R155, R162). -/
inductive HaltReason where
  | none | addressClash | transmitFault
  deriving DecidableEq, Repr

/-- The nine profile fields (Table 9.3). An unset profile reads zero (R156). -/
structure Profile where
  address : Nat
  quantum : Nat
  reserve : PerLane Nat
  retryLimit : Nat
  silenceLimit : Nat
  advertStep : Nat
  broadcastStore : Bool
  deriving DecidableEq, Repr

/-- The unset profile (R156). -/
def Profile.unset : Profile := ⟨0, 0, ⟨0, 0, 0⟩, 0, 0, 0, false⟩

/-- Station Controller state (Table 9.1). -/
structure Stc where
  station : StationState
  haltReason : HaltReason
  returnState : Option StationState
  frameHeard : Bool
  profile : Profile
  profileSet : Bool
  profileLocked : Bool
  spanRunning : Bool
  spanCount : Nat
  heartbeat : Nat
  deriving DecidableEq, Repr

/-- Table 9.5, after hard reset. -/
def Stc.reset : Stc where
  station := .config
  haltReason := .none
  returnState := none
  frameHeard := false
  profile := Profile.unset
  profileSet := false
  profileLocked := false
  spanRunning := false
  spanCount := 0
  heartbeat := 0

/-! ### Line Front End (Table 8.1) -/

/-- Line Front End state (Table 8.1). `raw1` and `raw2` are the last two raw samples of the filter of R142;
`sampleDue` says that the sample of the current position is still to be taken (R141, R152; log entry 2). -/
structure Lfe where
  sampling : Bool
  active : Bool
  count : Nat
  precedingGap : Nat
  breakReported : Bool
  idleReported : Bool
  roundReported : Bool
  stuckReported : Bool
  raw1 : Bool
  raw2 : Bool
  sampleDue : Bool
  deriving DecidableEq, Repr

/-- R141: sampling off, level released, counts 0, nothing reported. -/
def Lfe.reset : Lfe where
  sampling := false
  active := false
  count := 0
  precedingGap := 0
  breakReported := false
  idleReported := false
  roundReported := false
  stuckReported := false
  raw1 := false
  raw2 := false
  sampleDue := false

/-! ### Frame Receiver (Table 7.5) -/

/-- Width classes (R144). There is no class W7. -/
inductive PulseClass where
  | w1 | w2 | w3 | w4 | w5 | w6 | w8 | unclassified
  deriving DecidableEq, Repr

/-- Receive states (Table 7.6). -/
inductive RxState where
  | idle | lead | claim | header | payload | check | endWait | answerWait | discard
  deriving DecidableEq, Repr

/-- Two pulses, in line order. -/
structure PulsePair where
  beforeLast : Option PulseClass
  last : Option PulseClass
  deriving DecidableEq, Repr

/-- The pulse record for the blind-frame verdict: two pulses, or the turn-on mark (R134, R139). -/
inductive PulseRecord where
  | turnOn
  | pulses (p : PulsePair)
  deriving DecidableEq, Repr

/-- Phases of an answer window (R44, R45): closed; open with no pulse yet; an answer pulse in time under way;
the answer already classed while its pulse lasts. -/
inductive WindowPhase where
  | closed | waiting | inTime | classed
  deriving DecidableEq, Repr

/-- The answer window, with the frame's claim address, dest and lane (Table 7.5). -/
structure AnswerWindow where
  phase : WindowPhase
  claim : Nat
  dest : Nat
  lane : Lane
  deriving DecidableEq, Repr

/-- A closed window. Table 7.9 says only 'closed': that it holds claim address 0, destination 0 and lane A at reset and
from each LEAD on is a DESIGN CHOICE (log entry 21); nothing reads them before the next window opens. -/
def AnswerWindow.shut : AnswerWindow := ⟨.closed, 0, 0, .a⟩

/-- Frame Receiver state (Table 7.5). The frame being assembled is `digitIndex` to `recent`; `claim` holds the
eight claim bits, priority digit first, so its low six bits are the claim address (R122). -/
structure Frx where
  state : RxState
  digitIndex : Nat
  symCount : Nat
  claim : Byte
  header : Word
  payload : List Byte
  partialByte : Byte
  crc : Half
  check : Half
  recent : PulsePair
  record : PulseRecord
  window : AnswerWindow
  deriving DecidableEq, Repr

/-- Table 7.9, after either reset: IDLE and off, everything empty. -/
def Frx.reset : Frx where
  state := .idle
  digitIndex := 0
  symCount := 0
  claim := 0#8
  header := 0#32
  payload := []
  partialByte := 0#8
  crc := 0#16
  check := 0#16
  recent := ⟨none, none⟩
  record := .pulses ⟨none, none⟩
  window := AnswerWindow.shut

/-! ### Frames, candidates -/

/-- Frame kinds (Table 7.3). -/
inductive FrameKind where
  | data | broadcast | status | join | poll
  deriving DecidableEq, Repr

/-- A candidate of the Frame Selector (Table 4.5). A frame's length is the number of its payload bytes. -/
structure Candidate where
  kind : FrameKind
  dest : Nat
  lane : Lane
  payload : List Byte
  deriving DecidableEq, Repr

/-- A valid frame as the FRX hands it to the blocks (R136). -/
structure Frame where
  kind : FrameKind
  claim : Nat
  dest : Nat
  lane : Lane
  toggle : Bool
  resync : Bool
  advert : Advert
  payload : List Byte
  deriving DecidableEq, Repr

/-! ### Contention Unit (Table 6.1) and Frame Transmitter (Table 6.3) -/

/-- Phase of a drive: before it (the gap), driving, released and not yet tested. -/
inductive DrivePhase where
  | rest | driving | released
  deriving DecidableEq, Repr

/-- One pulse the part drives: its phase, the line positions since that phase began, and the positions since the
line's dated rising edge of that pulse, if the edge has come (R105 to R109, R112, R152). -/
structure Drive where
  phase : DrivePhase
  timer : Nat
  edgeAge : Option Nat
  deriving DecidableEq, Repr

/-- No drive. -/
def Drive.none : Drive := ⟨.rest, 0, Option.none⟩

/-- Contention states (R101). -/
inductive CtuState where
  | off | waiting | lead | claim | won | lost
  deriving DecidableEq, Repr

/-- Contention Unit state (Table 6.1). `joined` tells a joined LEAD from a started one (R109). -/
structure Ctu where
  state : CtuState
  digitIndex : Nat
  idleSeen : Bool
  locked : Option Candidate
  roundSpent : Bool
  joined : Bool
  drive : Drive
  deriving DecidableEq, Repr

/-- Table 6.4, after either reset. -/
def Ctu.reset : Ctu where
  state := .off
  digitIndex := 0
  idleSeen := false
  locked := none
  roundSpent := false
  joined := false
  drive := Drive.none

/-- Transmit states (Table 6.3). -/
inductive TxState where
  | idle | header | payload | check | endPulse | awaitAnswer | answering
  deriving DecidableEq, Repr

/-- The answers a destination drives (Table 3.1). -/
inductive AnswerKind where
  | accept | duplicate | refused
  deriving DecidableEq, Repr

/-- The class of an answer event (R26). -/
inductive AnswerClass where
  | accept | duplicate | refused | none | unclassified
  deriving DecidableEq, Repr

/-- Frame Transmitter state (Table 6.3). `answer` is the answer being driven or whose readback is still open (R52). -/
structure Ftx where
  state : TxState
  symbolIndex : Nat
  captured : Option Advert
  faultCount : Nat
  toggle : Bool
  resync : Bool
  answer : Option AnswerKind
  drive : Drive
  deriving DecidableEq, Repr

/-- Table 6.4, after either reset. -/
def Ftx.reset : Ftx where
  state := .idle
  symbolIndex := 0
  captured := none
  faultCount := 0
  toggle := false
  resync := false
  answer := none
  drive := Drive.none

/-! ### Receive Pool (Table 1.1) and Broadcast Ring (Table 5.1) -/

/-- The region a record is charged to: its lane's reserve or the shared region (R1). -/
inductive Charge where
  | reserve | shared
  deriving DecidableEq, Repr

/-- A stored unicast message (R2). Its length is the number of its payload bytes. -/
structure PoolRecord where
  source : Nat
  lane : Lane
  payload : List Byte
  arrival : Half
  charge : Charge
  deriving DecidableEq, Repr

/-- The cause set of advertisement-owed (R15 to R17). -/
structure Causes where
  a : Bool
  b : Bool
  c : Bool
  d : Bool
  e : Bool
  f : Bool
  deriving DecidableEq, Repr

/-- The six causes by name (R15). -/
inductive Cause where
  | a | b | c | d | e | f
  deriving DecidableEq, Repr

/-- The empty cause set. -/
def Causes.empty : Causes := ⟨false, false, false, false, false, false⟩

/-- Receive Pool state (Table 1.1). `queue` is the delivery queue, the occupied slots oldest first (R3). -/
structure Rxp where
  queue : List PoolRecord
  arrivals : Half
  selfView : Advert
  owed : Bool
  causes : Causes
  deriving DecidableEq, Repr

/-- Table 1.4, after either reset. -/
def Rxp.reset : Rxp where
  queue := []
  arrivals := 0#16
  selfView := Advert.zero
  owed := false
  causes := Causes.empty

/-- A stored broadcast (R93). -/
structure RingRecord where
  source : Nat
  lane : Lane
  payload : List Byte
  arrival : Half
  deriving DecidableEq, Repr

/-- Broadcast Ring state (Table 5.1), oldest record first. -/
structure Bcr where
  ring : List RingRecord
  arrivals : Half
  deriving DecidableEq, Repr

/-- Table 5.3, after either reset. -/
def Bcr.reset : Bcr := ⟨[], 0#16⟩

/-! ### Peer Table (Table 2.1) -/

/-- Presence of a peer (Table 2.1). -/
inductive Presence where
  | unknown | present | silent | self
  deriving DecidableEq, Repr

/-- Poll age (R39). -/
inductive PollAge where
  | none | zero | one
  deriving DecidableEq, Repr

/-- A peer record (Table 2.1). -/
structure Peer where
  presence : Presence
  stale : Bool
  view : Advert
  age : Nat
  txToggle : PerLane Bool
  resyncPending : PerLane Bool
  rxExpected : PerLane Bool
  resyncHeld : PerLane Bool
  pollAge : PollAge
  deriving DecidableEq, Repr

/-- Table 2.3, after either reset. -/
def Peer.reset : Peer where
  presence := .unknown
  stale := true
  view := Advert.zero
  age := 0
  txToggle := ⟨false, false, false⟩
  resyncPending := ⟨false, false, false⟩
  rxExpected := ⟨false, false, false⟩
  resyncHeld := ⟨false, false, false⟩
  pollAge := .none

/-! ### Transmit Store (Table 4.1) -/

/-- States of an occupied message slot (R66). A FREE slot holds no record. -/
inductive SlotState where
  | queued | inFlight | done
  deriving DecidableEq, Repr

/-- Outcomes (Table 4.6). -/
inductive MsgOutcome where
  | sent | failedNoAnswer | failedPeerSilent | failedHalted | withdrawn
  deriving DecidableEq, Repr

/-- A message record (Table 4.1). Its length is the number of its payload bytes. -/
structure Message where
  tag : Half
  loadNumber : Half
  dest : Nat
  lane : Lane
  payload : List Byte
  tries : Nat
  withdrawPending : Bool
  state : SlotState
  outcome : Option MsgOutcome
  duplicateNote : Bool
  deriving DecidableEq, Repr

/-- Transmit Store state: the QUEUED and IN_FLIGHT records in store order, the DONE records in the order of the
outcome list, and the load counter (R66 to R69). -/
structure Txs where
  store : List Message
  outcomes : List Message
  loadCounter : Half
  deriving DecidableEq, Repr

/-- Table 4.7, after either reset. -/
def Txs.reset : Txs := ⟨[], [], 0#16⟩

/-! ### Host Port (Table 10.1) -/

/-- Transaction states (Table 10.1). -/
inductive TxnState where
  | idle | command | operand | result | trailing
  deriving DecidableEq, Repr

/-- Notice kinds (Table 10.3). -/
inductive NoticeKind where
  | peerUp | peerLost | peerRestarted | joined | lineFault | lineRecovered | addressClash
  deriving DecidableEq, Repr

/-- A notice: its kind and, for the kinds that carry one, an address (R175). -/
structure Notice where
  kind : NoticeKind
  addr : Option Nat
  deriving DecidableEq, Repr

/-- The ten counters by name, in the order of Table 10.4. -/
inductive Counter where
  | framesSent | arbLost | retries | refusedReceived | refusedIssued | duplicatesSeen | decodeErrors | breaks
  | bcastOverwritten | staleEvents
  deriving DecidableEq, Repr

/-- The ten counters (R178). -/
structure Counters where
  framesSent : Half
  arbLost : Half
  retries : Half
  refusedReceived : Half
  refusedIssued : Half
  duplicatesSeen : Half
  decodeErrors : Half
  breaks : Half
  bcastOverwritten : Half
  staleEvents : Half
  deriving DecidableEq, Repr

/-- All counters 0 (R179). -/
def Counters.zero : Counters := ⟨0#16, 0#16, 0#16, 0#16, 0#16, 0#16, 0#16, 0#16, 0#16, 0#16⟩

/-- Host Port state (Table 10.1). `operand` holds the operand bytes received; `result` the result bytes pending. -/
structure Hpt where
  txn : TxnState
  commandByte : Option Byte
  operand : List Byte
  operandLength : Nat
  result : List Byte
  resetDue : Bool
  notices : List Notice
  noticesLost : Nat
  counters : Counters
  deriving DecidableEq, Repr

/-- R170, R176, R179, after either reset. -/
def Hpt.reset : Hpt where
  txn := .idle
  commandByte := none
  operand := []
  operandLength := 0
  result := []
  resetDue := false
  notices := []
  noticesLost := 0
  counters := Counters.zero

/-! ### The whole part -/

/-- What the line brings to one sample of LINE_RX: whether anything but the part (another station, a fault) holds the
line active, and whether the part's own drive reaches the line (R154). -/
structure LineSample where
  others : Bool
  driven : Bool
  deriving DecidableEq, Repr

/-- An undisturbed line: nothing else holds it, and the part's drive reaches it. -/
def LineSample.clear : LineSample := ⟨false, true⟩

/-- The part: its pins, its blocks, the commands waiting for it, and the inputs a tick reads.
`lineIn` holds what the line brings, one entry a sample; `hostIn` the bytes the host clocks in. Both are the model's
own input lists (log entry 2). -/
structure State where
  rstLow : Bool
  hostSelLow : Bool
  stc : Stc
  lfe : Lfe
  frx : Frx
  ctu : Ctu
  ftx : Ftx
  rxp : Rxp
  peers : List Peer
  txs : Txs
  bcr : Bcr
  hpt : Hpt
  pending : List Instr
  lineIn : List LineSample
  hostIn : List Byte
  deriving DecidableEq, Repr

/-- The part right after a hard reset has ended: every block at its hard-reset value, in CONFIG, no command
waiting (R166; Tables 1.4, 2.3, 4.7, 5.3, 6.4, 7.9, 9.5). HOST_SEL high is log entry 4. -/
def State.reset : State where
  rstLow := false
  hostSelLow := false
  stc := Stc.reset
  lfe := Lfe.reset
  frx := Frx.reset
  ctu := Ctu.reset
  ftx := Ftx.reset
  rxp := Rxp.reset
  peers := List.replicate Config.stations Peer.reset
  txs := Txs.reset
  bcr := Bcr.reset
  hpt := Hpt.reset
  pending := []
  lineIn := []
  hostIn := []

/-- Faults. The spec stops the part at no event: a clash or a transmit fault is the station state HALTED and a
stuck line is LINE_FAULT, both with rules of their own (R149, R162). So nothing raises a fault, which is safe. -/
inductive Fault where
  deriving DecidableEq, Repr

/-- Refusals. -/
inductive Refusal where
  /-- An arm of `exec` whose command has no meaning yet. Safe: nothing is claimed of it. No arm raises it now. -/
  | notModelled (mnemonic : String)
  deriving DecidableEq, Repr

end Sys2Proof.Machine
end

