-- ==== Sys2Proof/Machine/Operands.lean ====
section
/-! DEFINITION. Codes, layouts and measures: pulse classes, symbols, the check, the frame header, the profile bytes,
and the records of the host port (07 and 08; 10, section 10.8). -/

namespace Sys2Proof.Machine

/-! ### Line positions (08) -/

/-- Positions between an edge's date and its recognition (R142). -/
def recognitionLag : Nat := 2
/-- FRAME_GAP_BREAK (R146). -/
def breakGap : Nat := 25
/-- LINE_IDLE (R147). -/
def idleGap : Nat := 48
/-- ROUND_GAP (R147). -/
def roundGapLength : Nat := 96
/-- LINE_STUCK (R148). -/
def stuckWidth : Nat := 512
/-- Largest running count (R143). -/
def countLimit : Nat := 1023
/-- Largest preceding gap (R143). -/
def precedingGapLimit : Nat := 255
/-- Positions between two span expiries (R164). -/
def spanLength : Nat := 2048
/-- Last sample of the answer window (R44). -/
def windowLength : Nat := 24
/-- Active samples after which an answer pulse is classed without its release (R45). -/
def answerLimit : Nat := 44
/-- Width of a LEAD (R105). -/
def leadWidth : Nat := 64
/-- The longest drive of the part (R153). -/
def driveLimit : Nat := 64
/-- Width of an END (R112). -/
def endWidth : Nat := 48
/-- The gap the part leaves before each pulse it drives (R106, R112, R51). -/
def driveGap : Nat := 8
/-- Samples from a release, or into a drive, to its test (R105, R107, R109, R113, R52). -/
def testDelay : Nat := 4
/-- Samples into a started LEAD to its drive-fault check (R109). -/
def leadCheckDelay : Nat := 8
/-- Consecutive readback faults that halt the station (R115). -/
def faultLimit : Nat := 4

/-- An in-frame gap: 5..24 positions (Table 8.3). -/
def inFrameGap (gap : Nat) : Bool := 5 ≤ gap && gap ≤ windowLength

/-- The width class of a measured width (R144). -/
def classOf (width : Nat) : PulseClass :=
  if 5 ≤ width ∧ width ≤ 11 then .w1
  else if 13 ≤ width ∧ width ≤ 19 then .w2
  else if 21 ≤ width ∧ width ≤ 27 then .w3
  else if 29 ≤ width ∧ width ≤ 35 then .w4
  else if 37 ≤ width ∧ width ≤ 43 then .w5
  else if 45 ≤ width ∧ width ≤ 51 then .w6
  else if 61 ≤ width ∧ width ≤ 67 then .w8
  else .unclassified

/-- The class of the answer a pulse gives in the answer window (R45). -/
def answerClassOf : PulseClass → AnswerClass
  | .w2 => .accept
  | .w3 => .duplicate
  | .w5 => .refused
  | _ => .unclassified

/-- The pulse class of a driven answer (Table 3.1). -/
def AnswerKind.pulse : AnswerKind → PulseClass
  | .accept => .w2
  | .duplicate => .w3
  | .refused => .w5

/-- The driven width of an answer in positions: 2, 3 or 5 q (R51). -/
def AnswerKind.width : AnswerKind → Nat
  | .accept => 16
  | .duplicate => 24
  | .refused => 40

/-! ### Symbols (R122) -/

/-- The value a pulse class decodes to, for W1..W4 (R122). -/
def symOf : PulseClass → Option Sym
  | .w1 => some 0#2
  | .w2 => some 1#2
  | .w3 => some 2#2
  | .w4 => some 3#2
  | _ => none

/-- The class of the pulse that carries a value (R122). -/
def pulseOf (v : Sym) : PulseClass :=
  if v = 0#2 then .w1 else if v = 1#2 then .w2 else if v = 2#2 then .w3 else .w4

/-- The width a value is driven at: (v + 1) q (R106, R112). -/
def symWidth (v : Sym) : Nat := (v.toNat + 1) * 8

/-- The first `n` symbols' worth of the low `2n` bits of `x`, more significant pair first (R122). -/
def symsOf {w : Nat} : Nat → BitVec w → List Sym
  | 0, _ => []
  | n + 1, x => x.extractLsb' (2 * n) 2 :: symsOf n x

/-- A register that takes two bits at its least significant end. -/
def shiftIn {w : Nat} (x : BitVec w) (v : Sym) : BitVec w := (x <<< 2) ||| v.setWidth w

/-! ### The check (R124) -/

/-- The check register's preset, all ones. -/
def crcPreset : Half := 0xFFFF#16

/-- One covered bit (R124, step 2): shift, and combine with bits 12, 5 and 0 if the compared bits differed. -/
def crcBit (reg : Half) (bit : Bool) : Half :=
  if reg.msb = bit then reg <<< 1 else (reg <<< 1) ^^^ 0x1021#16

/-- Two covered bits, the more significant first (R125). -/
def crcSym (reg : Half) (v : Sym) : Half := crcBit (crcBit reg v.msb) (v.getLsbD 0)

/-- The register after a list of symbols. -/
def crcSyms (reg : Half) (vs : List Sym) : Half := vs.foldl crcSym reg

/-! ### Lanes and kinds -/

/-- The lane's code in headers and records (Table 0.5). -/
def Lane.code : Lane → Nat
  | .a => 0
  | .b => 1
  | .c => 2

/-- The lane of a code 0..2; 3 is no lane (Table 7.3). -/
def laneOfCode (n : Nat) : Option Lane :=
  if n = 0 then some .a else if n = 1 then some .b else if n = 2 then some .c else none

/-- The claim priority digit of a lane (Table 0.5). -/
def Lane.digit : Lane → Nat
  | .a => 3
  | .b => 1
  | .c => 0

/-- The kind's code in the header (Table 7.3). -/
def FrameKind.code : FrameKind → Nat
  | .data => 0
  | .broadcast => 1
  | .status => 2
  | .join => 3
  | .poll => 4

/-- The kind of a code; 5, 6 and 7 are not frame kinds (Table 7.3). -/
def kindOfCode (n : Nat) : Option FrameKind :=
  if n = 0 then some .data else if n = 1 then some .broadcast else if n = 2 then some .status
  else if n = 3 then some .join else if n = 4 then some .poll else none

/-- The priority digit of a frame kind and lane (Table 4.5). -/
def priorityDigit : FrameKind → Lane → Nat
  | .data, l => l.digit
  | .broadcast, l => l.digit
  | _, _ => 2

/-- A frame kind that carries a message (Table 4.5). -/
def FrameKind.isMessage : FrameKind → Bool
  | .data => true
  | .broadcast => true
  | _ => false

/-! ### The frame header (Table 10.5) -/

/-- The raw fields of a header. -/
structure HeaderFields where
  kind : Nat
  dest : Nat
  lane : Nat
  toggle : Bool
  resync : Bool
  length : Nat
  advert : Advert
  deriving DecidableEq, Repr

/-- Reads the header layout of Table 10.5. -/
def headerFields (h : Word) : HeaderFields where
  kind := (h.extractLsb' 29 3).toNat
  dest := (h.extractLsb' 24 5).toNat
  lane := (h.extractLsb' 22 2).toNat
  toggle := h.getLsbD 21
  resync := h.getLsbD 20
  length := (h.extractLsb' 14 6).toNat
  advert :=
    { reserve :=
        { a := (h.extractLsb' 11 3).toNat
          b := (h.extractLsb' 8 3).toNat
          c := (h.extractLsb' 5 3).toNat }
      shared := (h.extractLsb' 0 5).toNat }

/-- Writes the header layout of Table 10.5. -/
def headerBits (f : HeaderFields) : Word :=
  BitVec.ofNat 3 f.kind ++ BitVec.ofNat 5 f.dest ++ BitVec.ofNat 2 f.lane ++ BitVec.ofBool f.toggle
    ++ BitVec.ofBool f.resync ++ BitVec.ofNat 6 f.length ++ BitVec.ofNat 3 f.advert.reserve.a
    ++ BitVec.ofNat 3 f.advert.reserve.b ++ BitVec.ofNat 3 f.advert.reserve.c ++ BitVec.ofNat 5 f.advert.shared

/-- The priority digit of eight claim bits (R122). -/
def claimDigit (claim : Byte) : Nat := (claim.extractLsb' 6 2).toNat

/-- The claim address of eight claim bits: 16 × high + 4 × mid + low (R122). -/
def claimAddress (claim : Byte) : Nat := (claim.extractLsb' 0 6).toNat

/-- The eight claim bits of a priority digit and an own address (R106, R122). -/
def claimBits (digit own : Nat) : Byte := BitVec.ofNat 2 digit ++ BitVec.ofNat 6 own

/-- The header requirements of Table 7.4 for a frame kind. -/
def kindRequirements (k : FrameKind) (digit addr : Nat) (f : HeaderFields) : Bool :=
  match k with
  | .data =>
    f.dest ≤ 30 && f.dest != addr && 1 ≤ f.length && f.length ≤ 32
      && (match laneOfCode f.lane with | some l => digit == l.digit | none => false)
  | .broadcast =>
    f.dest == 31 && !f.toggle && !f.resync && 1 ≤ f.length && f.length ≤ 32
      && (match laneOfCode f.lane with | some l => digit == l.digit | none => false)
  | .status => f.dest == 31 && f.lane == 0 && !f.toggle && !f.resync && f.length == 0 && digit == 2
  | .join => f.dest == 31 && f.lane == 0 && !f.toggle && !f.resync && f.length == 0 && digit == 2
  | .poll =>
    f.dest ≤ 30 && f.dest != addr && f.lane == 0 && !f.toggle && !f.resync && f.length == 0 && digit == 2

/-- The test at the 16th header symbol (R126): claim address 30 or less, a known kind, Table 7.4. -/
def headerWellFormed (claim : Byte) (h : Word) : Bool :=
  claimAddress claim ≤ 30
    && (match kindOfCode (headerFields h).kind with
        | some k => kindRequirements k (claimDigit claim) (claimAddress claim) (headerFields h)
        | none => false)

/-- The fields of a received frame, for a header that passed R126. -/
def frameOf (claim : Byte) (h : Word) (payload : List Byte) : Frame where
  kind := (kindOfCode (headerFields h).kind).getD .status
  claim := claimAddress claim
  dest := (headerFields h).dest
  lane := (laneOfCode (headerFields h).lane).getD .a
  toggle := (headerFields h).toggle
  resync := (headerFields h).resync
  advert := (headerFields h).advert
  payload := payload

/-- The header the FTX sends (R123). -/
def candidateHeader (c : Candidate) (adv : Advert) (toggle resync : Bool) : Word :=
  headerBits
    { kind := c.kind.code, dest := c.dest, lane := c.lane.code, toggle := toggle, resync := resync
      length := c.payload.length, advert := adv }

/-- The claim bits of a candidate (R106). -/
def candidateClaim (own : Nat) (c : Candidate) : Byte := claimBits (priorityDigit c.kind c.lane) own

/-- The header and payload symbols of a frame, in line order (R122). -/
def bodySyms (c : Candidate) (adv : Advert) (toggle resync : Bool) : List Sym :=
  symsOf 16 (candidateHeader c adv toggle resync) ++ c.payload.flatMap (symsOf 4)

/-- The check over the claim bits, the header and the payload (R124). -/
def frameCheck (own : Nat) (c : Candidate) (adv : Advert) (toggle resync : Bool) : Half :=
  crcSyms (crcSyms crcPreset (symsOf 4 (candidateClaim own c))) (bodySyms c adv toggle resync)

/-- Every symbol the FTX drives: header, payload, check (R112). -/
def frameSyms (own : Nat) (c : Candidate) (adv : Advert) (toggle resync : Bool) : List Sym :=
  bodySyms c adv toggle resync ++ symsOf 8 (frameCheck own c adv toggle resync)

/-! ### The profile (Table 10.8) -/

/-- Reads the SETUP operand; `none` where a check of Table 9.3 fails (R157). -/
def profileOf (address quantum reserveA reserveB reserveC retryLimit silenceLimit stepAndStore : Byte) :
    Option Profile :=
  let step := (stepAndStore.extractLsb' 0 4).toNat
  let store := (stepAndStore.extractLsb' 4 4).toNat
  if address.toNat ≤ 30 ∧ quantum.toNat ≤ 5 ∧ reserveA.toNat ≤ 7 ∧ reserveB.toNat ≤ 7 ∧ reserveC.toNat ≤ 7
      ∧ reserveA.toNat + reserveB.toNat + reserveC.toNat ≤ 12 ∧ 1 ≤ retryLimit.toNat ∧ retryLimit.toNat ≤ 8
      ∧ 8 ≤ silenceLimit.toNat ∧ 1 ≤ step ∧ step ≤ 8 ∧ store ≤ 1 then
    some
      { address := address.toNat
        quantum := quantum.toNat
        reserve := ⟨reserveA.toNat, reserveB.toNat, reserveC.toNat⟩
        retryLimit := retryLimit.toNat
        silenceLimit := silenceLimit.toNat
        advertStep := step
        broadcastStore := store == 1 }
  else none

/-! ### Codes and records of the host port (10.8) -/

/-- Result OK (Table 10.7). -/
def resOk : Byte := 0x80#8
/-- Result EMPTY. -/
def resEmpty : Byte := 0x81#8
/-- Result FULL. -/
def resFull : Byte := 0x82#8
/-- Result BAD_STATE. -/
def resBadState : Byte := 0x83#8
/-- Result BAD_PROFILE. -/
def resBadProfile : Byte := 0x84#8
/-- Result BAD_OPERAND. -/
def resBadOperand : Byte := 0x85#8
/-- Result NOT_FOUND. -/
def resNotFound : Byte := 0x86#8
/-- Result PENDING. -/
def resPending : Byte := 0x87#8
/-- Result PEER_SILENT. -/
def resPeerSilent : Byte := 0x88#8

/-- A number as one byte. -/
def byteOf (n : Nat) : Byte := BitVec.ofNat 8 n

/-- Two bytes, most significant first (10.8). -/
def bytesOf (h : Half) : List Byte := [h.extractLsb' 8 8, h.extractLsb' 0 8]

/-- Eight flags as a byte, bit 0 first. -/
def flagByte (b0 b1 b2 b3 b4 b5 b6 b7 : Bool) : Byte :=
  BitVec.ofBool b7 ++ BitVec.ofBool b6 ++ BitVec.ofBool b5 ++ BitVec.ofBool b4 ++ BitVec.ofBool b3
    ++ BitVec.ofBool b2 ++ BitVec.ofBool b1 ++ BitVec.ofBool b0

/-- Station state codes (Table 10.10). -/
def StationState.code : StationState → Nat
  | .config => 0
  | .listening => 1
  | .joining => 2
  | .active => 3
  | .lineFault => 4
  | .halted => 5

/-- Halt reason codes (Table 10.10). -/
def HaltReason.code : HaltReason → Nat
  | .none => 0
  | .addressClash => 1
  | .transmitFault => 2

/-- Return state codes: 0 for none (Table 10.10). -/
def returnCode : Option StationState → Nat
  | none => 0
  | some st => st.code

/-- Outcome codes (Table 10.9). -/
def MsgOutcome.code : MsgOutcome → Nat
  | .sent => 0
  | .failedNoAnswer => 1
  | .failedPeerSilent => 2
  | .failedHalted => 3
  | .withdrawn => 4

/-- The outcome code of a record; every DONE record has an outcome (R66). -/
def outcomeCode : Option MsgOutcome → Nat
  | none => 0
  | some o => o.code

/-- Notice kind codes (Table 10.9). -/
def NoticeKind.code : NoticeKind → Nat
  | .peerUp => 1
  | .peerLost => 2
  | .peerRestarted => 3
  | .joined => 4
  | .lineFault => 5
  | .lineRecovered => 6
  | .addressClash => 7

/-- Presence codes (Table 10.11). -/
def Presence.code : Presence → Nat
  | .unknown => 0
  | .present => 1
  | .silent => 2
  | .self => 3

/-- Poll age codes, FFh for none (Table 10.11). -/
def PollAge.code : PollAge → Nat
  | .none => 255
  | .zero => 0
  | .one => 1

/-- The cause set byte, bits 0 to 5 for causes (a) to (f) (Table 10.10). -/
def Causes.byte (x : Causes) : Byte := flagByte x.a x.b x.c x.d x.e x.f false false

/-- A byte of two per-lane flags: bits 0, 1, 2 and bits 4, 5, 6 (Table 10.11). -/
def laneFlags (low high : PerLane Bool) : Byte :=
  flagByte low.a low.b low.c false high.a high.b high.c false

/-- OUTCOME result data (Table 10.9). -/
def outcomeRecord (m : Message) : List Byte :=
  bytesOf m.tag ++ bytesOf m.loadNumber ++
    [byteOf (outcomeCode m.outcome), byteOf m.tries,
      flagByte m.duplicateNote false false false false false false false]

/-- FETCH and FETCH_BROADCAST result data (Table 10.9). -/
def deliveryRecord (source : Nat) (lane : Lane) (payload : List Byte) (arrival : Half) : List Byte :=
  [byteOf source, byteOf lane.code, byteOf payload.length] ++ payload ++ bytesOf arrival

/-- NOTICE result data: FFh where the kind carries no address (Table 10.9). -/
def noticeRecord (n : Notice) (lost : Nat) : List Byte :=
  [byteOf n.kind.code, byteOf (n.addr.getD 255), byteOf lost]

/-- COUNTERS result data, in the order of Table 10.4. -/
def counterRecord (x : Counters) : List Byte :=
  bytesOf x.framesSent ++ bytesOf x.arbLost ++ bytesOf x.retries ++ bytesOf x.refusedReceived
    ++ bytesOf x.refusedIssued ++ bytesOf x.duplicatesSeen ++ bytesOf x.decodeErrors ++ bytesOf x.breaks
    ++ bytesOf x.bcastOverwritten ++ bytesOf x.staleEvents

/-- PEER result data (Table 10.11). -/
def peerRecord (r : Peer) : List Byte :=
  [byteOf r.presence.code, flagByte r.stale false false false false false false false,
    byteOf r.view.reserve.a, byteOf r.view.reserve.b, byteOf r.view.reserve.c, byteOf r.view.shared, byteOf r.age,
    laneFlags r.txToggle r.resyncPending, laneFlags r.rxExpected r.resyncHeld, byteOf r.pollAge.code]

end Sys2Proof.Machine
end

