-- ==== Sys2Proof/Machine/Ops.lean ====
section
/-! DEFINITION. The named operations over the state: one update per block, lanes, peer records, message moves, and the
credit rule that the pool and the peer table share. -/

namespace Sys2Proof.Machine

/-! ### Updates, one per block -/

def State.setStc (s : State) (x : Stc) : State := { s with stc := x }
def State.setLfe (s : State) (x : Lfe) : State := { s with lfe := x }
def State.setFrx (s : State) (x : Frx) : State := { s with frx := x }
def State.setCtu (s : State) (x : Ctu) : State := { s with ctu := x }
def State.setFtx (s : State) (x : Ftx) : State := { s with ftx := x }
def State.setRxp (s : State) (x : Rxp) : State := { s with rxp := x }
def State.setPeers (s : State) (x : List Peer) : State := { s with peers := x }
def State.setTxs (s : State) (x : Txs) : State := { s with txs := x }
def State.setBcr (s : State) (x : Bcr) : State := { s with bcr := x }
def State.setHpt (s : State) (x : Hpt) : State := { s with hpt := x }

/-! ### Lanes -/

/-- The value for a lane. -/
def PerLane.get {α : Type} (x : PerLane α) : Lane → α
  | .a => x.a
  | .b => x.b
  | .c => x.c

/-- A new value for a lane. -/
def PerLane.set {α : Type} (x : PerLane α) (l : Lane) (v : α) : PerLane α :=
  match l with
  | .a => { x with a := v }
  | .b => { x with b := v }
  | .c => { x with c := v }

/-- A view or advertisement has room in a lane (R72). -/
def Advert.room (v : Advert) (l : Lane) : Bool := 0 < v.reserve.get l || 0 < v.shared

/-- The credit decrement that the part applies to its self-view and every observer to its view of the part: reserve
first, then shared; `none` where both are 0 (R13, R27). -/
def Advert.lend (v : Advert) (l : Lane) : Option Advert :=
  if 0 < v.reserve.get l then some { v with reserve := v.reserve.set l (v.reserve.get l - 1) }
  else if 0 < v.shared then some { v with shared := v.shared - 1 }
  else none

/-! ### The station -/

/-- The own address (Table 9.3). -/
def ownAddress (s : State) : Nat := s.stc.profile.address

/-- The states in which the FRX decodes (R128). -/
def decoding (s : State) : Bool :=
  match s.stc.station with
  | .listening => true
  | .joining => true
  | .active => true
  | _ => false

/-- The line has been released for 48 positions or more (R101, R139). -/
def quiet (s : State) : Bool := !s.lfe.active && idleGap ≤ s.lfe.count

/-! ### Peer records -/

/-- The record at an address; a reset record where there is none. -/
def peerAt (s : State) (p : Nat) : Peer := s.peers.getD p Peer.reset

/-- Changes the record at an address. -/
def updatePeer (p : Nat) (f : Peer → Peer) (s : State) : State := s.setPeers (s.peers.modify p f)

/-- Changes every peer record, the SELF record apart (R20). -/
def updatePeers (f : Peer → Peer) (s : State) : State :=
  s.setPeers (s.peers.map fun r => if r.presence = .self then r else f r)

/-- Flips the tx toggle of a lane and gives its resync pending a value (R32). -/
def Peer.flipTx (r : Peer) (l : Lane) (pending : Bool) : Peer :=
  { r with
    txToggle := r.txToggle.set l (!r.txToggle.get l)
    resyncPending := r.resyncPending.set l pending }

/-- All sequence state at 0 and clear, as a JOIN leaves it (R24). -/
def Peer.clearSequence (r : Peer) : Peer :=
  { r with
    txToggle := ⟨false, false, false⟩
    resyncPending := ⟨false, false, false⟩
    rxExpected := ⟨false, false, false⟩
    resyncHeld := ⟨false, false, false⟩ }

/-! ### Messages -/

/-- A unicast message (R70). -/
def Message.unicast (m : Message) : Bool := m.dest != Config.broadcastDest

/-- The IN_FLIGHT message, if there is one (R78). -/
def inFlight (s : State) : Option Message := s.txs.store.find? (fun m => m.state == .inFlight)

/-- Changes the first element that satisfies a test. -/
def updateFirst {α : Type} (p : α → Bool) (f : α → α) : List α → List α
  | [] => []
  | x :: xs => if p x then f x :: xs else x :: updateFirst p f xs

/-- A message as it stands once DONE: outcome and duplicate note written, withdraw-pending cleared (R66, R79). -/
def Message.finish (m : Message) (o : MsgOutcome) (note : Bool) : Message :=
  { m with state := .done, outcome := some o, duplicateNote := note, withdrawPending := false }

/-- The move to DONE of the first store record that satisfies a test: it leaves the store order and its lane queue
and joins the back of the outcome list, in one step (R66, R69). -/
def moveToDone (p : Message → Bool) (f : Message → Message) (s : State) : State :=
  match s.txs.store.find? p with
  | none => s
  | some m =>
    s.setTxs { s.txs with store := s.txs.store.eraseP p, outcomes := s.txs.outcomes ++ [f m] }

/-- The move to DONE of every store record that satisfies a test, oldest first (R84, R85). -/
def failAll (p : Message → Bool) (o : MsgOutcome) (s : State) : State :=
  s.setTxs
    { s.txs with
      store := s.txs.store.filter (fun m => !p m)
      outcomes := s.txs.outcomes ++ (s.txs.store.filter p).map (fun m => m.finish o false) }

/-- FREE message slots (R66). -/
def freeSlots (s : State) : Nat :=
  Config.transmitSlots - (s.txs.store.length + s.txs.outcomes.length)

end Sys2Proof.Machine
end

