-- ==== Sys2Proof/Machine/Flags.lean ====
section
/-! DEFINITION. Counters, notices, the causes of advertisement-owed, and the part's output pins. -/

namespace Sys2Proof.Machine

/-- One increment of a 16-bit counter, which stays at 65535 (R178). -/
def bump (n : Half) : Half := if n = 0xFFFF#16 then n else n + 1#16

/-- One increment of the named counter (R178). -/
def Counters.add (x : Counters) : Counter → Counters
  | .framesSent => { x with framesSent := bump x.framesSent }
  | .arbLost => { x with arbLost := bump x.arbLost }
  | .retries => { x with retries := bump x.retries }
  | .refusedReceived => { x with refusedReceived := bump x.refusedReceived }
  | .refusedIssued => { x with refusedIssued := bump x.refusedIssued }
  | .duplicatesSeen => { x with duplicatesSeen := bump x.duplicatesSeen }
  | .decodeErrors => { x with decodeErrors := bump x.decodeErrors }
  | .breaks => { x with breaks := bump x.breaks }
  | .bcastOverwritten => { x with bcastOverwritten := bump x.bcastOverwritten }
  | .staleEvents => { x with staleEvents := bump x.staleEvents }

/-- The value of the named counter. -/
def Counters.get (x : Counters) : Counter → Half
  | .framesSent => x.framesSent
  | .arbLost => x.arbLost
  | .retries => x.retries
  | .refusedReceived => x.refusedReceived
  | .refusedIssued => x.refusedIssued
  | .duplicatesSeen => x.duplicatesSeen
  | .decodeErrors => x.decodeErrors
  | .breaks => x.breaks
  | .bcastOverwritten => x.bcastOverwritten
  | .staleEvents => x.staleEvents

/-- Raises a counter (R178). -/
def raise (k : Counter) (s : State) : State := s.setHpt { s.hpt with counters := s.hpt.counters.add k }

/-- Posts a notice, or drops and counts it when the queue holds 8 (R176). -/
def postNotice (k : NoticeKind) (addr : Option Nat) (s : State) : State :=
  if s.hpt.notices.length < Config.noticeSize then
    s.setHpt { s.hpt with notices := s.hpt.notices ++ [⟨k, addr⟩] }
  else s.setHpt { s.hpt with noticesLost := min 255 (s.hpt.noticesLost + 1) }

/-- A cause joins the set (R15). -/
def Causes.insert (x : Causes) : Cause → Causes
  | .a => { x with a := true }
  | .b => { x with b := true }
  | .c => { x with c := true }
  | .d => { x with d := true }
  | .e => { x with e := true }
  | .f => { x with f := true }

/-- The set holds at least one cause. -/
def Causes.any (x : Causes) : Bool := x.a || x.b || x.c || x.d || x.e || x.f

/-- A cause arises: it joins the cause set and the flag is set (R15). -/
def addCause (k : Cause) (s : State) : State :=
  s.setRxp { s.rxp with owed := true, causes := s.rxp.causes.insert k }

/-! ### Output pins -/

/-- LINE_TX pulls the line active exactly while the CTU or the FTX is driving (R153). -/
def lineTx (s : State) : Bool := s.ctu.drive.phase == .driving || s.ftx.drive.phase == .driving

/-- ATTN is held active while one of the five conditions holds (R174). -/
def attnActive (s : State) : Bool :=
  !s.txs.outcomes.isEmpty || !s.rxp.queue.isEmpty || !s.bcr.ring.isEmpty || !s.hpt.notices.isEmpty
    || s.stc.station == .lineFault || s.stc.station == .halted

/-- The byte on HOST_DOUT at the next clock: high impedance while HOST_SEL is high or RST low, the next result
byte in a result, 00h otherwise (R169, R170). With HOST_SEL held low across a hard reset and RST high again there is no
transaction: that the pin then carries 00h is a DESIGN CHOICE (log entry 26). -/
def hostDout (s : State) : Option Byte :=
  if !s.hostSelLow || s.rstLow then none
  else match s.hpt.txn with
    | .result => some (s.hpt.result.headD 0x00#8)
    | _ => some 0x00#8

end Sys2Proof.Machine
end

