-- ==== Sys2Proof/Machine/Pool.lean ====
section
/-! DEFINITION. The Receive Pool and the Broadcast Ring: accounting, advertisement, delivery (01, 05). -/

namespace Sys2Proof.Machine

/-! ### Accounting (R1) -/

/-- U_L: the records of lane L charged to its reserve. -/
def usedReserve (s : State) (l : Lane) : Nat :=
  s.rxp.queue.countP (fun r => r.lane == l && r.charge == .reserve)

/-- U_S: the records charged to the shared region. -/
def usedShared (s : State) : Nat := s.rxp.queue.countP (fun r => r.charge == .shared)

/-- S = 24 − (R_A + R_B + R_C). -/
def sharedSize (s : State) : Nat :=
  Config.poolSlots - (s.stc.profile.reserve.a + s.stc.profile.reserve.b + s.stc.profile.reserve.c)

/-- F_L = R_L − U_L. -/
def freeReserve (s : State) (l : Lane) : Nat := s.stc.profile.reserve.get l - usedReserve s l

/-- F_S = S − U_S. -/
def freeShared (s : State) : Nat := sharedSize s - usedShared s

/-- The advertisement of the pool at this moment (R8). -/
def freeCounts (s : State) : Advert :=
  ⟨⟨freeReserve s .a, freeReserve s .b, freeReserve s .c⟩, freeShared s⟩

/-- The space report for a new frame of a lane (R4). -/
def hasSpace (s : State) (l : Lane) : Bool := 0 < freeReserve s l || 0 < freeShared s

/-! ### Unadvertised credit and causes (a), (b) -/

/-- Unadvertised credit: free counts less the self-view, summed (R14). -/
def unadvertised (s : State) : Int :=
  ((freeReserve s .a : Int) - s.rxp.selfView.reserve.a) + ((freeReserve s .b : Int) - s.rxp.selfView.reserve.b)
    + ((freeReserve s .c : Int) - s.rxp.selfView.reserve.c) + ((freeShared s : Int) - s.rxp.selfView.shared)

/-- Condition (a): unadvertised credit is at least the advert step (R16). -/
def conditionA (s : State) : Bool := (s.stc.profile.advertStep : Int) ≤ unadvertised s

/-- A lane the line believes shut although it has room (R16). -/
def laneShutOut (s : State) (l : Lane) : Bool :=
  s.rxp.selfView.reserve.get l + s.rxp.selfView.shared == 0 && 0 < freeReserve s l + freeShared s

/-- Condition (b), for at least one lane (R16). -/
def conditionB (s : State) : Bool := laneShutOut s .a || laneShutOut s .b || laneShutOut s .c

/-- The evaluation of conditions (a) and (b) (R16). -/
def evalCauses (s : State) : State :=
  let s1 := if conditionA s then addCause .a s else s
  if conditionB s then addCause .b s1 else s1

/-! ### Allocation and freeing -/

/-- The charge of an accepted frame: reserve before shared (R5, step 1). -/
def chargeFor (s : State) (l : Lane) : Charge := if 0 < freeReserve s l then .reserve else .shared

/-- ACCEPT: charge, store, decrement the self-view, evaluate (R5, R3, R13). -/
def storeRecord (fr : Frame) (s : State) : State :=
  evalCauses (s.setRxp
    { s.rxp with
      queue := s.rxp.queue ++
        [{ source := fr.claim, lane := fr.lane, payload := fr.payload, arrival := s.rxp.arrivals,
           charge := chargeFor s fr.lane }]
      arrivals := s.rxp.arrivals + 1#16
      selfView := (s.rxp.selfView.lend fr.lane).getD s.rxp.selfView })

/-- The lane FETCH takes from: the highest with a record (R89). -/
def fetchLane (s : State) : Option Lane :=
  if s.rxp.queue.any (fun r => r.lane == .a) then some .a
  else if s.rxp.queue.any (fun r => r.lane == .b) then some .b
  else if s.rxp.queue.any (fun r => r.lane == .c) then some .c
  else none

/-- The record FETCH takes: the oldest of that lane (R89). -/
def fetchRecord (s : State) : Option PoolRecord :=
  (fetchLane s).bind fun l => s.rxp.queue.find? (fun r => r.lane == l)

/-- Removes the oldest record of a lane and evaluates (R7). The slot returns to the region it was charged to
because the used counts are counted from the records. -/
def freeRecord (l : Lane) (s : State) : State :=
  evalCauses (s.setRxp { s.rxp with queue := s.rxp.queue.eraseP (fun r => r.lane == l) })

/-! ### Completion (R10) -/

/-- The pool's part of a completion: self-view from the captured advertisement, flag and causes cleared, then an
evaluation (R10, steps 1 to 3). -/
def completeAdvert (adv : Advert) (s : State) : State :=
  evalCauses (s.setRxp { s.rxp with selfView := adv, owed := false, causes := Causes.empty })

/-! ### The Broadcast Ring (R93 to R96) -/

/-- Stores a broadcast at the back, after removing the oldest of a full ring (R94, R95). -/
def storeBroadcast (fr : Frame) (s : State) : State :=
  let full := Config.ringSize ≤ s.bcr.ring.length
  let s1 := if full then raise .bcastOverwritten s else s
  s1.setBcr
    { ring := (if full then s.bcr.ring.tail else s.bcr.ring) ++
        [{ source := fr.claim, lane := fr.lane, payload := fr.payload, arrival := s.bcr.arrivals }]
      arrivals := s.bcr.arrivals + 1#16 }

end Sys2Proof.Machine
end

