-- ==== Sys2Proof/Machine/Peers.lean ====
section
/-! DEFINITION. The Peer Table: what frames, answers, verdicts and span expiries do to the records (02). -/

namespace Sys2Proof.Machine

/-! ### Learning from frames (R22 to R25) -/

/-- A valid frame of a peer on its record (R22); a JOIN also clears the sequence state (R24). -/
def Peer.hear (r : Peer) (fr : Frame) : Peer :=
  let r1 := { r with view := fr.advert, stale := false, age := 0, pollAge := .none, presence := .present }
  if fr.kind = .join then r1.clearSequence else r1

/-- The notice a valid frame posts, by the presence before it (R22, R24). -/
def hearNotice (was : Presence) (kind : FrameKind) : Option NoticeKind :=
  match was with
  | .unknown => some .peerUp
  | .silent => some .peerUp
  | .present => if kind = .join then some .peerRestarted else none
  | .self => none

/-- A valid frame whose claim address is a peer (R22, R24). -/
def hearFrame (fr : Frame) (s : State) : State :=
  let s1 := updatePeer fr.claim (fun r => r.hear fr) s
  match hearNotice (peerAt s fr.claim).presence fr.kind with
  | some k => postNotice k (some fr.claim) s1
  | none => s1

/-! ### Learning from answers (R26 to R30) -/

/-- The answer leaves a mark that counts in STALE_EVENTS if the view was fresh. -/
def staleMark (r : Peer) (l : Lane) : AnswerClass → Bool
  | .accept => (r.view.lend l).isNone
  | .refused => true
  | .unclassified => true
  | .duplicate => false
  | .none => false

/-- An answer event on the destination's record (R27 to R30). -/
def Peer.answered (r : Peer) (l : Lane) (cls : AnswerClass) : Peer :=
  match cls with
  | .accept =>
    match r.view.lend l with
    | some v => { r with view := v, age := 0 }
    | none => { r with stale := true, age := 0 }
  | .duplicate => { r with age := 0 }
  | .refused => { r with stale := true, age := 0 }
  | .unclassified => { r with stale := true }
  | .none => r

/-- An answer event for a frame to a peer, with STALE_EVENTS (R26 to R30). -/
def observeAnswer (dest : Nat) (l : Lane) (cls : AnswerClass) (s : State) : State :=
  let r := peerAt s dest
  let s1 := updatePeer dest (fun r => r.answered l cls) s
  if staleMark r l cls && !r.stale then raise .staleEvents s1 else s1

/-- Every peer view stale (R31, R41). -/
def markAllStale (s : State) : State := updatePeers (fun r => { r with stale := true }) s

/-! ### Silence (R35 to R37, R84) -/

/-- A QUEUED unicast message to a peer. -/
def queuedTo (p : Nat) (m : Message) : Bool := m.state == .queued && m.dest == p && m.unicast

/-- The sequence changes of the failures silence causes: a flip and resync pending for each failed message with a
try (R34, R84). -/
def Peer.failedMessages (r : Peer) (ms : List Message) : Peer :=
  ms.foldl (fun r m => if 0 < m.tries then r.flipTx m.lane true else r) r

/-- A peer is taken to silence (R36): record, failures in store order, then the notice for a PRESENT peer. -/
def takeSilence (p : Nat) (s : State) : State :=
  let was := (peerAt s p).presence
  let failed := s.txs.store.filter (queuedTo p)
  let s1 := updatePeer p
    (fun r => ({ r with presence := .silent, view := Advert.zero, stale := true, pollAge := .none } : Peer).failedMessages
      failed) s
  let s2 := failAll (queuedTo p) .failedPeerSilent s1
  if was = .present then postNotice .peerLost (some p) s2 else s2

/-- A silence expiry is due for a peer: it is not SILENT, its age has reached the limit, and no message to it is
IN_FLIGHT to hold it (R36, R37). -/
def silenceDue (s : State) (p : Nat) : Bool :=
  p < Config.stations
    && ((peerAt s p).presence == .unknown || (peerAt s p).presence == .present)
    && s.stc.profile.silenceLimit ≤ (peerAt s p).age
    && !s.txs.store.any (fun m => m.state == .inFlight && m.dest == p)

/-- Takes a due silence expiry, or drops it (R37). -/
def settleSilence (p : Nat) (s : State) : State := if silenceDue s p then takeSilence p s else s

/-- A span expiry on a record: age and poll age (R35). -/
def Peer.expire (r : Peer) : Peer :=
  { r with
    age := if r.presence = .silent then r.age else min 255 (r.age + 1)
    pollAge := if r.pollAge = .zero then .one else r.pollAge }

/-- A span expiry on the table: all records age together, then silence in ascending address order (R35, R36, R84). -/
def expirePeers (s : State) : State :=
  (List.range Config.stations).foldl (fun s p => settleSilence p s) (updatePeers Peer.expire s)

/-! ### Polling (R39, R40) -/

/-- A POLL to a peer is owed (R40). -/
def pollOwed (s : State) (p : Nat) : Bool :=
  (peerAt s p).presence == .present && (peerAt s p).stale && (peerAt s p).pollAge != .zero
    && s.txs.store.any (queuedTo p)

end Sys2Proof.Machine
end

