-- ==== Sys2Proof/Machine/Store.lean ====
section
/-! DEFINITION. The Transmit Store and the Frame Selector: eligibility, naming, the lock, and the resolution of the
IN_FLIGHT message (03, 04). -/

namespace Sys2Proof.Machine

/-! ### Eligibility and naming (R72 to R77) -/

/-- A message may be sent (R72): QUEUED, and a broadcast or to a PRESENT peer with a fresh view that has room. -/
def eligible (s : State) (m : Message) : Bool :=
  m.state == .queued
    && (!m.unicast
      || ((peerAt s m.dest).presence == .present && !(peerAt s m.dest).stale
        && (peerAt s m.dest).view.room m.lane))

/-- An eligible message of a lane. -/
def pickable (s : State) (l : Lane) (m : Message) : Bool := m.lane == l && eligible s m

/-- The candidate of a message (Table 4.5). -/
def Message.candidate (m : Message) : Candidate :=
  { kind := if m.unicast then .data else .broadcast, dest := m.dest, lane := m.lane, payload := m.payload }

/-- The oldest eligible message of a lane as a candidate (R73). -/
def laneCandidate (s : State) (l : Lane) : Option Candidate :=
  (s.txs.store.find? (pickable s l)).map Message.candidate

/-- A JOIN, STATUS or POLL as a candidate (Table 4.5). -/
def controlCandidate (kind : FrameKind) (dest : Nat) : Candidate :=
  { kind := kind, dest := dest, lane := .a, payload := [] }

/-- Digit 2 in ACTIVE: STATUS if owed, else the POLL to the lowest address owed one (R75). -/
def controlNamed (s : State) : Option Candidate :=
  if s.rxp.owed then some (controlCandidate .status Config.broadcastDest)
  else ((List.range Config.stations).find? (pollOwed s)).map (controlCandidate .poll)

/-- The Frame Selector's naming (R74, R76): digits 3, 2, 1, 0 in ACTIVE; the JOIN alone in JOINING. -/
def name (s : State) : Option Candidate :=
  match s.stc.station with
  | .active =>
    (laneCandidate s .a).or ((controlNamed s).or
      (if s.ctu.roundSpent then none else (laneCandidate s .b).or (laneCandidate s .c)))
  | .joining => some (controlCandidate .join Config.broadcastDest)
  | _ => none

/-- The lock's effect on the store: the named message becomes IN_FLIGHT (R78). -/
def lockMessage (c : Candidate) (s : State) : State :=
  if c.kind.isMessage then
    s.setTxs { s.txs with store := updateFirst (pickable s c.lane) (fun m => { m with state := .inFlight }) s.txs.store }
  else s

/-! ### Resolution (R54 to R60, R64, R107, R109) -/

/-- How an attempt with a message ends (Table 3.4): answered ACCEPT or DUPLICATE or a broadcast completed; answered
REFUSED; released by a lost claim or a drive fault; a consumed try. -/
inductive Resolution where
  | sent (duplicate : Bool)
  | refused
  | released
  | tried
  deriving DecidableEq, Repr

/-- The slot state test of the IN_FLIGHT message. -/
def isInFlight (m : Message) : Bool := m.state == .inFlight

/-- Flips the tx toggle toward a unicast message's destination (R54, R57); a broadcast has none (R60). -/
def flipFor (m : Message) (pending : Bool) (s : State) : State :=
  if m.unicast then updatePeer m.dest (fun r => r.flipTx m.lane pending) s else s

/-- Back to QUEUED in its place, or to DONE with WITHDRAWN when withdraw-pending is set (R64, R68, R79). -/
def returnMessage (m : Message) (tries : Nat) (s : State) : State :=
  if m.withdrawPending then
    moveToDone isInFlight (fun m => ({ m with tries := tries } : Message).finish .withdrawn false) s
  else
    s.setTxs
      { s.txs with
        store := updateFirst isInFlight (fun m => { m with state := .queued, tries := tries }) s.txs.store }

/-- Table 3.4 and the table of R64 on the message, its counters and its destination's sequence fields. -/
def resolveMessage (r : Resolution) (m : Message) (s : State) : State :=
  match r with
  | .sent dup => flipFor m false (moveToDone isInFlight (fun m => m.finish .sent dup) s)
  | .refused => returnMessage m m.tries (raise .refusedReceived s)
  | .released => returnMessage m m.tries s
  | .tried =>
    if s.stc.profile.retryLimit ≤ m.tries + 1 then
      flipFor m true
        (moveToDone isInFlight
          (fun m => ({ m with tries := m.tries + 1 } : Message).finish
            (if m.withdrawPending then .withdrawn else .failedNoAnswer) false)
          (raise .retries s))
    else returnMessage m (m.tries + 1) (raise .retries s)

/-- Resolves the IN_FLIGHT message, if there is one, and then takes or drops the silence expiry it held (R37, R79). -/
def resolve (r : Resolution) (s : State) : State :=
  match inFlight s with
  | none => s
  | some m => settleSilence m.dest (resolveMessage r m s)

end Sys2Proof.Machine
end

