-- ==== Sys2Proof/Machine/Contend.lean ====
section
/-! DEFINITION. Entries to HALTED and LINE_FAULT, and the Contention Unit: opportunities, the contest, its ends
(06, 09). -/

namespace Sys2Proof.Machine

/-! ### Turning the line blocks off -/

/-- The CTU released and OFF, round-spent kept (R101, R111). -/
def ctuOff (x : Ctu) : Ctu := { Ctu.reset with roundSpent := x.roundSpent }

/-- The FTX released and IDLE with nothing captured, the fault count kept (R11, R51, R115). -/
def ftxIdle (x : Ftx) : Ftx := { Ftx.reset with faultCount := x.faultCount }

/-- Every live message fails on entry to HALTED, oldest first. All of them are QUEUED there: the halting event has
resolved an IN_FLIGHT one (R59, R85). -/
def haltFailures (s : State) : State := failAll (fun _ => true) .failedHalted s

/-- Entry to HALTED (R162): the line released, CTU OFF, FRX off, LFE at its reset values, the timebase stopped, and
the messages still queued failed. -/
def halt (why : HaltReason) (s : State) : State :=
  haltFailures
    { s with
      stc := { s.stc with station := .halted, haltReason := why, spanRunning := false, spanCount := 0 }
      ctu := ctuOff s.ctu
      ftx := ftxIdle s.ftx
      frx := Frx.reset
      lfe := Lfe.reset }

/-- A readback fault is counted (R115). -/
def recordFault (s : State) : State :=
  s.setFtx { s.ftx with faultCount := min faultLimit (s.ftx.faultCount + 1) }

/-- The halt of a count that has come to 4 (R115). -/
def haltIfFaulty (s : State) : State :=
  if faultLimit ≤ s.ftx.faultCount then halt .transmitFault s else s

/-- Entry to LINE_FAULT (R149): return state, notice, drives cut off, an IN_FLIGHT message resolved as a consumed try
(R58), FRX off without a verdict, every view stale. An answer of the part's own that has gone stuck was read back long before
(R148, `ftxEarly`). -/
def enterLineFault (s : State) : State :=
  let s1 := s.setStc
    { s.stc with station := .lineFault, returnState := some s.stc.station, frameHeard := false }
  let s2 := postNotice .lineFault none s1
  let s3 : State := { s2 with ctu := ctuOff s2.ctu, ftx := ftxIdle s2.ftx, frx := Frx.reset }
  markAllStale (resolve .tried s3)

/-! ### Opportunities (R102, R103) -/

/-- The CTU starts a LEAD on an idle line with a locked candidate (R102). -/
def startLead (c : Candidate) (s : State) : State :=
  (lockMessage c s).setCtu
    { s.ctu with state := .lead, idleSeen := false, locked := some c, joined := false, drive := ⟨.driving, 0, none⟩ }

/-- The CTU joins a LEAD, timed from the edge just recognised (R103). -/
def joinLead (c : Candidate) (s : State) : State :=
  (lockMessage c s).setCtu
    { s.ctu with
      state := .lead, idleSeen := false, locked := some c, joined := true
      drive := ⟨.driving, 0, some recognitionLag⟩ }

/-- A naming moment: in WAITING with idle seen set and the line released, a named candidate starts a LEAD (R102). -/
def nameMoment (s : State) : State :=
  if s.ctu.state = .waiting ∧ s.ctu.idleSeen ∧ ¬ s.lfe.active then
    match name s with
    | some c => startLead c s
    | none => s
  else s

/-- A change in the peer table has made a message eligible or a POLL owed (R102). -/
def newlySendable (before after : State) : Bool :=
  after.txs.store.any (fun m => eligible after m && !eligible before m)
    || (List.range Config.stations).any (fun p => pollOwed after p && !pollOwed before p)

/-- The naming moments of a change: advertisement-owed has been set, or the peer table has made something sendable
(R102). -/
def nameOnChange (before after : State) : State :=
  if (after.rxp.owed && !before.rxp.owed) || newlySendable before after then nameMoment after else after

/-- The CTU enters WAITING from OFF: idle seen at once if the line has been released for 48 positions (R101). -/
def ctuEnterWaiting (s : State) : State :=
  s.setCtu { s.ctu with state := .waiting, idleSeen := quiet s, locked := none, drive := Drive.none }

/-- LISTENING ends: the station enters JOINING and the CTU WAITING, which is a naming moment (R159, R160). -/
def enterJoining (s : State) : State :=
  nameMoment (ctuEnterWaiting (s.setStc { s.stc with station := .joining, frameHeard := false }))

/-! ### Ends of an attempt (R104, R107, R109) -/

/-- The attempt ends while the station is JOINING or ACTIVE: WAITING with idle seen clear, no candidate (R104). -/
def attemptEnd (s : State) : State :=
  s.setCtu { s.ctu with state := .waiting, idleSeen := false, locked := none, drive := Drive.none }

/-- A lost LEAD or claim (R107). -/
def claimLost (s : State) : State :=
  resolve .released
    (raise .arbLost (s.setCtu { s.ctu with state := .lost, locked := none, drive := Drive.none }))

/-- The priority digit of the locked candidate (R106). -/
def lockedDigit (s : State) : Nat :=
  match s.ctu.locked with
  | some c => priorityDigit c.kind c.lane
  | none => 0

/-- The value of the claim digit at the digit index: the priority digit, then the own address's high, mid and low
digits (R106). -/
def claimDigitValue (s : State) : Nat :=
  if s.ctu.digitIndex = 0 then lockedDigit s
  else if s.ctu.digitIndex = 1 then ownAddress s / 16
  else if s.ctu.digitIndex = 2 then ownAddress s / 4 % 4
  else ownAddress s % 4

/-- A won claim (R108): WON, round-spent for digits 0 and 1, the candidate handed to the FTX. -/
def claimWon (s : State) : State :=
  { s with
    ctu := { s.ctu with state := .won, drive := Drive.none, roundSpent := s.ctu.roundSpent || lockedDigit s ≤ 1 }
    ftx := { ftxIdle s.ftx with state := .header } }

/-- A drive fault in the LEAD or the claim (R109): WAITING with idle seen set only after a started LEAD, the fault
counted, the candidate released without ARB_LOST; then the halt of R115 or a naming. R109 calls the entry to WAITING the
naming moment and lists the count and the release after it: that the naming comes last, after a held silence expiry and
the halt, so that the released message may be named again at once, is a DESIGN CHOICE (log entry 25). -/
def driveFault (s : State) : State :=
  let lead := s.ctu.state = .lead
  let s1 := s.setCtu { s.ctu with state := .waiting, idleSeen := lead, locked := none, drive := Drive.none }
  nameMoment (haltIfFaulty (resolve .released (recordFault s1)))

end Sys2Proof.Machine
end

