-- ==== Sys2Proof/Machine/Transmit.lean ====
section
/-! DEFINITION. The Frame Transmitter and the Answer Unit's side of it: symbols, readback, completion, abort, the
answer pulse, and the resolution of answer events (03, 06). -/

namespace Sys2Proof.Machine

/-! ### What the FTX drives (R112) -/

/-- The states in which the FTX drives a frame. -/
def TxState.inFrame : TxState → Bool
  | .header => true
  | .payload => true
  | .check => true
  | .endPulse => true
  | _ => false

/-- The symbols of the frame being sent: the locked candidate, the captured advertisement, the toggle and resync
read at the first header symbol (R112, R123). -/
def txSyms (s : State) : List Sym :=
  match s.ctu.locked with
  | some c => frameSyms (ownAddress s) c (s.ftx.captured.getD Advert.zero) s.ftx.toggle s.ftx.resync
  | none => []

/-- The value of the symbol at the symbol index. -/
def txSym (s : State) : Sym := (txSyms s).getD s.ftx.symbolIndex 0#2

/-- The class of the pulse being driven (R113). -/
def txClass (s : State) : PulseClass := if s.ftx.state = .endPulse then .w6 else pulseOf (txSym s)

/-- The width of the pulse being driven (R112). -/
def txWidth (s : State) : Nat := if s.ftx.state = .endPulse then endWidth else symWidth (txSym s)

/-- Payload bytes of the locked candidate. -/
def lockedLength (s : State) : Nat :=
  match s.ctu.locked with
  | some c => c.payload.length
  | none => 0

/-- The FTX state for a symbol index: 16 header symbols, 4 for each payload byte, 8 check symbols, then the END
(R112). -/
def txStateAt (n index : Nat) : TxState :=
  if index < 16 then .header
  else if index < 16 + 4 * n then .payload
  else if index < 24 + 4 * n then .check
  else .endPulse

/-- A symbol has been read back: the next symbol, or the END, whose index stays the last symbol's (R112). -/
def txAdvance (s : State) : State :=
  let next := txStateAt (lockedLength s) (s.ftx.symbolIndex + 1)
  s.setFtx
    { s.ftx with
      state := next
      symbolIndex := if next = .endPulse then s.ftx.symbolIndex else s.ftx.symbolIndex + 1
      drive := Drive.none }

/-- The toggle and resync of a DATA frame, read from the destination's record; 0 for every other kind (R32, R123). -/
def readSequence (s : State) : Bool × Bool :=
  match s.ctu.locked with
  | some c =>
    if c.kind = .data then
      ((peerAt s c.dest).txToggle.get c.lane, (peerAt s c.dest).resyncPending.get c.lane)
    else (false, false)
  | none => (false, false)

/-- The FTX begins a pulse; at the first header symbol it captures the advertisement and reads the sequence fields
(R9, R32, R112). -/
def beginSymbol (s : State) : State :=
  let drive : Drive := ⟨.driving, 0, s.ftx.drive.edgeAge⟩
  if s.ftx.state = .header ∧ s.ftx.symbolIndex = 0 then
    s.setFtx
      { s.ftx with
        captured := some (freeCounts s)
        toggle := (readSequence s).1
        resync := (readSequence s).2
        drive := drive }
  else s.setFtx { s.ftx with drive := drive }

/-! ### Abort and completion -/

/-- A readback mismatch aborts the frame (R114): released, captured values discarded, the fault counted, a try of the
message consumed, the CTU back in WAITING; the halt of R115 follows. -/
def abortFrame (s : State) : State :=
  haltIfFaulty (resolve .tried (attemptEnd (recordFault (s.setFtx (ftxIdle s.ftx)))))

/-- The completion's effect that depends on the kind (R39, R60, R160). -/
def completeKind (c : Candidate) (s : State) : State :=
  match c.kind with
  | .poll => updatePeer c.dest (fun r => { r with pollAge := .zero }) s
  | .join =>
    if s.stc.station = .joining then postNotice .joined none (s.setStc { s.stc with station := .active }) else s
  | .broadcast => resolve (.sent false) s
  | _ => s

/-- The counts of a completion: heartbeat age and fault count to 0, FRAMES_SENT raised (R10, R165, R115). -/
def completeCounts (s : State) : State :=
  raise .framesSent
    ((s.setStc { s.stc with heartbeat := 0 }).setFtx { s.ftx with faultCount := 0 })

/-- The part's frame completes at its END's falling edge (R10). After a DATA frame the FTX awaits the answer and the
attempt goes on (R53); after any other kind it is IDLE and the attempt ends (R104, R112). R138 says that the part's own FRX
finds a completed frame valid. Where it does not (a LEAD or a claim digit, which R113 does not read back, was broken or cut
short on the line), no window opens and the spec names no end of AWAIT_ANSWER: that the message then stays IN_FLIGHT and the
CTU in WON until LINE_STUCK, a halt or a reset is a DESIGN CHOICE (log entry 29). -/
def completeFrame (s : State) : State :=
  let s1 := completeCounts (completeAdvert (s.ftx.captured.getD s.rxp.selfView) s)
  match s1.ctu.locked with
  | some c =>
    let s2 := completeKind c s1
    if c.kind = .data then s2.setFtx { ftxIdle s2.ftx with state := .awaitAnswer }
    else attemptEnd (s2.setFtx (ftxIdle s2.ftx))
  | none => attemptEnd (s1.setFtx (ftxIdle s1.ftx))

/-! ### The answer pulse (R51, R52) -/

/-- The ANU hands a decided answer to the FTX, which leaves IDLE for ANSWERING (R51). -/
def startAnswer (k : AnswerKind) (s : State) : State :=
  s.setFtx { ftxIdle s.ftx with state := .answering, answer := some k }

/-- A mismatch of the answer pulse: released, IDLE, the fault counted; the halt of R115 follows (R52). -/
def answerMismatch (s : State) : State := haltIfFaulty (recordFault (s.setFtx (ftxIdle s.ftx)))

/-! ### Readback at the edges (R113, R52)

The FTX reads back the pulses it drives. A pulse that ends before the FTX has begun its own is none of them: its edge is
forgotten, and the symbol or the answer is still to be begun (log entry 18). -/

/-- The FTX stands before a pulse of its frame or before its answer, which it has not begun to drive. -/
def beforeDrive (s : State) : Bool :=
  s.ftx.drive.phase == .rest && (s.ftx.state.inFrame || s.ftx.state == .answering)

/-- A drive whose edge is forgotten. -/
def Drive.forgetEdge (d : Drive) : Drive := { d with edgeAge := Option.none }

/-- A rising edge at the FTX: a gap outside 5..24 is a mismatch, of a frame or of the answer; otherwise the pulse is
timed from this edge (R113, R52). -/
def ftxRise (gap : Nat) (s : State) : State :=
  if s.ftx.state.inFrame then
    if inFrameGap gap then s.setFtx { s.ftx with drive := { s.ftx.drive with edgeAge := some recognitionLag } }
    else abortFrame s
  else if s.ftx.state = .answering then
    if inFrameGap gap then s.setFtx { s.ftx with drive := { s.ftx.drive with edgeAge := some recognitionLag } }
    else answerMismatch s
  else s

/-- The FTX completes its frame at this falling edge: it has driven the END and the pulse is of class W6 (R112). -/
def completesAt (cls : PulseClass) (s : State) : Bool := s.ftx.state == .endPulse && cls == .w6 && !beforeDrive s

/-- A falling edge at the FTX: the pulse's class against the one driven (R113, R52). -/
def ftxFall (cls : PulseClass) (s : State) : State :=
  if beforeDrive s then s.setFtx { s.ftx with drive := s.ftx.drive.forgetEdge }
  else if s.ftx.state.inFrame then
    if cls = txClass s then
      if s.ftx.state = .endPulse then completeFrame s else txAdvance s
    else abortFrame s
  else match s.ftx.answer with
    | some k => if cls = k.pulse then s.setFtx (ftxIdle s.ftx) else answerMismatch s
    | none => s

/-- The early class of an answer pulse at the FTX: no answer is driven as UNCLASSIFIED, so it is a mismatch of the part's
own, which is read back as the FRX measured it (R52, R45, R148). -/
def ftxEarly (s : State) : State :=
  match s.ftx.answer with
  | some _ => if beforeDrive s then s else answerMismatch s
  | none => s

/-! ### Answer events (R26, R53 to R57) -/

/-- The resolution of the part's own DATA frame by the class of its answer event (R54 to R56). -/
def resolutionOf : AnswerClass → Resolution
  | .accept => .sent false
  | .duplicate => .sent true
  | .refused => .refused
  | .none => .tried
  | .unclassified => .tried

/-- One answer event: the destination's record if it is a peer, and the part's own message if the frame was its own
(R26, R45, R53). It alone ends AWAIT_ANSWER short of LINE_STUCK, a halt or a reset (log entry 29). -/
def answerEvent (claim dest : Nat) (l : Lane) (cls : AnswerClass) (s : State) : State :=
  let s1 := if dest = ownAddress s then s else observeAnswer dest l cls s
  if claim = ownAddress s ∧ s.ftx.state = .awaitAnswer then
    resolve (resolutionOf cls) (attemptEnd (s1.setFtx (ftxIdle s1.ftx)))
  else s1

/-! ### The receiver's decision (R46 to R50) -/

/-- The frame is new, not a repeat (Table 3.3). -/
def isNew (r : Peer) (fr : Frame) : Bool :=
  if fr.resync then !(r.resyncHeld.get fr.lane && fr.toggle != r.rxExpected.get fr.lane)
  else fr.toggle == r.rxExpected.get fr.lane

/-- ACCEPT's changes to the sender's record (R33, R49). -/
def Peer.accepted (r : Peer) (fr : Frame) : Peer :=
  { r with
    rxExpected := r.rxExpected.set fr.lane (!fr.toggle)
    resyncHeld := r.resyncHeld.set fr.lane fr.resync }

/-- The answer decision for a DATA frame addressed to the part (R46 to R50). -/
def decideAnswer (fr : Frame) (s : State) : State :=
  if isNew (peerAt s fr.claim) fr then
    if hasSpace s fr.lane then
      startAnswer .accept (updatePeer fr.claim (fun r => r.accepted fr) (storeRecord fr s))
    else startAnswer .refused (raise .refusedIssued (addCause .d s))
  else startAnswer .duplicate (raise .duplicatesSeen s)

end Sys2Proof.Machine
end

