-- ==== Sys2Proof/Machine/Receive.lean ====
section
/-! DEFINITION. The Frame Receiver: its own transitions as functions of its state, and what its events do to the
other blocks (07; 03, section 3.1). -/

namespace Sys2Proof.Machine

/-! ### The receiver alone -/

/-- What one line event makes the FRX issue: nothing; a stray pulse; a failed frame with its counter; a valid frame;
an answer event. -/
inductive RxEvent where
  | quiet
  | stray
  | failed (k : Counter)
  | valid (fr : Frame)
  | answered (claim dest : Nat) (lane : Lane) (cls : AnswerClass)
  deriving DecidableEq, Repr

/-- The pulse pair with one more pulse. -/
def PulsePair.push (p : PulsePair) (cls : PulseClass) : PulsePair := ⟨p.last, some cls⟩

/-- A failure: DISCARD with the pulse record loaded from the frame's last two pulses, the frame abandoned (R133,
R134). -/
def rxFail (recent : PulsePair) (k : Counter) : Frx × RxEvent :=
  ({ Frx.reset with state := .discard, record := .pulses recent }, .failed k)

/-- A LEAD: the frame cleared, the check register preset (R129). -/
def rxLead (f : Frx) : Frx :=
  { Frx.reset with state := .claim, crc := crcPreset, recent := ⟨none, some .w8⟩, record := f.record }

/-- A claim digit (R130). -/
def rxClaim (f : Frx) (v : Sym) : Frx :=
  { f with
    claim := shiftIn f.claim v
    crc := crcSym f.crc v
    digitIndex := f.digitIndex + 1
    symCount := 0
    state := if f.digitIndex = 3 then .header else .claim }

/-- A header symbol (R131); at the 16th the header test decides (R126). -/
def rxHeader (f : Frx) (v : Sym) : Frx × RxEvent :=
  let g := { f with header := shiftIn f.header v, crc := crcSym f.crc v, symCount := f.symCount + 1 }
  if g.symCount = 16 then
    if headerWellFormed g.claim g.header then
      if 0 < (headerFields g.header).length then ({ g with state := .payload, symCount := 0 }, .quiet)
      else ({ g with state := .check, symCount := 0 }, .quiet)
    else rxFail g.recent .decodeErrors
  else (g, .quiet)

/-- A payload symbol (R131): every fourth completes a byte, and the last one leads to CHECK. -/
def rxPayload (f : Frx) (v : Sym) : Frx × RxEvent :=
  let byte := shiftIn f.partialByte v
  let count := f.symCount + 1
  let g := { f with
    partialByte := byte, crc := crcSym f.crc v, symCount := count
    payload := if count % 4 = 0 then f.payload ++ [byte] else f.payload }
  if count = 4 * (headerFields f.header).length then ({ g with state := .check, symCount := 0 }, .quiet)
  else (g, .quiet)

/-- A check symbol (R131); at the eighth the check test decides (R125). -/
def rxCheck (f : Frx) (v : Sym) : Frx × RxEvent :=
  let g := { f with check := shiftIn f.check v, symCount := f.symCount + 1 }
  if g.symCount = 8 then
    if g.crc = g.check then ({ g with state := .endWait }, .quiet) else rxFail g.recent .decodeErrors
  else (g, .quiet)

/-- One symbol in CLAIM, HEADER, PAYLOAD or CHECK. -/
def rxSymbol (f : Frx) (v : Sym) : Frx × RxEvent :=
  match f.state with
  | .claim => (rxClaim f v, .quiet)
  | .header => rxHeader f v
  | .payload => rxPayload f v
  | .check => rxCheck f v
  | _ => (f, .quiet)

/-- The END of a frame (R132): the valid frame, and the answer window of a DATA frame. -/
def rxEnd (f : Frx) : Frx × RxEvent :=
  let fr := frameOf f.claim f.header f.payload
  if fr.kind = .data then
    ({ f with state := .answerWait, window := ⟨.waiting, fr.claim, fr.dest, fr.lane⟩ }, .valid fr)
  else ({ f with state := .idle }, .valid fr)

/-- The window closes with a class and the FRX issues the answer event (R45, R137). -/
def rxAnswer (f : Frx) (next : RxState) (phase : WindowPhase) (cls : AnswerClass) : Frx × RxEvent :=
  ({ f with state := next, window := { f.window with phase := phase } },
    .answered f.window.claim f.window.dest f.window.lane cls)

/-- A pulse event in each receive state (R129 to R134, R137). -/
def rxPulse (f : Frx) (cls : PulseClass) (gap : Nat) : Frx × RxEvent :=
  let g := { f with recent := f.recent.push cls }
  match f.state with
  | .idle => (f, .quiet)
  | .lead => if cls = .w8 then (rxLead f, .quiet) else ({ f with state := .idle }, .stray)
  | .claim | .header | .payload | .check =>
    match symOf cls with
    | some v => if inFrameGap gap then rxSymbol g v else rxFail g.recent .decodeErrors
    | none => rxFail g.recent .decodeErrors
  | .endWait => if cls = .w6 ∧ inFrameGap gap then rxEnd g else rxFail g.recent .decodeErrors
  | .answerWait =>
    match f.window.phase with
    | .inTime => rxAnswer f .idle .closed (answerClassOf cls)
    | .classed => ({ f with state := .idle, window := { f.window with phase := .closed } }, .quiet)
    | _ => (f, .quiet)
  | .discard =>
    match f.record with
    | .turnOn => (f, .quiet)
    | .pulses p => ({ f with record := .pulses (p.push cls) }, .quiet)

/-- A rising edge: it begins a pulse in IDLE, and an answer in an open window (R129, R44). -/
def rxRise (f : Frx) (gap : Nat) : Frx × RxEvent :=
  match f.state with
  | .idle => ({ f with state := .lead }, .quiet)
  | .answerWait =>
    if f.window.phase = .waiting then
      if gap < 5 then rxAnswer f .answerWait .classed .unclassified
      else if gap ≤ windowLength then ({ f with window := { f.window with phase := .inTime } }, .quiet)
      else (f, .quiet)
    else (f, .quiet)
  | _ => (f, .quiet)

/-- FRAME_GAP_BREAK: it fails a frame being received (R133). -/
def rxBreak (f : Frx) : Frx × RxEvent :=
  match f.state with
  | .claim | .header | .payload | .check | .endWait => rxFail f.recent .breaks
  | _ => (f, .quiet)

/-- The answer window closes with NONE (R44). -/
def rxWindowClose (f : Frx) : Frx × RxEvent :=
  if f.state = .answerWait ∧ f.window.phase = .waiting then rxAnswer f .idle .closed .none else (f, .quiet)

/-- The answer pulse is classed UNCLASSIFIED without its release (R45). -/
def rxEarlyAnswer (f : Frx) : Frx × RxEvent :=
  if f.state = .answerWait ∧ f.window.phase = .inTime then rxAnswer f .answerWait .classed .unclassified
  else (f, .quiet)

/-- The verdict of a pulse record: no answer possible when the last pulse is an END (R135). -/
def answerPossible (p : PulsePair) : Bool := p.last != some .w6

/-- The FRX at turn-on (R139): IDLE on a quiet line, else DISCARD with the turn-on mark. -/
def frxTurnOn (quietLine : Bool) : Frx :=
  if quietLine then Frx.reset else { Frx.reset with state := .discard, record := .turnOn }

/-! ### What the receiver's events do to the part -/

/-- An address clash (R118): the notice, then HALTED. -/
def addressClash (s : State) : State :=
  halt .addressClash (postNotice .addressClash (some (ownAddress s)) s)

/-- The effects of a valid frame of another station beyond its sender's record (Table 7.8). -/
def frameEffects (fr : Frame) (s : State) : State :=
  match fr.kind with
  | .data => if fr.dest = ownAddress s ∧ s.stc.station = .active then decideAnswer fr s else s
  | .poll => if fr.dest = ownAddress s ∧ s.stc.station = .active then addCause .c s else s
  | .broadcast => if s.stc.profile.broadcastStore then storeBroadcast fr s else s
  | _ => s

/-- The mark that a valid frame has been heard, in LISTENING (R132, R159). -/
def markHeard (s : State) : State :=
  if s.stc.station = .listening then s.setStc { s.stc with frameHeard := true } else s

/-- The valid-frame events of R136. `own` says that the frame is the part's own (R117). -/
def validFrame (own : Bool) (fr : Frame) (s : State) : State :=
  let s1 := markHeard s
  if fr.claim = ownAddress s then (if own then s1 else addressClash s1)
  else frameEffects fr (hearFrame fr s1)

/-- The FRX's event on the other blocks. -/
def applyRx (own : Bool) (e : RxEvent) (s : State) : State :=
  match e with
  | .quiet => s
  | .stray => raise .decodeErrors s
  | .failed k => raise k s
  | .valid fr => validFrame own fr s
  | .answered claim dest l cls => answerEvent claim dest l cls s

/-- Gives the FRX one event, if it is on (R128). -/
def toFrx (own : Bool) (step : Frx → Frx × RxEvent) (s : State) : State :=
  if decoding s then applyRx own (step s.frx).2 (s.setFrx (step s.frx).1) else s

/-- LINE_IDLE at the FRX: it ends DISCARD, with the verdict of R135 unless the turn-on mark stands (R134, R139). -/
def frxIdle (s : State) : State :=
  if decoding s ∧ s.frx.state = .discard then
    let s1 := s.setFrx { s.frx with state := .idle, record := .pulses ⟨none, none⟩ }
    match s.frx.record with
    | .turnOn => s1
    | .pulses p => if answerPossible p then raise .staleEvents (markAllStale s1) else s1
  else s

end Sys2Proof.Machine
end

