-- ==== Sys2Proof/Machine/Port.lean ====
section
/-! DEFINITION. The host port's transaction, START and the two resets (09, 10). -/

namespace Sys2Proof.Machine

/-- A command of a code can be taken: RST is high, and a transaction stands at its command byte, or at the operand bytes
of that same code (R166, R169). In any other transaction state the port ignores the command (log entry 1). -/
def portOpen (code : Byte) (s : State) : Bool :=
  !s.rstLow && (s.hpt.txn == .command || (s.hpt.txn == .operand && s.hpt.commandByte == some code))

/-- A command is taken: its bytes are in, and the result code with its data is pending (R169). -/
def reply (code : Byte) (operand : List Byte) (result : Byte) (data : List Byte) (s : State) : State :=
  s.setHpt
    { s.hpt with
      txn := .result
      commandByte := some code
      operand := operand
      operandLength := operand.length
      result := result :: data }

/-- The port returns to idle (R170). -/
def portIdle (x : Hpt) : Hpt :=
  { x with txn := .idle, commandByte := none, operand := [], operandLength := 0, result := [], resetDue := false }

/-- Every block at its reset value; the pins, the inputs and the waiting commands are not the part's blocks. -/
def blocksReset (s : State) : State :=
  { State.reset with
    rstLow := s.rstLow, hostSelLow := s.hostSelLow, pending := s.pending, lineIn := s.lineIn, hostIn := s.hostIn }

/-- A hard reset: every block at its hard-reset value, and RST low until it is released (R166). -/
def hardReset (s : State) : State := { blocksReset s with rstLow := true }

/-- A station reset: a hard reset that keeps the profile's fields and status (R167). -/
def stationReset (s : State) : State :=
  { blocksReset s with
    stc := { Stc.reset with profile := s.stc.profile, profileSet := s.stc.profileSet } }

/-- STATE result data: one snapshot (R181, Table 10.10). -/
def stateRecord (s : State) : List Byte :=
  [ byteOf s.stc.station.code
  , byteOf s.stc.haltReason.code
  , byteOf (returnCode s.stc.returnState)
  , byteOf (ownAddress s)
  , flagByte s.stc.profileSet s.stc.profileLocked s.ctu.roundSpent s.rxp.owed false false false false
  , s.rxp.causes.byte
  , byteOf s.ftx.faultCount
  , byteOf (freeSlots s)
  , byteOf s.txs.outcomes.length
  , byteOf s.rxp.queue.length
  , byteOf s.bcr.ring.length
  , byteOf s.hpt.notices.length
  , byteOf s.hpt.noticesLost ]

/-- The peer table after START: reset records, the own one marked SELF (R43, Table 2.3). -/
def startPeers (own : Nat) : List Peer :=
  (List.replicate Config.stations Peer.reset).modify own (fun r => { r with presence := .self })

/-- START accepted (R158; the After START columns of Tables 1.4, 2.3, 4.7, 5.3, 6.4, 7.9, 9.5). Sampling begins at position
0, whose sample is still to be taken (R141). -/
def startStation (s : State) : State :=
  evalCauses
    { s with
      stc :=
        { s.stc with
          station := .listening, haltReason := .none, returnState := none, frameHeard := false
          profileLocked := true, spanRunning := true, spanCount := 0, heartbeat := 0 }
      lfe := { Lfe.reset with sampling := true, sampleDue := true }
      frx := frxTurnOn false
      ctu := Ctu.reset
      ftx := Ftx.reset
      rxp := Rxp.reset
      peers := startPeers s.stc.profile.address
      txs := Txs.reset
      bcr := Bcr.reset }

end Sys2Proof.Machine
end

