-- ==== Sys2Proof/Machine/LineEvents.lean ====
section
/-! DEFINITION. The meanings of the Line Front End's reports and of a span expiry (08, 09). -/

namespace Sys2Proof.Machine

/-! ### Edges (R143, R145) -/

/-- The LFE at a rising edge (R143). The edge is recognised two positions after its date (R142). -/
def lfeRise (gap : Nat) (x : Lfe) : Lfe :=
  { x with
    active := true, count := recognitionLag, precedingGap := min precedingGapLimit gap, stuckReported := false }

/-- The LFE at a falling edge (R143). -/
def lfeFall (x : Lfe) : Lfe :=
  { x with
    active := false, count := recognitionLag, breakReported := false, idleReported := false, roundReported := false }

/-- A rising edge at the CTU: a join opportunity in WAITING with idle seen set (R103), and the edge from which a LEAD
or digit is timed (R105, R106). -/
def ctuRise (s : State) : State :=
  match s.ctu.state with
  | .waiting =>
    if s.ctu.idleSeen then
      let s1 := s.setCtu { s.ctu with idleSeen := false }
      match name s1 with
      | some c => joinLead c s1
      | none => s1
    else s
  | .lead | .claim =>
    s.setCtu
      { s.ctu with
        drive := { s.ctu.drive with edgeAge := some (s.ctu.drive.edgeAge.getD recognitionLag) } }
  | _ => s

/-- A falling edge at the CTU: a pulse that passes in the gap before a digit is not the digit's (R106). -/
def ctuFall (s : State) : State :=
  if s.ctu.drive.phase = .rest then s.setCtu { s.ctu with drive := s.ctu.drive.forgetEdge } else s

/-- LINE_RISING_EDGE (R143): the LFE, then the FTX's readback, the CTU and the FRX (log entry 7). -/
def execLineRisingEdge (gap : Nat) (s : State) : Host.Outcome State Fault Refusal :=
  .next
    (if s.lfe.sampling ∧ ¬ s.lfe.active then
      toFrx false (fun f => rxRise f (min precedingGapLimit gap))
        (ctuRise (ftxRise (min precedingGapLimit gap) (s.setLfe (lfeRise gap s.lfe))))
     else s)

/-- PULSE_EVENT (R145): the LFE classes the pulse; the FTX's readback, the CTU and the FRX take it with the preceding
gap (log entry 7). A frame the FTX completes at this edge is the part's own (R117). -/
def execPulseEvent (width : Nat) (s : State) : Host.Outcome State Fault Refusal :=
  .next
    (if s.lfe.sampling ∧ s.lfe.active then
      nameOnChange s
        (toFrx (completesAt (classOf width) s) (fun f => rxPulse f (classOf width) s.lfe.precedingGap)
          (ctuFall (ftxFall (classOf width) (s.setLfe (lfeFall s.lfe)))))
     else s)

/-! ### Line conditions (R146 to R151) -/

/-- FRAME_GAP_BREAK (R146): once a gap, to the FRX. -/
def execFrameGapBreak (s : State) : Host.Outcome State Fault Refusal :=
  .next
    (if s.lfe.sampling ∧ ¬ s.lfe.active ∧ ¬ s.lfe.breakReported then
      toFrx false rxBreak (s.setLfe { s.lfe with breakReported := true, count := max breakGap s.lfe.count })
     else s)

/-- LINE_IDLE at the CTU: idle seen and a naming in WAITING; the end of LOST (R101, R102, R107). -/
def ctuIdle (s : State) : State :=
  match s.ctu.state with
  | .waiting => nameMoment (s.setCtu { s.ctu with idleSeen := true })
  | .lost => nameMoment (s.setCtu { s.ctu with state := .waiting, idleSeen := true })
  | _ => s

/-- LINE_IDLE (R147): once a gap; the FRX's verdict, then the CTU, then the end of LISTENING (log entry 8). -/
def execLineIdle (s : State) : Host.Outcome State Fault Refusal :=
  .next
    (if s.lfe.sampling ∧ ¬ s.lfe.active ∧ ¬ s.lfe.idleReported then
      let s1 := ctuIdle (frxIdle (s.setLfe { s.lfe with idleReported := true, count := max idleGap s.lfe.count }))
      if s1.stc.station = .listening ∧ s1.stc.frameHeard then enterJoining s1 else s1
     else s)

/-- The return from LINE_FAULT to a recorded state (R151, R161). -/
def recoverTo (st : StationState) (s : State) : State :=
  let s1 := postNotice .lineRecovered none (s.setStc { s.stc with station := st, returnState := none })
  let s2 := s1.setFrx (frxTurnOn (quiet s1))
  let s3 :=
    if st = .joining ∨ st = .active then
      (fun t => t.setCtu { t.ctu with roundSpent := false }) (ctuEnterWaiting s2)
    else s2
  nameMoment (if st = .active then addCause .f s3 else s3)

/-- ROUND_GAP (R147): once a gap. It ends LISTENING (R159) and LINE_FAULT (R151), and clears round-spent in every
contention state but OFF, which is a naming moment (R111, R102). -/
def execRoundGap (s : State) : Host.Outcome State Fault Refusal :=
  .next
    (if s.lfe.sampling ∧ ¬ s.lfe.active ∧ ¬ s.lfe.roundReported then
      let s1 := s.setLfe { s.lfe with roundReported := true, count := max roundGapLength s.lfe.count }
      match s.stc.station with
      | .listening => enterJoining (s1.setCtu { s1.ctu with roundSpent := false })
      | .lineFault =>
        match s.stc.returnState with
        | some st => recoverTo st s1
        | none => s1
      | _ =>
        if s1.ctu.state ≠ .off ∧ s1.ctu.roundSpent then nameMoment (s1.setCtu { s1.ctu with roundSpent := false })
        else s1
     else s)

/-- LINE_STUCK (R148): once a pulse; in LISTENING, JOINING or ACTIVE the station enters LINE_FAULT (R149), in
LINE_FAULT nothing more happens (R150). -/
def execLineStuck (s : State) : Host.Outcome State Fault Refusal :=
  .next
    (if s.lfe.sampling ∧ s.lfe.active ∧ ¬ s.lfe.stuckReported then
      let s1 := s.setLfe { s.lfe with stuckReported := true, count := max stuckWidth s.lfe.count }
      if decoding s1 then enterLineFault s1 else s1
     else s)

/-! ### The answer window (R44, R45) -/

/-- ANSWER_WINDOW_CLOSE (R44): the line stayed released through the 24th sample, class NONE. -/
def execAnswerWindowClose (s : State) : Host.Outcome State Fault Refusal :=
  .next (if s.lfe.sampling ∧ ¬ s.lfe.active then toFrx false rxWindowClose s else s)

/-- The FRX is about to class an answer pulse early: it began in time and is still active (R45). -/
def classesEarly (s : State) : Bool := decoding s && s.frx.state == .answerWait && s.frx.window.phase == .inTime

/-- ANSWER_EARLY_UNCLASSIFIED (R45): still active 44 samples after the edge. It is the class at which the FTX reads back an
answer of its own, before the FRX's event reaches the other blocks (R52, R148; log entry 7). -/
def execAnswerEarlyUnclassified (s : State) : Host.Outcome State Fault Refusal :=
  .next
    (if s.lfe.sampling ∧ s.lfe.active then toFrx false rxEarlyAnswer (if classesEarly s then ftxEarly s else s) else s)

/-! ### The span timebase (R164, R165) -/

/-- The heartbeat age at an expiry, with cause (e) at half the silence limit (R165, R17). -/
def heartbeatExpiry (s : State) : State :=
  let age := min 255 (s.stc.heartbeat + 1)
  let s1 := s.setStc { s.stc with heartbeat := age }
  if age = s.stc.profile.silenceLimit / 2 ∧ s.stc.heartbeat < age then addCause .e s1 else s1

/-- SPAN_EXPIRY (R164): the peer table, then the heartbeat; its changes are naming moments (R102). -/
def execSpanExpiry (s : State) : Host.Outcome State Fault Refusal :=
  .next
    (if s.stc.spanRunning then
      nameOnChange s (heartbeatExpiry (expirePeers (s.setStc { s.stc with spanCount := 0 })))
     else s)

end Sys2Proof.Machine
end

