-- ==== Sys2Proof/Machine/DriveEvents.lean ====
section
/-! DEFINITION. The meanings of the timed steps of the Contention Unit and the Frame Transmitter (06; 03, R51, R52). -/

namespace Sys2Proof.Machine

/-- A drive begins; an edge that has already come counts (R106, R113). -/
def Drive.begin (d : Drive) : Drive := ⟨.driving, 0, d.edgeAge⟩

/-- A drive ends; its test is still to come (R105, R107, R113). -/
def Drive.release (d : Drive) : Drive := ⟨.released, 0, d.edgeAge⟩

/-! ### The contest -/

/-- LEAD_RELEASE (R105). -/
def execLeadRelease (s : State) : Host.Outcome State Fault Refusal :=
  .next
    (if s.ctu.state = .lead ∧ s.ctu.drive.phase = .driving then
      s.setCtu { s.ctu with drive := s.ctu.drive.release }
     else s)

/-- LOSS_TEST (R105, R107, R108): a line still active is a loss; a released line leads to the next digit, and after
digit 3 to the win. -/
def execLossTest (s : State) : Host.Outcome State Fault Refusal :=
  .next
    (if s.ctu.drive.phase = .released ∧ (s.ctu.state = .lead ∨ s.ctu.state = .claim) then
      if s.lfe.active then claimLost s
      else if s.ctu.state = .lead then
        s.setCtu { s.ctu with state := .claim, digitIndex := 0, drive := Drive.none }
      else if 3 ≤ s.ctu.digitIndex then claimWon s
      else s.setCtu { s.ctu with digitIndex := s.ctu.digitIndex + 1, drive := Drive.none }
     else s)

/-- DIGIT_DRIVE_START (R106). -/
def execDigitDriveStart (s : State) : Host.Outcome State Fault Refusal :=
  .next
    (if s.ctu.state = .claim ∧ s.ctu.drive.phase = .rest then s.setCtu { s.ctu with drive := s.ctu.drive.begin }
     else s)

/-- DIGIT_RELEASE (R106). -/
def execDigitRelease (s : State) : Host.Outcome State Fault Refusal :=
  .next
    (if s.ctu.state = .claim ∧ s.ctu.drive.phase = .driving then
      s.setCtu { s.ctu with drive := s.ctu.drive.release }
     else s)

/-- A drive of the CTU whose edge must show: a started LEAD or a claim digit (R109). -/
def faultChecked (s : State) : Bool :=
  s.ctu.drive.phase == .driving && s.ctu.drive.edgeAge.isNone
    && ((s.ctu.state == .lead && !s.ctu.joined) || s.ctu.state == .claim)

/-- DRIVE_FAULT_CHECK (R109): no rising edge of the line for the drive is a drive fault. -/
def execDriveFaultCheck (s : State) : Host.Outcome State Fault Refusal :=
  .next (if faultChecked s then driveFault s else s)

/-! ### The frame -/

/-- SYMBOL_DRIVE_START (R112); at the first header symbol it captures (R9). -/
def execSymbolDriveStart (s : State) : Host.Outcome State Fault Refusal :=
  .next (if s.ftx.state.inFrame ∧ s.ftx.drive.phase = .rest then beginSymbol s else s)

/-- SYMBOL_RELEASE (R112). -/
def execSymbolRelease (s : State) : Host.Outcome State Fault Refusal :=
  .next
    (if s.ftx.state.inFrame ∧ s.ftx.drive.phase = .driving then
      s.setFtx { s.ftx with drive := s.ftx.drive.release }
     else s)

/-- The two timed readback tests of R113: no rising edge four samples into the drive; a line still active four
samples after the release of a pulse other than the END. -/
def readbackFails (s : State) : Bool :=
  (s.ftx.drive.phase == .driving && s.ftx.drive.edgeAge.isNone)
    || (s.ftx.drive.phase == .released && s.lfe.active && s.ftx.state != .endPulse)

/-- READBACK_TEST (R113, R114). -/
def execReadbackTest (s : State) : Host.Outcome State Fault Refusal :=
  .next (if s.ftx.state.inFrame ∧ readbackFails s then abortFrame s else s)

/-! ### The answer -/

/-- ANSWER_DRIVE_START (R51). -/
def execAnswerDriveStart (s : State) : Host.Outcome State Fault Refusal :=
  .next
    (if s.ftx.state = .answering ∧ s.ftx.drive.phase = .rest then
      s.setFtx { s.ftx with drive := s.ftx.drive.begin }
     else s)

/-- ANSWER_DRIVE_CHECK (R52): no rising edge four samples into the answer is a mismatch. -/
def execAnswerDriveCheck (s : State) : Host.Outcome State Fault Refusal :=
  .next
    (if s.ftx.state = .answering ∧ s.ftx.drive.phase = .driving ∧ s.ftx.drive.edgeAge = none then answerMismatch s
     else s)

/-- ANSWER_RELEASE (R51): released and IDLE; the class of the pulse is read back at its falling edge (R52). -/
def execAnswerRelease (s : State) : Host.Outcome State Fault Refusal :=
  .next
    (if s.ftx.state = .answering ∧ s.ftx.drive.phase = .driving then
      s.setFtx { s.ftx with state := .idle, drive := Drive.none }
     else s)

end Sys2Proof.Machine
end

