-- ==== Sys2Proof/Machine/HostCommands.lean ====
section
/-! DEFINITION. The meanings of the host commands (10, with 04, 05 and 09). -/

namespace Sys2Proof.Machine

/-- A command's effect if the port can take it; otherwise it is ignored (R169). -/
def taken (code : Byte) (s : State) (effect : State → State) : Host.Outcome State Fault Refusal :=
  .next (if portOpen code s then effect s else s)

/-- SETUP and START are accepted in CONFIG alone; LOAD and WITHDRAW in the four running states (Table 10.2). -/
def running (s : State) : Bool :=
  match s.stc.station with
  | .config => false
  | .halted => false
  | _ => true

/-! ### Reading commands -/

/-- STATE (R181): a snapshot. -/
def execState (s : State) : Host.Outcome State Fault Refusal :=
  taken 0x01#8 s fun s => reply 0x01#8 [] resOk (stateRecord s) s

/-- PEER (R182): the record at an address 0..30. -/
def execPeer (addr : Byte) (s : State) : Host.Outcome State Fault Refusal :=
  taken 0x02#8 s fun s =>
    if addr.toNat ≤ 30 then reply 0x02#8 [addr] resOk (peerRecord (peerAt s addr.toNat)) s
    else reply 0x02#8 [addr] resBadOperand [] s

/-- COUNTERS (R180): the ten counters as they stood, then all 0. -/
def execCounters (s : State) : Host.Outcome State Fault Refusal :=
  taken 0x03#8 s fun s =>
    reply 0x03#8 [] resOk (counterRecord s.hpt.counters) (s.setHpt { s.hpt with counters := Counters.zero })

/-! ### Profile and life cycle -/

/-- SETUP (R157): in CONFIG the whole profile, checked. -/
def execSetup (address quantum reserveA reserveB reserveC retryLimit silenceLimit stepAndStore : Byte) (s : State) :
    Host.Outcome State Fault Refusal :=
  taken 0x10#8 s fun s =>
    let operand := [address, quantum, reserveA, reserveB, reserveC, retryLimit, silenceLimit, stepAndStore]
    if s.stc.station = .config then
      match profileOf address quantum reserveA reserveB reserveC retryLimit silenceLimit stepAndStore with
      | some p =>
        reply 0x10#8 operand resOk [] (s.setStc { s.stc with profile := p, profileSet := true })
      | none => reply 0x10#8 operand resBadProfile [] s
    else reply 0x10#8 operand resBadState [] s

/-- START (R158): in CONFIG with the profile SET. -/
def execStart (s : State) : Host.Outcome State Fault Refusal :=
  taken 0x11#8 s fun s =>
    if s.stc.station = .config then
      if s.stc.profileSet then reply 0x11#8 [] resOk [] (startStation s)
      else reply 0x11#8 [] resBadProfile [] s
    else reply 0x11#8 [] resBadState [] s

/-- RESET (R173): OK and station reset due. -/
def execReset (s : State) : Host.Outcome State Fault Refusal :=
  taken 0x12#8 s fun s => reply 0x12#8 [] resOk [] (s.setHpt { s.hpt with resetDue := true })

/-! ### Messages out -/

/-- The operand bytes of a LOAD up to and with its length byte (Table 10.6). -/
def loadHead (tag : Half) (dest lane len : Byte) : List Byte := bytesOf tag ++ [dest, lane, len]

/-- The message a LOAD makes (R70). -/
def loadedMessage (tag : Half) (dest : Nat) (lane : Lane) (payload : List Byte) (number : Half) : Message where
  tag := tag
  loadNumber := number
  dest := dest
  lane := lane
  payload := payload
  tries := 0
  withdrawPending := false
  state := .queued
  outcome := none
  duplicateNote := false

/-- The message joins the back of the store order and of its lane queue with the next load number (R67, R68, R70). -/
def storeMessage (m : Message) (s : State) : State :=
  s.setTxs { s.txs with store := s.txs.store ++ [m], loadCounter := s.txs.loadCounter + 1#16 }

/-- The lane of a LOAD whose dest and lane bytes are in range and whose dest is not the own address (Table 4.3,
order 2). -/
def loadLane (dest lane : Byte) (s : State) : Option Lane :=
  if dest.toNat = ownAddress s ∨ 31 < dest.toNat then none else laneOfCode lane.toNat

/-- A LOAD with all its payload bytes: the checks of Table 4.3 in order. An accepted LOAD is a naming moment
(R102). -/
def takeLoad (tag : Half) (dest lane len : Byte) (payload : List Byte) (s : State) : State :=
  let operand := loadHead tag dest lane len ++ payload
  if running s then
    match loadLane dest lane s with
    | none => reply 0x20#8 operand resBadOperand [] s
    | some l =>
      if dest.toNat ≤ 30 ∧ (peerAt s dest.toNat).presence = .silent then reply 0x20#8 operand resPeerSilent [] s
      else if freeSlots s = 0 then reply 0x20#8 operand resFull [] s
      else
        nameMoment
          (reply 0x20#8 operand resOk (bytesOf s.txs.loadCounter)
            (storeMessage (loadedMessage tag dest.toNat l payload s.txs.loadCounter) s))
  else reply 0x20#8 operand resBadState [] s

/-- LOAD (R70, R172). A length byte outside 1..32 is taken at that byte with BAD_OPERAND. With a valid one the
command is taken at the last payload byte, bytes after it being trailing ones; with fewer bytes it is not yet
taken and the port waits in its operand. -/
def execLoad (tag : Half) (dest lane len : Byte) (payload : List Byte) (s : State) :
    Host.Outcome State Fault Refusal :=
  taken 0x20#8 s fun s =>
    if lengthValid len then
      if len.toNat ≤ payload.length then takeLoad tag dest lane len (payload.take len.toNat) s
      else
        s.setHpt
          { s.hpt with
            txn := .operand
            commandByte := some 0x20#8
            operand := loadHead tag dest lane len ++ payload
            operandLength := 5 + len.toNat }
    else reply 0x20#8 (loadHead tag dest lane len) resBadOperand [] s

/-- The oldest live message with a tag (R80). -/
def tagged (tag : Half) (m : Message) : Bool := m.tag == tag

/-- WITHDRAW (R63, R80, R81). -/
def execWithdraw (tag : Half) (s : State) : Host.Outcome State Fault Refusal :=
  taken 0x21#8 s fun s =>
    if running s then
      match s.txs.store.find? (tagged tag) with
      | none => reply 0x21#8 (bytesOf tag) resNotFound [] s
      | some m =>
        if m.state = .inFlight then
          reply 0x21#8 (bytesOf tag) resPending []
            (s.setTxs
              { s.txs with
                store := updateFirst (tagged tag) (fun m => { m with withdrawPending := true }) s.txs.store })
        else
          reply 0x21#8 (bytesOf tag) resOk []
            (moveToDone (tagged tag) (fun m => m.finish .withdrawn false) s)
    else reply 0x21#8 (bytesOf tag) resBadState [] s

/-- OUTCOME (R83): the oldest outcome record, whose slot becomes FREE. -/
def execOutcome (s : State) : Host.Outcome State Fault Refusal :=
  taken 0x22#8 s fun s =>
    match s.txs.outcomes with
    | [] => reply 0x22#8 [] resEmpty [] s
    | m :: rest => reply 0x22#8 [] resOk (outcomeRecord m) (s.setTxs { s.txs with outcomes := rest })

/-! ### Messages in -/

/-- FETCH (R89, R7): the oldest record of the highest lane; setting advertisement-owed is a naming moment (R102). -/
def execFetch (s : State) : Host.Outcome State Fault Refusal :=
  taken 0x30#8 s fun s =>
    match fetchRecord s with
    | none => reply 0x30#8 [] resEmpty [] s
    | some r =>
      nameOnChange s
        (reply 0x30#8 [] resOk (deliveryRecord r.source r.lane r.payload r.arrival) (freeRecord r.lane s))

/-- FETCH_BROADCAST (R97): the oldest record of the ring. -/
def execFetchBroadcast (s : State) : Host.Outcome State Fault Refusal :=
  taken 0x31#8 s fun s =>
    match s.bcr.ring with
    | [] => reply 0x31#8 [] resEmpty [] s
    | r :: rest =>
      reply 0x31#8 [] resOk (deliveryRecord r.source r.lane r.payload r.arrival) (s.setBcr { s.bcr with ring := rest })

/-- NOTICE (R177): the oldest notice with notices-lost, which is then 0. -/
def execNotice (s : State) : Host.Outcome State Fault Refusal :=
  taken 0x32#8 s fun s =>
    match s.hpt.notices with
    | [] => reply 0x32#8 [] resEmpty [] s
    | n :: rest =>
      reply 0x32#8 [] resOk (noticeRecord n s.hpt.noticesLost)
        (s.setHpt { s.hpt with notices := rest, noticesLost := 0 })

/-- An unknown command code is taken at its command byte with BAD_OPERAND (R170). A known code is another command's,
so nothing happens. -/
def execUnknownCommand (code : Byte) (s : State) : Host.Outcome State Fault Refusal :=
  taken code s fun s => if knownCodes.contains code then s else reply code [] resBadOperand [] s

/-! ### Pins of the port and of reset -/

/-- HOST_SEL falls: a transaction begins, unless RST is low or HOST_SEL was low already (R169, R170). -/
def execHostSelFall (s : State) : Host.Outcome State Fault Refusal :=
  .next
    (if s.hostSelLow then s
     else if s.rstLow then { s with hostSelLow := true }
     else { s with hostSelLow := true, hpt := { portIdle s.hpt with txn := .command } })

/-- HOST_SEL rises: a station reset that is due is carried out, and the transaction ends whatever its state (R170,
R173). -/
def execHostSelRise (s : State) : Host.Outcome State Fault Refusal :=
  .next
    (if s.hpt.resetDue then { stationReset s with hostSelLow := false }
     else { s with hostSelLow := false, hpt := portIdle s.hpt })

/-- RST goes low, or power-on (R166). -/
def execHardReset (s : State) : Host.Outcome State Fault Refusal := .next (hardReset s)

/-- RST returns high: the part takes transactions again, in CONFIG (R166). -/
def execRstRelease (s : State) : Host.Outcome State Fault Refusal := .next { s with rstLow := false }

end Sys2Proof.Machine
end

