-- ==== Sys2Proof/Machine/Dispatch.lean ====
section
/-! DEFINITION. One arm for each command, each a direct call of its meaning. -/

namespace Sys2Proof.Machine

def exec (i : Instr) (s : State) : Host.Outcome State Fault Refusal :=
  match i with
  | .hardReset => Sys2Proof.Machine.execHardReset s
  | .hostSelRise => Sys2Proof.Machine.execHostSelRise s
  | .state => Sys2Proof.Machine.execState s
  | .peer addr => Sys2Proof.Machine.execPeer addr s
  | .counters => Sys2Proof.Machine.execCounters s
  | .setup address quantum reserveA reserveB reserveC retryLimit silenceLimit stepAndStore => Sys2Proof.Machine.execSetup address quantum reserveA reserveB reserveC retryLimit silenceLimit stepAndStore s
  | .start => Sys2Proof.Machine.execStart s
  | .reset => Sys2Proof.Machine.execReset s
  | .load tag dest lane len payload => Sys2Proof.Machine.execLoad tag dest lane len payload s
  | .withdraw tag => Sys2Proof.Machine.execWithdraw tag s
  | .outcome => Sys2Proof.Machine.execOutcome s
  | .fetch => Sys2Proof.Machine.execFetch s
  | .fetchBroadcast => Sys2Proof.Machine.execFetchBroadcast s
  | .notice => Sys2Proof.Machine.execNotice s
  | .unknownCommand code => Sys2Proof.Machine.execUnknownCommand code s
  | .lineRisingEdge gap => Sys2Proof.Machine.execLineRisingEdge gap s
  | .pulseEvent width => Sys2Proof.Machine.execPulseEvent width s
  | .frameGapBreak => Sys2Proof.Machine.execFrameGapBreak s
  | .lineIdle => Sys2Proof.Machine.execLineIdle s
  | .roundGap => Sys2Proof.Machine.execRoundGap s
  | .lineStuck => Sys2Proof.Machine.execLineStuck s
  | .answerWindowClose => Sys2Proof.Machine.execAnswerWindowClose s
  | .answerEarlyUnclassified => Sys2Proof.Machine.execAnswerEarlyUnclassified s
  | .leadRelease => Sys2Proof.Machine.execLeadRelease s
  | .lossTest => Sys2Proof.Machine.execLossTest s
  | .digitDriveStart => Sys2Proof.Machine.execDigitDriveStart s
  | .digitRelease => Sys2Proof.Machine.execDigitRelease s
  | .driveFaultCheck => Sys2Proof.Machine.execDriveFaultCheck s
  | .symbolDriveStart => Sys2Proof.Machine.execSymbolDriveStart s
  | .symbolRelease => Sys2Proof.Machine.execSymbolRelease s
  | .readbackTest => Sys2Proof.Machine.execReadbackTest s
  | .answerDriveStart => Sys2Proof.Machine.execAnswerDriveStart s
  | .answerDriveCheck => Sys2Proof.Machine.execAnswerDriveCheck s
  | .answerRelease => Sys2Proof.Machine.execAnswerRelease s
  | .spanExpiry => Sys2Proof.Machine.execSpanExpiry s
  | .hostSelFall => Sys2Proof.Machine.execHostSelFall s
  | .rstRelease => Sys2Proof.Machine.execRstRelease s

end Sys2Proof.Machine
end

