-- ==== Sys2Proof/Machine/Timebase.lean ====
section
/-! DEFINITION. The tick: what a step does on an empty queue. A line position begins, with one host-port byte clocked
(10, R169 to R172), or its sample is taken, with the filter and the counts of 08; the commands that fall due join the
queue (log entry 2). -/

namespace Sys2Proof.Machine

/-! ### One line position

A position comes in two ticks. The first begins it: the counts move, and what they bring acts before the sample, so that
a drive begun or ended at a position is in that position's own sample (R152). The second takes the sample (R141). -/

/-- An edge's age, one position on. -/
def Drive.ageEdge (d : Drive) : Drive :=
  { d with edgeAge := d.edgeAge.map (fun n => min countLimit (n + 1)) }

/-- A phase's timer, one sample on. -/
def Drive.countSample (d : Drive) : Drive :=
  { d with timer := if d.phase = .rest then d.timer else min countLimit (d.timer + 1) }

/-! #### The position begins -/

/-- The counts, one position on (R143, R152, R164). -/
def advanceCounts (s : State) : State :=
  { s with
    lfe := { s.lfe with count := min countLimit (s.lfe.count + 1), sampleDue := true }
    ctu := { s.ctu with drive := s.ctu.drive.ageEdge }
    ftx := { s.ftx with drive := s.ftx.drive.ageEdge }
    stc :=
      { s.stc with
        spanCount := if s.stc.spanRunning then (s.stc.spanCount + 1) % spanLength else s.stc.spanCount } }

/-- The line conditions that a position brings, in the order of R145. A report follows the recognition lag. -/
def conditionsDue (s : State) : List Instr :=
  if s.lfe.active then
    if s.lfe.count = stuckWidth + recognitionLag ∧ ¬ s.lfe.stuckReported then [.lineStuck] else []
  else
    (if s.lfe.count = breakGap + recognitionLag ∧ ¬ s.lfe.breakReported then [.frameGapBreak] else []) ++
    (if s.lfe.count = idleGap + recognitionLag ∧ ¬ s.lfe.idleReported then [.lineIdle] else []) ++
    (if s.lfe.count = roundGapLength + recognitionLag ∧ ¬ s.lfe.roundReported then [.roundGap] else [])

/-- A drive of a width ends at this position: the line's dated rising edge is that many positions old (R152), or the drive has
lasted 64 positions, the longest of R153 (DEDUCED where a started LEAD's edge is dated late: R153 is a limit on every drive and
R152's end comes at the limit or before it, log entry 28). -/
def endsAt (d : Drive) (width : Nat) : Bool :=
  d.phase == .driving && (d.edgeAge == some width || driveLimit ≤ d.timer)

/-- The width of the pulse the CTU is driving (R105, R106). -/
def ctuWidth (s : State) : Nat := if s.ctu.state = .lead then leadWidth else (claimDigitValue s + 1) * 8

/-- The drives that end at a position (R152). -/
def endsDue (s : State) : List Instr :=
  (if endsAt s.ctu.drive (ctuWidth s) then [if s.ctu.state = .lead then .leadRelease else .digitRelease] else []) ++
  (if s.ftx.state.inFrame ∧ endsAt s.ftx.drive (txWidth s) then [.symbolRelease] else []) ++
  (match s.ftx.answer with
   | some k => if s.ftx.state = .answering ∧ endsAt s.ftx.drive k.width then [.answerRelease] else []
   | none => [])

/-- Positions since the last dated falling edge. -/
def sinceFall (s : State) : Nat := if s.lfe.active then s.lfe.precedingGap + s.lfe.count else s.lfe.count

/-- The drives that begin at a position, the first that is 8 or more after the falling edge of the pulse before (R106, R112, R152).
Where the line fell 4 or more positions before the part's own release, that position is past when the loss test leads on to
the next digit or the header: that the drive then begins at once, at the next position, is a DESIGN CHOICE (log entry 27). -/
def beginsDue (s : State) : List Instr :=
  if driveGap ≤ sinceFall s then
    (if s.ctu.state = .claim ∧ s.ctu.drive.phase = .rest then [.digitDriveStart] else []) ++
    (if s.ftx.state.inFrame ∧ s.ftx.drive.phase = .rest then [.symbolDriveStart] else []) ++
    (if s.ftx.state = .answering ∧ s.ftx.drive.phase = .rest then [.answerDriveStart] else [])
  else []

/-- The span expiry of a position, every 2048 positions (R164); `s` is the state before it. -/
def spanDue (s : State) : List Instr :=
  if s.stc.spanRunning ∧ s.stc.spanCount + 1 = spanLength then [.spanExpiry] else []

/-- A position begins: the counts move, and what they bring joins the queue. -/
def beginPosition (s : State) : State :=
  let t := advanceCounts s
  { t with pending := s.pending ++ (conditionsDue t ++ endsDue t ++ beginsDue t ++ spanDue s) }

/-! #### The sample -/

/-- The level on LINE_RX: the wired-OR of the part's own drive, where it reaches the line, and of whatever else holds the
line active (R154). With no entry left the line is undisturbed. -/
def lineRx (s : State) : Bool :=
  let x := s.lineIn.headD LineSample.clear
  (lineTx s && x.driven) || x.others

/-- The sample joins the filter, and each phase of a drive has lasted one sample more (R141, R142). -/
def readSample (s : State) : State :=
  { s with
    lfe := { s.lfe with raw1 := lineRx s, raw2 := s.lfe.raw1, sampleDue := false }
    ctu := { s.ctu with drive := s.ctu.drive.countSample }
    ftx := { s.ftx with drive := s.ftx.drive.countSample }
    lineIn := s.lineIn.tail }

/-- Three agreeing samples differ from the filtered level: an edge is recognised (R142). -/
def edgeAt (s : State) : Bool :=
  lineRx s == s.lfe.raw1 && s.lfe.raw1 == s.lfe.raw2 && lineRx s != s.lfe.active

/-- The edge a sample brings, with the interval it ends (R143, R145). -/
def edgeDue (s : State) (edge : Bool) : List Instr :=
  if edge then
    if s.lfe.active then [.pulseEvent (s.lfe.count - recognitionLag)]
    else [.lineRisingEdge (s.lfe.count - recognitionLag)]
  else []

/-- The answer window's two timed steps (R44, R45), when no edge comes with the sample. They are no reports of the LFE: that
they too come two positions after the 24th released and the 44th active one, when an edge dated in time would have been
recognised, is a DESIGN CHOICE (log entry 3). -/
def windowDue (s : State) (edge : Bool) : List Instr :=
  if s.frx.state = .answerWait ∧ ¬ edge then
    if ¬ s.lfe.active ∧ s.frx.window.phase = .waiting ∧ s.lfe.count = windowLength + recognitionLag then
      [.answerWindowClose]
    else if s.lfe.active ∧ s.frx.window.phase = .inTime ∧ s.lfe.count = answerLimit + recognitionLag then
      [.answerEarlyUnclassified]
    else []
  else []

/-- The tests of the drives. A phase's timer stands at n + 1 after the sample n positions from the phase's first (R105,
R107, R109, R113, R52). -/
def testsDue (s : State) : List Instr :=
  (if s.ctu.drive.phase = .released ∧ s.ctu.drive.timer = testDelay + 1 then [.lossTest] else []) ++
  (if s.ctu.drive.phase = .driving ∧
      s.ctu.drive.timer = (if s.ctu.state = .lead then leadCheckDelay + 1 else testDelay + 1) then
    [.driveFaultCheck] else []) ++
  (if s.ftx.state.inFrame ∧ s.ftx.drive.phase ≠ .rest ∧ s.ftx.drive.timer = testDelay + 1 then [.readbackTest]
   else []) ++
  (if s.ftx.state = .answering ∧ s.ftx.drive.phase = .driving ∧ s.ftx.drive.timer = testDelay + 1 then
    [.answerDriveCheck] else [])

/-- The sample of a position is taken, and what it brings joins the queue. -/
def takeSample (s : State) : State :=
  let t := readSample s
  { t with pending := s.pending ++ (edgeDue t (edgeAt s) ++ windowDue t (edgeAt s) ++ testsDue t) }

/-! ### One host-port byte -/

/-- A command's bytes are complete: the command joins the queue. -/
def enqueueCommand (code : Byte) (operand : List Byte) (s : State) : State :=
  { s with pending := s.pending ++ (hostCommand code operand).toList }

/-- The command byte (R169, R170). -/
def commandByteIn (b : Byte) (s : State) : State :=
  match operandLengthOf b with
  | some (n + 1) =>
    s.setHpt { s.hpt with txn := .operand, commandByte := some b, operand := [], operandLength := n + 1 }
  | _ => enqueueCommand b [] (s.setHpt { s.hpt with commandByte := some b })

/-- An operand byte. LOAD's length byte gives the length of the rest, or ends the operand at once (R172). -/
def operandByteIn (b : Byte) (s : State) : State :=
  let code := s.hpt.commandByte.getD 0x00#8
  let operand := s.hpt.operand ++ [b]
  let isLength := code = 0x20#8 ∧ operand.length = 5
  let need := if isLength ∧ lengthValid b then 5 + b.toNat else s.hpt.operandLength
  let s1 := s.setHpt { s.hpt with operand := operand, operandLength := need }
  if operand.length = need then enqueueCommand code operand s1 else s1

/-- The host clocks one byte (R169): a command or operand byte is taken in, a result byte goes out, and the bytes of
the trailing part are ignored. -/
def clockByte (b : Byte) (s : State) : State :=
  match s.hpt.txn with
  | .command => commandByteIn b s
  | .operand => operandByteIn b s
  | .result =>
    s.setHpt
      { s.hpt with
        result := s.hpt.result.tail, txn := if s.hpt.result.tail.isEmpty then .trailing else .result }
  | _ => s

/-- The next byte the host clocks, if it is clocking one while HOST_SEL is low. -/
def hostPosition (s : State) : State :=
  if s.hostSelLow then
    match s.hostIn with
    | b :: rest => clockByte b { s with hostIn := rest }
    | [] => s
  else s

/-- The tick (log entry 2): the sample that is due; otherwise the next line position begins while the LFE samples, and a
host-port byte is clocked. With the LFE off and no byte clocked, nothing. -/
def tick (s : State) : State :=
  if s.lfe.sampling then if s.lfe.sampleDue then takeSample s else hostPosition (beginPosition s)
  else hostPosition s

end Sys2Proof.Machine
end

