-- ==== Sys2Proof/Safety.lean ====
section
/-! DEFINITION. What holds of a sound state of the part: the invariants the spec's rules give its blocks, in the terms
the statements use. -/

namespace Sys2Proof.Machine

/-! ### Terms of the statements -/

/-- The state with a command's result pending in the port: the command and operand bytes that came, and the result
bytes that go out, its code first (R169). Nothing else changes. -/
def withResult (code : Byte) (operand result : List Byte) (s : State) : State :=
  { s with
    hpt :=
      { s.hpt with
        txn := .result, commandByte := some code, operand := operand, operandLength := operand.length
        result := result } }

/-- The LFE after a recognised falling edge (R143, R142). -/
def fallen (x : Lfe) : Lfe :=
  { x with active := false, count := 2, breakReported := false, idleReported := false, roundReported := false }

/-- The LFE and the FRX after a recognised rising edge that decides no answer class: the gap becomes the preceding gap,
saturating at 255; an FRX that decodes leaves IDLE for LEAD, and in a waiting answer window an edge after 5..24 positions
begins the answer pulse (R143, R129, R44). -/
def risen (gap : Nat) (s : State) : State :=
  { s with
    lfe := { s.lfe with active := true, count := 2, precedingGap := min 255 gap, stuckReported := false }
    frx :=
      if decoding s = true ∧ s.frx.state = .idle then { s.frx with state := .lead }
      else if decoding s = true ∧ s.frx.state = .answerWait ∧ s.frx.window.phase = .waiting ∧ gap ≤ 24 then
        { s.frx with window := { s.frx.window with phase := .inTime } }
      else s.frx }

/-- A rising edge after this gap decides no answer class: no answer window is waiting, or the gap is long enough (R44). -/
def decidesNoAnswer (gap : Nat) (s : State) : Prop :=
  s.frx.state = .answerWait → s.frx.window.phase = .waiting → 5 ≤ gap

/-- The part takes no part in what the line carries: it drives nothing, awaits and reads back no answer, and stands at no
contention opportunity. -/
def bystander (s : State) : Prop :=
  s.ftx.state = .idle ∧ s.ftx.answer = none ∧ s.ctu.drive = Drive.none
    ∧ (s.ctu.state = .off ∨ s.ctu.state = .lost ∨ (s.ctu.state = .waiting ∧ s.ctu.idleSeen = false))

/-- The FTX reads back nothing that the line carries: neither a frame of the part nor an answer (R113, R52). -/
def readsNothingBack (s : State) : Prop := s.ftx.state.inFrame = false ∧ s.ftx.answer = none

/-- The CTU after a falling edge: in the gap before a digit's drive, an edge dated so far belonged to the pulse that has just
ended and is forgotten (R106; log entry 18). -/
def undated (x : Ctu) : Ctu := if x.drive.phase = .rest then { x with drive := { x.drive with edgeAge := none } } else x

/-- One covered bit at the check register, as numbers: the register shifts one place up, and where its most significant bit
differs from the covered bit it is combined by exclusive-or with a value of bits 12, 5 and 0 (R124). -/
def checkBit (register bit : Nat) : Nat :=
  let shifted := register * 2 % 2 ^ 16
  if register / 2 ^ 15 = bit then shifted else shifted ^^^ (2 ^ 12 + 2 ^ 5 + 2 ^ 0)

/-- The check register after the two bits of a digit or symbol, the more significant first (R124, R125). -/
def checkSymbol (register : Half) (v : Sym) : Half :=
  BitVec.ofNat 16 (checkBit (checkBit register.toNat (v.toNat / 2)) (v.toNat % 2))

/-- The state with a counter raised by one short of 65535 (R178). -/
def counted (k : Counter) (s : State) : State := { s with hpt := { s.hpt with counters := s.hpt.counters.add k } }

/-- The state after the verdict that LINE_IDLE brings to an FRX in DISCARD: IDLE again with an empty pulse record; unless the
turn-on mark stands or the last pulse was a W6, every peer view is stale and STALE_EVENTS has risen. In every other receive
state nothing changes (R134, R135, R139, R31). -/
def verdictTaken (s : State) : State :=
  if s.frx.state = .discard then
    let cleared : State := { s with frx := { s.frx with state := .idle, record := .pulses ⟨none, none⟩ } }
    match s.frx.record with
    | .turnOn => cleared
    | .pulses p =>
      if p.last = some .w6 then cleared
      else
        counted .staleEvents
          { cleared with peers := s.peers.map fun r => if r.presence = .self then r else { r with stale := true } }
  else s

/-- A header of 32 bits after eight claim bits, as numbers, meets R126: claim address 30 or less, a kind 0..4, and the row of
Table 7.4 for that kind (the places of the fields are Table 10.5). -/
def tableHeader (claim h : Nat) : Prop :=
  let digit := claim / 64
  let address := claim % 64
  let kind := h / 2 ^ 29
  let dest := h / 2 ^ 24 % 32
  let lane := h / 2 ^ 22 % 4
  let toggle := h / 2 ^ 21 % 2
  let resync := h / 2 ^ 20 % 2
  let length := h / 2 ^ 14 % 64
  let toPeer := dest ≤ 30 ∧ dest ≠ address
  let message :=
    1 ≤ length ∧ length ≤ 32 ∧ ((lane = 0 ∧ digit = 3) ∨ (lane = 1 ∧ digit = 1) ∨ (lane = 2 ∧ digit = 0))
  let control := lane = 0 ∧ toggle = 0 ∧ resync = 0 ∧ length = 0 ∧ digit = 2
  address ≤ 30 ∧
    ((kind = 0 ∧ toPeer ∧ message) ∨ (kind = 1 ∧ dest = 31 ∧ toggle = 0 ∧ resync = 0 ∧ message)
      ∨ (kind = 2 ∧ dest = 31 ∧ control) ∨ (kind = 3 ∧ dest = 31 ∧ control) ∨ (kind = 4 ∧ toPeer ∧ control))

/-- An advertisement within the fields of the frame header (Table 10.5). -/
def Advert.inRange (v : Advert) : Prop :=
  v.reserve.a ≤ 7 ∧ v.reserve.b ≤ 7 ∧ v.reserve.c ≤ 7 ∧ v.shared ≤ 31

/-- A candidate as the Frame Selector names it (Table 4.5, Table 7.4): a message of 1..32 bytes to a peer or to all; a
STATUS or JOIN to all, or a POLL to a peer, without payload. -/
def Candidate.proper (own : Nat) (c : Candidate) : Prop :=
  match c.kind with
  | .data => c.dest ≤ 30 ∧ c.dest ≠ own ∧ 1 ≤ c.payload.length ∧ c.payload.length ≤ 32
  | .broadcast => c.dest = 31 ∧ 1 ≤ c.payload.length ∧ c.payload.length ≤ 32
  | .status => c.dest = 31 ∧ c.lane = .a ∧ c.payload = []
  | .join => c.dest = 31 ∧ c.lane = .a ∧ c.payload = []
  | .poll => c.dest ≤ 30 ∧ c.dest ≠ own ∧ c.lane = .a ∧ c.payload = []

/-- A profile within the ranges of Table 9.3. -/
def Profile.inRange (p : Profile) : Prop :=
  p.address ≤ 30 ∧ p.quantum ≤ 5 ∧ p.reserve.a ≤ 7 ∧ p.reserve.b ≤ 7 ∧ p.reserve.c ≤ 7
    ∧ p.reserve.a + p.reserve.b + p.reserve.c ≤ 12 ∧ 1 ≤ p.retryLimit ∧ p.retryLimit ≤ 8
    ∧ 8 ≤ p.silenceLimit ∧ p.silenceLimit ≤ 255 ∧ 1 ≤ p.advertStep ∧ p.advertStep ≤ 8

/-! ### Invariants -/

/-- The stores hold no more than they can: 8 notices, 8 broadcasts, 16 message slots, 31 peer records (R175, R93, R66,
R20). -/
def CapacityHolds (s : State) : Prop :=
  s.hpt.notices.length ≤ 8 ∧ s.bcr.ring.length ≤ 8 ∧ s.txs.store.length + s.txs.outcomes.length ≤ 16
    ∧ s.peers.length = 31

/-- Every counted quantity lies in its range: ages, heartbeat, notices lost, views, the running count, the preceding gap
and the span count (Tables 2.1, 8.1, 9.1, 10.1), and a SET profile in the ranges of Table 9.3. -/
def RangesHold (s : State) : Prop :=
  (∀ r ∈ s.peers, r.age ≤ 255 ∧ r.view.reserve.a ≤ 7 ∧ r.view.reserve.b ≤ 7 ∧ r.view.reserve.c ≤ 7 ∧ r.view.shared ≤ 31)
    ∧ s.stc.heartbeat ≤ 255 ∧ s.stc.spanCount < 2048 ∧ s.hpt.noticesLost ≤ 255
    ∧ s.lfe.count ≤ 1023 ∧ s.lfe.precedingGap ≤ 255 ∧ (s.stc.profileSet = true → s.stc.profile.inRange)

/-- The pool's accounting (R1): reserves within the profile's ranges, each region's use within its size, and an empty
pool in CONFIG (R18). -/
def PoolHolds (s : State) : Prop :=
  s.stc.profile.reserve.a + s.stc.profile.reserve.b + s.stc.profile.reserve.c ≤ 12
    ∧ usedReserve s .a ≤ s.stc.profile.reserve.a ∧ usedReserve s .b ≤ s.stc.profile.reserve.b
    ∧ usedReserve s .c ≤ s.stc.profile.reserve.c ∧ usedShared s ≤ sharedSize s
    ∧ (s.stc.station = .config → s.rxp.queue = [])

/-- One advertisement is at most another in each of the four components. -/
def Advert.atMost (v w : Advert) : Prop :=
  v.reserve.a ≤ w.reserve.a ∧ v.reserve.b ≤ w.reserve.b ∧ v.reserve.c ≤ w.reserve.c ∧ v.shared ≤ w.shared

/-- The self-view never exceeds the free counts (R12), and neither does a captured advertisement, which stands only
while the FTX is in its frame. In CONFIG the self-view is all zeros. -/
def SelfViewHolds (s : State) : Prop :=
  s.rxp.selfView.atMost (freeCounts s)
    ∧ (∀ v, s.ftx.captured = some v → v.atMost (freeCounts s) ∧ s.ftx.state.inFrame = true)
    ∧ (s.stc.station = .config → s.rxp.selfView = Advert.zero)

/-- The advertisement-owed flag is set exactly while the cause set is not empty (R15). -/
def OwedHolds (s : State) : Prop := s.rxp.owed = s.rxp.causes.any

/-- Every record that is UNKNOWN or SILENT has a stale view (R21). -/
def StaleHolds (s : State) : Prop :=
  ∀ r ∈ s.peers, r.presence = .unknown ∨ r.presence = .silent → r.stale = true

/-- The part may be on the air: JOINING or ACTIVE (R153). -/
def onAir (s : State) : Prop := s.stc.station = .joining ∨ s.stc.station = .active

/-- What the station state allows the other blocks (Tables 9.1 and 9.2; R9, R101, R115, R139, R153, R155, R166). -/
structure StationHolds (s : State) : Prop where
  /-- The profile is locked from START to the next reset. -/
  lock : s.stc.profileLocked = true ↔ s.stc.station ≠ .config
  /-- A return state stands exactly in LINE_FAULT. -/
  returns : s.stc.returnState.isSome = true ↔ s.stc.station = .lineFault
  /-- It is LISTENING, JOINING or ACTIVE. -/
  returnsTo : ∀ st, s.stc.returnState = some st → st = .listening ∨ st = .joining ∨ st = .active
  /-- A halt reason stands exactly in HALTED. -/
  reason : s.stc.haltReason ≠ .none ↔ s.stc.station = .halted
  /-- The LFE samples in every state but CONFIG and HALTED. -/
  samples : s.lfe.sampling = true ↔ s.stc.station ≠ .config ∧ s.stc.station ≠ .halted
  /-- The span timebase runs in the same states. -/
  spans : s.stc.spanRunning = true ↔ s.stc.station ≠ .config ∧ s.stc.station ≠ .halted
  /-- The FRX is at its reset values while it is off. -/
  receiver : decoding s = false → s.frx = Frx.reset
  /-- The CTU is OFF outside JOINING and ACTIVE. -/
  contends : s.ctu.state ≠ .off → onAir s
  /-- The FTX is IDLE outside JOINING and ACTIVE. -/
  transmits : s.ftx.state ≠ .idle → onAir s
  /-- An answer is driven or read back in ACTIVE alone. -/
  answers : s.ftx.state = .answering ∨ s.ftx.answer.isSome = true → s.stc.station = .active
  /-- A drive of the CTU belongs to its LEAD or its claim. -/
  contest : s.ctu.drive.phase ≠ .rest → s.ctu.state = .lead ∨ s.ctu.state = .claim
  /-- A drive of the FTX belongs to its frame or its answer. -/
  frame : s.ftx.drive.phase ≠ .rest → s.ftx.state.inFrame = true ∨ s.ftx.state = .answering
  /-- A frame carries a captured advertisement from the beginning of its first header symbol on (R9). -/
  captures : s.ftx.state.inFrame = true → s.ftx.captured.isSome = true
    ∨ (s.ftx.state = .header ∧ s.ftx.symbolIndex = 0 ∧ s.ftx.drive.phase = .rest)
  /-- The fault count reaches 4 in HALTED alone. -/
  faults : s.ftx.faultCount ≤ 4 ∧ (s.ftx.faultCount = 4 → s.stc.station = .halted)
  /-- RST holds the part in CONFIG. -/
  held : s.rstLow = true → s.stc.station = .config

/-- Slot states (R66, R64, R69): the store order holds QUEUED and IN_FLIGHT records without an outcome, and
withdraw-pending stands on an IN_FLIGHT one alone; the outcome list holds DONE records with an outcome. -/
def SlotsHold (s : State) : Prop :=
  (∀ m ∈ s.txs.store, m.state ≠ .done ∧ m.outcome = none ∧ (m.withdrawPending = true → m.state = .inFlight))
    ∧ (∀ m ∈ s.txs.outcomes, m.state = .done ∧ m.outcome.isSome = true ∧ m.withdrawPending = false)

/-- At most one message is IN_FLIGHT, and one only while the CTU holds it locked from the LEAD to its resolution
(R78). -/
def FlightHolds (s : State) : Prop :=
  s.txs.store.countP isInFlight ≤ 1
    ∧ (0 < s.txs.store.countP isInFlight →
        (s.ctu.state = .lead ∨ s.ctu.state = .claim ∨ s.ctu.state = .won)
          ∧ ∃ c, s.ctu.locked = some c ∧ c.kind.isMessage = true)

/-- Try counts (R57): below the retry limit while a message is live, at most the limit once it is DONE. A profile that
is SET has a retry limit of at least 1 (Table 9.3), and no message is held in CONFIG (R86). -/
def TriesHold (s : State) : Prop :=
  (s.stc.profileSet = true → 1 ≤ s.stc.profile.retryLimit)
    ∧ (s.stc.station ≠ .config → s.stc.profileSet = true)
    ∧ (s.stc.station = .config → s.txs.store = [] ∧ s.txs.outcomes = [])
    ∧ (∀ m ∈ s.txs.store, m.tries < s.stc.profile.retryLimit)
    ∧ (∀ m ∈ s.txs.outcomes, m.tries ≤ s.stc.profile.retryLimit)

/-- The answer window is open exactly in ANSWER_WAIT (Table 7.6, R137). -/
def WindowHolds (s : State) : Prop := s.frx.state = .answerWait ↔ s.frx.window.phase ≠ .closed

end Sys2Proof.Machine
end

