-- ==== Sys2Proof/Certificates/Slice0/Obligations.lean ====
section
/-! DEFINITION. The statements for the provers. -/

open Sys2Proof Sys2Proof.Machine

/-! ### The step -/

/-- A step takes the command at the front of the queue and is that command's meaning on the rest. -/
def Obligations.StepRunsTheFrontCommand : Prop :=
  ∀ (c : Instr) (rest : List Instr) (s : State), s.pending = c :: rest → step s = exec c { s with pending := rest }

/-- What a step on an empty queue brings (that such a step begins a position or takes its sample, and in which of the two
each thing falls due, is the model's choice, log entry 2; the lag of two positions, for the answer window's two steps as well, is
log entry 3; that a drive whose beginning is past begins at once is log entry 27). The FRX, the pool, the peer table, the stores
and the pins stay as they are.
A position begins: the running count, the ages of the part's own edges and, while the timebase runs, the span count move
on by one. R143, R146 to R148: FRAME_GAP_BREAK, LINE_IDLE, ROUND_GAP and LINE_STUCK come two positions after the gap or
pulse has reached 25, 48, 96 and 512, each unless it is marked as reported. R152, R105, R106, R112, R51: a drive ends when
the line's dated rising edge is its width old, R153: and at its 64th position at the latest (log entry 28); it begins at the first
position that is 8 or more after the dated falling edge before it. R164: a span expires every 2048 positions. R169: one byte is
clocked in, and a host command it completes joins the queue.
The sample: R154, its level is the part's own drive, where it reaches the line, and whatever else holds the line. R142,
R143, R145: an edge is recognised exactly when it and the two samples before it agree with each other and differ from the
filtered level, with the interval between the edges' dates. R44, R45: with no edge, the answer window's steps come at the
24th released and the 44th active sample. R105, R107, R109, R113, R52: the tests come 4 samples after a drive's beginning or
its release, for a LEAD's beginning 8. -/
def Obligations.EdgesNeedThreeAgreeingSamples : Prop :=
  ∀ s t : State, s.pending = [] → step s = .next t →
    let dues (c : Instr) (cond : Prop) : Prop := c ∈ t.pending ↔ cond
    let clocked (c : Instr) : Prop := ∃ code operand, hostBytes c = some (code, operand)
    let later (d : Drive) : Drive := { d with edgeAge := d.edgeAge.map fun n => min 1023 (n + 1) }
    let longer (d : Drive) : Drive := { d with timer := if d.phase = .rest then d.timer else min 1023 (d.timer + 1) }
    let begins := s.lfe.sampling = true ∧ s.lfe.sampleDue = false
    let samples := s.lfe.sampling = true ∧ s.lfe.sampleDue = true
    let eight := 7 ≤ (if s.lfe.active then s.lfe.precedingGap + s.lfe.count else s.lfe.count)
    let ends (d : Drive) (width : Nat) : Prop := d.phase = .driving ∧ (d.edgeAge = some (width - 1) ∨ 64 ≤ d.timer)
    let rises := s.lfe.active = false ∧ lineRx s = true ∧ s.lfe.raw1 = true ∧ s.lfe.raw2 = true
    let falls := s.lfe.active = true ∧ lineRx s = false ∧ s.lfe.raw1 = false ∧ s.lfe.raw2 = false
    (t.frx = s.frx ∧ t.rxp = s.rxp ∧ t.peers = s.peers ∧ t.txs = s.txs ∧ t.bcr = s.bcr
      ∧ t.rstLow = s.rstLow ∧ t.hostSelLow = s.hostSelLow)
    ∧ (begins →
      t.lfe = { s.lfe with count := min 1023 (s.lfe.count + 1), sampleDue := true }
      ∧ t.stc =
          { s.stc with
            spanCount := if s.stc.spanRunning then (s.stc.spanCount + 1) % 2048 else s.stc.spanCount }
      ∧ t.ctu = { s.ctu with drive := later s.ctu.drive } ∧ t.ftx = { s.ftx with drive := later s.ftx.drive }
      ∧ t.lineIn = s.lineIn
      ∧ dues .frameGapBreak (s.lfe.active = false ∧ s.lfe.count = 26 ∧ s.lfe.breakReported = false)
      ∧ dues .lineIdle (s.lfe.active = false ∧ s.lfe.count = 49 ∧ s.lfe.idleReported = false)
      ∧ dues .roundGap (s.lfe.active = false ∧ s.lfe.count = 97 ∧ s.lfe.roundReported = false)
      ∧ dues .lineStuck (s.lfe.active = true ∧ s.lfe.count = 513 ∧ s.lfe.stuckReported = false)
      ∧ dues .leadRelease (s.ctu.state = .lead ∧ ends s.ctu.drive 64)
      ∧ (s.stc.profile.address ≤ 30 →
          dues .digitRelease
            (s.ctu.state ≠ .lead ∧ ends s.ctu.drive (8 * (claimDigitValue s + 1))))
      ∧ dues .symbolRelease
          (s.ftx.state.inFrame = true
            ∧ ends s.ftx.drive (if s.ftx.state = .endPulse then 48 else 8 * ((txSym s).toNat + 1)))
      ∧ dues .answerRelease
          (s.ftx.state = .answering
            ∧ ((s.ftx.answer = some .accept ∧ ends s.ftx.drive 16)
              ∨ (s.ftx.answer = some .duplicate ∧ ends s.ftx.drive 24)
              ∨ (s.ftx.answer = some .refused ∧ ends s.ftx.drive 40)))
      ∧ dues .digitDriveStart (eight ∧ s.ctu.state = .claim ∧ s.ctu.drive.phase = .rest)
      ∧ dues .symbolDriveStart (eight ∧ s.ftx.state.inFrame = true ∧ s.ftx.drive.phase = .rest)
      ∧ dues .answerDriveStart (eight ∧ s.ftx.state = .answering ∧ s.ftx.drive.phase = .rest)
      ∧ dues .spanExpiry (s.stc.spanRunning = true ∧ s.stc.spanCount = 2047)
      ∧ (∀ c ∈ t.pending, ¬ clocked c →
          c ∈ [Instr.frameGapBreak, .lineIdle, .roundGap, .lineStuck, .leadRelease, .digitRelease, .symbolRelease,
            .answerRelease, .digitDriveStart, .symbolDriveStart, .answerDriveStart, .spanExpiry]))
    ∧ (samples →
      t.lfe = { s.lfe with raw1 := lineRx s, raw2 := s.lfe.raw1, sampleDue := false }
      ∧ t.ctu = { s.ctu with drive := longer s.ctu.drive } ∧ t.ftx = { s.ftx with drive := longer s.ftx.drive }
      ∧ t.stc = s.stc ∧ t.hpt = s.hpt ∧ t.hostIn = s.hostIn ∧ t.lineIn = s.lineIn.tail
      ∧ (s.lineIn = [] → lineRx s = lineTx s)
      ∧ (∀ x rest, s.lineIn = x :: rest → (lineRx s = true ↔ (lineTx s = true ∧ x.driven = true) ∨ x.others = true))
      ∧ (∀ gap, dues (.lineRisingEdge gap) (rises ∧ gap = s.lfe.count - 2))
      ∧ (∀ width, dues (.pulseEvent width) (falls ∧ width = s.lfe.count - 2))
      ∧ dues .answerWindowClose
          (s.frx.state = .answerWait ∧ s.frx.window.phase = .waiting ∧ s.lfe.active = false ∧ s.lfe.count = 26 ∧ ¬ rises)
      ∧ dues .answerEarlyUnclassified
          (s.frx.state = .answerWait ∧ s.frx.window.phase = .inTime ∧ s.lfe.active = true ∧ s.lfe.count = 46 ∧ ¬ falls)
      ∧ dues .lossTest (s.ctu.drive.phase = .released ∧ s.ctu.drive.timer = 4)
      ∧ dues .driveFaultCheck
          (s.ctu.drive.phase = .driving ∧ s.ctu.drive.timer = if s.ctu.state = .lead then 8 else 4)
      ∧ dues .readbackTest (s.ftx.state.inFrame = true ∧ s.ftx.drive.phase ≠ .rest ∧ s.ftx.drive.timer = 4)
      ∧ dues .answerDriveCheck
          (s.ftx.state = .answering ∧ s.ftx.drive.phase = .driving ∧ s.ftx.drive.timer = 4)
      ∧ (∀ c ∈ t.pending, (∃ gap, c = .lineRisingEdge gap) ∨ (∃ width, c = .pulseEvent width)
          ∨ c ∈ [Instr.answerWindowClose, .answerEarlyUnclassified, .lossTest, .driveFaultCheck, .readbackTest,
              .answerDriveCheck]))
    ∧ (s.lfe.sampling = false →
      t.lfe = s.lfe ∧ t.stc = s.stc ∧ t.ctu = s.ctu ∧ t.ftx = s.ftx ∧ t.lineIn = s.lineIn
      ∧ ∀ c ∈ t.pending, clocked c)
    ∧ (¬ samples →
      (s.hostSelLow = false ∨ s.hostIn = [] → t.hpt = s.hpt ∧ t.hostIn = s.hostIn ∧ ∀ c ∈ t.pending, ¬ clocked c)
      ∧ ∀ b rest, s.hostSelLow = true → s.hostIn = b :: rest → t.hpt = (clockByte b s).hpt ∧ t.hostIn = rest
        ∧ ∀ c, clocked c → (c ∈ t.pending ↔ c ∈ (clockByte b s).pending))

/-! ### Resets and the select pin -/

/-- R166 and the hard-reset columns of Tables 1.4, 2.3, 4.7, 5.3, 6.4, 7.9 and 9.5, with R141, R176 and R179. (Fields that no table names stand at the model's values, log entry 23.) -/
def Obligations.HardResetLeavesTheTableValues : Prop :=
  ∀ s : State, ∃ t, exec .hardReset s = .next t
    ∧ t.rstLow = true ∧ t.hostSelLow = s.hostSelLow ∧ t.pending = s.pending
    ∧ t.lineIn = s.lineIn ∧ t.hostIn = s.hostIn
    ∧ t.stc =
      { station := .config, haltReason := .none, returnState := none, frameHeard := false
        profile := ⟨0, 0, ⟨0, 0, 0⟩, 0, 0, 0, false⟩, profileSet := false, profileLocked := false
        spanRunning := false, spanCount := 0, heartbeat := 0 }
    ∧ t.lfe.sampling = false ∧ t.lfe.active = false ∧ t.lfe.count = 0 ∧ t.lfe.precedingGap = 0
    ∧ t.lfe.breakReported = false ∧ t.lfe.idleReported = false ∧ t.lfe.roundReported = false
    ∧ t.lfe.stuckReported = false
    ∧ t.frx =
      { state := .idle, digitIndex := 0, symCount := 0, claim := 0#8, header := 0#32, payload := []
        partialByte := 0#8, crc := 0#16, check := 0#16, recent := ⟨none, none⟩
        record := .pulses ⟨none, none⟩, window := ⟨.closed, 0, 0, .a⟩ }
    ∧ t.ctu =
      { state := .off, digitIndex := 0, idleSeen := false, locked := none, roundSpent := false, joined := false
        drive := ⟨.rest, 0, none⟩ }
    ∧ t.ftx =
      { state := .idle, symbolIndex := 0, captured := none, faultCount := 0, toggle := false, resync := false
        answer := none, drive := ⟨.rest, 0, none⟩ }
    ∧ t.rxp = { queue := [], arrivals := 0#16, selfView := ⟨⟨0, 0, 0⟩, 0⟩, owed := false
                causes := ⟨false, false, false, false, false, false⟩ }
    ∧ t.peers = List.replicate 31
        { presence := .unknown, stale := true, view := ⟨⟨0, 0, 0⟩, 0⟩, age := 0, txToggle := ⟨false, false, false⟩
          resyncPending := ⟨false, false, false⟩, rxExpected := ⟨false, false, false⟩
          resyncHeld := ⟨false, false, false⟩, pollAge := .none }
    ∧ t.txs = { store := [], outcomes := [], loadCounter := 0#16 }
    ∧ t.bcr = { ring := [], arrivals := 0#16 }
    ∧ t.hpt.txn = .idle ∧ t.hpt.commandByte = none ∧ t.hpt.operand = [] ∧ t.hpt.operandLength = 0
    ∧ t.hpt.result = [] ∧ t.hpt.resetDue = false ∧ t.hpt.notices = [] ∧ t.hpt.noticesLost = 0
    ∧ (∀ k, t.hpt.counters.get k = 0#16)
    ∧ lineTx t = false ∧ attnActive t = false ∧ hostDout t = none

/-- R167, R173: the rise of HOST_SEL carries out a station reset that is due; the profile's fields and status stay. -/
def Obligations.StationResetKeepsTheProfile : Prop :=
  ∀ s : State, s.hpt.resetDue = true →
    exec .hostSelRise s = .next
      { State.reset with
        rstLow := s.rstLow, hostSelLow := false, pending := s.pending, lineIn := s.lineIn, hostIn := s.hostIn
        stc := { Stc.reset with profile := s.stc.profile, profileSet := s.stc.profileSet } }

/-- R169, R170, R166: a fall of HOST_SEL begins a transaction (none while RST is low), its rise ends one whatever its
state, and the release of RST lets the part take transactions again. -/
def Obligations.SelectAndReleaseMoveOnlyThePort : Prop :=
  (∀ s : State, s.hostSelLow = false → s.rstLow = false →
    exec .hostSelFall s = .next
      { s with
        hostSelLow := true
        hpt :=
          { s.hpt with
            txn := .command, commandByte := none, operand := [], operandLength := 0, result := []
            resetDue := false } })
  ∧ (∀ s : State, s.hostSelLow = false → s.rstLow = true →
      exec .hostSelFall s = .next { s with hostSelLow := true })
  ∧ (∀ s : State, s.hpt.resetDue = false →
      exec .hostSelRise s = .next
        { s with
          hostSelLow := false
          hpt :=
            { s.hpt with
              txn := .idle, commandByte := none, operand := [], operandLength := 0, result := []
              resetDue := false } })
  ∧ (∀ s : State, exec .rstRelease s = .next { s with rstLow := false })

/-! ### Reading commands -/

/-- R181, Table 10.10: STATE's thirteen bytes, and nothing but the port changes. -/
def Obligations.StateCommandReportsASnapshot : Prop :=
  ∀ s : State, portOpen 0x01#8 s = true →
    exec .state s = .next
      (withResult 0x01#8 []
        [ 0x80#8
        , match s.stc.station with
          | .config => 0x00#8 | .listening => 0x01#8 | .joining => 0x02#8 | .active => 0x03#8
          | .lineFault => 0x04#8 | .halted => 0x05#8
        , match s.stc.haltReason with | .none => 0x00#8 | .addressClash => 0x01#8 | .transmitFault => 0x02#8
        , match s.stc.returnState with
          | none => 0x00#8 | some .config => 0x00#8 | some .listening => 0x01#8 | some .joining => 0x02#8
          | some .active => 0x03#8 | some .lineFault => 0x04#8 | some .halted => 0x05#8
        , BitVec.ofNat 8 s.stc.profile.address
        , BitVec.ofNat 8 (s.stc.profileSet.toNat + 2 * s.stc.profileLocked.toNat + 4 * s.ctu.roundSpent.toNat
            + 8 * s.rxp.owed.toNat)
        , BitVec.ofNat 8 (s.rxp.causes.a.toNat + 2 * s.rxp.causes.b.toNat + 4 * s.rxp.causes.c.toNat
            + 8 * s.rxp.causes.d.toNat + 16 * s.rxp.causes.e.toNat + 32 * s.rxp.causes.f.toNat)
        , BitVec.ofNat 8 s.ftx.faultCount
        , BitVec.ofNat 8 (16 - (s.txs.store.length + s.txs.outcomes.length))
        , BitVec.ofNat 8 s.txs.outcomes.length
        , BitVec.ofNat 8 s.rxp.queue.length
        , BitVec.ofNat 8 s.bcr.ring.length
        , BitVec.ofNat 8 s.hpt.notices.length
        , BitVec.ofNat 8 s.hpt.noticesLost ]
        s)

/-- R182, Table 10.11: PEER returns every field of the record at an address 0..30, BAD_OPERAND above, and changes
nothing but the port. -/
def Obligations.PeerCommandReadsTheRecord : Prop :=
  ∀ (addr : Byte) (s : State) (r : Peer), portOpen 0x02#8 s = true → s.peers.length = 31 →
    (addr.toNat ≤ 30 → s.peers[addr.toNat]? = some r →
      exec (.peer addr) s = .next
        (withResult 0x02#8 [addr]
          [ 0x80#8
          , match r.presence with | .unknown => 0x00#8 | .present => 0x01#8 | .silent => 0x02#8 | .self => 0x03#8
          , if r.stale then 0x01#8 else 0x00#8
          , BitVec.ofNat 8 r.view.reserve.a, BitVec.ofNat 8 r.view.reserve.b, BitVec.ofNat 8 r.view.reserve.c
          , BitVec.ofNat 8 r.view.shared, BitVec.ofNat 8 r.age
          , BitVec.ofNat 8 (r.txToggle.a.toNat + 2 * r.txToggle.b.toNat + 4 * r.txToggle.c.toNat
              + 16 * r.resyncPending.a.toNat + 32 * r.resyncPending.b.toNat + 64 * r.resyncPending.c.toNat)
          , BitVec.ofNat 8 (r.rxExpected.a.toNat + 2 * r.rxExpected.b.toNat + 4 * r.rxExpected.c.toNat
              + 16 * r.resyncHeld.a.toNat + 32 * r.resyncHeld.b.toNat + 64 * r.resyncHeld.c.toNat)
          , match r.pollAge with | .zero => 0x00#8 | .one => 0x01#8 | .none => 0xFF#8 ]
          s))
    ∧ (31 ≤ addr.toNat → exec (.peer addr) s = .next (withResult 0x02#8 [addr] [0x85#8] s))

/-- R180: COUNTERS returns the ten counters in the order of Table 10.4, each most significant byte first, and sets all
ten to 0 in the same step. -/
def Obligations.CountersAreReturnedAndCleared : Prop :=
  ∀ s : State, portOpen 0x03#8 s = true →
    exec .counters s = .next
      (withResult 0x03#8 []
        (0x80#8 ::
          ([s.hpt.counters.framesSent, s.hpt.counters.arbLost, s.hpt.counters.retries, s.hpt.counters.refusedReceived,
            s.hpt.counters.refusedIssued, s.hpt.counters.duplicatesSeen, s.hpt.counters.decodeErrors,
            s.hpt.counters.breaks, s.hpt.counters.bcastOverwritten, s.hpt.counters.staleEvents].flatMap
              fun x => [BitVec.ofNat 8 (x.toNat / 256), BitVec.ofNat 8 (x.toNat % 256)]))
        { s with
          hpt := { s.hpt with counters := ⟨0#16, 0#16, 0#16, 0#16, 0#16, 0#16, 0#16, 0#16, 0#16, 0#16⟩ } })

/-! ### Profile and life cycle -/

/-- R157, Table 10.8: SETUP outside CONFIG, with every check passed, and with one failed. -/
def Obligations.SetupTakesTheWholeProfileOrNothing : Prop :=
  ∀ (address quantum ra rb rc retries silence last : Byte) (s : State), portOpen 0x10#8 s = true →
    let operand := [address, quantum, ra, rb, rc, retries, silence, last]
    let good := address.toNat ≤ 30 ∧ quantum.toNat ≤ 5 ∧ ra.toNat ≤ 7 ∧ rb.toNat ≤ 7 ∧ rc.toNat ≤ 7
      ∧ ra.toNat + rb.toNat + rc.toNat ≤ 12 ∧ 1 ≤ retries.toNat ∧ retries.toNat ≤ 8
      ∧ 8 ≤ silence.toNat ∧ 1 ≤ last.toNat % 16 ∧ last.toNat % 16 ≤ 8 ∧ last.toNat / 16 ≤ 1
    (s.stc.station ≠ .config →
      exec (.setup address quantum ra rb rc retries silence last) s = .next (withResult 0x10#8 operand [0x83#8] s))
    ∧ (s.stc.station = .config → good →
      exec (.setup address quantum ra rb rc retries silence last) s = .next
        (withResult 0x10#8 operand [0x80#8]
          { s with
            stc :=
              { s.stc with
                profileSet := true
                profile :=
                  { address := address.toNat, quantum := quantum.toNat
                    reserve := ⟨ra.toNat, rb.toNat, rc.toNat⟩
                    retryLimit := retries.toNat, silenceLimit := silence.toNat
                    advertStep := last.toNat % 16, broadcastStore := decide (last.toNat / 16 = 1) } } }))
    ∧ (s.stc.station = .config → ¬ good →
      exec (.setup address quantum ra rb rc retries silence last) s = .next (withResult 0x10#8 operand [0x84#8] s))

/-- R158, with R19, R43, R100, R120, R139 to R141, R164 and R168: START outside CONFIG, with the profile UNSET, and
accepted. Accepted, it leaves the After START columns of the tables, the flag owed with causes (a) and (b). (That the raw samples
before position 0 stand as released is log entry 3, that the sample of position 0 is then due is log entry 2: both are
the model's choices.) -/
def Obligations.StartLocksAndListens : Prop :=
  ∀ s : State, portOpen 0x11#8 s = true →
    (s.stc.station ≠ .config → exec .start s = .next (withResult 0x11#8 [] [0x83#8] s))
    ∧ (s.stc.station = .config → s.stc.profileSet = false →
        exec .start s = .next (withResult 0x11#8 [] [0x84#8] s))
    ∧ (s.stc.station = .config → s.stc.profileSet = true → s.stc.profile.inRange →
        exec .start s = .next
          (withResult 0x11#8 [] [0x80#8]
            { s with
              stc :=
                { station := .listening, haltReason := .none, returnState := none, frameHeard := false
                  profile := s.stc.profile, profileSet := true, profileLocked := true
                  spanRunning := true, spanCount := 0, heartbeat := 0 }
              lfe := { Lfe.reset with sampling := true, sampleDue := true }
              frx := { Frx.reset with state := .discard, record := .turnOn }
              ctu := Ctu.reset
              ftx := Ftx.reset
              rxp := { queue := [], arrivals := 0#16, selfView := ⟨⟨0, 0, 0⟩, 0⟩, owed := true
                       causes := ⟨true, true, false, false, false, false⟩ }
              peers := (List.range 31).map fun p =>
                if p = s.stc.profile.address then { Peer.reset with presence := .self } else Peer.reset
              txs := ⟨[], [], 0#16⟩
              bcr := ⟨[], 0#16⟩ }))

/-- R173, R170: RESET answers OK in every station state and sets station reset due, every block working on as before; a
code that is no known code is taken at its command byte with BAD_OPERAND, in every station state. -/
def Obligations.ResetAndUnknownCodesAreAnsweredAnywhere : Prop :=
  (∀ s : State, portOpen 0x12#8 s = true →
    exec .reset s = .next (withResult 0x12#8 [] [0x80#8] { s with hpt := { s.hpt with resetDue := true } }))
  ∧ ∀ (code : Byte) (s : State), portOpen code s = true →
    code ∉ [0x01#8, 0x02#8, 0x03#8, 0x10#8, 0x11#8, 0x12#8, 0x20#8, 0x21#8, 0x22#8, 0x30#8, 0x31#8, 0x32#8] →
    exec (.unknownCommand code) s = .next (withResult code [] [0x85#8] s)

/-- R166, R169, R170: a host command that the port cannot take, with RST low or in no transaction that stands at its
bytes, changes nothing (the model's choice, log entry 1). -/
def Obligations.HostCommandOutOfTurnIsIgnored : Prop :=
  ∀ (c : Instr) (code : Byte) (operand : List Byte) (s : State), hostBytes c = some (code, operand) →
    (s.rstLow = true ∨ s.hpt.txn = .idle ∨ s.hpt.txn = .result ∨ s.hpt.txn = .trailing
      ∨ (s.hpt.txn = .operand ∧ s.hpt.commandByte ≠ some code)) →
    exec c s = .next s

/-! ### Messages out -/

/-- R70 (Table 4.3), R172, R67, R68, R102: a LOAD answers the first condition of Table 4.3 that holds. Refused, it changes
nothing but the port. Accepted, it answers its load number, its message joins the back of the store order as QUEUED, and
the acceptance is a naming moment. -/
def Obligations.LoadFollowsTheTableOfChecks : Prop :=
  ∀ (tag : Half) (dest lane len : Byte) (payload : List Byte) (s : State), portOpen 0x20#8 s = true →
    let head := [tag.extractLsb' 8 8, tag.extractLsb' 0 8, dest, lane, len]
    let operand := head ++ payload.take len.toNat
    let running := s.stc.station ≠ .config ∧ s.stc.station ≠ .halted
    let inRange := dest.toNat ≠ s.stc.profile.address ∧ dest.toNat ≤ 31 ∧ lane.toNat ≤ 2
    let silent := dest.toNat ≤ 30 ∧ (peerAt s dest.toNat).presence = .silent
    let held := s.txs.store.length + s.txs.outcomes.length
    let run := exec (.load tag dest lane len payload) s
    ((len.toNat = 0 ∨ 32 < len.toNat) → run = .next (withResult 0x20#8 head [0x85#8] s))
    ∧ (1 ≤ len.toNat → len.toNat ≤ 32 → len.toNat ≤ payload.length →
      (¬ running → run = .next (withResult 0x20#8 operand [0x83#8] s))
      ∧ (running → ¬ inRange → run = .next (withResult 0x20#8 operand [0x85#8] s))
      ∧ (running → inRange → silent → run = .next (withResult 0x20#8 operand [0x88#8] s))
      ∧ (running → inRange → ¬ silent → 16 ≤ held → run = .next (withResult 0x20#8 operand [0x82#8] s))
      ∧ (running → inRange → ¬ silent → held < 16 → ∀ l : Lane,
          lane.toNat = (match l with | .a => 0 | .b => 1 | .c => 2) →
          run = .next
            (nameMoment
              (withResult 0x20#8 operand
                [0x80#8, s.txs.loadCounter.extractLsb' 8 8, s.txs.loadCounter.extractLsb' 0 8]
                { s with
                  txs :=
                    { s.txs with
                      loadCounter := s.txs.loadCounter + 1#16
                      store := s.txs.store ++
                        [{ tag := tag, loadNumber := s.txs.loadCounter, dest := dest.toNat, lane := l
                           payload := payload.take len.toNat, tries := 0, withdrawPending := false
                           state := .queued, outcome := none, duplicateNote := false }] } }))))

/-- R63, R80, R81: WITHDRAW is refused in CONFIG and HALTED; elsewhere it acts on the oldest live message with the tag:
an IN_FLIGHT one becomes pending, a QUEUED one moves to DONE with WITHDRAWN, and with none the answer is NOT_FOUND. -/
def Obligations.WithdrawFindsTheOldestLiveMessage : Prop :=
  ∀ (tag : Half) (s : State), portOpen 0x21#8 s = true →
    let operand := [tag.extractLsb' 8 8, tag.extractLsb' 0 8]
    ((s.stc.station = .config ∨ s.stc.station = .halted) →
      exec (.withdraw tag) s = .next (withResult 0x21#8 operand [0x83#8] s))
    ∧ (s.stc.station ≠ .config → s.stc.station ≠ .halted →
      ((∀ m ∈ s.txs.store, m.tag ≠ tag) →
        exec (.withdraw tag) s = .next (withResult 0x21#8 operand [0x86#8] s))
      ∧ ∀ (before after : List Message) (m : Message), s.txs.store = before ++ m :: after →
          (∀ x ∈ before, x.tag ≠ tag) → m.tag = tag →
          (m.state = .inFlight →
            exec (.withdraw tag) s = .next
              (withResult 0x21#8 operand [0x87#8]
                { s with
                  txs := { s.txs with store := before ++ { m with withdrawPending := true } :: after } }))
          ∧ (m.state = .queued →
            exec (.withdraw tag) s = .next
              (withResult 0x21#8 operand [0x80#8]
                { s with
                  txs :=
                    { s.txs with
                      store := before ++ after
                      outcomes := s.txs.outcomes ++
                        [{ m with
                           state := .done, outcome := some .withdrawn, duplicateNote := false
                           withdrawPending := false }] } })))

/-- R83, Table 10.9: OUTCOME takes the oldest DONE message, returns its record and frees its slot; EMPTY with none. -/
def Obligations.OutcomeTakesTheOldestRecord : Prop :=
  ∀ s : State, portOpen 0x22#8 s = true →
    (s.txs.outcomes = [] → exec .outcome s = .next (withResult 0x22#8 [] [0x81#8] s))
    ∧ ∀ (m : Message) (rest : List Message) (o : MsgOutcome), s.txs.outcomes = m :: rest → m.outcome = some o →
        exec .outcome s = .next
          (withResult 0x22#8 []
            [ 0x80#8, m.tag.extractLsb' 8 8, m.tag.extractLsb' 0 8
            , m.loadNumber.extractLsb' 8 8, m.loadNumber.extractLsb' 0 8
            , match o with
              | .sent => 0x00#8 | .failedNoAnswer => 0x01#8 | .failedPeerSilent => 0x02#8 | .failedHalted => 0x03#8
              | .withdrawn => 0x04#8
            , BitVec.ofNat 8 m.tries
            , if m.duplicateNote then 0x01#8 else 0x00#8 ]
            { s with txs := { s.txs with outcomes := rest } })

/-! ### Messages in -/

/-- R89, R7, R88: FETCH takes the oldest record of the highest lane that holds one, whatever its charge; the record's
slot returns to the region it was charged to, causes (a) and (b) are evaluated, and the flag's setting is a naming
moment (R102). On an empty queue it answers EMPTY. -/
def Obligations.FetchTakesTheOldestOfTheHighestLane : Prop :=
  ∀ s : State, portOpen 0x30#8 s = true →
    (s.rxp.queue = [] → exec .fetch s = .next (withResult 0x30#8 [] [0x81#8] s))
    ∧ ∀ (before after : List PoolRecord) (r : PoolRecord), s.rxp.queue = before ++ r :: after →
        (∀ x ∈ before, x.lane ≠ r.lane) →
        (∀ x ∈ s.rxp.queue, (x.lane = .a → r.lane = .a) ∧ (x.lane = .b → r.lane ≠ .c)) →
        let freed : State := { s with rxp := { s.rxp with queue := before ++ after } }
        let done := withResult 0x30#8 []
          ([ 0x80#8, BitVec.ofNat 8 r.source
           , match r.lane with | .a => 0x00#8 | .b => 0x01#8 | .c => 0x02#8
           , BitVec.ofNat 8 r.payload.length ] ++ r.payload ++ [r.arrival.extractLsb' 8 8, r.arrival.extractLsb' 0 8])
          (evalCauses freed)
        exec .fetch s = .next (if done.rxp.owed = true ∧ s.rxp.owed = false then nameMoment done else done)
        ∧ (∀ l, usedReserve s l = usedReserve freed l + (if r.lane = l ∧ r.charge = .reserve then 1 else 0))
        ∧ usedShared s = usedShared freed + (if r.charge = .shared then 1 else 0)

/-- R97: FETCH_BROADCAST takes the oldest record of the ring, whatever its lane; EMPTY with none. -/
def Obligations.FetchBroadcastTakesTheOldest : Prop :=
  ∀ s : State, portOpen 0x31#8 s = true →
    (s.bcr.ring = [] → exec .fetchBroadcast s = .next (withResult 0x31#8 [] [0x81#8] s))
    ∧ ∀ (r : RingRecord) (rest : List RingRecord), s.bcr.ring = r :: rest →
        exec .fetchBroadcast s = .next
          (withResult 0x31#8 []
            ([ 0x80#8, BitVec.ofNat 8 r.source
             , match r.lane with | .a => 0x00#8 | .b => 0x01#8 | .c => 0x02#8
             , BitVec.ofNat 8 r.payload.length ] ++ r.payload
              ++ [r.arrival.extractLsb' 8 8, r.arrival.extractLsb' 0 8])
            { s with bcr := { s.bcr with ring := rest } })

/-- R177: NOTICE returns the oldest notice with notices-lost as it stood, removes it and clears notices-lost; on an empty
queue it answers EMPTY and both stay. -/
def Obligations.NoticeTakesTheOldestAndClearsLost : Prop :=
  ∀ s : State, portOpen 0x32#8 s = true →
    (s.hpt.notices = [] → exec .notice s = .next (withResult 0x32#8 [] [0x81#8] s))
    ∧ ∀ (n : Notice) (rest : List Notice), s.hpt.notices = n :: rest →
        exec .notice s = .next
          (withResult 0x32#8 []
            [ 0x80#8
            , match n.kind with
              | .peerUp => 0x01#8 | .peerLost => 0x02#8 | .peerRestarted => 0x03#8 | .joined => 0x04#8
              | .lineFault => 0x05#8 | .lineRecovered => 0x06#8 | .addressClash => 0x07#8
            , match n.addr with | some a => BitVec.ofNat 8 a | none => 0xFF#8
            , BitVec.ofNat 8 s.hpt.noticesLost ]
            { s with hpt := { s.hpt with notices := rest, noticesLost := 0 } })

/-! ### Notices, counters and pins -/

/-- R176: a notice joins the back of a queue that holds fewer than 8, and is dropped and counted otherwise. R178: an
increment raises its own counter by one, or leaves it at 65535, and no other counter. Nothing else changes. -/
def Obligations.NoticesAndCountersSaturate : Prop :=
  (∀ (k : NoticeKind) (addr : Option Nat) (s : State),
    (s.hpt.notices.length < 8 →
      postNotice k addr s = { s with hpt := { s.hpt with notices := s.hpt.notices ++ [⟨k, addr⟩] } })
    ∧ (8 ≤ s.hpt.notices.length →
      postNotice k addr s = { s with hpt := { s.hpt with noticesLost := min 255 (s.hpt.noticesLost + 1) } }))
  ∧ ∀ (k : Counter) (s : State),
    raise k s = { s with hpt := (raise k s).hpt }
    ∧ (raise k s).hpt = { s.hpt with counters := (raise k s).hpt.counters }
    ∧ ((raise k s).hpt.counters.get k).toNat = min 65535 ((s.hpt.counters.get k).toNat + 1)
    ∧ ∀ j, j ≠ k → (raise k s).hpt.counters.get j = s.hpt.counters.get j

/-- R174, R153, R169: what each output pin follows. HOST_DOUT is high impedance while HOST_SEL is high or RST is low, shows
the next result byte in a result, and 00h in every other transaction state. A byte clocked in a result drops the byte shown
and leaves the result when none is left; one clocked in the trailing part or outside a transaction changes nothing. (00h with
HOST_SEL low and no transaction is the model's choice, log entry 26.) -/
def Obligations.PinsFollowTheirConditions : Prop :=
  ∀ s : State,
    (attnActive s = true ↔
      s.txs.outcomes ≠ [] ∨ s.rxp.queue ≠ [] ∨ s.bcr.ring ≠ [] ∨ s.hpt.notices ≠ []
        ∨ s.stc.station = .lineFault ∨ s.stc.station = .halted)
    ∧ (lineTx s = true ↔ s.ctu.drive.phase = .driving ∨ s.ftx.drive.phase = .driving)
    ∧ (hostDout s = none ↔ s.hostSelLow = false ∨ s.rstLow = true)
    ∧ (s.hostSelLow = true → s.rstLow = false →
        (s.hpt.txn ≠ .result → hostDout s = some 0x00#8)
        ∧ ∀ (b : Byte) (rest : List Byte), s.hpt.txn = .result → s.hpt.result = b :: rest → hostDout s = some b)
    ∧ (∀ (x b : Byte) (rest : List Byte), s.hpt.txn = .result → s.hpt.result = b :: rest →
        clockByte x s =
          { s with hpt := { s.hpt with result := rest, txn := if rest = [] then .trailing else .result } })
    ∧ (∀ x : Byte, s.hpt.txn = .trailing ∨ s.hpt.txn = .idle → clockByte x s = s)

/-- R144: the width class of every width. -/
def Obligations.WidthClassesAreTheWindows : Prop :=
  ∀ w : Nat,
    (classOf w = .w1 ↔ 5 ≤ w ∧ w ≤ 11) ∧ (classOf w = .w2 ↔ 13 ≤ w ∧ w ≤ 19)
    ∧ (classOf w = .w3 ↔ 21 ≤ w ∧ w ≤ 27) ∧ (classOf w = .w4 ↔ 29 ≤ w ∧ w ≤ 35)
    ∧ (classOf w = .w5 ↔ 37 ≤ w ∧ w ≤ 43) ∧ (classOf w = .w6 ↔ 45 ≤ w ∧ w ≤ 51)
    ∧ (classOf w = .w8 ↔ 61 ≤ w ∧ w ≤ 67)
    ∧ (classOf w = .unclassified ↔
        w < 5 ∨ w = 12 ∨ w = 20 ∨ w = 28 ∨ w = 36 ∨ w = 44 ∨ (52 ≤ w ∧ w ≤ 60) ∨ 68 ≤ w)

/-! ### Edges of the line -/

/-- R103, R78: an edge in WAITING with idle seen set clears idle seen and is a naming; a named candidate is locked and the
LEAD joined, timed from that edge, and a named message becomes IN_FLIGHT. With none named the CTU stays in WAITING. -/
def Obligations.JoinIsNamedAtTheEdge : Prop :=
  ∀ (gap : Nat) (s : State), s.lfe.sampling = true → s.lfe.active = false → decidesNoAnswer gap s →
    s.ftx.state = .idle → s.ctu.state = .waiting → s.ctu.idleSeen = true →
    let cleared : State := { risen gap s with ctu := { s.ctu with idleSeen := false } }
    (name s = none → exec (.lineRisingEdge gap) s = .next cleared)
    ∧ ∀ c, name s = some c →
        exec (.lineRisingEdge gap) s = .next
          { cleared with
            ctu :=
              { cleared.ctu with
                state := .lead, locked := some c, joined := true, drive := ⟨.driving, 0, some 2⟩ }
            txs := (lockMessage c s).txs }

/-- R143, R129, R44, R105, R106, R112, R51: a rising edge moves the LFE and the FRX, and dates the pulse the part is in:
the CTU's LEAD or digit keeps the first edge, an FTX pulse takes an edge after a gap of 5..24 positions, and a bystander
has nothing to date. Nothing else changes. (That an edge is recognised two positions after its date is R142; that the
count and the age then stand at 2 is the model's reading, log entry 3.) -/
def Obligations.RisingEdgeDatesTheDrive : Prop :=
  ∀ (gap : Nat) (s : State), s.lfe.sampling = true → s.lfe.active = false → decidesNoAnswer gap s →
    (bystander s → exec (.lineRisingEdge gap) s = .next (risen gap s))
    ∧ (s.ftx.state = .idle → (s.ctu.state = .lead ∨ s.ctu.state = .claim) →
      exec (.lineRisingEdge gap) s = .next
        { risen gap s with
          ctu :=
            { s.ctu with
              drive :=
                { s.ctu.drive with
                  edgeAge := match s.ctu.drive.edgeAge with | some n => some n | none => some 2 } } })
    ∧ ((s.ctu.state = .won ∨ s.ctu.state = .lost ∨ (s.ctu.state = .waiting ∧ s.ctu.idleSeen = false)) →
        (s.ftx.state.inFrame = true ∨ s.ftx.state = .answering) → 5 ≤ gap → gap ≤ 24 →
        exec (.lineRisingEdge gap) s = .next
          { risen gap s with ftx := { s.ftx with drive := { s.ftx.drive with edgeAge := some 2 } } })

/-- R129, R130, R131, R128, R138 (Tables 7.1, 10.5): while the FTX reads nothing back, whatever the CTU does (its own LEAD and
claim digits are heard as any other), the pulse that began in IDLE opens a frame when it is of class W8, and is a stray that
raises DECODE_ERRORS otherwise. After a gap of 5..24 positions a pulse of class W1..W4 moves the FRX on: a claim digit, a
header symbol before the 16th, a payload symbol, a check symbol before the eighth. R124, R125: every digit and symbol but the
check's own runs through the check register, all ones at the LEAD. (What the frame's registers and the closed
window hold after the LEAD is the model's choice, log entry 21; that a pulse which ends in the gap before a digit is not the
digit's is log entry 18.) -/
def Obligations.OnlyAnEightQuantaPulseOpensAFrame : Prop :=
  ∀ (width : Nat) (s : State), s.lfe.sampling = true → s.lfe.active = true → decoding s = true → readsNothingBack s →
    let heard (x : Frx) : State := { s with lfe := fallen s.lfe, ctu := undated s.ctu, frx := x }
    (s.frx.state = .lead →
      (61 ≤ width → width ≤ 67 →
        exec (.pulseEvent width) s = .next
          (heard
            { state := .claim, digitIndex := 0, symCount := 0, claim := 0#8, header := 0#32, payload := []
              partialByte := 0#8, crc := 0xFFFF#16, check := 0#16, recent := ⟨none, some .w8⟩
              record := s.frx.record, window := AnswerWindow.shut }))
      ∧ (width < 61 ∨ 67 < width →
        exec (.pulseEvent width) s = .next (counted .decodeErrors (heard { s.frx with state := .idle }))))
    ∧ ∀ v : Sym, classOf width = pulseOf v → 5 ≤ s.lfe.precedingGap → s.lfe.precedingGap ≤ 24 →
      let symbol (x : Frx) : State := heard { x with recent := ⟨s.frx.recent.last, some (pulseOf v)⟩ }
      let byte := BitVec.ofNat 8 (s.frx.partialByte.toNat * 4 + v.toNat)
      let count := s.frx.symCount + 1
      let whole := count = 4 * (s.frx.header.toNat / 2 ^ 14 % 64)
      (s.frx.state = .claim →
        exec (.pulseEvent width) s = .next
          (symbol
            { s.frx with
              claim := BitVec.ofNat 8 (s.frx.claim.toNat * 4 + v.toNat), crc := checkSymbol s.frx.crc v
              digitIndex := s.frx.digitIndex + 1, symCount := 0
              state := if s.frx.digitIndex = 3 then .header else .claim }))
      ∧ (s.frx.state = .header → s.frx.symCount ≠ 15 →
        exec (.pulseEvent width) s = .next
          (symbol
            { s.frx with
              header := BitVec.ofNat 32 (s.frx.header.toNat * 4 + v.toNat), crc := checkSymbol s.frx.crc v
              symCount := count }))
      ∧ (s.frx.state = .payload →
        exec (.pulseEvent width) s = .next
          (symbol
            { s.frx with
              partialByte := byte, crc := checkSymbol s.frx.crc v
              payload := if count % 4 = 0 then s.frx.payload ++ [byte] else s.frx.payload
              symCount := if whole then 0 else count, state := if whole then .check else .payload }))
      ∧ (s.frx.state = .check → s.frx.symCount ≠ 7 →
        exec (.pulseEvent width) s = .next
          (symbol
            { s.frx with check := BitVec.ofNat 16 (s.frx.check.toNat * 4 + v.toNat), symCount := count }))

/-- R133, R134, R126, R125, R139, R138 (Table 7.7), while the FTX reads nothing back, whatever the CTU does: in CLAIM, HEADER, PAYLOAD, CHECK and END_WAIT a pulse of a class not expected, or after a gap
outside 5..24, fails the frame with DECODE_ERRORS, and a FRAME_GAP_BREAK fails it with BREAKS. At the 16th
header symbol a header against Table 7.4 and at the 8th check symbol a check that differs fail it with DECODE_ERRORS; a well
formed header leads to PAYLOAD or CHECK, a check that matches to END_WAIT. The record takes the frame's last two pulses. In
DISCARD each further pulse, of any class, becomes the record's last and the last one its before last, with no counter; the
turn-on mark stays. In the other states a break has no effect on the FRX. (The model's choices: the running count raised at a
break, log entry 2; what the abandoned frame's registers and the closed window hold, log entry 21; that a pulse which ends in
the gap before a digit is not the digit's, log entry 18.) -/
def Obligations.FailedFrameIsDiscardedAndCountedOnce : Prop :=
  ∀ s : State, s.lfe.sampling = true → decoding s = true →
    (∀ width : Nat, s.lfe.active = true → readsNothingBack s →
      ((s.frx.state = .claim ∨ s.frx.state = .header ∨ s.frx.state = .payload ∨ s.frx.state = .check) ∧
          (classOf width ∉ [PulseClass.w1, .w2, .w3, .w4] ∨ s.lfe.precedingGap < 5 ∨ 24 < s.lfe.precedingGap)
        ∨ s.frx.state = .endWait ∧
          (classOf width ≠ .w6 ∨ s.lfe.precedingGap < 5 ∨ 24 < s.lfe.precedingGap)) →
      exec (.pulseEvent width) s = .next
        (counted .decodeErrors
          { s with
            lfe := fallen s.lfe
            ctu := undated s.ctu
            frx := { Frx.reset with state := .discard, record := .pulses ⟨s.frx.recent.last, some (classOf width)⟩ } }))
    ∧ (∀ width : Nat, s.lfe.active = true → readsNothingBack s → s.frx.state = .discard →
      exec (.pulseEvent width) s = .next
        { s with
          lfe := fallen s.lfe
          ctu := undated s.ctu
          frx :=
            { s.frx with
              record :=
                match s.frx.record with
                | .turnOn => .turnOn
                | .pulses p => .pulses ⟨p.last, some (classOf width)⟩ } })
    ∧ (∀ (width : Nat) (v : Sym), s.lfe.active = true → readsNothingBack s → classOf width = pulseOf v →
      5 ≤ s.lfe.precedingGap → s.lfe.precedingGap ≤ 24 →
      let heard (x : Frx) : State :=
        { s with
          lfe := fallen s.lfe, ctu := undated s.ctu
          frx := { x with recent := ⟨s.frx.recent.last, some (pulseOf v)⟩ } }
      let failed : State :=
        counted .decodeErrors
          { s with
            lfe := fallen s.lfe
            ctu := undated s.ctu
            frx := { Frx.reset with state := .discard, record := .pulses ⟨s.frx.recent.last, some (pulseOf v)⟩ } }
      let h := (s.frx.header.toNat * 4 + v.toNat) % 2 ^ 32
      let check := (s.frx.check.toNat * 4 + v.toNat) % 2 ^ 16
      (s.frx.state = .header → s.frx.symCount = 15 →
        (tableHeader s.frx.claim.toNat h →
          exec (.pulseEvent width) s = .next
            (heard
              { s.frx with
                header := BitVec.ofNat 32 h, crc := checkSymbol s.frx.crc v, symCount := 0
                state := if h / 2 ^ 14 % 64 = 0 then .check else .payload }))
        ∧ (¬ tableHeader s.frx.claim.toNat h → exec (.pulseEvent width) s = .next failed))
      ∧ (s.frx.state = .check → s.frx.symCount = 7 →
        (check = s.frx.crc.toNat →
          exec (.pulseEvent width) s = .next
            (heard { s.frx with check := BitVec.ofNat 16 check, symCount := 8, state := .endWait }))
        ∧ (check ≠ s.frx.crc.toNat → exec (.pulseEvent width) s = .next failed)))
    ∧ (s.lfe.active = false → s.lfe.breakReported = false →
      let told : State := { s with lfe := { s.lfe with breakReported := true, count := max 25 s.lfe.count } }
      ((s.frx.state = .claim ∨ s.frx.state = .header ∨ s.frx.state = .payload ∨ s.frx.state = .check
          ∨ s.frx.state = .endWait) →
        exec .frameGapBreak s = .next
          (counted .breaks { told with frx := { Frx.reset with state := .discard, record := .pulses s.frx.recent } }))
      ∧ ((s.frx.state = .idle ∨ s.frx.state = .lead ∨ s.frx.state = .answerWait ∨ s.frx.state = .discard) →
        exec .frameGapBreak s = .next told))

/-! ### Valid frames -/

/-- R22, R24, R136 (and R132, R44, R46): a valid frame of a peer, heard by a bystander, sets that peer's record, whatever its
kind and destination, and no other record; a JOIN also clears its sequence state. PEER_UP is posted for an UNKNOWN or SILENT
peer, PEER_RESTARTED for a JOIN of a PRESENT one, and no other notice. A LISTENING station marks that it has heard a frame.
STATUS, JOIN, a BROADCAST that is not stored and a POLL that is not for this station in ACTIVE do nothing more, and the FRX
returns to IDLE; a DATA frame that is not for this station in ACTIVE opens the answer window, with no decision. -/
def Obligations.HeardFrameRefreshesItsSender : Prop :=
  ∀ (width : Nat) (s : State) (r : Peer), s.lfe.sampling = true → s.lfe.active = true → decoding s = true →
    bystander s → s.frx.state = .endWait → 45 ≤ width → width ≤ 51 →
    5 ≤ s.lfe.precedingGap → s.lfe.precedingGap ≤ 24 →
    let fr := frameOf s.frx.claim s.frx.header s.frx.payload
    fr.claim ≠ s.stc.profile.address → s.peers[fr.claim]? = some r → r.presence ≠ .self →
    let mine := fr.dest = s.stc.profile.address ∧ s.stc.station = .active
    let posted (s' : State) : State :=
      if r.presence = .unknown ∨ r.presence = .silent then postNotice .peerUp (some fr.claim) s'
      else if fr.kind = .join then postNotice .peerRestarted (some fr.claim) s'
      else s'
    let refreshed (x : Frx) : State :=
      posted
        { s with
          lfe := fallen s.lfe
          frx := { x with recent := ⟨s.frx.recent.last, some .w6⟩ }
          stc := { s.stc with frameHeard := s.stc.frameHeard || decide (s.stc.station = .listening) }
          peers :=
            s.peers.set fr.claim
              { presence := .present, stale := false, view := fr.advert, age := 0, pollAge := .none
                txToggle := if fr.kind = .join then ⟨false, false, false⟩ else r.txToggle
                resyncPending := if fr.kind = .join then ⟨false, false, false⟩ else r.resyncPending
                rxExpected := if fr.kind = .join then ⟨false, false, false⟩ else r.rxExpected
                resyncHeld := if fr.kind = .join then ⟨false, false, false⟩ else r.resyncHeld } }
    (fr.kind = .status ∨ fr.kind = .join ∨ (fr.kind = .broadcast ∧ s.stc.profile.broadcastStore = false)
        ∨ (fr.kind = .poll ∧ ¬ mine) →
      exec (.pulseEvent width) s = .next (refreshed { s.frx with state := .idle }))
    ∧ (fr.kind = .data → ¬ mine →
      exec (.pulseEvent width) s = .next
        (refreshed { s.frx with state := .answerWait, window := ⟨.waiting, fr.claim, fr.dest, fr.lane⟩ }))
    ∧ ∃ (t : State) (r' : Peer), exec (.pulseEvent width) s = .next t ∧ t.peers[fr.claim]? = some r'
      ∧ r'.presence = .present ∧ r'.stale = false ∧ r'.view = fr.advert ∧ r'.age = 0 ∧ r'.pollAge = .none
      ∧ (fr.kind ≠ .join → r'.txToggle = r.txToggle ∧ r'.resyncPending = r.resyncPending)
      ∧ (∀ p, p ≠ fr.claim → t.peers[p]? = s.peers[p]?)
      ∧ t.hpt.notices = (posted s).hpt.notices ∧ t.hpt.noticesLost = (posted s).hpt.noticesLost
      ∧ t.stc = { s.stc with frameHeard := s.stc.frameHeard || decide (s.stc.station = .listening) }

/-- R94, R95, R96: a valid broadcast of a peer goes to the back of the ring with the next broadcast arrival number when
the broadcast-store flag is on; a full ring first loses its oldest record, counted in BCAST_OVERWRITTEN. With the flag
off the ring and its counter stay. The pool stays in either case. R17 (c), R136: a valid POLL addressed to the part adds
cause (c) in ACTIVE, and in LISTENING and JOINING adds none. Neither is answered. -/
def Obligations.BroadcastIsStoredAndPollOwes : Prop :=
  ∀ (width : Nat) (s : State), s.lfe.sampling = true → s.lfe.active = true → decoding s = true →
    bystander s → s.frx.state = .endWait → 45 ≤ width → width ≤ 51 →
    5 ≤ s.lfe.precedingGap → s.lfe.precedingGap ≤ 24 →
    let fr := frameOf s.frx.claim s.frx.header s.frx.payload
    fr.claim ≠ s.stc.profile.address →
    (fr.kind = .broadcast →
      ∃ t, exec (.pulseEvent width) s = .next t ∧ t.rxp = s.rxp ∧ t.txs = s.txs ∧ t.ftx = s.ftx
        ∧ (s.stc.profile.broadcastStore = false →
            t.bcr = s.bcr ∧ t.hpt.counters.bcastOverwritten = s.hpt.counters.bcastOverwritten)
        ∧ (s.stc.profile.broadcastStore = true →
            t.bcr.arrivals = s.bcr.arrivals + 1#16
            ∧ (s.bcr.ring.length < 8 →
                t.bcr.ring = s.bcr.ring ++ [⟨fr.claim, fr.lane, s.frx.payload, s.bcr.arrivals⟩]
                ∧ t.hpt.counters.bcastOverwritten = s.hpt.counters.bcastOverwritten)
            ∧ (8 ≤ s.bcr.ring.length →
                t.bcr.ring = s.bcr.ring.tail ++ [⟨fr.claim, fr.lane, s.frx.payload, s.bcr.arrivals⟩]
                ∧ t.hpt.counters.bcastOverwritten.toNat =
                    min 65535 (s.hpt.counters.bcastOverwritten.toNat + 1))))
    ∧ (fr.kind = .poll → fr.dest = s.stc.profile.address →
      ∃ t, exec (.pulseEvent width) s = .next t ∧ t.ftx = s.ftx ∧ t.txs = s.txs ∧ t.bcr = s.bcr
        ∧ (s.stc.station = .active →
            t.rxp = { s.rxp with owed := true, causes := { s.rxp.causes with c := true } })
        ∧ (s.stc.station ≠ .active → t.rxp = s.rxp))

/-- R46 to R50 with R4, R5, R13, R17 (d) and R33: in ACTIVE the answer to a valid DATA frame addressed to the part. A
repeat is answered DUPLICATE; a new frame is refused without space and otherwise accepted: charged to its lane's reserve
before the shared region, stored once with the next arrival number, the self-view lowered by the rule every observer
uses, and causes (a) and (b) evaluated. The FTX takes the answer. -/
def Obligations.DataFrameIsAnsweredByToggleAndSpace : Prop :=
  ∀ (width : Nat) (s : State) (r : Peer), s.lfe.sampling = true → s.lfe.active = true → s.stc.station = .active →
    bystander s → s.frx.state = .endWait → 45 ≤ width → width ≤ 51 →
    5 ≤ s.lfe.precedingGap → s.lfe.precedingGap ≤ 24 →
    let fr := frameOf s.frx.claim s.frx.header s.frx.payload
    fr.kind = .data → fr.dest = s.stc.profile.address → fr.claim ≠ s.stc.profile.address →
    s.peers[fr.claim]? = some r →
    let rep := (fr.resync = false ∨ r.resyncHeld.get fr.lane = true) ∧ fr.toggle ≠ r.rxExpected.get fr.lane
    let space := 0 < freeReserve s fr.lane ∨ 0 < freeShared s
    let view := s.rxp.selfView
    ∃ t, exec (.pulseEvent width) s = .next t ∧ t.txs = s.txs ∧ t.bcr = s.bcr
      ∧ t.ftx.state = .answering ∧ t.ftx.faultCount = s.ftx.faultCount
      ∧ t.frx.state = .answerWait ∧ t.frx.window = ⟨.waiting, fr.claim, fr.dest, fr.lane⟩
      ∧ (rep → t.ftx.answer = some .duplicate ∧ t.rxp = s.rxp
          ∧ t.hpt.counters.duplicatesSeen.toNat = min 65535 (s.hpt.counters.duplicatesSeen.toNat + 1)
          ∧ (peerAt t fr.claim).rxExpected = r.rxExpected ∧ (peerAt t fr.claim).resyncHeld = r.resyncHeld)
      ∧ (¬ rep → ¬ space → t.ftx.answer = some .refused
          ∧ t.rxp = { s.rxp with owed := true, causes := { s.rxp.causes with d := true } }
          ∧ t.hpt.counters.refusedIssued.toNat = min 65535 (s.hpt.counters.refusedIssued.toNat + 1)
          ∧ (peerAt t fr.claim).rxExpected = r.rxExpected ∧ (peerAt t fr.claim).resyncHeld = r.resyncHeld)
      ∧ (¬ rep → space → t.ftx.answer = some .accept
          ∧ t.rxp =
              (evalCauses
                { s with
                  rxp :=
                    { s.rxp with
                      queue := s.rxp.queue ++
                        [⟨fr.claim, fr.lane, s.frx.payload, s.rxp.arrivals,
                          if 0 < freeReserve s fr.lane then .reserve else .shared⟩]
                      arrivals := s.rxp.arrivals + 1#16
                      selfView :=
                        if 0 < view.reserve.get fr.lane then
                          { view with reserve := view.reserve.set fr.lane (view.reserve.get fr.lane - 1) }
                        else if 0 < view.shared then { view with shared := view.shared - 1 } else view } }).rxp
          ∧ t.hpt.counters = s.hpt.counters
          ∧ (peerAt t fr.claim).rxExpected = r.rxExpected.set fr.lane (!fr.toggle)
          ∧ (peerAt t fr.claim).resyncHeld = r.resyncHeld.set fr.lane fr.resync)

/-- R118, R162, R85: a valid frame with the own claim address that the part did not drive posts ADDRESS_CLASH and halts
the station: the line released, the CTU OFF, the FRX off, the LFE at its reset values, the timebase stopped, and the
QUEUED messages failed in store order. Pool, ring and peer records stay. -/
def Obligations.AddressClashHaltsTheStation : Prop :=
  ∀ (width : Nat) (s : State), s.lfe.sampling = true → s.lfe.active = true → decoding s = true →
    bystander s → s.frx.state = .endWait → 45 ≤ width → width ≤ 51 →
    5 ≤ s.lfe.precedingGap → s.lfe.precedingGap ≤ 24 →
    let fr := frameOf s.frx.claim s.frx.header s.frx.payload
    fr.claim = s.stc.profile.address → (∀ m ∈ s.txs.store, m.state = .queued) →
    ∃ t, exec (.pulseEvent width) s = .next t
      ∧ t.stc.station = .halted ∧ t.stc.haltReason = .addressClash ∧ t.stc.spanRunning = false ∧ t.stc.spanCount = 0
      ∧ t.lfe = Lfe.reset ∧ t.frx = Frx.reset ∧ lineTx t = false
      ∧ t.ctu.state = .off ∧ t.ctu.locked = none ∧ t.ctu.roundSpent = s.ctu.roundSpent
      ∧ t.ftx.state = .idle ∧ t.ftx.captured = none ∧ t.ftx.faultCount = s.ftx.faultCount
      ∧ t.txs.store = []
      ∧ t.txs.outcomes = s.txs.outcomes ++
          s.txs.store.map (fun m =>
            { m with
              state := .done, outcome := some .failedHalted, duplicateNote := false, withdrawPending := false })
      ∧ t.hpt = (postNotice .addressClash (some s.stc.profile.address) s).hpt
      ∧ t.rxp = s.rxp ∧ t.bcr = s.bcr ∧ t.peers = s.peers

/-! ### Answers -/

/-- R26 to R30, R44, R45, R137: what an answer does to the record of the destination, for a part that only observes; in the
window of a frame addressed to the part itself no record moves. The
four events that decide a class: a line still released at the window's end (NONE), an edge out of time and a pulse active
for 44 positions (UNCLASSIFIED), and the release of a pulse that began in time (by its width). The release of a pulse already classed closes the window and
returns the FRX to IDLE, with no second answer event. -/
def Obligations.ObservedAnswerMovesTheView : Prop :=
  ∀ s : State, s.lfe.sampling = true → decoding s = true → bystander s → s.frx.state = .answerWait →
    let closed (st : RxState) (ph : WindowPhase) : Frx :=
      { s.frx with state := st, window := { s.frx.window with phase := ph } }
    let raised (gap : Nat) : Lfe :=
      { s.lfe with active := true, count := 2, precedingGap := gap, stuckReported := false }
    (s.frx.window.dest = s.stc.profile.address →
      (s.lfe.active = false → s.frx.window.phase = .waiting →
        exec .answerWindowClose s = .next { s with frx := closed .idle .closed }
        ∧ (∀ gap : Nat, gap ≤ 24 →
          exec (.lineRisingEdge gap) s = .next
            { s with lfe := raised gap, frx := closed .answerWait (if gap < 5 then .classed else .inTime) }))
      ∧ (s.lfe.active = true → s.frx.window.phase = .inTime →
        exec .answerEarlyUnclassified s = .next { s with frx := closed .answerWait .classed })
      ∧ (s.lfe.active = true → s.frx.window.phase = .inTime ∨ s.frx.window.phase = .classed →
        ∀ width : Nat, exec (.pulseEvent width) s = .next { s with lfe := fallen s.lfe, frx := closed .idle .closed }))
    ∧ ∀ r : Peer, s.frx.window.dest ≠ s.stc.profile.address → s.peers[s.frx.window.dest]? = some r →
    let l := s.frx.window.lane
    let put (r' : Peer) (s' : State) : State := { s' with peers := s'.peers.set s.frx.window.dest r' }
    let doubt (s' : State) : State := if r.stale then s' else counted .staleEvents s'
    (s.lfe.active = false → s.frx.window.phase = .waiting →
      exec .answerWindowClose s = .next { s with frx := closed .idle .closed })
    ∧ (∀ gap : Nat, gap < 5 → s.lfe.active = false → s.frx.window.phase = .waiting →
      exec (.lineRisingEdge gap) s = .next
        (doubt (put { r with stale := true } { s with lfe := raised gap, frx := closed .answerWait .classed })))
    ∧ (∀ gap : Nat, 5 ≤ gap → gap ≤ 24 → s.lfe.active = false → s.frx.window.phase = .waiting →
      exec (.lineRisingEdge gap) s = .next { s with lfe := raised gap, frx := closed .answerWait .inTime })
    ∧ (s.lfe.active = true → s.frx.window.phase = .inTime →
      exec .answerEarlyUnclassified s = .next
        (doubt (put { r with stale := true } { s with frx := closed .answerWait .classed })))
    ∧ (∀ width : Nat, s.lfe.active = true → s.frx.window.phase = .classed →
      exec (.pulseEvent width) s = .next { s with lfe := fallen s.lfe, frx := closed .idle .closed })
    ∧ (∀ width : Nat, s.lfe.active = true → s.frx.window.phase = .inTime →
      let heard : State := { s with lfe := fallen s.lfe, frx := closed .idle .closed }
      (13 ≤ width → width ≤ 19 →
        exec (.pulseEvent width) s = .next
          (if 0 < r.view.reserve.get l then
            put { r with view := { r.view with reserve := r.view.reserve.set l (r.view.reserve.get l - 1) }, age := 0 }
              heard
          else if 0 < r.view.shared then
            put { r with view := { r.view with shared := r.view.shared - 1 }, age := 0 } heard
          else doubt (put { r with stale := true, age := 0 } heard)))
      ∧ (21 ≤ width → width ≤ 27 → exec (.pulseEvent width) s = .next (put { r with age := 0 } heard))
      ∧ (37 ≤ width → width ≤ 43 →
          exec (.pulseEvent width) s = .next (doubt (put { r with stale := true, age := 0 } heard)))
      ∧ (¬ (13 ≤ width ∧ width ≤ 19) → ¬ (21 ≤ width ∧ width ≤ 27) → ¬ (37 ≤ width ∧ width ≤ 43) →
          exec (.pulseEvent width) s = .next (doubt (put { r with stale := true } heard))))

/-- R53, R104, R44, R45: the answer event of the part's own DATA frame resolves its message by the class, with the FTX back in IDLE
and the attempt ended (WAITING, idle seen clear, no candidate): NONE at the window's end, UNCLASSIFIED at an edge out of time
and at 44 active positions, and by the width at the release of a pulse that began in time. An edge after 5..24 positions only begins that pulse. What each resolution does is
`InFlightMessageIsResolvedByTheTable`. -/
def Obligations.OwnAnswerEndsTheAttempt : Prop :=
  ∀ s : State, s.lfe.sampling = true → decoding s = true → s.frx.state = .answerWait →
    s.ftx.state = .awaitAnswer → s.ftx.answer = none → s.ctu.state = .won → s.ctu.drive = Drive.none →
    s.frx.window.claim = s.stc.profile.address → s.frx.window.dest ≠ s.stc.profile.address →
    let after (cls : AnswerClass) (st : RxState) (ph : WindowPhase) (x : Lfe) : State :=
      observeAnswer s.frx.window.dest s.frx.window.lane cls
        { s with
          lfe := x
          frx := { s.frx with state := st, window := { s.frx.window with phase := ph } }
          ftx := { Ftx.reset with faultCount := s.ftx.faultCount }
          ctu := { s.ctu with state := .waiting, idleSeen := false, locked := none, drive := Drive.none } }
    (s.lfe.active = false → s.frx.window.phase = .waiting →
      exec .answerWindowClose s = .next (resolve .tried (after .none .idle .closed s.lfe)))
    ∧ (∀ gap : Nat, gap < 5 → s.lfe.active = false → s.frx.window.phase = .waiting →
      exec (.lineRisingEdge gap) s = .next
        (resolve .tried
          (after .unclassified .answerWait .classed
            { s.lfe with active := true, count := 2, precedingGap := gap, stuckReported := false })))
    ∧ (∀ gap : Nat, 5 ≤ gap → gap ≤ 24 → s.lfe.active = false → s.frx.window.phase = .waiting →
      exec (.lineRisingEdge gap) s = .next
        { s with
          lfe := { s.lfe with active := true, count := 2, precedingGap := gap, stuckReported := false }
          frx := { s.frx with window := { s.frx.window with phase := .inTime } } })
    ∧ (s.lfe.active = true → s.frx.window.phase = .inTime →
      exec .answerEarlyUnclassified s = .next (resolve .tried (after .unclassified .answerWait .classed s.lfe)))
    ∧ ∀ width : Nat, s.lfe.active = true → s.frx.window.phase = .inTime →
      (13 ≤ width → width ≤ 19 →
        exec (.pulseEvent width) s = .next (resolve (.sent false) (after .accept .idle .closed (fallen s.lfe))))
      ∧ (21 ≤ width → width ≤ 27 →
        exec (.pulseEvent width) s = .next (resolve (.sent true) (after .duplicate .idle .closed (fallen s.lfe))))
      ∧ (37 ≤ width → width ≤ 43 →
        exec (.pulseEvent width) s = .next (resolve .refused (after .refused .idle .closed (fallen s.lfe))))
      ∧ (¬ (13 ≤ width ∧ width ≤ 19) → ¬ (21 ≤ width ∧ width ≤ 27) → ¬ (37 ≤ width ∧ width ≤ 43) →
        exec (.pulseEvent width) s = .next (resolve .tried (after .unclassified .idle .closed (fallen s.lfe))))

/-- Table 3.4 and the table of R64 (R54 to R60): what a resolution does to the IN_FLIGHT message, to its destination's
toggles and to the counters; then the silence expiry it held for its destination is taken or dropped (R37; what that does is
`SilenceFailsThePeersMessages`). Everything else stays. -/
def Obligations.InFlightMessageIsResolvedByTheTable : Prop :=
  ∀ (s : State) (before after : List Message) (m : Message), s.txs.store = before ++ m :: after →
    m.state = .inFlight → (∀ x ∈ before, x.state ≠ .inFlight) →
    let limit := s.stc.profile.retryLimit
    let done (tries : Nat) (o : MsgOutcome) (note : Bool) (s' : State) : State :=
      { s' with
        txs :=
          { s'.txs with
            store := before ++ after
            outcomes := s'.txs.outcomes ++
              [{ m with
                 state := .done, tries := tries, outcome := some o, duplicateNote := note
                 withdrawPending := false }] } }
    let back (tries : Nat) (s' : State) : State :=
      { s' with txs := { s'.txs with store := before ++ { m with state := .queued, tries := tries } :: after } }
    let flip (pending : Bool) (s' : State) : State :=
      if m.dest = 31 then s' else
        { s' with
          peers := s'.peers.modify m.dest fun r =>
            { r with
              txToggle := r.txToggle.set m.lane (!r.txToggle.get m.lane)
              resyncPending := r.resyncPending.set m.lane pending } }
    let settled (s' : State) : State := if m.dest = 31 then s' else settleSilence m.dest s'
    (∀ note, resolve (.sent note) s = settled (flip false (done m.tries .sent note s)))
    ∧ resolve .refused s =
        settled
          (counted .refusedReceived (if m.withdrawPending then done m.tries .withdrawn false s else back m.tries s))
    ∧ resolve .released s = settled (if m.withdrawPending then done m.tries .withdrawn false s else back m.tries s)
    ∧ (m.tries + 1 < limit → resolve .tried s =
        settled
          (counted .retries
            (if m.withdrawPending then done (m.tries + 1) .withdrawn false s else back (m.tries + 1) s)))
    ∧ (limit ≤ m.tries + 1 → resolve .tried s =
        settled
          (counted .retries
            (flip true (done (m.tries + 1) (if m.withdrawPending then .withdrawn else .failedNoAnswer) false s))))

/-- R10, R15, R60, R112, R115, R160, R165, R39: the part's frame completes at its END's falling edge: the self-view takes
the captured advertisement, the owed flag and the cause set are cleared and evaluated afresh, heartbeat age and fault
count go to 0, FRAMES_SENT rises. A DATA frame then awaits its answer; any other kind ends the attempt, a JOIN makes the
station ACTIVE with JOINED, a POLL sets its destination's poll age to 0, a BROADCAST resolves its message to SENT. The
FRX takes the frame as the part's own (R117): no record is refreshed, and a DATA frame opens the answer window. (That the FTX
completes before the FRX takes the same edge is the model's order, log entry 7; that the frame completes likewise where the
FRX has discarded the train or heard strays alone, with no window and a DATA frame's message still IN_FLIGHT, log entry 29.) -/
def Obligations.OwnFrameCompletesAtItsEnd : Prop :=
  ∀ (width : Nat) (s : State) (c : Candidate) (adv : Advert), s.lfe.sampling = true → s.lfe.active = true →
    (s.stc.station = .joining ∨ s.stc.station = .active) →
    s.ftx.state = .endPulse → s.ftx.drive.phase ≠ .rest → s.ctu.state = .won → s.ctu.drive = Drive.none →
    s.ctu.locked = some c → s.ftx.captured = some adv → 45 ≤ width → width ≤ 51 →
    let fr := frameOf s.frx.claim s.frx.header s.frx.payload
    let complete (x : Frx) : State :=
      counted .framesSent
        (evalCauses
          { s with
            lfe := fallen s.lfe
            frx := x
            stc := { s.stc with heartbeat := 0 }
            ftx := Ftx.reset
            rxp := { s.rxp with selfView := adv, owed := false, causes := Causes.empty } })
    let ended (s' : State) : State :=
      { s' with
        ctu := { s'.ctu with state := .waiting, idleSeen := false, locked := none, drive := Drive.none } }
    let effect (s' : State) : State :=
      match c.kind with
      | .data => { s' with ftx := { Ftx.reset with state := .awaitAnswer } }
      | .broadcast => ended (resolve (.sent false) s')
      | .status => ended s'
      | .join =>
        if s.stc.station = .joining then
          ended (postNotice .joined none { s' with stc := { s'.stc with station := .active } })
        else ended s'
      | .poll => ended { s' with peers := s.peers.modify c.dest (fun r => { r with pollAge := .zero }) }
    (s.frx.state = .endWait → 5 ≤ s.lfe.precedingGap → s.lfe.precedingGap ≤ 24 →
      claimAddress s.frx.claim = s.stc.profile.address →
      exec (.pulseEvent width) s = .next
        (effect
          (complete
            { s.frx with
              recent := ⟨s.frx.recent.last, some .w6⟩
              state := if fr.kind = .data then .answerWait else .idle
              window := if fr.kind = .data then ⟨.waiting, fr.claim, fr.dest, fr.lane⟩ else s.frx.window })))
    ∧ (s.frx.state = .discard →
      exec (.pulseEvent width) s = .next
        (effect
          (complete
            { s.frx with
              record :=
                match s.frx.record with
                | .turnOn => .turnOn
                | .pulses p => .pulses ⟨p.last, some .w6⟩ })))
    ∧ (s.frx.state = .lead →
      exec (.pulseEvent width) s = .next (counted .decodeErrors (effect (complete { s.frx with state := .idle }))))

/-- R112, R113: where the FRX takes the pulse without issuing an event, a pulse read back in its own class moves the FTX on: 16 header symbols, 4 for each payload byte, 8 check
symbols, then the END, whose index stays the last symbol's (log entry 17). A pulse that ends before the FTX has begun to drive
its own, in whatever class, is not read back, and the symbol is still to be begun (R9; log entry 18). -/
def Obligations.SymbolReadBackMovesOn : Prop :=
  ∀ (width : Nat) (s : State) (c : Candidate), s.lfe.sampling = true → s.lfe.active = true →
    decoding s = true → (rxPulse s.frx (classOf width) s.lfe.precedingGap).2 = .quiet → s.ctu.state = .won → s.ctu.drive = Drive.none →
    (s.ftx.state = .header ∨ s.ftx.state = .payload ∨ s.ftx.state = .check) →
    s.ctu.locked = some c →
    let n := c.payload.length
    let i := s.ftx.symbolIndex
    let heard (x : Ftx) : State :=
      { s with lfe := fallen s.lfe, frx := (rxPulse s.frx (classOf width) s.lfe.precedingGap).1, ftx := x }
    (s.ftx.drive.phase ≠ .rest → classOf width = pulseOf (txSym s) →
      exec (.pulseEvent width) s = .next
        (heard
          { s.ftx with
            drive := Drive.none
            symbolIndex := if i + 1 < 24 + 4 * n then i + 1 else i
            state :=
              if i + 1 < 16 then .header
              else if i + 1 < 16 + 4 * n then .payload
              else if i + 1 < 24 + 4 * n then .check
              else .endPulse }))
    ∧ (s.ftx.drive.phase = .rest →
      exec (.pulseEvent width) s = .next (heard { s.ftx with drive := { s.ftx.drive with edgeAge := none } }))

/-! ### Line conditions -/

/-- R134, R135, R31, R139: LINE_IDLE ends DISCARD. With the turn-on mark nothing more happens; with a W6 as the last pulse
no answer was possible; in every other case every peer view becomes stale and STALE_EVENTS rises by one. (The
running count raised at the report is the model's choice, log entry 2.) -/
def Obligations.BlindFrameVerdictAtLineIdle : Prop :=
  ∀ s : State, s.lfe.sampling = true → s.lfe.active = false → s.lfe.idleReported = false →
    decoding s = true → s.frx.state = .discard →
    ∃ t, exec .lineIdle s = .next t
      ∧ t.lfe = { s.lfe with idleReported := true, count := max 48 s.lfe.count }
      ∧ t.frx = { s.frx with state := .idle, record := .pulses ⟨none, none⟩ }
      ∧ t.ftx = s.ftx ∧ t.rxp = s.rxp ∧ t.bcr = s.bcr ∧ t.stc.profile = s.stc.profile
      ∧ (s.frx.record = .turnOn → t.peers = s.peers ∧ t.hpt = s.hpt)
      ∧ ∀ p : PulsePair, s.frx.record = .pulses p →
        (p.last = some .w6 → t.peers = s.peers ∧ t.hpt = s.hpt)
        ∧ (p.last ≠ some .w6 →
            t.peers = (s.peers.map fun r => if r.presence = .self then r else { r with stale := true })
            ∧ t.hpt = (counted .staleEvents s).hpt)

/-- R101, R102, R107, R134, R135: in JOINING and ACTIVE, LINE_IDLE first brings the FRX's verdict where it is in DISCARD (that
the verdict comes before the CTU is the model's choice, log entry 8), then sets idle seen in WAITING and brings a CTU that lost back to WAITING
with idle seen set; either is a naming moment. R111: ROUND_GAP clears round-spent in every contention state but OFF, and
the clearing is a naming moment. (The running count raised at a report is the model's choice, log entry 2.) -/
def Obligations.IdleLineOpensOpportunities : Prop :=
  ∀ s : State, s.lfe.sampling = true → s.lfe.active = false →
    (s.stc.station = .joining ∨ s.stc.station = .active) →
    let told : State := { s with lfe := { s.lfe with roundReported := true, count := max 96 s.lfe.count } }
    let judged := verdictTaken s
    (s.lfe.idleReported = false → (s.ctu.state = .waiting ∨ s.ctu.state = .lost) →
      exec .lineIdle s = .next
        (nameMoment
          { judged with
            lfe := { s.lfe with idleReported := true, count := max 48 s.lfe.count }
            ctu := { s.ctu with state := .waiting, idleSeen := true } }))
    ∧ (s.lfe.roundReported = false → s.ctu.state ≠ .off → s.ctu.roundSpent = true →
      exec .roundGap s = .next (nameMoment { told with ctu := { s.ctu with roundSpent := false } }))
    ∧ (s.lfe.roundReported = false → s.ctu.state ≠ .off → s.ctu.roundSpent = false → exec .roundGap s = .next told)

/-- R159, R160: LISTENING ends at LINE_IDLE after a frame was heard and at ROUND_GAP: the station is JOINING, its CTU in
WAITING with idle seen set, and it names its JOIN and starts the LEAD at that moment. A LINE_IDLE with no frame heard
leaves it in LISTENING. R134, R135, R139: a LINE_IDLE also ends DISCARD, with its verdict, before the station takes it (the
order is the model's choice, log entry 8; the running count raised at a report, on which idle seen rests here, is log
entry 2). -/
def Obligations.ListeningEndsInAJoin : Prop :=
  ∀ s : State, s.lfe.sampling = true → s.lfe.active = false → s.stc.station = .listening → s.ctu.state = .off →
    s.ctu.roundSpent = false →
    let judged := verdictTaken s
    let joins (x : Lfe) (s' : State) : State :=
      { s' with
        lfe := x
        stc := { s.stc with station := .joining, frameHeard := false }
        ctu :=
          { s.ctu with
            state := .lead, idleSeen := false, joined := false, drive := ⟨.driving, 0, none⟩
            locked := some { kind := .join, dest := 31, lane := .a, payload := [] } } }
    (s.lfe.idleReported = false →
      let x : Lfe := { s.lfe with idleReported := true, count := max 48 s.lfe.count }
      exec .lineIdle s = .next (if s.stc.frameHeard = true then joins x judged else { judged with lfe := x }))
    ∧ (s.lfe.roundReported = false →
      exec .roundGap s = .next (joins { s.lfe with roundReported := true, count := max 96 s.lfe.count } s))

/-- R148, R149, R58, R41, R161: LINE_STUCK in LISTENING, JOINING or ACTIVE records that state, posts LINE_FAULT, releases
the line, turns the CTU and the FRX off, resolves an IN_FLIGHT message as a consumed try and marks every peer view
stale, in that order (the order is the model's choice, log entry 9; so is the running count raised at the report, log
entry 2). In LINE_FAULT it does nothing but mark the report
(R150). -/
def Obligations.StuckLineEntersLineFault : Prop :=
  ∀ s : State, s.lfe.sampling = true → s.lfe.active = true → s.lfe.stuckReported = false →
    let told : State := { s with lfe := { s.lfe with stuckReported := true, count := max 512 s.lfe.count } }
    (s.stc.station = .listening ∨ s.stc.station = .joining ∨ s.stc.station = .active →
      let entered : State :=
        { postNotice .lineFault none told with
          stc := { s.stc with station := .lineFault, returnState := some s.stc.station, frameHeard := false }
          ctu := { Ctu.reset with roundSpent := s.ctu.roundSpent }
          ftx := { Ftx.reset with faultCount := s.ftx.faultCount }
          frx := Frx.reset }
      let resolved := if s.txs.store.any isInFlight then resolve .tried entered else entered
      exec .lineStuck s = .next
        { resolved with
          peers := resolved.peers.map fun r => if r.presence = .self then r else { r with stale := true } })
    ∧ (s.stc.station = .lineFault → exec .lineStuck s = .next told)

/-- R151, R161, R17 (f), R101, R111, R139: ROUND_GAP in LINE_FAULT returns the station to the recorded state and posts
LINE_RECOVERED; the FRX is on in IDLE; into JOINING or ACTIVE the CTU enters WAITING with idle seen set and round-spent
clear, into ACTIVE cause (f) is added; then comes a naming moment. (The running count raised at the report is the model's choice, log entry 2.) -/
def Obligations.RoundGapEndsTheLineFault : Prop :=
  ∀ (s : State) (back : StationState), s.lfe.sampling = true → s.lfe.active = false → s.lfe.roundReported = false →
    s.stc.station = .lineFault → s.stc.returnState = some back → s.ctu.state = .off → s.frx = Frx.reset →
    let told : State :=
      postNotice .lineRecovered none
        { s with
          lfe := { s.lfe with roundReported := true, count := max 96 s.lfe.count }
          stc := { s.stc with station := back, returnState := none } }
    let waits : State :=
      { told with
        ctu :=
          { s.ctu with state := .waiting, idleSeen := true, locked := none, drive := Drive.none, roundSpent := false } }
    (back = .listening → exec .roundGap s = .next told)
    ∧ (back = .joining → exec .roundGap s = .next (nameMoment waits))
    ∧ (back = .active →
        exec .roundGap s = .next
          (nameMoment { waits with rxp := { s.rxp with owed := true, causes := { s.rxp.causes with f := true } } }))

/-! ### The span timebase -/

/-- R35, R36, R25, R84, R39, R165, R17 (e), R102: a span expiry raises the age of every UNKNOWN and PRESENT record by one, up to
255, and moves poll ages of 0 to 1; then each silence expiry that is due is taken, in ascending address order (what that does
to a peer is `SilenceFailsThePeersMessages`); the heartbeat age rises by one, up to 255, and cause (e) is added when it
comes to half the silence limit. If the flag is newly set, a message newly eligible or a POLL newly owed, a naming moment
follows (that it comes after the whole expiry is the model's choice, log entry 12). -/
def Obligations.SpanExpiryAgesTheTable : Prop :=
  ∀ s : State, s.stc.spanRunning = true →
    let aged : State :=
      { s with
        stc := { s.stc with spanCount := 0 }
        peers := s.peers.map fun r =>
          if r.presence = .self then r
          else
            { r with
              age := if r.presence = .silent then r.age else min 255 (r.age + 1)
              pollAge := if r.pollAge = .zero then .one else r.pollAge } }
    let settled := (List.range 31).foldl (fun u p => settleSilence p u) aged
    let beaten : State := { settled with stc := { settled.stc with heartbeat := min 255 (s.stc.heartbeat + 1) } }
    let done : State :=
      if s.stc.heartbeat + 1 = s.stc.profile.silenceLimit / 2 ∧ s.stc.heartbeat < 255 then
        { beaten with rxp := { s.rxp with owed := true, causes := { s.rxp.causes with e := true } } }
      else beaten
    let moment :=
      (done.rxp.owed = true ∧ s.rxp.owed = false)
        ∨ (∃ m ∈ done.txs.store, eligible done m = true ∧ eligible s m = false)
        ∨ (∃ p ≤ 30, pollOwed done p = true ∧ pollOwed s p = false)
    (moment → exec .spanExpiry s = .next (nameMoment done)) ∧ (¬ moment → exec .spanExpiry s = .next done)

/-- R36, R37: a silence expiry is due for exactly the UNKNOWN and PRESENT records whose age has reached the limit and to
which no message is IN_FLIGHT (that the model tests the age, not its arrival, is log entry 11); while it is not due, nothing changes. R34, R84, R25: when it is due the peer is taken to silence: SILENT, its view zero and stale, its poll age none; every QUEUED
message to it fails with FAILED_PEER_SILENT in store order, each that had a try flipping its lane's tx toggle and setting
its resync pending; PEER_LOST follows for a PRESENT peer. -/
def Obligations.SilenceFailsThePeersMessages : Prop :=
  ∀ (p : Nat) (s : State) (r : Peer), p ≤ 30 → s.peers[p]? = some r →
    let due := (r.presence = .unknown ∨ r.presence = .present) ∧ s.stc.profile.silenceLimit ≤ r.age
      ∧ ∀ m ∈ s.txs.store, m.dest = p → m.state ≠ .inFlight
    let gone (m : Message) : Bool := m.state == .queued && m.dest == p
    let tried (l : Lane) : Nat := (s.txs.store.filter fun m => gone m && m.lane == l && decide (0 < m.tries)).length
    let toggled (l : Lane) : Bool := if tried l % 2 = 1 then !r.txToggle.get l else r.txToggle.get l
    let pending (l : Lane) : Bool := r.resyncPending.get l || decide (0 < tried l)
    let quietly : State :=
      { s with
        peers :=
          s.peers.set p
            { r with
              presence := .silent, view := ⟨⟨0, 0, 0⟩, 0⟩, stale := true, pollAge := .none
              txToggle := ⟨toggled .a, toggled .b, toggled .c⟩
              resyncPending := ⟨pending .a, pending .b, pending .c⟩ }
        txs :=
          { s.txs with
            store := s.txs.store.filter fun m => !gone m
            outcomes := s.txs.outcomes ++
              (s.txs.store.filter gone).map fun m =>
                { m with
                  state := .done, outcome := some .failedPeerSilent, duplicateNote := false
                  withdrawPending := false } } }
    (¬ due → settleSilence p s = s)
    ∧ (due →
      settleSilence p s = (if r.presence = .present then postNotice .peerLost (some p) quietly else quietly))

/-! ### The contest and the frame -/

/-- R105, R106, R112, R51, R152: the timed beginnings and ends of the part's drives move the drive and nothing else; the
end of an answer leaves the FTX in IDLE. -/
def Obligations.DrivesBeginAndEnd : Prop :=
  ∀ s : State,
    (s.ctu.state = .lead → s.ctu.drive.phase = .driving →
      exec .leadRelease s = .next
        { s with ctu := { s.ctu with drive := ⟨.released, 0, s.ctu.drive.edgeAge⟩ } })
    ∧ (s.ctu.state = .claim → s.ctu.drive.phase = .rest →
      exec .digitDriveStart s = .next
        { s with ctu := { s.ctu with drive := ⟨.driving, 0, s.ctu.drive.edgeAge⟩ } })
    ∧ (s.ctu.state = .claim → s.ctu.drive.phase = .driving →
      exec .digitRelease s = .next
        { s with ctu := { s.ctu with drive := ⟨.released, 0, s.ctu.drive.edgeAge⟩ } })
    ∧ (s.ftx.state.inFrame = true → s.ftx.drive.phase = .driving →
      exec .symbolRelease s = .next
        { s with ftx := { s.ftx with drive := ⟨.released, 0, s.ftx.drive.edgeAge⟩ } })
    ∧ (s.ftx.state = .answering → s.ftx.drive.phase = .rest →
      exec .answerDriveStart s = .next
        { s with ftx := { s.ftx with drive := ⟨.driving, 0, s.ftx.drive.edgeAge⟩ } })
    ∧ (s.ftx.state = .answering → s.ftx.drive.phase = .driving →
      exec .answerRelease s = .next { s with ftx := { s.ftx with state := .idle, drive := ⟨.rest, 0, none⟩ } })

/-- R105, R107, R108, R111: the loss test after a release. A line still active is a loss: LOST, ARB_LOST raised, the
candidate released. A released line leads from the LEAD to digit 0, from a digit to the next, and after digit 3 to the
win, which sets round-spent for priority digits 0 and 1 and hands the candidate to the FTX. -/
def Obligations.LossTestDecidesTheContest : Prop :=
  ∀ (s : State) (c : Candidate), s.ctu.drive.phase = .released → s.ctu.locked = some c →
    (s.lfe.active = true → (s.ctu.state = .lead ∨ s.ctu.state = .claim) →
      exec .lossTest s = .next
        (resolve .released
          (counted .arbLost
            { s with ctu := { s.ctu with state := .lost, locked := none, drive := Drive.none } })))
    ∧ (s.lfe.active = false → s.ctu.state = .lead →
      exec .lossTest s = .next
        { s with ctu := { s.ctu with state := .claim, digitIndex := 0, drive := Drive.none } })
    ∧ (s.lfe.active = false → s.ctu.state = .claim → s.ctu.digitIndex < 3 →
      exec .lossTest s = .next
        { s with ctu := { s.ctu with digitIndex := s.ctu.digitIndex + 1, drive := Drive.none } })
    ∧ (s.lfe.active = false → s.ctu.state = .claim → s.ctu.digitIndex = 3 →
      exec .lossTest s = .next
        { s with
          ctu :=
            { s.ctu with
              state := .won, drive := Drive.none
              roundSpent := s.ctu.roundSpent || decide (priorityDigit c.kind c.lane ≤ 1) }
          ftx := { Ftx.reset with state := .header, faultCount := s.ftx.faultCount } })

/-- R109, R115: a started LEAD or a claim digit whose line edge has not come is a drive fault: the CTU is back in WAITING,
with idle seen set only after a LEAD, the fault is counted, the candidate released without ARB_LOST, and a fourth fault
halts the station with TRANSMIT_FAULT; otherwise, after a LEAD, comes a naming moment (that it comes last, after the release, is the model's
choice, log entry 25). A joined LEAD, or an edge that has come, is no
fault. -/
def Obligations.DriveFaultReleasesTheCandidate : Prop :=
  ∀ s : State, s.ctu.drive.phase = .driving →
    let fault (seen : Bool) : State :=
      resolve .released
        { s with
          ctu := { s.ctu with state := .waiting, idleSeen := seen, locked := none, drive := Drive.none }
          ftx := { s.ftx with faultCount := min 4 (s.ftx.faultCount + 1) } }
    (s.ctu.drive.edgeAge = none → s.ctu.state = .lead → s.ctu.joined = false → s.ftx.faultCount < 3 →
      exec .driveFaultCheck s = .next (nameMoment (fault true)))
    ∧ (s.ctu.drive.edgeAge = none → s.ctu.state = .claim → s.ftx.faultCount < 3 →
      exec .driveFaultCheck s = .next (fault false))
    ∧ (s.ctu.drive.edgeAge = none → s.ctu.state = .claim → 3 ≤ s.ftx.faultCount →
      exec .driveFaultCheck s = .next (halt .transmitFault (fault false)))
    ∧ (s.ctu.drive.edgeAge = none → s.ctu.state = .lead → s.ctu.joined = false → 3 ≤ s.ftx.faultCount →
      exec .driveFaultCheck s = .next (halt .transmitFault (fault true)))
    ∧ (s.ctu.drive.edgeAge ≠ none ∨ (s.ctu.state = .lead ∧ s.ctu.joined = true) →
      exec .driveFaultCheck s = .next s)

/-- R9, R32, R61, R112: the FTX begins its pulse; at the first header symbol it captures the four free counts and reads,
for a DATA frame, the destination's tx toggle and resync pending of its lane, and for any other kind 0 and 0. -/
def Obligations.FirstHeaderSymbolCaptures : Prop :=
  ∀ (s : State) (c : Candidate), s.ftx.state.inFrame = true → s.ftx.drive.phase = .rest → s.ctu.locked = some c →
    let r := peerAt s c.dest
    (s.ftx.state = .header → s.ftx.symbolIndex = 0 →
      exec .symbolDriveStart s = .next
        { s with
          ftx :=
            { s.ftx with
              captured :=
                some ⟨⟨freeReserve s .a, freeReserve s .b, freeReserve s .c⟩, freeShared s⟩
              toggle := if c.kind = .data then r.txToggle.get c.lane else false
              resync := if c.kind = .data then r.resyncPending.get c.lane else false
              drive := ⟨.driving, 0, s.ftx.drive.edgeAge⟩ } })
    ∧ (s.ftx.state ≠ .header ∨ s.ftx.symbolIndex ≠ 0 →
      exec .symbolDriveStart s = .next
        { s with ftx := { s.ftx with drive := ⟨.driving, 0, s.ftx.drive.edgeAge⟩ } })

/-- R113 to R115, R11, R58, R104, R52: a readback mismatch aborts the frame: the FTX in IDLE with nothing captured, the fault
counted, a message charged a try, the attempt ended; self-view, owed flag and cause set stay. A mismatch of the answer only
counts the fault and releases the line. A fourth fault halts with TRANSMIT_FAULT. The mismatches: no rising edge four samples
into a drive, the line still active four samples after a release other than the END's (not for the answer), a gap outside
5..24 at a rising edge, another class than the one driven at a falling edge, and of an answer still active 44 samples after its
edge, which is UNCLASSIFIED (R45, R148). A readback that holds changes nothing; an
answer read back in its own class closes it with the fault count as it was. (That the FTX takes an edge before the FRX is the
model's order, log entry 7.) -/
def Obligations.FailedReadbackAbortsTheFrame : Prop :=
  ∀ s : State,
    let late := s.ftx.drive.phase = .driving ∧ s.ftx.drive.edgeAge = none
    let held := s.ftx.drive.phase = .released ∧ s.lfe.active = true ∧ s.ftx.state ≠ .endPulse
    let idle : Ftx := { Ftx.reset with faultCount := min 4 (s.ftx.faultCount + 1) }
    let aborted (s' : State) : State :=
      resolve .tried
        { s' with
          ftx := idle
          ctu := { s.ctu with state := .waiting, idleSeen := false, locked := none, drive := Drive.none } }
    let orHalt (s' : State) : State := if s.ftx.faultCount < 3 then s' else halt .transmitFault s'
    (s.ftx.state.inFrame = true → late ∨ held →
      (aborted s).rxp = s.rxp ∧ exec .readbackTest s = .next (orHalt (aborted s)))
    ∧ (s.ftx.state.inFrame = true → ¬ late → ¬ held → exec .readbackTest s = .next s)
    ∧ (s.ftx.state = .answering → late → exec .answerDriveCheck s = .next (orHalt { s with ftx := idle }))
    ∧ (s.ftx.state = .answering → ¬ late → exec .answerDriveCheck s = .next s)
    ∧ (∀ gap : Nat, s.lfe.sampling = true → s.lfe.active = false → decidesNoAnswer gap s → gap < 5 ∨ 24 < gap →
      (s.ftx.state.inFrame = true → exec (.lineRisingEdge gap) s = .next (orHalt (aborted (risen gap s))))
      ∧ (s.ftx.state = .answering →
          (s.ctu.state = .off ∨ s.ctu.state = .won ∨ s.ctu.state = .lost
            ∨ (s.ctu.state = .waiting ∧ s.ctu.idleSeen = false)) →
          exec (.lineRisingEdge gap) s = .next (orHalt { risen gap s with ftx := idle })))
    ∧ (∀ gap : Nat, s.lfe.sampling = true → s.lfe.active = false → decoding s = true → gap < 5 →
      s.ftx.state = .answering → s.frx.state = .answerWait → s.frx.window.phase = .waiting →
      s.frx.window.dest = s.stc.profile.address →
      (s.ctu.state = .off ∨ s.ctu.state = .won ∨ s.ctu.state = .lost
        ∨ (s.ctu.state = .waiting ∧ s.ctu.idleSeen = false)) →
      exec (.lineRisingEdge gap) s = .next
        (orHalt
          { s with
            lfe := { s.lfe with active := true, count := 2, precedingGap := gap, stuckReported := false }
            frx := { s.frx with window := { s.frx.window with phase := .classed } }
            ftx := idle }))
    ∧ (∀ k : AnswerKind, s.ftx.answer = some k →
      s.ftx.state = .idle ∨ (s.ftx.state = .answering ∧ s.ftx.drive.phase ≠ .rest) →
      s.lfe.sampling = true → s.lfe.active = true → decoding s = true → s.frx.state = .answerWait →
      s.frx.window.phase = .inTime → s.frx.window.dest = s.stc.profile.address →
      exec .answerEarlyUnclassified s = .next
        (orHalt { s with frx := { s.frx with window := { s.frx.window with phase := .classed } }, ftx := idle }))
    ∧ ∀ width : Nat, s.lfe.sampling = true → s.lfe.active = true → decoding s = true →
      (s.ftx.state.inFrame = true → s.ftx.drive.phase ≠ .rest →
        classOf width ≠ (if s.ftx.state = .endPulse then .w6 else pulseOf (txSym s)) →
        let heard : State :=
          { s with lfe := fallen s.lfe, frx := (rxPulse s.frx (classOf width) s.lfe.precedingGap).1 }
        ((rxPulse s.frx (classOf width) s.lfe.precedingGap).2 = .quiet →
          exec (.pulseEvent width) s = .next (orHalt (aborted heard)))
        ∧ ((rxPulse s.frx (classOf width) s.lfe.precedingGap).2 = .failed .decodeErrors →
          exec (.pulseEvent width) s = .next
            (if s.ftx.faultCount < 3 then counted .decodeErrors (aborted heard)
             else halt .transmitFault (aborted heard))))
      ∧ ∀ k : AnswerKind, s.ftx.answer = some k →
        s.ftx.state = .idle ∨ (s.ftx.state = .answering ∧ s.ftx.drive.phase ≠ .rest) → s.ctu.drive = Drive.none → s.frx.state = .answerWait → s.frx.window.phase = .inTime →
        s.frx.window.dest = s.stc.profile.address →
        let heard : State :=
          { s with
            lfe := fallen s.lfe
            frx := { s.frx with state := .idle, window := { s.frx.window with phase := .closed } } }
        let driven : PulseClass := match k with | .accept => .w2 | .duplicate => .w3 | .refused => .w5
        (classOf width = driven →
          exec (.pulseEvent width) s = .next { heard with ftx := { Ftx.reset with faultCount := s.ftx.faultCount } })
        ∧ (classOf width ≠ driven → exec (.pulseEvent width) s = .next (orHalt { heard with ftx := idle }))

/-! ### Selection and credit -/

/-- R72, R73, R78: a DATA frame that the Frame Selector names is an eligible QUEUED message, its destination PRESENT with
a fresh view that has room in its lane, and no older message to the same destination in the same lane is QUEUED; a BROADCAST is
the oldest QUEUED broadcast of its lane. The lock makes that message IN_FLIGHT and changes nothing else; for a STATUS, JOIN or
POLL it changes nothing. -/
def Obligations.NamedDataFrameHasCreditAndOrder : Prop :=
  ∀ (s : State) (c : Candidate), name s = some c →
    (c.kind = .data ∨ c.kind = .broadcast →
      s.stc.station = .active ∧ (c.kind = .broadcast ↔ c.dest = 31)
      ∧ (c.kind = .data →
        (peerAt s c.dest).presence = .present ∧ (peerAt s c.dest).stale = false
        ∧ (0 < (peerAt s c.dest).view.reserve.get c.lane ∨ 0 < (peerAt s c.dest).view.shared))
      ∧ ∃ (before after : List Message) (m : Message), s.txs.store = before ++ m :: after
        ∧ m.state = .queued ∧ m.dest = c.dest ∧ m.lane = c.lane ∧ m.payload = c.payload
        ∧ (∀ x ∈ before, ¬ (x.state = .queued ∧ x.dest = m.dest ∧ x.lane = m.lane))
        ∧ lockMessage c s =
            { s with txs := { s.txs with store := before ++ { m with state := .inFlight } :: after } })
    ∧ (c.kind = .status ∨ c.kind = .join ∨ c.kind = .poll → lockMessage c s = s)

/-- R72 to R76, R40, Table 4.4: digits 3, 2, 1, 0 in that order. A message is eligible when it is QUEUED and a broadcast, or
QUEUED for a PRESENT peer whose view is fresh and has room in its lane; a POLL is owed to a PRESENT peer whose view is stale,
whose poll age is not 0 and for which a message waits QUEUED. The oldest eligible lane-A message goes first; then STATUS
while an advertisement is owed, then the POLL to the lowest address owed one; the oldest eligible messages of lanes B and
C after them, and not while round-spent is set. In JOINING only the JOIN is offered, in the other states nothing. -/
def Obligations.SelectorWalksTheDigits : Prop :=
  ∀ s : State,
    let control (k : FrameKind) (dest : Nat) : Option Candidate := some { kind := k, dest := dest, lane := .a, payload := [] }
    let sendable (m : Message) : Prop :=
      m.state = .queued ∧ (m.dest = 31 ∨
        ((peerAt s m.dest).presence = .present ∧ (peerAt s m.dest).stale = false
          ∧ (0 < (peerAt s m.dest).view.reserve.get m.lane ∨ 0 < (peerAt s m.dest).view.shared)))
    let polled (p : Nat) : Prop :=
      (peerAt s p).presence = .present ∧ (peerAt s p).stale = true ∧ (peerAt s p).pollAge ≠ .zero
        ∧ ∃ m ∈ s.txs.store, m.state = .queued ∧ m.dest = p
    let noneIn (l : Lane) : Prop := ∀ m ∈ s.txs.store, m.lane = l → ¬ sendable m
    let oldestIn (l : Lane) : Prop := ∀ (before after : List Message) (m : Message), s.txs.store = before ++ m :: after →
      m.lane = l → sendable m → (∀ x ∈ before, x.lane = l → ¬ sendable x) →
      name s = some
        { kind := if m.dest = 31 then .broadcast else .data, dest := m.dest, lane := l, payload := m.payload }
    (s.stc.station = .joining → name s = control .join 31)
    ∧ (s.stc.station ≠ .joining → s.stc.station ≠ .active → name s = none)
    ∧ (s.stc.station = .active →
      oldestIn .a
      ∧ (noneIn .a →
        (s.rxp.owed = true → name s = control .status 31)
        ∧ (s.rxp.owed = false → ∀ p ≤ 30, polled p → (∀ q < p, ¬ polled q) →
            name s = control .poll p)
        ∧ (s.rxp.owed = false → (∀ p ≤ 30, ¬ polled p) →
          (s.ctu.roundSpent = true → name s = none)
          ∧ (s.ctu.roundSpent = false →
            oldestIn .b ∧ (noneIn .b → oldestIn .c ∧ (noneIn .c → name s = none))))))

/-- R102, R78: a naming moment starts a LEAD exactly in WAITING with idle seen set, the line released and a candidate
named; the candidate is locked and a message becomes IN_FLIGHT. Otherwise nothing changes. -/
def Obligations.NamingMomentStartsTheLead : Prop :=
  ∀ s : State,
    (∀ c, s.ctu.state = .waiting → s.ctu.idleSeen = true → s.lfe.active = false → name s = some c →
      nameMoment s =
        { s with
          ctu :=
            { s.ctu with
              state := .lead, idleSeen := false, locked := some c, joined := false, drive := ⟨.driving, 0, none⟩ }
          txs := (lockMessage c s).txs })
    ∧ (s.ctu.state ≠ .waiting ∨ s.ctu.idleSeen = false ∨ s.lfe.active = true ∨ name s = none → nameMoment s = s)

/-- R14, R16: the evaluation of causes (a) and (b) on the free counts and the self-view. A condition that holds adds its
cause and sets the flag; nothing is ever removed, and nothing else changes. -/
def Obligations.EvaluationAddsCausesAAndB : Prop :=
  ∀ s : State,
    let fa : Int := (s.stc.profile.reserve.a - usedReserve s .a : Nat)
    let fb : Int := (s.stc.profile.reserve.b - usedReserve s .b : Nat)
    let fc : Int := (s.stc.profile.reserve.c - usedReserve s .c : Nat)
    let fs : Int := (24 - (s.stc.profile.reserve.a + s.stc.profile.reserve.b + s.stc.profile.reserve.c)
      - usedShared s : Nat)
    let v := s.rxp.selfView
    let a := decide ((s.stc.profile.advertStep : Int) ≤
      (fa - v.reserve.a) + (fb - v.reserve.b) + (fc - v.reserve.c) + (fs - v.shared))
    let b := decide (0 < fs ∧ v.shared = 0 ∧ (v.reserve.a = 0 ∨ v.reserve.b = 0 ∨ v.reserve.c = 0))
      || decide (0 < fa ∧ v.reserve.a + v.shared = 0) || decide (0 < fb ∧ v.reserve.b + v.shared = 0)
      || decide (0 < fc ∧ v.reserve.c + v.shared = 0)
    evalCauses s =
      { s with
        rxp :=
          { s.rxp with
            owed := s.rxp.owed || a || b
            causes := { s.rxp.causes with a := s.rxp.causes.a || a, b := s.rxp.causes.b || b } } }

/-! ### What every step keeps -/

/-- The part right after a hard reset meets every invariant below. -/
def Obligations.ResetMeetsTheInvariants : Prop :=
  CapacityHolds State.reset ∧ RangesHold State.reset ∧ OwedHolds State.reset ∧ StaleHolds State.reset
    ∧ WindowHolds State.reset ∧ PoolHolds State.reset ∧ SelfViewHolds State.reset ∧ StationHolds State.reset
    ∧ SlotsHold State.reset ∧ FlightHolds State.reset ∧ TriesHold State.reset

/-- R175, R93, R66, R20 and the ranges of Tables 2.1, 8.1, 9.1, 9.3 and 10.1: no store overflows and no counted quantity
leaves its range. R15, R21, R137: the owed flag stands exactly while a cause does, a view of a peer that is not PRESENT is
stale, and the answer window is open exactly in ANSWER_WAIT. -/
def Obligations.StepKeepsRangesAndFlags : Prop :=
  ∀ s t : State, step s = .next t →
    (CapacityHolds s → CapacityHolds t) ∧ (RangesHold s → RangesHold t) ∧ (OwedHolds s → OwedHolds t)
      ∧ (StaleHolds s → StaleHolds t) ∧ (WindowHolds s → WindowHolds t)

/-- R1: no region of the pool is ever over-filled, whatever arrives. -/
def Obligations.StepKeepsThePoolAccounts : Prop :=
  ∀ s t : State, StationHolds s → PoolHolds s → step s = .next t → PoolHolds t

/-- R12: the self-view, and a captured advertisement that may become it, never promise more than is free. -/
def Obligations.StepKeepsSelfViewBelowFree : Prop :=
  ∀ s t : State, StationHolds s → SelfViewHolds s → step s = .next t → SelfViewHolds t

/-- Tables 9.1 and 9.2, R101, R115, R139, R153, R155, R166: the blocks keep to what the station state allows them. -/
def Obligations.StepKeepsTheStationInOrder : Prop :=
  ∀ s t : State, StationHolds s → step s = .next t → StationHolds t

/-- R66, R64, R69, R78, R57: slot states keep to their lists, at most one message is IN_FLIGHT and only while the CTU holds
it locked, and no message is charged more tries than its limit. -/
def Obligations.StepKeepsMessagesInOrder : Prop :=
  ∀ s t : State, StationHolds s → step s = .next t →
    (SlotsHold s → SlotsHold t) ∧ (FlightHolds s → FlightHolds t) ∧ (TriesHold s → TriesHold t)

/-- R155, R156 (Table 9.4): the station state changes only along the table's rows, each by its own commands, and the
profile only by a SETUP in CONFIG or a hard reset. A tick changes neither. -/
def Obligations.StationAndProfileChangeByTheirCommands : Prop :=
  ∀ s t : State, StationHolds s → step s = .next t →
    (s.pending = [] → t.stc.station = s.stc.station ∧ t.stc.profile = s.stc.profile
      ∧ t.stc.profileSet = s.stc.profileSet)
    ∧ ∀ (c : Instr) (rest : List Instr), s.pending = c :: rest →
      let live := s.stc.station = .listening ∨ s.stc.station = .joining ∨ s.stc.station = .active
      (t.stc.station ≠ s.stc.station →
        (s.stc.station = .config ∧ t.stc.station = .listening ∧ c = .start)
        ∨ (s.stc.station = .listening ∧ t.stc.station = .joining ∧ (c = .lineIdle ∨ c = .roundGap))
        ∨ (s.stc.station = .joining ∧ t.stc.station = .active ∧ ∃ width, c = .pulseEvent width)
        ∨ (live ∧ t.stc.station = .lineFault ∧ t.stc.returnState = some s.stc.station ∧ c = .lineStuck)
        ∨ (s.stc.station = .lineFault ∧ s.stc.returnState = some t.stc.station ∧ c = .roundGap)
        ∨ (live ∧ t.stc.station = .halted ∧ t.stc.haltReason = .addressClash ∧ ∃ width, c = .pulseEvent width)
        ∨ (onAir s ∧ t.stc.station = .halted ∧ t.stc.haltReason = .transmitFault
            ∧ ((∃ gap, c = .lineRisingEdge gap) ∨ (∃ width, c = .pulseEvent width) ∨ c = .readbackTest
                ∨ c = .driveFaultCheck ∨ c = .answerDriveCheck))
        ∨ (t.stc.station = .config ∧ (c = .hardReset ∨ (c = .hostSelRise ∧ s.hpt.resetDue = true))))
      ∧ (t.stc.profile ≠ s.stc.profile ∨ t.stc.profileSet ≠ s.stc.profileSet →
        c = .hardReset ∨ (s.stc.station = .config ∧
          ∃ b0 b1 b2 b3 b4 b5 b6 b7, c = .setup b0 b1 b2 b3 b4 b5 b6 b7))

/-- R3, R69, R88, R93, R175 with R83, R89, R97, R177: resets and START apart, only FETCH takes from the pool, only OUTCOME
from the outcome list and only NOTICE from the notice queue, all of which grow at the back; the ring loses at
most its oldest record, to FETCH_BROADCAST or to a broadcast that finds it full; and a message once accepted stays, as it was
loaded, until OUTCOME takes its record. A step on an empty queue leaves every store as it was. -/
def Obligations.NothingIsTakenButByItsCommand : Prop :=
  ∀ s t : State, step s = .next t →
    (s.pending = [] →
      t.rxp = s.rxp ∧ t.txs = s.txs ∧ t.bcr = s.bcr ∧ t.peers = s.peers ∧ t.hpt.notices = s.hpt.notices
      ∧ t.hpt.noticesLost = s.hpt.noticesLost ∧ t.hpt.counters = s.hpt.counters)
    ∧ ∀ (c : Instr) (rest : List Instr), s.pending = c :: rest →
    c ≠ .hardReset → c ≠ .hostSelRise → c ≠ .start →
    (c ≠ .fetch → s.rxp.queue <+: t.rxp.queue)
    ∧ (c ≠ .outcome → s.txs.outcomes <+: t.txs.outcomes)
    ∧ (c ≠ .notice → s.hpt.notices <+: t.hpt.notices)
    ∧ (∃ n ≤ 1, s.bcr.ring.drop n <+: t.bcr.ring
        ∧ (n = 1 → (c = .fetchBroadcast ∧ s.bcr.ring ≠ []) ∨ ((∃ width, c = .pulseEvent width) ∧ 8 ≤ s.bcr.ring.length)))
    ∧ ∀ m ∈ s.txs.store, ∃ m' ∈ t.txs.store ++ t.txs.outcomes,
        m'.loadNumber = m.loadNumber ∧ m'.tag = m.tag ∧ m'.dest = m.dest ∧ m'.lane = m.lane ∧ m'.payload = m.payload

/-! ### Encodings -/

/-- R169, R172, Table 10.6 (a byte at a time is the model's choice, log entry 5): the bytes of a well-formed host command,
clocked into a transaction that stands at its command byte, put exactly that command in the queue, with nothing but the port changed and the port ready to take it. -/
def Obligations.HostBytesSpellTheirCommand : Prop :=
  ∀ (i : Instr) (code : Byte) (operand : List Byte) (s : State), i.wellFormed = true →
    hostBytes i = some (code, operand) → s.hpt.txn = .command → s.rstLow = false →
    let t := (code :: operand).foldl (fun u b => clockByte b u) s
    t = { s with pending := s.pending ++ [i], hpt := t.hpt } ∧ portOpen code t = true
      ∧ t.hpt.notices = s.hpt.notices ∧ t.hpt.noticesLost = s.hpt.noticesLost ∧ t.hpt.counters = s.hpt.counters
      ∧ t.hpt.resetDue = s.hpt.resetDue

/-- R122 to R126, R129 to R132, R106, R112, Table 10.5: an FRX that hears the claim digits and the symbols a part sends for
a candidate, each after a gap of 5..24 positions and with its END, issues the valid frame with exactly the candidate's
kind, destination, lane and payload, the sender's address, and the advertisement, toggle and resync it sent. The END of a header
in the rows of Table 7.4 gives each field from its places in the header, and the address from the six low claim bits. -/
def Obligations.ReceiverReadsWhatTheTransmitterSends : Prop :=
  (∀ (f : Frx) (gap : Nat), f.state = .endWait → 5 ≤ gap → gap ≤ 24 → tableHeader f.claim.toNat f.header.toNat →
    let h := f.header.toNat
    (rxPulse f .w6 gap).2 =
      .valid
        { kind :=
            if h / 2 ^ 29 = 0 then .data else if h / 2 ^ 29 = 1 then .broadcast else if h / 2 ^ 29 = 2 then .status
            else if h / 2 ^ 29 = 3 then .join else .poll
          claim := f.claim.toNat % 64
          dest := h / 2 ^ 24 % 32
          lane := if h / 2 ^ 22 % 4 = 0 then .a else if h / 2 ^ 22 % 4 = 1 then .b else .c
          toggle := decide (h / 2 ^ 21 % 2 = 1)
          resync := decide (h / 2 ^ 20 % 2 = 1)
          advert := ⟨⟨h / 2 ^ 11 % 8, h / 2 ^ 8 % 8, h / 2 ^ 5 % 8⟩, h % 32⟩
          payload := f.payload })
  ∧ ∀ (own : Nat) (c : Candidate) (adv : Advert) (toggle resync : Bool) (f : Frx)
    (line : List (PulseClass × Nat)) (gap : Nat),
    own ≤ 30 → c.proper own → adv.inRange → (c.kind = .data ∨ (toggle = false ∧ resync = false)) →
    line.map Prod.fst =
      (symsOf 4 (candidateClaim own c) ++ frameSyms own c adv toggle resync).map pulseOf →
    (∀ p ∈ line, 5 ≤ p.2 ∧ p.2 ≤ 24) → 5 ≤ gap → gap ≤ 24 →
    let heard := line.foldl (fun g p => (rxPulse g p.1 p.2).1) (rxLead f)
    heard.state = .endWait
    ∧ (rxPulse heard .w6 gap).2 =
        .valid
          { kind := c.kind, claim := own, dest := c.dest, lane := c.lane, toggle := toggle, resync := resync
            advert := adv, payload := c.payload }
end

