-- ==== Sys2Proof/Laws/Codec.lean ====
section
/-! SUPPORT. The codes and layouts of frames read back what was written: classes, symbols, header, claim. -/

namespace Sys2Proof.Machine

@[simp] theorem symOf_pulseOf (v : Sym) : symOf (pulseOf v) = some v := by
  revert v; decide

/-- A pulse driven at a symbol's width is of that symbol's class. -/
theorem classOf_symWidth (v : Sym) : classOf (symWidth v) = pulseOf v := by
  revert v; decide

@[simp] theorem laneOfCode_code (l : Lane) : laneOfCode l.code = some l := by cases l <;> rfl

@[simp] theorem kindOfCode_code (k : FrameKind) : kindOfCode k.code = some k := by cases k <;> rfl

theorem toNat_append_eq {n m : Nat} (x : BitVec n) (y : BitVec m) :
    (x ++ y).toNat = x.toNat * 2 ^ m + y.toNat := by
  rw [BitVec.toNat_append, ← Nat.shiftLeft_add_eq_or_of_lt y.isLt, Nat.shiftLeft_eq]

/-- The number a header is: its fields at their places (Table 10.5). -/
theorem headerBits_toNat (f : HeaderFields) (hk : f.kind ≤ 7) (hd : f.dest ≤ 31) (hl : f.lane ≤ 3)
    (hn : f.length ≤ 63) (ha : f.advert.reserve.a ≤ 7) (hb : f.advert.reserve.b ≤ 7) (hc : f.advert.reserve.c ≤ 7)
    (hs : f.advert.shared ≤ 31) :
    (headerBits f).toNat =
      f.kind * 2 ^ 29 + f.dest * 2 ^ 24 + f.lane * 2 ^ 22 + f.toggle.toNat * 2 ^ 21 + f.resync.toNat * 2 ^ 20
        + f.length * 2 ^ 14 + f.advert.reserve.a * 2 ^ 11 + f.advert.reserve.b * 2 ^ 8 + f.advert.reserve.c * 2 ^ 5
        + f.advert.shared := by
  simp only [headerBits, toNat_append_eq, BitVec.toNat_ofNat, BitVec.toNat_ofBool]
  omega

/-- The header layout is read as it was written (Table 10.5). -/
theorem headerFields_headerBits (f : HeaderFields) (hk : f.kind ≤ 7) (hd : f.dest ≤ 31) (hl : f.lane ≤ 3)
    (hn : f.length ≤ 63) (ha : f.advert.reserve.a ≤ 7) (hb : f.advert.reserve.b ≤ 7) (hc : f.advert.reserve.c ≤ 7)
    (hs : f.advert.shared ≤ 31) : headerFields (headerBits f) = f := by
  have h := headerBits_toNat f hk hd hl hn ha hb hc hs
  obtain ⟨kind, dest, lane, toggle, resync, length, ⟨⟨a, b, c⟩, shared⟩⟩ := f
  have ht : toggle.toNat ≤ 1 := by cases toggle <;> decide
  have hr : resync.toNat ≤ 1 := by cases resync <;> decide
  simp only at *
  have bit : ∀ x : Bool, x = decide (x.toNat = 1) := by decide
  simp only [headerFields, HeaderFields.mk.injEq, Advert.mk.injEq, PerLane.mk.injEq, BitVec.extractLsb'_toNat,
    Nat.shiftRight_eq_div_pow, BitVec.getLsbD, Nat.testBit_eq_decide_div_mod_eq, h]
  refine ⟨by omega, by omega, by omega, ?_, ?_, by omega, ⟨by omega, by omega, by omega⟩, by omega⟩
  · rw [bit toggle]; congr 1; apply propext; rw [← bit toggle]; constructor <;> intro _ <;> omega
  · rw [bit resync]; congr 1; apply propext; rw [← bit resync]; constructor <;> intro _ <;> omega

/-- The claim address is read as it was written (R122). -/
theorem claimAddress_claimBits (digit own : Nat) (h : own ≤ 63) : claimAddress (claimBits digit own) = own := by
  simp only [claimAddress, claimBits, BitVec.extractLsb'_toNat, toNat_append_eq, BitVec.toNat_ofNat,
    Nat.shiftRight_eq_div_pow]
  omega

/-- The priority digit is read as it was written (R122). -/
theorem claimDigit_claimBits (digit own : Nat) (h : digit ≤ 3) : claimDigit (claimBits digit own) = digit := by
  simp only [claimDigit, claimBits, BitVec.extractLsb'_toNat, toNat_append_eq, BitVec.toNat_ofNat,
    Nat.shiftRight_eq_div_pow]
  omega

/-! ### Registers filled two bits at a time -/

theorem shiftIn_toNat {k : Nat} (x : BitVec (k + 2)) (v : Sym) :
    (shiftIn x v).toNat = (x.toNat * 4 + v.toNat) % 2 ^ (k + 2) := by
  have hv : v.toNat < 4 := v.isLt
  have hp : 2 ^ (k + 2) = 4 * 2 ^ k := by rw [pow_add]; ring
  have h1 : x.toNat * 4 % 2 ^ (k + 2) = (x.toNat % 2 ^ k) * 2 ^ 2 := by
    rw [hp, mul_comm x.toNat 4, Nat.mul_mod_mul_left]; ring
  have h2 : v.toNat % 2 ^ (k + 2) = v.toNat := Nat.mod_eq_of_lt (by have := Nat.one_le_two_pow (n := k); omega)
  have h3 : (x.toNat % 2 ^ k) * 2 ^ 2 + v.toNat < 2 ^ (k + 2) := by
    have := Nat.mod_lt x.toNat (Nat.two_pow_pos k)
    omega
  simp only [shiftIn, BitVec.toNat_or, BitVec.toNat_shiftLeft, BitVec.toNat_setWidth, Nat.shiftLeft_eq, h2]
  rw [show (2 : Nat) ^ 2 = 4 from rfl, h1, ← Nat.shiftLeft_eq, ← Nat.shiftLeft_add_eq_or_of_lt (by omega : v.toNat < 2 ^ 2),
    Nat.shiftLeft_eq, Nat.add_mod, h1, h2, Nat.mod_eq_of_lt h3]

/-- A register that takes the symbols of a word in order: its old bits move up by the word. -/
theorem foldl_shiftIn_symsOf {k w : Nat} (x : BitVec w) : ∀ (n : Nat) (y : BitVec (k + 2)),
    ((symsOf n x).foldl shiftIn y).toNat = (y.toNat * 4 ^ n + x.toNat % 4 ^ n) % 2 ^ (k + 2)
  | 0, y => by simp [symsOf, Nat.mod_one, Nat.mod_eq_of_lt y.isLt]
  | n + 1, y => by
    have hv : (x.extractLsb' (2 * n) 2).toNat = x.toNat / 4 ^ n % 4 := by
      rw [BitVec.extractLsb'_toNat, Nat.shiftRight_eq_div_pow, pow_mul]; rfl
    rw [symsOf, List.foldl_cons, foldl_shiftIn_symsOf x n, shiftIn_toNat, hv, Nat.pow_succ (m := n), Nat.mod_mul,
      Nat.add_mod, Nat.mod_mul_mod, ← Nat.add_mod]
    congr 1
    ring

/-- The symbols of a word fill a register of its own width with the word (R122). -/
theorem foldl_shiftIn_symsOf_self {k n : Nat} (h : 2 * n = k + 2) (x y : BitVec (k + 2)) :
    (symsOf n x).foldl shiftIn y = x := by
  apply BitVec.eq_of_toNat_eq
  have hp : (4 : Nat) ^ n = 2 ^ (k + 2) := by rw [← h, pow_mul]; rfl
  rw [foldl_shiftIn_symsOf, hp, Nat.add_mod, Nat.mul_mod_left, Nat.zero_add, Nat.mod_mod, Nat.mod_mod,
    Nat.mod_eq_of_lt x.isLt]

end Sys2Proof.Machine
end

