-- ==== Sys2Proof/Laws/State.lean ====
section
/-! SUPPORT. One lemma for each field and each block update: what an update writes and what it leaves. -/

namespace Sys2Proof.Machine

variable (s : State)

@[simp] theorem State.setStc_rstLow (x : Stc) : (s.setStc x).rstLow = s.rstLow := rfl
@[simp] theorem State.setStc_hostSelLow (x : Stc) : (s.setStc x).hostSelLow = s.hostSelLow := rfl
@[simp] theorem State.setStc_stc (x : Stc) : (s.setStc x).stc = x := rfl
@[simp] theorem State.setStc_lfe (x : Stc) : (s.setStc x).lfe = s.lfe := rfl
@[simp] theorem State.setStc_frx (x : Stc) : (s.setStc x).frx = s.frx := rfl
@[simp] theorem State.setStc_ctu (x : Stc) : (s.setStc x).ctu = s.ctu := rfl
@[simp] theorem State.setStc_ftx (x : Stc) : (s.setStc x).ftx = s.ftx := rfl
@[simp] theorem State.setStc_rxp (x : Stc) : (s.setStc x).rxp = s.rxp := rfl
@[simp] theorem State.setStc_peers (x : Stc) : (s.setStc x).peers = s.peers := rfl
@[simp] theorem State.setStc_txs (x : Stc) : (s.setStc x).txs = s.txs := rfl
@[simp] theorem State.setStc_bcr (x : Stc) : (s.setStc x).bcr = s.bcr := rfl
@[simp] theorem State.setStc_hpt (x : Stc) : (s.setStc x).hpt = s.hpt := rfl
@[simp] theorem State.setStc_pending (x : Stc) : (s.setStc x).pending = s.pending := rfl
@[simp] theorem State.setStc_lineIn (x : Stc) : (s.setStc x).lineIn = s.lineIn := rfl
@[simp] theorem State.setStc_hostIn (x : Stc) : (s.setStc x).hostIn = s.hostIn := rfl

@[simp] theorem State.setLfe_rstLow (x : Lfe) : (s.setLfe x).rstLow = s.rstLow := rfl
@[simp] theorem State.setLfe_hostSelLow (x : Lfe) : (s.setLfe x).hostSelLow = s.hostSelLow := rfl
@[simp] theorem State.setLfe_stc (x : Lfe) : (s.setLfe x).stc = s.stc := rfl
@[simp] theorem State.setLfe_lfe (x : Lfe) : (s.setLfe x).lfe = x := rfl
@[simp] theorem State.setLfe_frx (x : Lfe) : (s.setLfe x).frx = s.frx := rfl
@[simp] theorem State.setLfe_ctu (x : Lfe) : (s.setLfe x).ctu = s.ctu := rfl
@[simp] theorem State.setLfe_ftx (x : Lfe) : (s.setLfe x).ftx = s.ftx := rfl
@[simp] theorem State.setLfe_rxp (x : Lfe) : (s.setLfe x).rxp = s.rxp := rfl
@[simp] theorem State.setLfe_peers (x : Lfe) : (s.setLfe x).peers = s.peers := rfl
@[simp] theorem State.setLfe_txs (x : Lfe) : (s.setLfe x).txs = s.txs := rfl
@[simp] theorem State.setLfe_bcr (x : Lfe) : (s.setLfe x).bcr = s.bcr := rfl
@[simp] theorem State.setLfe_hpt (x : Lfe) : (s.setLfe x).hpt = s.hpt := rfl
@[simp] theorem State.setLfe_pending (x : Lfe) : (s.setLfe x).pending = s.pending := rfl
@[simp] theorem State.setLfe_lineIn (x : Lfe) : (s.setLfe x).lineIn = s.lineIn := rfl
@[simp] theorem State.setLfe_hostIn (x : Lfe) : (s.setLfe x).hostIn = s.hostIn := rfl

@[simp] theorem State.setFrx_rstLow (x : Frx) : (s.setFrx x).rstLow = s.rstLow := rfl
@[simp] theorem State.setFrx_hostSelLow (x : Frx) : (s.setFrx x).hostSelLow = s.hostSelLow := rfl
@[simp] theorem State.setFrx_stc (x : Frx) : (s.setFrx x).stc = s.stc := rfl
@[simp] theorem State.setFrx_lfe (x : Frx) : (s.setFrx x).lfe = s.lfe := rfl
@[simp] theorem State.setFrx_frx (x : Frx) : (s.setFrx x).frx = x := rfl
@[simp] theorem State.setFrx_ctu (x : Frx) : (s.setFrx x).ctu = s.ctu := rfl
@[simp] theorem State.setFrx_ftx (x : Frx) : (s.setFrx x).ftx = s.ftx := rfl
@[simp] theorem State.setFrx_rxp (x : Frx) : (s.setFrx x).rxp = s.rxp := rfl
@[simp] theorem State.setFrx_peers (x : Frx) : (s.setFrx x).peers = s.peers := rfl
@[simp] theorem State.setFrx_txs (x : Frx) : (s.setFrx x).txs = s.txs := rfl
@[simp] theorem State.setFrx_bcr (x : Frx) : (s.setFrx x).bcr = s.bcr := rfl
@[simp] theorem State.setFrx_hpt (x : Frx) : (s.setFrx x).hpt = s.hpt := rfl
@[simp] theorem State.setFrx_pending (x : Frx) : (s.setFrx x).pending = s.pending := rfl
@[simp] theorem State.setFrx_lineIn (x : Frx) : (s.setFrx x).lineIn = s.lineIn := rfl
@[simp] theorem State.setFrx_hostIn (x : Frx) : (s.setFrx x).hostIn = s.hostIn := rfl

@[simp] theorem State.setCtu_rstLow (x : Ctu) : (s.setCtu x).rstLow = s.rstLow := rfl
@[simp] theorem State.setCtu_hostSelLow (x : Ctu) : (s.setCtu x).hostSelLow = s.hostSelLow := rfl
@[simp] theorem State.setCtu_stc (x : Ctu) : (s.setCtu x).stc = s.stc := rfl
@[simp] theorem State.setCtu_lfe (x : Ctu) : (s.setCtu x).lfe = s.lfe := rfl
@[simp] theorem State.setCtu_frx (x : Ctu) : (s.setCtu x).frx = s.frx := rfl
@[simp] theorem State.setCtu_ctu (x : Ctu) : (s.setCtu x).ctu = x := rfl
@[simp] theorem State.setCtu_ftx (x : Ctu) : (s.setCtu x).ftx = s.ftx := rfl
@[simp] theorem State.setCtu_rxp (x : Ctu) : (s.setCtu x).rxp = s.rxp := rfl
@[simp] theorem State.setCtu_peers (x : Ctu) : (s.setCtu x).peers = s.peers := rfl
@[simp] theorem State.setCtu_txs (x : Ctu) : (s.setCtu x).txs = s.txs := rfl
@[simp] theorem State.setCtu_bcr (x : Ctu) : (s.setCtu x).bcr = s.bcr := rfl
@[simp] theorem State.setCtu_hpt (x : Ctu) : (s.setCtu x).hpt = s.hpt := rfl
@[simp] theorem State.setCtu_pending (x : Ctu) : (s.setCtu x).pending = s.pending := rfl
@[simp] theorem State.setCtu_lineIn (x : Ctu) : (s.setCtu x).lineIn = s.lineIn := rfl
@[simp] theorem State.setCtu_hostIn (x : Ctu) : (s.setCtu x).hostIn = s.hostIn := rfl

@[simp] theorem State.setFtx_rstLow (x : Ftx) : (s.setFtx x).rstLow = s.rstLow := rfl
@[simp] theorem State.setFtx_hostSelLow (x : Ftx) : (s.setFtx x).hostSelLow = s.hostSelLow := rfl
@[simp] theorem State.setFtx_stc (x : Ftx) : (s.setFtx x).stc = s.stc := rfl
@[simp] theorem State.setFtx_lfe (x : Ftx) : (s.setFtx x).lfe = s.lfe := rfl
@[simp] theorem State.setFtx_frx (x : Ftx) : (s.setFtx x).frx = s.frx := rfl
@[simp] theorem State.setFtx_ctu (x : Ftx) : (s.setFtx x).ctu = s.ctu := rfl
@[simp] theorem State.setFtx_ftx (x : Ftx) : (s.setFtx x).ftx = x := rfl
@[simp] theorem State.setFtx_rxp (x : Ftx) : (s.setFtx x).rxp = s.rxp := rfl
@[simp] theorem State.setFtx_peers (x : Ftx) : (s.setFtx x).peers = s.peers := rfl
@[simp] theorem State.setFtx_txs (x : Ftx) : (s.setFtx x).txs = s.txs := rfl
@[simp] theorem State.setFtx_bcr (x : Ftx) : (s.setFtx x).bcr = s.bcr := rfl
@[simp] theorem State.setFtx_hpt (x : Ftx) : (s.setFtx x).hpt = s.hpt := rfl
@[simp] theorem State.setFtx_pending (x : Ftx) : (s.setFtx x).pending = s.pending := rfl
@[simp] theorem State.setFtx_lineIn (x : Ftx) : (s.setFtx x).lineIn = s.lineIn := rfl
@[simp] theorem State.setFtx_hostIn (x : Ftx) : (s.setFtx x).hostIn = s.hostIn := rfl

@[simp] theorem State.setRxp_rstLow (x : Rxp) : (s.setRxp x).rstLow = s.rstLow := rfl
@[simp] theorem State.setRxp_hostSelLow (x : Rxp) : (s.setRxp x).hostSelLow = s.hostSelLow := rfl
@[simp] theorem State.setRxp_stc (x : Rxp) : (s.setRxp x).stc = s.stc := rfl
@[simp] theorem State.setRxp_lfe (x : Rxp) : (s.setRxp x).lfe = s.lfe := rfl
@[simp] theorem State.setRxp_frx (x : Rxp) : (s.setRxp x).frx = s.frx := rfl
@[simp] theorem State.setRxp_ctu (x : Rxp) : (s.setRxp x).ctu = s.ctu := rfl
@[simp] theorem State.setRxp_ftx (x : Rxp) : (s.setRxp x).ftx = s.ftx := rfl
@[simp] theorem State.setRxp_rxp (x : Rxp) : (s.setRxp x).rxp = x := rfl
@[simp] theorem State.setRxp_peers (x : Rxp) : (s.setRxp x).peers = s.peers := rfl
@[simp] theorem State.setRxp_txs (x : Rxp) : (s.setRxp x).txs = s.txs := rfl
@[simp] theorem State.setRxp_bcr (x : Rxp) : (s.setRxp x).bcr = s.bcr := rfl
@[simp] theorem State.setRxp_hpt (x : Rxp) : (s.setRxp x).hpt = s.hpt := rfl
@[simp] theorem State.setRxp_pending (x : Rxp) : (s.setRxp x).pending = s.pending := rfl
@[simp] theorem State.setRxp_lineIn (x : Rxp) : (s.setRxp x).lineIn = s.lineIn := rfl
@[simp] theorem State.setRxp_hostIn (x : Rxp) : (s.setRxp x).hostIn = s.hostIn := rfl

@[simp] theorem State.setPeers_rstLow (x : List Peer) : (s.setPeers x).rstLow = s.rstLow := rfl
@[simp] theorem State.setPeers_hostSelLow (x : List Peer) : (s.setPeers x).hostSelLow = s.hostSelLow := rfl
@[simp] theorem State.setPeers_stc (x : List Peer) : (s.setPeers x).stc = s.stc := rfl
@[simp] theorem State.setPeers_lfe (x : List Peer) : (s.setPeers x).lfe = s.lfe := rfl
@[simp] theorem State.setPeers_frx (x : List Peer) : (s.setPeers x).frx = s.frx := rfl
@[simp] theorem State.setPeers_ctu (x : List Peer) : (s.setPeers x).ctu = s.ctu := rfl
@[simp] theorem State.setPeers_ftx (x : List Peer) : (s.setPeers x).ftx = s.ftx := rfl
@[simp] theorem State.setPeers_rxp (x : List Peer) : (s.setPeers x).rxp = s.rxp := rfl
@[simp] theorem State.setPeers_peers (x : List Peer) : (s.setPeers x).peers = x := rfl
@[simp] theorem State.setPeers_txs (x : List Peer) : (s.setPeers x).txs = s.txs := rfl
@[simp] theorem State.setPeers_bcr (x : List Peer) : (s.setPeers x).bcr = s.bcr := rfl
@[simp] theorem State.setPeers_hpt (x : List Peer) : (s.setPeers x).hpt = s.hpt := rfl
@[simp] theorem State.setPeers_pending (x : List Peer) : (s.setPeers x).pending = s.pending := rfl
@[simp] theorem State.setPeers_lineIn (x : List Peer) : (s.setPeers x).lineIn = s.lineIn := rfl
@[simp] theorem State.setPeers_hostIn (x : List Peer) : (s.setPeers x).hostIn = s.hostIn := rfl

@[simp] theorem State.setTxs_rstLow (x : Txs) : (s.setTxs x).rstLow = s.rstLow := rfl
@[simp] theorem State.setTxs_hostSelLow (x : Txs) : (s.setTxs x).hostSelLow = s.hostSelLow := rfl
@[simp] theorem State.setTxs_stc (x : Txs) : (s.setTxs x).stc = s.stc := rfl
@[simp] theorem State.setTxs_lfe (x : Txs) : (s.setTxs x).lfe = s.lfe := rfl
@[simp] theorem State.setTxs_frx (x : Txs) : (s.setTxs x).frx = s.frx := rfl
@[simp] theorem State.setTxs_ctu (x : Txs) : (s.setTxs x).ctu = s.ctu := rfl
@[simp] theorem State.setTxs_ftx (x : Txs) : (s.setTxs x).ftx = s.ftx := rfl
@[simp] theorem State.setTxs_rxp (x : Txs) : (s.setTxs x).rxp = s.rxp := rfl
@[simp] theorem State.setTxs_peers (x : Txs) : (s.setTxs x).peers = s.peers := rfl
@[simp] theorem State.setTxs_txs (x : Txs) : (s.setTxs x).txs = x := rfl
@[simp] theorem State.setTxs_bcr (x : Txs) : (s.setTxs x).bcr = s.bcr := rfl
@[simp] theorem State.setTxs_hpt (x : Txs) : (s.setTxs x).hpt = s.hpt := rfl
@[simp] theorem State.setTxs_pending (x : Txs) : (s.setTxs x).pending = s.pending := rfl
@[simp] theorem State.setTxs_lineIn (x : Txs) : (s.setTxs x).lineIn = s.lineIn := rfl
@[simp] theorem State.setTxs_hostIn (x : Txs) : (s.setTxs x).hostIn = s.hostIn := rfl

@[simp] theorem State.setBcr_rstLow (x : Bcr) : (s.setBcr x).rstLow = s.rstLow := rfl
@[simp] theorem State.setBcr_hostSelLow (x : Bcr) : (s.setBcr x).hostSelLow = s.hostSelLow := rfl
@[simp] theorem State.setBcr_stc (x : Bcr) : (s.setBcr x).stc = s.stc := rfl
@[simp] theorem State.setBcr_lfe (x : Bcr) : (s.setBcr x).lfe = s.lfe := rfl
@[simp] theorem State.setBcr_frx (x : Bcr) : (s.setBcr x).frx = s.frx := rfl
@[simp] theorem State.setBcr_ctu (x : Bcr) : (s.setBcr x).ctu = s.ctu := rfl
@[simp] theorem State.setBcr_ftx (x : Bcr) : (s.setBcr x).ftx = s.ftx := rfl
@[simp] theorem State.setBcr_rxp (x : Bcr) : (s.setBcr x).rxp = s.rxp := rfl
@[simp] theorem State.setBcr_peers (x : Bcr) : (s.setBcr x).peers = s.peers := rfl
@[simp] theorem State.setBcr_txs (x : Bcr) : (s.setBcr x).txs = s.txs := rfl
@[simp] theorem State.setBcr_bcr (x : Bcr) : (s.setBcr x).bcr = x := rfl
@[simp] theorem State.setBcr_hpt (x : Bcr) : (s.setBcr x).hpt = s.hpt := rfl
@[simp] theorem State.setBcr_pending (x : Bcr) : (s.setBcr x).pending = s.pending := rfl
@[simp] theorem State.setBcr_lineIn (x : Bcr) : (s.setBcr x).lineIn = s.lineIn := rfl
@[simp] theorem State.setBcr_hostIn (x : Bcr) : (s.setBcr x).hostIn = s.hostIn := rfl

@[simp] theorem State.setHpt_rstLow (x : Hpt) : (s.setHpt x).rstLow = s.rstLow := rfl
@[simp] theorem State.setHpt_hostSelLow (x : Hpt) : (s.setHpt x).hostSelLow = s.hostSelLow := rfl
@[simp] theorem State.setHpt_stc (x : Hpt) : (s.setHpt x).stc = s.stc := rfl
@[simp] theorem State.setHpt_lfe (x : Hpt) : (s.setHpt x).lfe = s.lfe := rfl
@[simp] theorem State.setHpt_frx (x : Hpt) : (s.setHpt x).frx = s.frx := rfl
@[simp] theorem State.setHpt_ctu (x : Hpt) : (s.setHpt x).ctu = s.ctu := rfl
@[simp] theorem State.setHpt_ftx (x : Hpt) : (s.setHpt x).ftx = s.ftx := rfl
@[simp] theorem State.setHpt_rxp (x : Hpt) : (s.setHpt x).rxp = s.rxp := rfl
@[simp] theorem State.setHpt_peers (x : Hpt) : (s.setHpt x).peers = s.peers := rfl
@[simp] theorem State.setHpt_txs (x : Hpt) : (s.setHpt x).txs = s.txs := rfl
@[simp] theorem State.setHpt_bcr (x : Hpt) : (s.setHpt x).bcr = s.bcr := rfl
@[simp] theorem State.setHpt_hpt (x : Hpt) : (s.setHpt x).hpt = x := rfl
@[simp] theorem State.setHpt_pending (x : Hpt) : (s.setHpt x).pending = s.pending := rfl
@[simp] theorem State.setHpt_lineIn (x : Hpt) : (s.setHpt x).lineIn = s.lineIn := rfl
@[simp] theorem State.setHpt_hostIn (x : Hpt) : (s.setHpt x).hostIn = s.hostIn := rfl

end Sys2Proof.Machine
end

