-- ==== Sys2Proof/Laws/Ops.lean ====
section
/-! SUPPORT. Frames of the shared operations: for each, every field of the state it leaves as it was. -/

namespace Sys2Proof.Machine

variable (s : State)

@[simp] theorem raise_frame (k : Counter) :
    (raise k s).rstLow = s.rstLow ∧ (raise k s).hostSelLow = s.hostSelLow ∧ (raise k s).stc = s.stc
      ∧ (raise k s).lfe = s.lfe ∧ (raise k s).frx = s.frx ∧ (raise k s).ctu = s.ctu ∧ (raise k s).ftx = s.ftx
      ∧ (raise k s).rxp = s.rxp ∧ (raise k s).peers = s.peers ∧ (raise k s).txs = s.txs ∧ (raise k s).bcr = s.bcr
      ∧ (raise k s).pending = s.pending ∧ (raise k s).lineIn = s.lineIn ∧ (raise k s).hostIn = s.hostIn := by simp [raise]

@[simp] theorem postNotice_frame (k : NoticeKind) (addr : Option Nat) :
    (postNotice k addr s).rstLow = s.rstLow ∧ (postNotice k addr s).hostSelLow = s.hostSelLow
      ∧ (postNotice k addr s).stc = s.stc ∧ (postNotice k addr s).lfe = s.lfe ∧ (postNotice k addr s).frx = s.frx
      ∧ (postNotice k addr s).ctu = s.ctu ∧ (postNotice k addr s).ftx = s.ftx ∧ (postNotice k addr s).rxp = s.rxp
      ∧ (postNotice k addr s).peers = s.peers ∧ (postNotice k addr s).txs = s.txs ∧ (postNotice k addr s).bcr = s.bcr
      ∧ (postNotice k addr s).pending = s.pending ∧ (postNotice k addr s).lineIn = s.lineIn
      ∧ (postNotice k addr s).hostIn = s.hostIn := by
  simp only [postNotice]
  repeat' split
  all_goals simp

@[simp] theorem addCause_frame (k : Cause) :
    (addCause k s).rstLow = s.rstLow ∧ (addCause k s).hostSelLow = s.hostSelLow ∧ (addCause k s).stc = s.stc
      ∧ (addCause k s).lfe = s.lfe ∧ (addCause k s).frx = s.frx ∧ (addCause k s).ctu = s.ctu
      ∧ (addCause k s).ftx = s.ftx ∧ (addCause k s).peers = s.peers ∧ (addCause k s).txs = s.txs
      ∧ (addCause k s).bcr = s.bcr ∧ (addCause k s).hpt = s.hpt ∧ (addCause k s).pending = s.pending
      ∧ (addCause k s).lineIn = s.lineIn ∧ (addCause k s).hostIn = s.hostIn := by simp [addCause]

@[simp] theorem updatePeer_frame (p : Nat) (f : Peer → Peer) :
    (updatePeer p f s).rstLow = s.rstLow ∧ (updatePeer p f s).hostSelLow = s.hostSelLow
      ∧ (updatePeer p f s).stc = s.stc ∧ (updatePeer p f s).lfe = s.lfe ∧ (updatePeer p f s).frx = s.frx
      ∧ (updatePeer p f s).ctu = s.ctu ∧ (updatePeer p f s).ftx = s.ftx ∧ (updatePeer p f s).rxp = s.rxp
      ∧ (updatePeer p f s).txs = s.txs ∧ (updatePeer p f s).bcr = s.bcr ∧ (updatePeer p f s).hpt = s.hpt
      ∧ (updatePeer p f s).pending = s.pending ∧ (updatePeer p f s).lineIn = s.lineIn
      ∧ (updatePeer p f s).hostIn = s.hostIn := by simp [updatePeer]

@[simp] theorem updatePeers_frame (f : Peer → Peer) :
    (updatePeers f s).rstLow = s.rstLow ∧ (updatePeers f s).hostSelLow = s.hostSelLow ∧ (updatePeers f s).stc = s.stc
      ∧ (updatePeers f s).lfe = s.lfe ∧ (updatePeers f s).frx = s.frx ∧ (updatePeers f s).ctu = s.ctu
      ∧ (updatePeers f s).ftx = s.ftx ∧ (updatePeers f s).rxp = s.rxp ∧ (updatePeers f s).txs = s.txs
      ∧ (updatePeers f s).bcr = s.bcr ∧ (updatePeers f s).hpt = s.hpt ∧ (updatePeers f s).pending = s.pending
      ∧ (updatePeers f s).lineIn = s.lineIn ∧ (updatePeers f s).hostIn = s.hostIn := by simp [updatePeers]

@[simp] theorem moveToDone_frame (p : Message → Bool) (f : Message → Message) :
    (moveToDone p f s).rstLow = s.rstLow ∧ (moveToDone p f s).hostSelLow = s.hostSelLow
      ∧ (moveToDone p f s).stc = s.stc ∧ (moveToDone p f s).lfe = s.lfe ∧ (moveToDone p f s).frx = s.frx
      ∧ (moveToDone p f s).ctu = s.ctu ∧ (moveToDone p f s).ftx = s.ftx ∧ (moveToDone p f s).rxp = s.rxp
      ∧ (moveToDone p f s).peers = s.peers ∧ (moveToDone p f s).bcr = s.bcr ∧ (moveToDone p f s).hpt = s.hpt
      ∧ (moveToDone p f s).pending = s.pending ∧ (moveToDone p f s).lineIn = s.lineIn
      ∧ (moveToDone p f s).hostIn = s.hostIn := by
  simp only [moveToDone]
  repeat' split
  all_goals simp

@[simp] theorem failAll_frame (p : Message → Bool) (o : MsgOutcome) :
    (failAll p o s).rstLow = s.rstLow ∧ (failAll p o s).hostSelLow = s.hostSelLow ∧ (failAll p o s).stc = s.stc
      ∧ (failAll p o s).lfe = s.lfe ∧ (failAll p o s).frx = s.frx ∧ (failAll p o s).ctu = s.ctu
      ∧ (failAll p o s).ftx = s.ftx ∧ (failAll p o s).rxp = s.rxp ∧ (failAll p o s).peers = s.peers
      ∧ (failAll p o s).bcr = s.bcr ∧ (failAll p o s).hpt = s.hpt ∧ (failAll p o s).pending = s.pending
      ∧ (failAll p o s).lineIn = s.lineIn ∧ (failAll p o s).hostIn = s.hostIn := by simp [failAll]

@[simp] theorem evalCauses_frame :
    (evalCauses s).rstLow = s.rstLow ∧ (evalCauses s).hostSelLow = s.hostSelLow ∧ (evalCauses s).stc = s.stc
      ∧ (evalCauses s).lfe = s.lfe ∧ (evalCauses s).frx = s.frx ∧ (evalCauses s).ctu = s.ctu
      ∧ (evalCauses s).ftx = s.ftx ∧ (evalCauses s).peers = s.peers ∧ (evalCauses s).txs = s.txs
      ∧ (evalCauses s).bcr = s.bcr ∧ (evalCauses s).hpt = s.hpt ∧ (evalCauses s).pending = s.pending
      ∧ (evalCauses s).lineIn = s.lineIn ∧ (evalCauses s).hostIn = s.hostIn := by
  simp only [evalCauses]
  repeat' split
  all_goals simp

@[simp] theorem storeRecord_frame (fr : Frame) :
    (storeRecord fr s).rstLow = s.rstLow ∧ (storeRecord fr s).hostSelLow = s.hostSelLow
      ∧ (storeRecord fr s).stc = s.stc ∧ (storeRecord fr s).lfe = s.lfe ∧ (storeRecord fr s).frx = s.frx
      ∧ (storeRecord fr s).ctu = s.ctu ∧ (storeRecord fr s).ftx = s.ftx ∧ (storeRecord fr s).peers = s.peers
      ∧ (storeRecord fr s).txs = s.txs ∧ (storeRecord fr s).bcr = s.bcr ∧ (storeRecord fr s).hpt = s.hpt
      ∧ (storeRecord fr s).pending = s.pending ∧ (storeRecord fr s).lineIn = s.lineIn
      ∧ (storeRecord fr s).hostIn = s.hostIn := by simp [storeRecord]

@[simp] theorem freeRecord_frame (l : Lane) :
    (freeRecord l s).rstLow = s.rstLow ∧ (freeRecord l s).hostSelLow = s.hostSelLow ∧ (freeRecord l s).stc = s.stc
      ∧ (freeRecord l s).lfe = s.lfe ∧ (freeRecord l s).frx = s.frx ∧ (freeRecord l s).ctu = s.ctu
      ∧ (freeRecord l s).ftx = s.ftx ∧ (freeRecord l s).peers = s.peers ∧ (freeRecord l s).txs = s.txs
      ∧ (freeRecord l s).bcr = s.bcr ∧ (freeRecord l s).hpt = s.hpt ∧ (freeRecord l s).pending = s.pending
      ∧ (freeRecord l s).lineIn = s.lineIn ∧ (freeRecord l s).hostIn = s.hostIn := by simp [freeRecord]

@[simp] theorem completeAdvert_frame (adv : Advert) :
    (completeAdvert adv s).rstLow = s.rstLow ∧ (completeAdvert adv s).hostSelLow = s.hostSelLow
      ∧ (completeAdvert adv s).stc = s.stc ∧ (completeAdvert adv s).lfe = s.lfe ∧ (completeAdvert adv s).frx = s.frx
      ∧ (completeAdvert adv s).ctu = s.ctu ∧ (completeAdvert adv s).ftx = s.ftx
      ∧ (completeAdvert adv s).peers = s.peers ∧ (completeAdvert adv s).txs = s.txs
      ∧ (completeAdvert adv s).bcr = s.bcr ∧ (completeAdvert adv s).hpt = s.hpt
      ∧ (completeAdvert adv s).pending = s.pending ∧ (completeAdvert adv s).lineIn = s.lineIn
      ∧ (completeAdvert adv s).hostIn = s.hostIn := by simp [completeAdvert]

@[simp] theorem storeBroadcast_frame (fr : Frame) :
    (storeBroadcast fr s).rstLow = s.rstLow ∧ (storeBroadcast fr s).hostSelLow = s.hostSelLow
      ∧ (storeBroadcast fr s).stc = s.stc ∧ (storeBroadcast fr s).lfe = s.lfe ∧ (storeBroadcast fr s).frx = s.frx
      ∧ (storeBroadcast fr s).ctu = s.ctu ∧ (storeBroadcast fr s).ftx = s.ftx ∧ (storeBroadcast fr s).rxp = s.rxp
      ∧ (storeBroadcast fr s).peers = s.peers ∧ (storeBroadcast fr s).txs = s.txs
      ∧ (storeBroadcast fr s).pending = s.pending ∧ (storeBroadcast fr s).lineIn = s.lineIn
      ∧ (storeBroadcast fr s).hostIn = s.hostIn := by
  simp only [storeBroadcast]
  repeat' split
  all_goals simp

@[simp] theorem hearFrame_frame (fr : Frame) :
    (hearFrame fr s).rstLow = s.rstLow ∧ (hearFrame fr s).hostSelLow = s.hostSelLow ∧ (hearFrame fr s).stc = s.stc
      ∧ (hearFrame fr s).lfe = s.lfe ∧ (hearFrame fr s).frx = s.frx ∧ (hearFrame fr s).ctu = s.ctu
      ∧ (hearFrame fr s).ftx = s.ftx ∧ (hearFrame fr s).rxp = s.rxp ∧ (hearFrame fr s).txs = s.txs
      ∧ (hearFrame fr s).bcr = s.bcr ∧ (hearFrame fr s).pending = s.pending ∧ (hearFrame fr s).lineIn = s.lineIn
      ∧ (hearFrame fr s).hostIn = s.hostIn := by
  simp only [hearFrame]
  repeat' split
  all_goals simp

@[simp] theorem observeAnswer_frame (dest : Nat) (l : Lane) (cls : AnswerClass) :
    (observeAnswer dest l cls s).rstLow = s.rstLow ∧ (observeAnswer dest l cls s).hostSelLow = s.hostSelLow
      ∧ (observeAnswer dest l cls s).stc = s.stc ∧ (observeAnswer dest l cls s).lfe = s.lfe
      ∧ (observeAnswer dest l cls s).frx = s.frx ∧ (observeAnswer dest l cls s).ctu = s.ctu
      ∧ (observeAnswer dest l cls s).ftx = s.ftx ∧ (observeAnswer dest l cls s).rxp = s.rxp
      ∧ (observeAnswer dest l cls s).txs = s.txs ∧ (observeAnswer dest l cls s).bcr = s.bcr
      ∧ (observeAnswer dest l cls s).pending = s.pending ∧ (observeAnswer dest l cls s).lineIn = s.lineIn
      ∧ (observeAnswer dest l cls s).hostIn = s.hostIn := by
  simp only [observeAnswer]
  repeat' split
  all_goals simp

@[simp] theorem markAllStale_frame :
    (markAllStale s).rstLow = s.rstLow ∧ (markAllStale s).hostSelLow = s.hostSelLow ∧ (markAllStale s).stc = s.stc
      ∧ (markAllStale s).lfe = s.lfe ∧ (markAllStale s).frx = s.frx ∧ (markAllStale s).ctu = s.ctu
      ∧ (markAllStale s).ftx = s.ftx ∧ (markAllStale s).rxp = s.rxp ∧ (markAllStale s).txs = s.txs
      ∧ (markAllStale s).bcr = s.bcr ∧ (markAllStale s).hpt = s.hpt ∧ (markAllStale s).pending = s.pending
      ∧ (markAllStale s).lineIn = s.lineIn ∧ (markAllStale s).hostIn = s.hostIn := by simp [markAllStale]

@[simp] theorem takeSilence_frame (p : Nat) :
    (takeSilence p s).rstLow = s.rstLow ∧ (takeSilence p s).hostSelLow = s.hostSelLow ∧ (takeSilence p s).stc = s.stc
      ∧ (takeSilence p s).lfe = s.lfe ∧ (takeSilence p s).frx = s.frx ∧ (takeSilence p s).ctu = s.ctu
      ∧ (takeSilence p s).ftx = s.ftx ∧ (takeSilence p s).rxp = s.rxp ∧ (takeSilence p s).bcr = s.bcr
      ∧ (takeSilence p s).pending = s.pending ∧ (takeSilence p s).lineIn = s.lineIn
      ∧ (takeSilence p s).hostIn = s.hostIn := by
  simp only [takeSilence]
  repeat' split
  all_goals simp

@[simp] theorem settleSilence_frame (p : Nat) :
    (settleSilence p s).rstLow = s.rstLow ∧ (settleSilence p s).hostSelLow = s.hostSelLow
      ∧ (settleSilence p s).stc = s.stc ∧ (settleSilence p s).lfe = s.lfe ∧ (settleSilence p s).frx = s.frx
      ∧ (settleSilence p s).ctu = s.ctu ∧ (settleSilence p s).ftx = s.ftx ∧ (settleSilence p s).rxp = s.rxp
      ∧ (settleSilence p s).bcr = s.bcr ∧ (settleSilence p s).pending = s.pending
      ∧ (settleSilence p s).lineIn = s.lineIn ∧ (settleSilence p s).hostIn = s.hostIn := by
  simp only [settleSilence]
  repeat' split
  all_goals simp

@[simp] theorem expirePeers_frame :
    (expirePeers s).rstLow = s.rstLow ∧ (expirePeers s).hostSelLow = s.hostSelLow ∧ (expirePeers s).stc = s.stc
      ∧ (expirePeers s).lfe = s.lfe ∧ (expirePeers s).frx = s.frx ∧ (expirePeers s).ctu = s.ctu
      ∧ (expirePeers s).ftx = s.ftx ∧ (expirePeers s).rxp = s.rxp ∧ (expirePeers s).bcr = s.bcr
      ∧ (expirePeers s).pending = s.pending ∧ (expirePeers s).lineIn = s.lineIn ∧ (expirePeers s).hostIn = s.hostIn := by
  have h : ∀ (l : List Nat) (t : State), (l.foldl (fun u p => settleSilence p u) t) =
      { t with
        peers := (l.foldl (fun u p => settleSilence p u) t).peers
        txs := (l.foldl (fun u p => settleSilence p u) t).txs
        hpt := (l.foldl (fun u p => settleSilence p u) t).hpt } := by
    intro l
    induction l with
    | nil => intro t; rfl
    | cons p l ih =>
      intro t
      rw [List.foldl_cons, ih]
      simp
  unfold expirePeers
  rw [h]
  simp

@[simp] theorem lockMessage_frame (c : Candidate) :
    (lockMessage c s).rstLow = s.rstLow ∧ (lockMessage c s).hostSelLow = s.hostSelLow ∧ (lockMessage c s).stc = s.stc
      ∧ (lockMessage c s).lfe = s.lfe ∧ (lockMessage c s).frx = s.frx ∧ (lockMessage c s).ctu = s.ctu
      ∧ (lockMessage c s).ftx = s.ftx ∧ (lockMessage c s).rxp = s.rxp ∧ (lockMessage c s).peers = s.peers
      ∧ (lockMessage c s).bcr = s.bcr ∧ (lockMessage c s).hpt = s.hpt ∧ (lockMessage c s).pending = s.pending
      ∧ (lockMessage c s).lineIn = s.lineIn ∧ (lockMessage c s).hostIn = s.hostIn := by
  simp only [lockMessage]
  repeat' split
  all_goals simp

@[simp] theorem flipFor_frame (m : Message) (pending : Bool) :
    (flipFor m pending s).rstLow = s.rstLow ∧ (flipFor m pending s).hostSelLow = s.hostSelLow
      ∧ (flipFor m pending s).stc = s.stc ∧ (flipFor m pending s).lfe = s.lfe ∧ (flipFor m pending s).frx = s.frx
      ∧ (flipFor m pending s).ctu = s.ctu ∧ (flipFor m pending s).ftx = s.ftx ∧ (flipFor m pending s).rxp = s.rxp
      ∧ (flipFor m pending s).txs = s.txs ∧ (flipFor m pending s).bcr = s.bcr ∧ (flipFor m pending s).hpt = s.hpt
      ∧ (flipFor m pending s).pending = s.pending ∧ (flipFor m pending s).lineIn = s.lineIn
      ∧ (flipFor m pending s).hostIn = s.hostIn := by
  simp only [flipFor]
  repeat' split
  all_goals simp

@[simp] theorem returnMessage_frame (m : Message) (tries : Nat) :
    (returnMessage m tries s).rstLow = s.rstLow ∧ (returnMessage m tries s).hostSelLow = s.hostSelLow
      ∧ (returnMessage m tries s).stc = s.stc ∧ (returnMessage m tries s).lfe = s.lfe
      ∧ (returnMessage m tries s).frx = s.frx ∧ (returnMessage m tries s).ctu = s.ctu
      ∧ (returnMessage m tries s).ftx = s.ftx ∧ (returnMessage m tries s).rxp = s.rxp
      ∧ (returnMessage m tries s).peers = s.peers ∧ (returnMessage m tries s).bcr = s.bcr
      ∧ (returnMessage m tries s).hpt = s.hpt ∧ (returnMessage m tries s).pending = s.pending
      ∧ (returnMessage m tries s).lineIn = s.lineIn ∧ (returnMessage m tries s).hostIn = s.hostIn := by
  simp only [returnMessage]
  repeat' split
  all_goals simp

@[simp] theorem resolveMessage_frame (r : Resolution) (m : Message) :
    (resolveMessage r m s).rstLow = s.rstLow ∧ (resolveMessage r m s).hostSelLow = s.hostSelLow
      ∧ (resolveMessage r m s).stc = s.stc ∧ (resolveMessage r m s).lfe = s.lfe ∧ (resolveMessage r m s).frx = s.frx
      ∧ (resolveMessage r m s).ctu = s.ctu ∧ (resolveMessage r m s).ftx = s.ftx ∧ (resolveMessage r m s).rxp = s.rxp
      ∧ (resolveMessage r m s).bcr = s.bcr ∧ (resolveMessage r m s).pending = s.pending
      ∧ (resolveMessage r m s).lineIn = s.lineIn ∧ (resolveMessage r m s).hostIn = s.hostIn := by
  simp only [resolveMessage]
  repeat' split
  all_goals simp

@[simp] theorem resolve_frame (r : Resolution) :
    (resolve r s).rstLow = s.rstLow ∧ (resolve r s).hostSelLow = s.hostSelLow ∧ (resolve r s).stc = s.stc
      ∧ (resolve r s).lfe = s.lfe ∧ (resolve r s).frx = s.frx ∧ (resolve r s).ctu = s.ctu ∧ (resolve r s).ftx = s.ftx
      ∧ (resolve r s).rxp = s.rxp ∧ (resolve r s).bcr = s.bcr ∧ (resolve r s).pending = s.pending
      ∧ (resolve r s).lineIn = s.lineIn ∧ (resolve r s).hostIn = s.hostIn := by
  simp only [resolve]
  repeat' split
  all_goals simp

@[simp] theorem haltFailures_frame :
    (haltFailures s).rstLow = s.rstLow ∧ (haltFailures s).hostSelLow = s.hostSelLow ∧ (haltFailures s).stc = s.stc
      ∧ (haltFailures s).lfe = s.lfe ∧ (haltFailures s).frx = s.frx ∧ (haltFailures s).ctu = s.ctu
      ∧ (haltFailures s).ftx = s.ftx ∧ (haltFailures s).rxp = s.rxp ∧ (haltFailures s).peers = s.peers
      ∧ (haltFailures s).bcr = s.bcr ∧ (haltFailures s).hpt = s.hpt ∧ (haltFailures s).pending = s.pending
      ∧ (haltFailures s).lineIn = s.lineIn ∧ (haltFailures s).hostIn = s.hostIn := by simp [haltFailures]

@[simp] theorem halt_frame (why : HaltReason) :
    (halt why s).rstLow = s.rstLow ∧ (halt why s).hostSelLow = s.hostSelLow ∧ (halt why s).rxp = s.rxp
      ∧ (halt why s).peers = s.peers ∧ (halt why s).bcr = s.bcr ∧ (halt why s).hpt = s.hpt
      ∧ (halt why s).pending = s.pending ∧ (halt why s).lineIn = s.lineIn ∧ (halt why s).hostIn = s.hostIn := by simp [halt]

@[simp] theorem recordFault_frame :
    (recordFault s).rstLow = s.rstLow ∧ (recordFault s).hostSelLow = s.hostSelLow ∧ (recordFault s).stc = s.stc
      ∧ (recordFault s).lfe = s.lfe ∧ (recordFault s).frx = s.frx ∧ (recordFault s).ctu = s.ctu
      ∧ (recordFault s).rxp = s.rxp ∧ (recordFault s).peers = s.peers ∧ (recordFault s).txs = s.txs
      ∧ (recordFault s).bcr = s.bcr ∧ (recordFault s).hpt = s.hpt ∧ (recordFault s).pending = s.pending
      ∧ (recordFault s).lineIn = s.lineIn ∧ (recordFault s).hostIn = s.hostIn := by simp [recordFault]

@[simp] theorem haltIfFaulty_frame :
    (haltIfFaulty s).rstLow = s.rstLow ∧ (haltIfFaulty s).hostSelLow = s.hostSelLow ∧ (haltIfFaulty s).rxp = s.rxp
      ∧ (haltIfFaulty s).peers = s.peers ∧ (haltIfFaulty s).bcr = s.bcr ∧ (haltIfFaulty s).hpt = s.hpt
      ∧ (haltIfFaulty s).pending = s.pending ∧ (haltIfFaulty s).lineIn = s.lineIn
      ∧ (haltIfFaulty s).hostIn = s.hostIn := by
  simp only [haltIfFaulty]
  repeat' split
  all_goals simp

@[simp] theorem enterLineFault_frame :
    (enterLineFault s).rstLow = s.rstLow ∧ (enterLineFault s).hostSelLow = s.hostSelLow
      ∧ (enterLineFault s).lfe = s.lfe ∧ (enterLineFault s).rxp = s.rxp ∧ (enterLineFault s).bcr = s.bcr
      ∧ (enterLineFault s).pending = s.pending ∧ (enterLineFault s).lineIn = s.lineIn
      ∧ (enterLineFault s).hostIn = s.hostIn := by simp [enterLineFault]

@[simp] theorem startLead_frame (c : Candidate) :
    (startLead c s).rstLow = s.rstLow ∧ (startLead c s).hostSelLow = s.hostSelLow ∧ (startLead c s).stc = s.stc
      ∧ (startLead c s).lfe = s.lfe ∧ (startLead c s).frx = s.frx ∧ (startLead c s).ftx = s.ftx
      ∧ (startLead c s).rxp = s.rxp ∧ (startLead c s).peers = s.peers ∧ (startLead c s).bcr = s.bcr
      ∧ (startLead c s).hpt = s.hpt ∧ (startLead c s).pending = s.pending ∧ (startLead c s).lineIn = s.lineIn
      ∧ (startLead c s).hostIn = s.hostIn := by simp [startLead]

@[simp] theorem joinLead_frame (c : Candidate) :
    (joinLead c s).rstLow = s.rstLow ∧ (joinLead c s).hostSelLow = s.hostSelLow ∧ (joinLead c s).stc = s.stc
      ∧ (joinLead c s).lfe = s.lfe ∧ (joinLead c s).frx = s.frx ∧ (joinLead c s).ftx = s.ftx
      ∧ (joinLead c s).rxp = s.rxp ∧ (joinLead c s).peers = s.peers ∧ (joinLead c s).bcr = s.bcr
      ∧ (joinLead c s).hpt = s.hpt ∧ (joinLead c s).pending = s.pending ∧ (joinLead c s).lineIn = s.lineIn
      ∧ (joinLead c s).hostIn = s.hostIn := by simp [joinLead]

@[simp] theorem nameMoment_frame :
    (nameMoment s).rstLow = s.rstLow ∧ (nameMoment s).hostSelLow = s.hostSelLow ∧ (nameMoment s).stc = s.stc
      ∧ (nameMoment s).lfe = s.lfe ∧ (nameMoment s).frx = s.frx ∧ (nameMoment s).ftx = s.ftx
      ∧ (nameMoment s).rxp = s.rxp ∧ (nameMoment s).peers = s.peers ∧ (nameMoment s).bcr = s.bcr
      ∧ (nameMoment s).hpt = s.hpt ∧ (nameMoment s).pending = s.pending ∧ (nameMoment s).lineIn = s.lineIn
      ∧ (nameMoment s).hostIn = s.hostIn := by
  simp only [nameMoment]
  repeat' split
  all_goals simp

@[simp] theorem ctuEnterWaiting_frame :
    (ctuEnterWaiting s).rstLow = s.rstLow ∧ (ctuEnterWaiting s).hostSelLow = s.hostSelLow
      ∧ (ctuEnterWaiting s).stc = s.stc ∧ (ctuEnterWaiting s).lfe = s.lfe ∧ (ctuEnterWaiting s).frx = s.frx
      ∧ (ctuEnterWaiting s).ftx = s.ftx ∧ (ctuEnterWaiting s).rxp = s.rxp ∧ (ctuEnterWaiting s).peers = s.peers
      ∧ (ctuEnterWaiting s).txs = s.txs ∧ (ctuEnterWaiting s).bcr = s.bcr ∧ (ctuEnterWaiting s).hpt = s.hpt
      ∧ (ctuEnterWaiting s).pending = s.pending ∧ (ctuEnterWaiting s).lineIn = s.lineIn
      ∧ (ctuEnterWaiting s).hostIn = s.hostIn := by simp [ctuEnterWaiting]

@[simp] theorem enterJoining_frame :
    (enterJoining s).rstLow = s.rstLow ∧ (enterJoining s).hostSelLow = s.hostSelLow ∧ (enterJoining s).lfe = s.lfe
      ∧ (enterJoining s).frx = s.frx ∧ (enterJoining s).ftx = s.ftx ∧ (enterJoining s).rxp = s.rxp
      ∧ (enterJoining s).peers = s.peers ∧ (enterJoining s).bcr = s.bcr ∧ (enterJoining s).hpt = s.hpt
      ∧ (enterJoining s).pending = s.pending ∧ (enterJoining s).lineIn = s.lineIn
      ∧ (enterJoining s).hostIn = s.hostIn := by simp [enterJoining]

@[simp] theorem attemptEnd_frame :
    (attemptEnd s).rstLow = s.rstLow ∧ (attemptEnd s).hostSelLow = s.hostSelLow ∧ (attemptEnd s).stc = s.stc
      ∧ (attemptEnd s).lfe = s.lfe ∧ (attemptEnd s).frx = s.frx ∧ (attemptEnd s).ftx = s.ftx
      ∧ (attemptEnd s).rxp = s.rxp ∧ (attemptEnd s).peers = s.peers ∧ (attemptEnd s).txs = s.txs
      ∧ (attemptEnd s).bcr = s.bcr ∧ (attemptEnd s).hpt = s.hpt ∧ (attemptEnd s).pending = s.pending
      ∧ (attemptEnd s).lineIn = s.lineIn ∧ (attemptEnd s).hostIn = s.hostIn := by simp [attemptEnd]

@[simp] theorem claimLost_frame :
    (claimLost s).rstLow = s.rstLow ∧ (claimLost s).hostSelLow = s.hostSelLow ∧ (claimLost s).stc = s.stc
      ∧ (claimLost s).lfe = s.lfe ∧ (claimLost s).frx = s.frx ∧ (claimLost s).ftx = s.ftx ∧ (claimLost s).rxp = s.rxp
      ∧ (claimLost s).bcr = s.bcr ∧ (claimLost s).pending = s.pending ∧ (claimLost s).lineIn = s.lineIn
      ∧ (claimLost s).hostIn = s.hostIn := by simp [claimLost]

@[simp] theorem claimWon_frame :
    (claimWon s).rstLow = s.rstLow ∧ (claimWon s).hostSelLow = s.hostSelLow ∧ (claimWon s).stc = s.stc
      ∧ (claimWon s).lfe = s.lfe ∧ (claimWon s).frx = s.frx ∧ (claimWon s).rxp = s.rxp ∧ (claimWon s).peers = s.peers
      ∧ (claimWon s).txs = s.txs ∧ (claimWon s).bcr = s.bcr ∧ (claimWon s).hpt = s.hpt
      ∧ (claimWon s).pending = s.pending ∧ (claimWon s).lineIn = s.lineIn ∧ (claimWon s).hostIn = s.hostIn := by simp [claimWon]

@[simp] theorem driveFault_frame :
    (driveFault s).rstLow = s.rstLow ∧ (driveFault s).hostSelLow = s.hostSelLow ∧ (driveFault s).rxp = s.rxp
      ∧ (driveFault s).bcr = s.bcr ∧ (driveFault s).pending = s.pending ∧ (driveFault s).lineIn = s.lineIn
      ∧ (driveFault s).hostIn = s.hostIn := by simp [driveFault]

end Sys2Proof.Machine
end

