-- ==== Sys2Proof/Laws/Units.lean ====
section
/-! SUPPORT. Frames of the Frame Transmitter, the Frame Receiver, the port and the tick: every field of the state they leave as it
was. -/

namespace Sys2Proof.Machine

variable (s : State)

@[simp] theorem txAdvance_frame :
    (txAdvance s).rstLow = s.rstLow ∧ (txAdvance s).hostSelLow = s.hostSelLow ∧ (txAdvance s).stc = s.stc
      ∧ (txAdvance s).lfe = s.lfe ∧ (txAdvance s).frx = s.frx ∧ (txAdvance s).ctu = s.ctu ∧ (txAdvance s).rxp = s.rxp
      ∧ (txAdvance s).peers = s.peers ∧ (txAdvance s).txs = s.txs ∧ (txAdvance s).bcr = s.bcr
      ∧ (txAdvance s).hpt = s.hpt ∧ (txAdvance s).pending = s.pending ∧ (txAdvance s).lineIn = s.lineIn
      ∧ (txAdvance s).hostIn = s.hostIn := by simp [txAdvance]

@[simp] theorem beginSymbol_frame :
    (beginSymbol s).rstLow = s.rstLow ∧ (beginSymbol s).hostSelLow = s.hostSelLow ∧ (beginSymbol s).stc = s.stc
      ∧ (beginSymbol s).lfe = s.lfe ∧ (beginSymbol s).frx = s.frx ∧ (beginSymbol s).ctu = s.ctu
      ∧ (beginSymbol s).rxp = s.rxp ∧ (beginSymbol s).peers = s.peers ∧ (beginSymbol s).txs = s.txs
      ∧ (beginSymbol s).bcr = s.bcr ∧ (beginSymbol s).hpt = s.hpt ∧ (beginSymbol s).pending = s.pending
      ∧ (beginSymbol s).lineIn = s.lineIn ∧ (beginSymbol s).hostIn = s.hostIn := by
  simp only [beginSymbol]
  repeat' split
  all_goals simp

@[simp] theorem abortFrame_frame :
    (abortFrame s).rstLow = s.rstLow ∧ (abortFrame s).hostSelLow = s.hostSelLow ∧ (abortFrame s).rxp = s.rxp
      ∧ (abortFrame s).bcr = s.bcr ∧ (abortFrame s).pending = s.pending ∧ (abortFrame s).lineIn = s.lineIn
      ∧ (abortFrame s).hostIn = s.hostIn := by simp [abortFrame]

@[simp] theorem completeKind_frame (c : Candidate) :
    (completeKind c s).rstLow = s.rstLow ∧ (completeKind c s).hostSelLow = s.hostSelLow
      ∧ (completeKind c s).lfe = s.lfe ∧ (completeKind c s).frx = s.frx ∧ (completeKind c s).ctu = s.ctu
      ∧ (completeKind c s).ftx = s.ftx ∧ (completeKind c s).rxp = s.rxp ∧ (completeKind c s).bcr = s.bcr
      ∧ (completeKind c s).pending = s.pending ∧ (completeKind c s).lineIn = s.lineIn
      ∧ (completeKind c s).hostIn = s.hostIn := by
  simp only [completeKind]
  repeat' split
  all_goals simp

@[simp] theorem completeCounts_frame :
    (completeCounts s).rstLow = s.rstLow ∧ (completeCounts s).hostSelLow = s.hostSelLow
      ∧ (completeCounts s).lfe = s.lfe ∧ (completeCounts s).frx = s.frx ∧ (completeCounts s).ctu = s.ctu
      ∧ (completeCounts s).rxp = s.rxp ∧ (completeCounts s).peers = s.peers ∧ (completeCounts s).txs = s.txs
      ∧ (completeCounts s).bcr = s.bcr ∧ (completeCounts s).pending = s.pending
      ∧ (completeCounts s).lineIn = s.lineIn ∧ (completeCounts s).hostIn = s.hostIn := by simp [completeCounts]

@[simp] theorem completeFrame_frame :
    (completeFrame s).rstLow = s.rstLow ∧ (completeFrame s).hostSelLow = s.hostSelLow ∧ (completeFrame s).lfe = s.lfe
      ∧ (completeFrame s).frx = s.frx ∧ (completeFrame s).bcr = s.bcr ∧ (completeFrame s).pending = s.pending
      ∧ (completeFrame s).lineIn = s.lineIn ∧ (completeFrame s).hostIn = s.hostIn := by
  simp only [completeFrame]
  repeat' split
  all_goals simp

@[simp] theorem startAnswer_frame (k : AnswerKind) :
    (startAnswer k s).rstLow = s.rstLow ∧ (startAnswer k s).hostSelLow = s.hostSelLow ∧ (startAnswer k s).stc = s.stc
      ∧ (startAnswer k s).lfe = s.lfe ∧ (startAnswer k s).frx = s.frx ∧ (startAnswer k s).ctu = s.ctu
      ∧ (startAnswer k s).rxp = s.rxp ∧ (startAnswer k s).peers = s.peers ∧ (startAnswer k s).txs = s.txs
      ∧ (startAnswer k s).bcr = s.bcr ∧ (startAnswer k s).hpt = s.hpt ∧ (startAnswer k s).pending = s.pending
      ∧ (startAnswer k s).lineIn = s.lineIn ∧ (startAnswer k s).hostIn = s.hostIn := by simp [startAnswer]

@[simp] theorem answerMismatch_frame :
    (answerMismatch s).rstLow = s.rstLow ∧ (answerMismatch s).hostSelLow = s.hostSelLow
      ∧ (answerMismatch s).rxp = s.rxp ∧ (answerMismatch s).peers = s.peers ∧ (answerMismatch s).bcr = s.bcr
      ∧ (answerMismatch s).hpt = s.hpt ∧ (answerMismatch s).pending = s.pending
      ∧ (answerMismatch s).lineIn = s.lineIn ∧ (answerMismatch s).hostIn = s.hostIn := by simp [answerMismatch]

@[simp] theorem ftxRise_frame (gap : Nat) :
    (ftxRise gap s).rstLow = s.rstLow ∧ (ftxRise gap s).hostSelLow = s.hostSelLow ∧ (ftxRise gap s).rxp = s.rxp
      ∧ (ftxRise gap s).bcr = s.bcr ∧ (ftxRise gap s).pending = s.pending ∧ (ftxRise gap s).lineIn = s.lineIn
      ∧ (ftxRise gap s).hostIn = s.hostIn := by
  simp only [ftxRise]
  repeat' split
  all_goals simp

@[simp] theorem ftxFall_frame (cls : PulseClass) :
    (ftxFall cls s).rstLow = s.rstLow ∧ (ftxFall cls s).hostSelLow = s.hostSelLow ∧ (ftxFall cls s).bcr = s.bcr
      ∧ (ftxFall cls s).pending = s.pending ∧ (ftxFall cls s).lineIn = s.lineIn ∧ (ftxFall cls s).hostIn = s.hostIn := by
  simp only [ftxFall]
  repeat' split
  all_goals simp

@[simp] theorem ftxEarly_frame :
    (ftxEarly s).rstLow = s.rstLow ∧ (ftxEarly s).hostSelLow = s.hostSelLow ∧ (ftxEarly s).rxp = s.rxp
      ∧ (ftxEarly s).peers = s.peers ∧ (ftxEarly s).bcr = s.bcr ∧ (ftxEarly s).hpt = s.hpt
      ∧ (ftxEarly s).pending = s.pending ∧ (ftxEarly s).lineIn = s.lineIn ∧ (ftxEarly s).hostIn = s.hostIn := by
  simp only [ftxEarly]
  repeat' split
  all_goals simp

@[simp] theorem answerEvent_frame (claim dest : Nat) (l : Lane) (cls : AnswerClass) :
    (answerEvent claim dest l cls s).rstLow = s.rstLow ∧ (answerEvent claim dest l cls s).hostSelLow = s.hostSelLow
      ∧ (answerEvent claim dest l cls s).stc = s.stc ∧ (answerEvent claim dest l cls s).lfe = s.lfe
      ∧ (answerEvent claim dest l cls s).frx = s.frx ∧ (answerEvent claim dest l cls s).rxp = s.rxp
      ∧ (answerEvent claim dest l cls s).bcr = s.bcr ∧ (answerEvent claim dest l cls s).pending = s.pending
      ∧ (answerEvent claim dest l cls s).lineIn = s.lineIn ∧ (answerEvent claim dest l cls s).hostIn = s.hostIn := by
  simp only [answerEvent]
  repeat' split
  all_goals simp

@[simp] theorem decideAnswer_frame (fr : Frame) :
    (decideAnswer fr s).rstLow = s.rstLow ∧ (decideAnswer fr s).hostSelLow = s.hostSelLow
      ∧ (decideAnswer fr s).stc = s.stc ∧ (decideAnswer fr s).lfe = s.lfe ∧ (decideAnswer fr s).frx = s.frx
      ∧ (decideAnswer fr s).ctu = s.ctu ∧ (decideAnswer fr s).txs = s.txs ∧ (decideAnswer fr s).bcr = s.bcr
      ∧ (decideAnswer fr s).pending = s.pending ∧ (decideAnswer fr s).lineIn = s.lineIn
      ∧ (decideAnswer fr s).hostIn = s.hostIn := by
  simp only [decideAnswer]
  repeat' split
  all_goals simp

@[simp] theorem addressClash_frame :
    (addressClash s).rstLow = s.rstLow ∧ (addressClash s).hostSelLow = s.hostSelLow ∧ (addressClash s).rxp = s.rxp
      ∧ (addressClash s).peers = s.peers ∧ (addressClash s).bcr = s.bcr ∧ (addressClash s).pending = s.pending
      ∧ (addressClash s).lineIn = s.lineIn ∧ (addressClash s).hostIn = s.hostIn := by simp [addressClash]

@[simp] theorem frameEffects_frame (fr : Frame) :
    (frameEffects fr s).rstLow = s.rstLow ∧ (frameEffects fr s).hostSelLow = s.hostSelLow
      ∧ (frameEffects fr s).stc = s.stc ∧ (frameEffects fr s).lfe = s.lfe ∧ (frameEffects fr s).frx = s.frx
      ∧ (frameEffects fr s).ctu = s.ctu ∧ (frameEffects fr s).txs = s.txs ∧ (frameEffects fr s).pending = s.pending
      ∧ (frameEffects fr s).lineIn = s.lineIn ∧ (frameEffects fr s).hostIn = s.hostIn := by
  simp only [frameEffects]
  repeat' split
  all_goals simp

@[simp] theorem markHeard_frame :
    (markHeard s).rstLow = s.rstLow ∧ (markHeard s).hostSelLow = s.hostSelLow ∧ (markHeard s).lfe = s.lfe
      ∧ (markHeard s).frx = s.frx ∧ (markHeard s).ctu = s.ctu ∧ (markHeard s).ftx = s.ftx ∧ (markHeard s).rxp = s.rxp
      ∧ (markHeard s).peers = s.peers ∧ (markHeard s).txs = s.txs ∧ (markHeard s).bcr = s.bcr
      ∧ (markHeard s).hpt = s.hpt ∧ (markHeard s).pending = s.pending ∧ (markHeard s).lineIn = s.lineIn
      ∧ (markHeard s).hostIn = s.hostIn := by
  simp only [markHeard]
  repeat' split
  all_goals simp

@[simp] theorem validFrame_frame (own : Bool) (fr : Frame) :
    (validFrame own fr s).rstLow = s.rstLow ∧ (validFrame own fr s).hostSelLow = s.hostSelLow
      ∧ (validFrame own fr s).pending = s.pending ∧ (validFrame own fr s).lineIn = s.lineIn
      ∧ (validFrame own fr s).hostIn = s.hostIn := by
  simp only [validFrame]
  repeat' split
  all_goals simp

@[simp] theorem applyRx_frame (own : Bool) (e : RxEvent) :
    (applyRx own e s).rstLow = s.rstLow ∧ (applyRx own e s).hostSelLow = s.hostSelLow
      ∧ (applyRx own e s).pending = s.pending ∧ (applyRx own e s).lineIn = s.lineIn
      ∧ (applyRx own e s).hostIn = s.hostIn := by
  simp only [applyRx]
  repeat' split
  all_goals simp

@[simp] theorem toFrx_frame (own : Bool) (step : Frx → Frx × RxEvent) :
    (toFrx own step s).rstLow = s.rstLow ∧ (toFrx own step s).hostSelLow = s.hostSelLow
      ∧ (toFrx own step s).pending = s.pending ∧ (toFrx own step s).lineIn = s.lineIn
      ∧ (toFrx own step s).hostIn = s.hostIn := by
  simp only [toFrx]
  repeat' split
  all_goals simp

@[simp] theorem frxIdle_frame :
    (frxIdle s).rstLow = s.rstLow ∧ (frxIdle s).hostSelLow = s.hostSelLow ∧ (frxIdle s).stc = s.stc
      ∧ (frxIdle s).lfe = s.lfe ∧ (frxIdle s).ctu = s.ctu ∧ (frxIdle s).ftx = s.ftx ∧ (frxIdle s).rxp = s.rxp
      ∧ (frxIdle s).txs = s.txs ∧ (frxIdle s).bcr = s.bcr ∧ (frxIdle s).pending = s.pending
      ∧ (frxIdle s).lineIn = s.lineIn ∧ (frxIdle s).hostIn = s.hostIn := by
  simp only [frxIdle]
  repeat' split
  all_goals simp

@[simp] theorem reply_frame (code : Byte) (operand : List Byte) (result : Byte) (data : List Byte) :
    (reply code operand result data s).rstLow = s.rstLow
      ∧ (reply code operand result data s).hostSelLow = s.hostSelLow ∧ (reply code operand result data s).stc = s.stc
      ∧ (reply code operand result data s).lfe = s.lfe ∧ (reply code operand result data s).frx = s.frx
      ∧ (reply code operand result data s).ctu = s.ctu ∧ (reply code operand result data s).ftx = s.ftx
      ∧ (reply code operand result data s).rxp = s.rxp ∧ (reply code operand result data s).peers = s.peers
      ∧ (reply code operand result data s).txs = s.txs ∧ (reply code operand result data s).bcr = s.bcr
      ∧ (reply code operand result data s).pending = s.pending ∧ (reply code operand result data s).lineIn = s.lineIn
      ∧ (reply code operand result data s).hostIn = s.hostIn := by simp [reply]

@[simp] theorem ctuRise_frame :
    (ctuRise s).rstLow = s.rstLow ∧ (ctuRise s).hostSelLow = s.hostSelLow ∧ (ctuRise s).stc = s.stc
      ∧ (ctuRise s).lfe = s.lfe ∧ (ctuRise s).frx = s.frx ∧ (ctuRise s).ftx = s.ftx ∧ (ctuRise s).rxp = s.rxp
      ∧ (ctuRise s).peers = s.peers ∧ (ctuRise s).bcr = s.bcr ∧ (ctuRise s).hpt = s.hpt
      ∧ (ctuRise s).pending = s.pending ∧ (ctuRise s).lineIn = s.lineIn ∧ (ctuRise s).hostIn = s.hostIn := by
  simp only [ctuRise]
  repeat' split
  all_goals simp

@[simp] theorem ctuFall_frame :
    (ctuFall s).rstLow = s.rstLow ∧ (ctuFall s).hostSelLow = s.hostSelLow ∧ (ctuFall s).stc = s.stc
      ∧ (ctuFall s).lfe = s.lfe ∧ (ctuFall s).frx = s.frx ∧ (ctuFall s).ftx = s.ftx ∧ (ctuFall s).rxp = s.rxp
      ∧ (ctuFall s).peers = s.peers ∧ (ctuFall s).txs = s.txs ∧ (ctuFall s).bcr = s.bcr ∧ (ctuFall s).hpt = s.hpt
      ∧ (ctuFall s).pending = s.pending ∧ (ctuFall s).lineIn = s.lineIn ∧ (ctuFall s).hostIn = s.hostIn := by
  simp only [ctuFall]
  repeat' split
  all_goals simp

@[simp] theorem ctuIdle_frame :
    (ctuIdle s).rstLow = s.rstLow ∧ (ctuIdle s).hostSelLow = s.hostSelLow ∧ (ctuIdle s).stc = s.stc
      ∧ (ctuIdle s).lfe = s.lfe ∧ (ctuIdle s).frx = s.frx ∧ (ctuIdle s).ftx = s.ftx ∧ (ctuIdle s).rxp = s.rxp
      ∧ (ctuIdle s).peers = s.peers ∧ (ctuIdle s).bcr = s.bcr ∧ (ctuIdle s).hpt = s.hpt
      ∧ (ctuIdle s).pending = s.pending ∧ (ctuIdle s).lineIn = s.lineIn ∧ (ctuIdle s).hostIn = s.hostIn := by
  simp only [ctuIdle]
  repeat' split
  all_goals simp

@[simp] theorem recoverTo_frame (st : StationState) :
    (recoverTo st s).rstLow = s.rstLow ∧ (recoverTo st s).hostSelLow = s.hostSelLow ∧ (recoverTo st s).lfe = s.lfe
      ∧ (recoverTo st s).ftx = s.ftx ∧ (recoverTo st s).peers = s.peers ∧ (recoverTo st s).bcr = s.bcr
      ∧ (recoverTo st s).pending = s.pending ∧ (recoverTo st s).lineIn = s.lineIn
      ∧ (recoverTo st s).hostIn = s.hostIn := by
  simp only [recoverTo]
  repeat' split
  all_goals simp

@[simp] theorem heartbeatExpiry_frame :
    (heartbeatExpiry s).rstLow = s.rstLow ∧ (heartbeatExpiry s).hostSelLow = s.hostSelLow
      ∧ (heartbeatExpiry s).lfe = s.lfe ∧ (heartbeatExpiry s).frx = s.frx ∧ (heartbeatExpiry s).ctu = s.ctu
      ∧ (heartbeatExpiry s).ftx = s.ftx ∧ (heartbeatExpiry s).peers = s.peers ∧ (heartbeatExpiry s).txs = s.txs
      ∧ (heartbeatExpiry s).bcr = s.bcr ∧ (heartbeatExpiry s).hpt = s.hpt ∧ (heartbeatExpiry s).pending = s.pending
      ∧ (heartbeatExpiry s).lineIn = s.lineIn ∧ (heartbeatExpiry s).hostIn = s.hostIn := by
  simp only [heartbeatExpiry]
  repeat' split
  all_goals simp

@[simp] theorem advanceCounts_frame :
    (advanceCounts s).rstLow = s.rstLow ∧ (advanceCounts s).hostSelLow = s.hostSelLow ∧ (advanceCounts s).frx = s.frx
      ∧ (advanceCounts s).rxp = s.rxp ∧ (advanceCounts s).peers = s.peers ∧ (advanceCounts s).txs = s.txs
      ∧ (advanceCounts s).bcr = s.bcr ∧ (advanceCounts s).hpt = s.hpt ∧ (advanceCounts s).pending = s.pending
      ∧ (advanceCounts s).lineIn = s.lineIn ∧ (advanceCounts s).hostIn = s.hostIn := by simp [advanceCounts]

@[simp] theorem beginPosition_frame :
    (beginPosition s).rstLow = s.rstLow ∧ (beginPosition s).hostSelLow = s.hostSelLow ∧ (beginPosition s).frx = s.frx
      ∧ (beginPosition s).rxp = s.rxp ∧ (beginPosition s).peers = s.peers ∧ (beginPosition s).txs = s.txs
      ∧ (beginPosition s).bcr = s.bcr ∧ (beginPosition s).hpt = s.hpt ∧ (beginPosition s).lineIn = s.lineIn
      ∧ (beginPosition s).hostIn = s.hostIn := by simp [beginPosition]

@[simp] theorem readSample_frame :
    (readSample s).rstLow = s.rstLow ∧ (readSample s).hostSelLow = s.hostSelLow ∧ (readSample s).stc = s.stc
      ∧ (readSample s).frx = s.frx ∧ (readSample s).rxp = s.rxp ∧ (readSample s).peers = s.peers
      ∧ (readSample s).txs = s.txs ∧ (readSample s).bcr = s.bcr ∧ (readSample s).hpt = s.hpt
      ∧ (readSample s).pending = s.pending ∧ (readSample s).hostIn = s.hostIn := by simp [readSample]

@[simp] theorem takeSample_frame :
    (takeSample s).rstLow = s.rstLow ∧ (takeSample s).hostSelLow = s.hostSelLow ∧ (takeSample s).stc = s.stc
      ∧ (takeSample s).frx = s.frx ∧ (takeSample s).rxp = s.rxp ∧ (takeSample s).peers = s.peers
      ∧ (takeSample s).txs = s.txs ∧ (takeSample s).bcr = s.bcr ∧ (takeSample s).hpt = s.hpt
      ∧ (takeSample s).hostIn = s.hostIn := by simp [takeSample]

@[simp] theorem enqueueCommand_frame (code : Byte) (operand : List Byte) :
    (enqueueCommand code operand s).rstLow = s.rstLow ∧ (enqueueCommand code operand s).hostSelLow = s.hostSelLow
      ∧ (enqueueCommand code operand s).stc = s.stc ∧ (enqueueCommand code operand s).lfe = s.lfe
      ∧ (enqueueCommand code operand s).frx = s.frx ∧ (enqueueCommand code operand s).ctu = s.ctu
      ∧ (enqueueCommand code operand s).ftx = s.ftx ∧ (enqueueCommand code operand s).rxp = s.rxp
      ∧ (enqueueCommand code operand s).peers = s.peers ∧ (enqueueCommand code operand s).txs = s.txs
      ∧ (enqueueCommand code operand s).bcr = s.bcr ∧ (enqueueCommand code operand s).hpt = s.hpt
      ∧ (enqueueCommand code operand s).lineIn = s.lineIn ∧ (enqueueCommand code operand s).hostIn = s.hostIn := by simp [enqueueCommand]

@[simp] theorem commandByteIn_frame (b : Byte) :
    (commandByteIn b s).rstLow = s.rstLow ∧ (commandByteIn b s).hostSelLow = s.hostSelLow
      ∧ (commandByteIn b s).stc = s.stc ∧ (commandByteIn b s).lfe = s.lfe ∧ (commandByteIn b s).frx = s.frx
      ∧ (commandByteIn b s).ctu = s.ctu ∧ (commandByteIn b s).ftx = s.ftx ∧ (commandByteIn b s).rxp = s.rxp
      ∧ (commandByteIn b s).peers = s.peers ∧ (commandByteIn b s).txs = s.txs ∧ (commandByteIn b s).bcr = s.bcr
      ∧ (commandByteIn b s).lineIn = s.lineIn ∧ (commandByteIn b s).hostIn = s.hostIn := by
  simp only [commandByteIn]
  repeat' split
  all_goals simp

@[simp] theorem operandByteIn_frame (b : Byte) :
    (operandByteIn b s).rstLow = s.rstLow ∧ (operandByteIn b s).hostSelLow = s.hostSelLow
      ∧ (operandByteIn b s).stc = s.stc ∧ (operandByteIn b s).lfe = s.lfe ∧ (operandByteIn b s).frx = s.frx
      ∧ (operandByteIn b s).ctu = s.ctu ∧ (operandByteIn b s).ftx = s.ftx ∧ (operandByteIn b s).rxp = s.rxp
      ∧ (operandByteIn b s).peers = s.peers ∧ (operandByteIn b s).txs = s.txs ∧ (operandByteIn b s).bcr = s.bcr
      ∧ (operandByteIn b s).lineIn = s.lineIn ∧ (operandByteIn b s).hostIn = s.hostIn := by
  simp only [operandByteIn]
  repeat' split
  all_goals simp

@[simp] theorem clockByte_frame (b : Byte) :
    (clockByte b s).rstLow = s.rstLow ∧ (clockByte b s).hostSelLow = s.hostSelLow ∧ (clockByte b s).stc = s.stc
      ∧ (clockByte b s).lfe = s.lfe ∧ (clockByte b s).frx = s.frx ∧ (clockByte b s).ctu = s.ctu
      ∧ (clockByte b s).ftx = s.ftx ∧ (clockByte b s).rxp = s.rxp ∧ (clockByte b s).peers = s.peers
      ∧ (clockByte b s).txs = s.txs ∧ (clockByte b s).bcr = s.bcr ∧ (clockByte b s).lineIn = s.lineIn
      ∧ (clockByte b s).hostIn = s.hostIn := by
  simp only [clockByte]
  repeat' split
  all_goals simp

@[simp] theorem hostPosition_frame :
    (hostPosition s).rstLow = s.rstLow ∧ (hostPosition s).hostSelLow = s.hostSelLow ∧ (hostPosition s).stc = s.stc
      ∧ (hostPosition s).lfe = s.lfe ∧ (hostPosition s).frx = s.frx ∧ (hostPosition s).ctu = s.ctu
      ∧ (hostPosition s).ftx = s.ftx ∧ (hostPosition s).rxp = s.rxp ∧ (hostPosition s).peers = s.peers
      ∧ (hostPosition s).txs = s.txs ∧ (hostPosition s).bcr = s.bcr ∧ (hostPosition s).lineIn = s.lineIn := by
  simp only [hostPosition]
  repeat' split
  all_goals simp

@[simp] theorem tick_frame :
    (tick s).rstLow = s.rstLow ∧ (tick s).hostSelLow = s.hostSelLow ∧ (tick s).frx = s.frx ∧ (tick s).rxp = s.rxp
      ∧ (tick s).peers = s.peers ∧ (tick s).txs = s.txs ∧ (tick s).bcr = s.bcr := by
  simp only [tick]
  repeat' split
  all_goals simp

end Sys2Proof.Machine
end

