-- ==== Sys2Proof/Laws/Specs.lean ====
section
/-! SUPPORT. What each shared operation can do, said once: the lemmas to cite instead of unfolding it. -/

namespace Sys2Proof.Machine

/-! ### Lists: the first element that satisfies a test -/

theorem find?_split {α : Type} {p : α → Bool} {before after : List α} {x : α} (hb : ∀ y ∈ before, p y = false)
    (hx : p x = true) : (before ++ x :: after).find? p = some x := by
  rw [List.find?_append, List.find?_eq_none.mpr (by simpa using hb)]
  simp [hx]

theorem updateFirst_split {α : Type} {p : α → Bool} {f : α → α} {after : List α} {x : α} (hx : p x = true) :
    ∀ {before : List α}, (∀ y ∈ before, p y = false) →
      updateFirst p f (before ++ x :: after) = before ++ f x :: after
  | [], _ => by simp [updateFirst, hx]
  | y :: ys, hb => by
    have h1 := hb y (by simp)
    have h2 := updateFirst_split (f := f) (after := after) hx (before := ys) (fun z hz => hb z (by simp [hz]))
    simp [updateFirst, h1, h2]

theorem eraseP_split {α : Type} {p : α → Bool} {after : List α} {x : α} (hx : p x = true) :
    ∀ {before : List α}, (∀ y ∈ before, p y = false) → (before ++ x :: after).eraseP p = before ++ after
  | [], _ => by simp [hx]
  | y :: ys, hb => by
    have h1 := hb y (by simp)
    have h2 := eraseP_split (after := after) hx (before := ys) (fun z hz => hb z (by simp [hz]))
    simp [h1, h2]

/-- A list with an element that satisfies a test splits at the first one. -/
theorem exists_split {α : Type} {p : α → Bool} {x : α} : ∀ {l : List α}, l.find? p = some x →
    ∃ before after, l = before ++ x :: after ∧ (∀ y ∈ before, p y = false) ∧ p x = true
  | [], h => by simp at h
  | y :: ys, h => by
    by_cases hy : p y = true
    · rw [List.find?_cons_of_pos hy] at h
      cases h
      exact ⟨[], ys, rfl, by simp, hy⟩
    · rw [List.find?_cons_of_neg hy] at h
      obtain ⟨b, a, he, hb, hx⟩ := exists_split h
      refine ⟨y :: b, a, by simp [he], ?_, hx⟩
      intro z hz
      rcases List.mem_cons.mp hz with rfl | hz
      · simpa using hy
      · exact hb z hz

theorem length_updateFirst {α : Type} (p : α → Bool) (f : α → α) : ∀ l : List α, (updateFirst p f l).length = l.length
  | [] => rfl
  | x :: xs => by by_cases h : p x = true <;> simp [updateFirst, h, length_updateFirst p f xs]

/-- Every element of an updated list is one of the list's, or the update of one that satisfies the test. -/
theorem mem_updateFirst {α : Type} {p : α → Bool} {f : α → α} {y : α} : ∀ {l : List α}, y ∈ updateFirst p f l →
    y ∈ l ∨ ∃ x ∈ l, p x = true ∧ y = f x
  | [], h => by simp [updateFirst] at h
  | x :: xs, h => by
    by_cases hx : p x = true
    · simp only [updateFirst, hx, if_true, List.mem_cons] at h
      rcases h with rfl | h
      · exact .inr ⟨x, by simp, hx, rfl⟩
      · exact .inl (by simp [h])
    · simp only [updateFirst, hx, if_false, List.mem_cons, Bool.false_eq_true] at h
      rcases h with rfl | h
      · exact .inl (by simp)
      · rcases mem_updateFirst h with h | ⟨z, hz, hp, he⟩
        · exact .inl (by simp [h])
        · exact .inr ⟨z, by simp [hz], hp, he⟩

/-! ### Lanes and credit -/

@[simp] theorem PerLane.get_set {α : Type} (x : PerLane α) (l k : Lane) (v : α) :
    (x.set l v).get k = if k = l then v else x.get k := by cases l <;> cases k <;> rfl

/-- The credit rule: nothing to lend exactly where the lane's reserve and the shared count are both 0 (R13, R27). -/
theorem Advert.lend_eq_none_iff (v : Advert) (l : Lane) : v.lend l = none ↔ v.reserve.get l = 0 ∧ v.shared = 0 := by
  unfold Advert.lend
  split
  · simp; omega
  · split
    · simp; omega
    · simp; omega

/-! ### Counters, notices, causes -/

theorem bump_toNat (n : Half) : (bump n).toNat = min 65535 (n.toNat + 1) := by
  unfold bump
  split
  · subst n; rfl
  · have hn : n.toNat ≠ 65535 := fun h => ‹¬ n = 0xFFFF#16› (BitVec.eq_of_toNat_eq h)
    have := n.isLt
    rw [BitVec.toNat_add]
    simp
    omega

theorem Counters.get_add (x : Counters) (k j : Counter) :
    (x.add k).get j = if j = k then bump (x.get k) else x.get j := by cases k <;> cases j <;> rfl

theorem raise_hpt (k : Counter) (s : State) :
    (raise k s).hpt = { s.hpt with counters := s.hpt.counters.add k } := rfl

theorem postNotice_hpt (k : NoticeKind) (addr : Option Nat) (s : State) :
    (postNotice k addr s).hpt =
      if s.hpt.notices.length < 8 then { s.hpt with notices := s.hpt.notices ++ [⟨k, addr⟩] }
      else { s.hpt with noticesLost := min 255 (s.hpt.noticesLost + 1) } := by
  unfold postNotice Config.noticeSize
  split <;> rfl

theorem addCause_rxp (k : Cause) (s : State) :
    (addCause k s).rxp = { s.rxp with owed := true, causes := s.rxp.causes.insert k } := rfl

@[simp] theorem Causes.any_insert (x : Causes) (k : Cause) : (x.insert k).any = true := by
  cases k <;> simp [Causes.insert, Causes.any]

/-- The evaluation of causes (a) and (b): the pool's flag and set afterwards (R16). -/
theorem evalCauses_rxp (s : State) :
    (evalCauses s).rxp =
      { s.rxp with
        owed := s.rxp.owed || conditionA s || conditionB s
        causes := { s.rxp.causes with a := s.rxp.causes.a || conditionA s, b := s.rxp.causes.b || conditionB s } } := by
  unfold evalCauses
  cases conditionA s <;> cases conditionB s <;> simp [addCause, Causes.insert]

/-! ### Peer records -/

theorem peerAt_of_getElem? {s : State} {p : Nat} {r : Peer} (h : s.peers[p]? = some r) : peerAt s p = r := by
  simp [peerAt, List.getD_eq_getElem?_getD, h]

theorem updatePeer_peers (p : Nat) (f : Peer → Peer) (s : State) : (updatePeer p f s).peers = s.peers.modify p f := rfl

theorem modify_of_getElem? {α : Type} {l : List α} {p : Nat} {r : α} (h : l[p]? = some r) (f : α → α) :
    l.modify p f = l.set p (f r) := by
  obtain ⟨hp, hr⟩ := List.getElem?_eq_some_iff.mp h
  apply List.ext_getElem
  · simp
  · intro i h1 h2
    rw [List.getElem_modify, List.getElem_set]
    split
    · subst hr; subst p; rfl
    · rfl

theorem length_updatePeer (p : Nat) (f : Peer → Peer) (s : State) :
    (updatePeer p f s).peers.length = s.peers.length := by simp [updatePeer]

theorem length_updatePeers (f : Peer → Peer) (s : State) : (updatePeers f s).peers.length = s.peers.length := by
  simp [updatePeers]

/-- A silence expiry is taken when it is due and is nothing otherwise (R36, R37). -/
theorem settleSilence_cases (p : Nat) (s : State) :
    (silenceDue s p = true ∧ settleSilence p s = takeSilence p s) ∨ (silenceDue s p = false ∧ settleSilence p s = s) := by
  unfold settleSilence
  cases h : silenceDue s p <;> simp

/-! ### Messages -/

theorem moveToDone_split {p : Message → Bool} {before after : List Message} {m : Message} {s : State}
    (hs : s.txs.store = before ++ m :: after) (hb : ∀ x ∈ before, p x = false) (hm : p m = true)
    (f : Message → Message) :
    moveToDone p f s =
      s.setTxs { s.txs with store := before ++ after, outcomes := s.txs.outcomes ++ [f m] } := by
  unfold moveToDone
  rw [hs, find?_split hb hm, eraseP_split hm hb]

/-- With no IN_FLIGHT message a resolution is nothing. -/
theorem resolve_of_none {s : State} (h : inFlight s = none) (r : Resolution) : resolve r s = s := by
  unfold resolve
  rw [h]

/-- A resolution acts on the first IN_FLIGHT message, then settles its destination's silence. -/
theorem resolve_split {before after : List Message} {m : Message} {s : State}
    (hs : s.txs.store = before ++ m :: after) (hb : ∀ x ∈ before, x.state ≠ .inFlight) (hm : m.state = .inFlight)
    (r : Resolution) : resolve r s = settleSilence m.dest (resolveMessage r m s) := by
  have h : inFlight s = some m := by
    unfold inFlight
    rw [hs]
    exact find?_split (by simpa using hb) (by simp [hm])
  unfold resolve
  rw [h]

/-! ### Naming moments and halts -/

/-- A naming moment starts the LEAD of the named candidate, or is nothing (R102). -/
theorem nameMoment_cases (s : State) :
    nameMoment s = s ∨ ∃ c, name s = some c ∧ s.ctu.state = .waiting ∧ s.ctu.idleSeen = true ∧ s.lfe.active = false
      ∧ nameMoment s = startLead c s := by
  unfold nameMoment
  split
  · rename_i h
    cases hn : name s with
    | none => simp
    | some c => exact .inr ⟨c, rfl, h.1, h.2.1, by simpa using h.2.2, rfl⟩
  · exact .inl rfl

theorem nameOnChange_cases (s t : State) : nameOnChange s t = nameMoment t ∨ nameOnChange s t = t := by
  unfold nameOnChange
  split <;> simp

/-- Nothing is named where the CTU stands at no opportunity. -/
theorem nameMoment_of_closed {s : State} (h : s.ctu.state ≠ .waiting ∨ s.ctu.idleSeen = false) : nameMoment s = s := by
  unfold nameMoment
  rw [if_neg]
  rintro ⟨h1, h2, -⟩
  rcases h with h | h
  · exact h h1
  · simp [h] at h2

theorem haltIfFaulty_cases (s : State) :
    (4 ≤ s.ftx.faultCount ∧ haltIfFaulty s = halt .transmitFault s) ∨ (s.ftx.faultCount < 4 ∧ haltIfFaulty s = s) := by
  unfold haltIfFaulty faultLimit
  split
  · exact .inl ⟨‹_›, rfl⟩
  · exact .inr ⟨by omega, rfl⟩

/-! ### Readback -/

/-- A pulse that ends before the FTX has begun its own moves nothing but the forgotten edge (R9, R113). -/
theorem ftxFall_of_beforeDrive {s : State} (h : beforeDrive s = true) (cls : PulseClass) :
    ftxFall cls s = s.setFtx { s.ftx with drive := s.ftx.drive.forgetEdge } := by simp [ftxFall, h]

theorem beforeDrive_of_driven {s : State} (h : s.ftx.drive.phase ≠ .rest) : beforeDrive s = false := by
  simp [beforeDrive, h]

/-- The early class of an answer of the part's own is a mismatch; with none to read back it is nothing (R52). -/
theorem ftxEarly_cases (s : State) :
    (s.ftx.answer.isSome = true ∧ beforeDrive s = false ∧ ftxEarly s = answerMismatch s)
      ∨ ((s.ftx.answer = none ∨ beforeDrive s = true) ∧ ftxEarly s = s) := by
  unfold ftxEarly
  cases s.ftx.answer <;> cases beforeDrive s <;> simp

theorem endsAt_iff (d : Drive) (width : Nat) :
    endsAt d width = true ↔ d.phase = .driving ∧ (d.edgeAge = some width ∨ 64 ≤ d.timer) := by
  rw [endsAt, Bool.and_eq_true, Bool.or_eq_true, decide_eq_true_eq, beq_iff_eq, beq_iff_eq, driveLimit]

/-! ### The port and the receiver -/

theorem taken_of_open {code : Byte} {s : State} (h : portOpen code s = true) (effect : State → State) :
    taken code s effect = .next (effect s) := by simp [taken, h]

theorem taken_of_shut {code : Byte} {s : State} (h : portOpen code s = false) (effect : State → State) :
    taken code s effect = .next s := by simp [taken, h]

theorem toFrx_of_decoding {s : State} (h : decoding s = true) (own : Bool) (f : Frx → Frx × RxEvent) :
    toFrx own f s = applyRx own (f s.frx).2 (s.setFrx (f s.frx).1) := by simp [toFrx, h]

theorem toFrx_of_off {s : State} (h : decoding s = false) (own : Bool) (f : Frx → Frx × RxEvent) :
    toFrx own f s = s := by simp [toFrx, h]

/-! ### The tick -/

theorem tick_of_sampleDue {s : State} (h : s.lfe.sampling = true) (d : s.lfe.sampleDue = true) :
    tick s = takeSample s := by simp [tick, h, d]

theorem tick_of_between {s : State} (h : s.lfe.sampling = true) (d : s.lfe.sampleDue = false) :
    tick s = hostPosition (beginPosition s) := by simp [tick, h, d]

theorem tick_of_off {s : State} (h : s.lfe.sampling = false) : tick s = hostPosition s := by simp [tick, h]

/-- Every command has a next state: none stops the part. -/
theorem exec_completes (i : Instr) (s : State) : ∃ t, exec i s = .next t := by
  cases i <;> exact ⟨_, rfl⟩

end Sys2Proof.Machine
end

