-- ==== Sys2Proof/Tests/Slice0.lean ====
section
/-! SUPPORT. The model's own tests: ill-formed commands refused, the manual's worked examples on single steps, and for
each statement with hypotheses the states that meet them. -/

namespace Sys2Proof.Tests

open Sys2Proof Sys2Proof.Machine

/-! ### Helper states -/

/-- The profile of the manual's examples, at address 4 (1.8.1). -/
def profile : Profile := ⟨4, 0, ⟨2, 4, 2⟩, 3, 16, 3, true⟩

/-- In CONFIG with that profile SET. -/
def configured : State :=
  { State.reset with stc := { Stc.reset with profile := profile, profileSet := true } }

/-- A peer heard with its whole pool free. -/
def heard : Peer := { Peer.reset with presence := .present, stale := false, view := ⟨⟨2, 4, 2⟩, 16⟩ }

/-- ACTIVE on a line released for 60 positions, between two positions, with peers 9 and 17 heard and nothing owed. -/
def active : State :=
  let s := startStation configured
  { s with
    stc := { s.stc with station := .active }
    lfe := { s.lfe with count := 60, sampleDue := false }
    frx := Frx.reset
    ctu := { Ctu.reset with state := .waiting }
    rxp := { Rxp.reset with selfView := ⟨⟨2, 4, 2⟩, 16⟩ }
    peers := (s.peers.set 9 heard).set 17 heard }

/-- The same with a pulse under way after a gap of 8 positions. -/
def pulsing : State := { active with lfe := { active.lfe with active := true, count := 10, precedingGap := 8 } }

/-- A transaction stands at its command byte. -/
def asked (s : State) : State := { s with hostSelLow := true, hpt := { s.hpt with txn := .command } }

/-- The state after a command. -/
def after (c : Instr) (s : State) : State :=
  match exec c s with
  | .next t => t
  | _ => s

/-- The running count at a value, and the sample of the position due. -/
def counting (n : Nat) (s : State) : State := { s with lfe := { s.lfe with count := n } }
def sampling (s : State) : State := { s with lfe := { s.lfe with sampleDue := true } }

/-- The tick brings a command. -/
def brings (c : Instr) (s : State) : Bool := (tick s).pending.contains c

def inStation (st : StationState) (s : State) : State := { s with stc := { s.stc with station := st } }
def withFrx (x : Frx) (s : State) : State := { s with frx := x }
def withCtu (x : Ctu) (s : State) : State := { s with ctu := x }
def withFtx (x : Ftx) (s : State) : State := { s with ftx := x }
def withStore (ms : List Message) (s : State) : State := { s with txs := { s.txs with store := ms } }
def withDone (ms : List Message) (s : State) : State := { s with txs := { s.txs with outcomes := ms } }
def withPool (rs : List PoolRecord) (s : State) : State := { s with rxp := { s.rxp with queue := rs } }
def withNotices (n : Nat) (s : State) : State :=
  { s with hpt := { s.hpt with notices := List.replicate n ⟨.joined, none⟩ } }

/-- A QUEUED message of one byte. -/
def message (dest : Nat) (lane : Lane) (tries : Nat) : Message :=
  { tag := 0x0200#16, loadNumber := 0#16, dest := dest, lane := lane, payload := [7#8], tries := tries
    withdrawPending := false, state := .queued, outcome := none, duplicateNote := false }

def flying (m : Message) : Message := { m with state := .inFlight }

/-- A pool record of lane B. -/
def stored (charge : Charge) : PoolRecord := ⟨9, .b, [1#8], 0#16, charge⟩

/-- The FRX at the END of a well-received frame of station 9. -/
def atEnd (digit : Nat) (claim : Nat) (h : HeaderFields) (payload : List Byte) : Frx :=
  { Frx.reset with
    state := .endWait, claim := claimBits digit claim, header := headerBits h, payload := payload
    recent := ⟨some .w1, some .w1⟩ }

def advert9 : Advert := ⟨⟨2, 0, 1⟩, 15⟩
def statusHeader : HeaderFields := ⟨2, 31, 0, false, false, 0, advert9⟩
def joinHeader : HeaderFields := ⟨3, 31, 0, false, false, 0, advert9⟩
def pollHeader : HeaderFields := ⟨4, 4, 0, false, false, 0, advert9⟩
def castHeader : HeaderFields := ⟨1, 31, 1, false, false, 1, advert9⟩
def dataHeader (toggle resync : Bool) : HeaderFields := ⟨0, 4, 1, toggle, resync, 1, advert9⟩

/-- The FRX in an answer window of station 9's lane-B frame to station 17. -/
def window (phase : WindowPhase) : Frx := { Frx.reset with state := .answerWait, window := ⟨phase, 9, 17, .b⟩ }

/-- The FRX in the answer window of the part's own frame to station 9. -/
def ownWindow (phase : WindowPhase) : Frx := { Frx.reset with state := .answerWait, window := ⟨phase, 4, 9, .b⟩ }

/-- The candidate of station 9's frame in 11.2. -/
def data9 : Candidate := ⟨.data, 4, .b, [1#8, 2#8, 3#8, 4#8]⟩

/-- A candidate of this part. -/
def data4 : Candidate := ⟨.data, 9, .b, [7#8]⟩

def won (c : Candidate) : Ctu := { Ctu.reset with state := .won, locked := some c }

/-! ### WellFormed and Decode -/

theorem test_load_length_must_match : (Instr.load 1#16 9#8 1#8 3#8 [1#8, 2#8]).wellFormed = false := by decide
theorem test_refused_load_has_no_payload : (Instr.load 1#16 9#8 1#8 33#8 [1#8]).wellFormed = false := by decide
theorem test_known_code_is_not_unknown : (Instr.unknownCommand 0x20#8).wellFormed = false := by decide
theorem test_gap_saturates : (Instr.lineRisingEdge 1024).wellFormed = false := by decide
theorem test_filter_passes_no_two_positions : (Instr.pulseEvent 2).wellFormed = false := by decide
theorem test_pulse_saturates : (Instr.pulseEvent 1024).wellFormed = false := by decide
theorem test_wellformed_load : (Instr.load 1#16 9#8 1#8 2#8 [1#8, 2#8]).wellFormed = true := by decide
theorem test_table_has_no_bits : decodeTableWord 8 1 = none := by decide
/-- Table 10.6: code 20h, the tag most significant byte first, dest, lane, length, payload (10.6). -/
theorem test_load_bytes :
    hostCommand 0x20#8 [0x02#8, 0x00#8, 0x09#8, 0x01#8, 0x01#8, 0xAA#8]
      = some (.load 0x0200#16 0x09#8 0x01#8 0x01#8 [0xAA#8]) := by decide

/-! ### Codes and layouts -/

set_option maxRecDepth 20000 in
/-- 11.2: the check over 49h 04h 41h 14h 50h 01h 02h 03h 04h is EB83h. -/
theorem test_check_of_11_2 :
    crcSyms crcPreset ([0x49#8, 0x04#8, 0x41#8, 0x14#8, 0x50#8, 1#8, 2#8, 3#8, 4#8].flatMap (symsOf 4)) = 0xEB83#16 := by
  decide
set_option maxRecDepth 20000 in
/-- 11.2: the same check from station 9's frame itself. -/
theorem test_frame_check_of_11_2 : frameCheck 9 data9 ⟨⟨2, 4, 2⟩, 16⟩ false false = 0xEB83#16 := by decide
set_option maxRecDepth 20000 in
/-- 11.2: the STATUS of station 4 has check 8E4Dh. -/
theorem test_status_check_of_11_2 : frameCheck 4 ⟨.status, 31, .a, []⟩ ⟨⟨2, 4, 2⟩, 16⟩ false false = 0x8E4D#16 := by
  decide
/-- 11.2: claim 1 0 2 1. -/
theorem test_claim_of_11_2 : symsOf 4 (candidateClaim 9 data9) = [1#2, 0#2, 2#2, 1#2] := by decide
/-- 11.2: header 0 0 1 0, 1 0 0 1, 0 1 1 0, 1 1 0 0. -/
theorem test_header_of_11_2 :
    symsOf 16 (candidateHeader data9 ⟨⟨2, 4, 2⟩, 16⟩ false false)
      = [0#2, 0#2, 1#2, 0#2, 1#2, 0#2, 0#2, 1#2, 0#2, 1#2, 1#2, 0#2, 1#2, 1#2, 0#2, 0#2] := by decide
/-- Table 8.2: the first and last width of W1, and the width between W1 and W2. -/
theorem test_classes : [classOf 5, classOf 11, classOf 12, classOf 67, classOf 68]
    = [.w1, .w1, .unclassified, .w8, .unclassified] := by decide

/-- R124: all ones and a covered 0 shift and combine; the two bits of a symbol in the rule's terms. -/
theorem test_check_register :
    checkBit 0xFFFF 0 = 0xEFDF ∧ checkBit 0xFFFF 1 = 0xFFFE ∧ crcSym 0xFFFF#16 1#2 = checkSymbol 0xFFFF#16 1#2 := by
  decide

/-! ### Host commands -/

/-- 11.8, step 1: STATE after power-on shows CONFIG and own address 0; all 16 slots are free. -/
theorem test_state : (after .state (asked State.reset)).hpt.result
    = [0x80#8, 0#8, 0#8, 0#8, 0#8, 0#8, 0#8, 0#8, 16#8, 0#8, 0#8, 0#8, 0#8, 0#8] := by decide
theorem test_peer : (after (.peer 9#8) (asked active)).hpt.result
    = [0x80#8, 1#8, 0#8, 2#8, 4#8, 2#8, 16#8, 0#8, 0#8, 0#8, 0xFF#8] := by decide
theorem test_peer_31 : (after (.peer 31#8) (asked active)).hpt.result = [0x85#8] := by decide
theorem test_counters_clear : (after .counters (asked (raise .breaks active))).hpt.counters = Counters.zero := by decide
/-- Table 9.3: reserves that sum to 13 are refused. -/
theorem test_setup_sum : (after (.setup 4#8 0#8 6#8 4#8 3#8 3#8 16#8 0x13#8) (asked State.reset)).hpt.result
    = [0x84#8] := by decide
theorem test_setup : (after (.setup 4#8 0#8 2#8 4#8 2#8 3#8 16#8 0x13#8) (asked State.reset)).stc = configured.stc := by
  decide
/-- R19: START leaves the flag set. -/
theorem test_start : (after .start (asked configured)).stc.station = .listening
    ∧ (after .start (asked configured)).rxp.owed = true := by decide
theorem test_reset : (after .hostSelRise (after .reset (asked active))).stc
    = { Stc.reset with profile := profile, profileSet := true } := by decide
/-- 10.6: a LOAD answers its load number. -/
theorem test_load : (after (.load 0x0200#16 9#8 1#8 1#8 [7#8]) (asked active)).hpt.result = [0x80#8, 0#8, 0#8]
    ∧ (after (.load 0x0200#16 9#8 1#8 1#8 [7#8]) (asked active)).txs.store = [message 9 .b 0] := by decide
/-- R172: a bad length byte comes before the station state. -/
theorem test_load_length : (after (.load 0x0200#16 9#8 1#8 40#8 []) (asked State.reset)).hpt.result = [0x85#8] := by
  decide
/-- 11.7: WITHDRAW of an IN_FLIGHT message is PENDING. -/
theorem test_withdraw : (after (.withdraw 0x0200#16) (asked (withStore [flying (message 9 .a 0)] active))).hpt.result
    = [0x87#8] := by decide
theorem test_withdraw_queued :
    (after (.withdraw 0x0200#16) (asked (withStore [message 9 .a 0] active))).txs.outcomes
      = [(message 9 .a 0).finish .withdrawn false] := by decide
/-- 11.4: SENT, try count 1, the duplicate note set. -/
theorem test_outcome :
    (after .outcome (asked (withDone [(message 4 .a 1).finish .sent true] active))).hpt.result
      = [0x80#8, 2#8, 0#8, 0#8, 0#8, 0#8, 1#8, 1#8] := by decide
/-- 11.3, step 3: lane B shut out, so the FETCH sets the flag with cause (b). -/
theorem test_fetch :
    let s : State := withPool (List.replicate 4 (stored .reserve) ++ List.replicate 16 (stored .shared)) active
    let t := after .fetch (asked { s with rxp := { s.rxp with selfView := ⟨⟨2, 0, 2⟩, 0⟩ } })
    freeCounts t = ⟨⟨2, 1, 2⟩, 0⟩ ∧ t.rxp.owed = true ∧ t.rxp.causes.b = true ∧ t.rxp.causes.a = false := by decide
theorem test_fetch_broadcast :
    (after .fetchBroadcast (asked { active with bcr := ⟨[⟨9, .c, [5#8], 3#16⟩], 4#16⟩ })).hpt.result
      = [0x80#8, 9#8, 2#8, 1#8, 5#8, 0#8, 3#8] := by decide
theorem test_notice : (after .notice (asked (withNotices 1 active))).hpt.result = [0x80#8, 4#8, 0xFF#8, 0#8] := by decide
theorem test_unknown_command : (after (.unknownCommand 0x7F#8) (asked active)).hpt.result = [0x85#8] := by decide
theorem test_select : (after .hostSelFall active).hpt.txn = .command
    ∧ (after .hostSelRise (asked active)).hpt.txn = .idle := by decide
theorem test_hard_reset : (after .rstRelease (after .hardReset active)) = State.reset := by decide

/-! ### Frames heard -/

/-- 7.6.1, steps 1 to 6: LEAD and the claim digits 1 0 2 1 name station 9. -/
theorem test_claim_heard :
    let f := [PulseClass.w2, .w1, .w3, .w2].foldl (fun f c => (rxPulse f c 8).1) (rxLead Frx.reset)
    f.state = .header ∧ f.symCount = 0 ∧ claimAddress f.claim = 9 := by decide
/-- 7.6.1, step 11: the view of station 9 becomes 2 0 1 15, fresh. 1.8.1, step 1: an ACCEPT in lane B is charged to
reserve, and the self-view follows. 11.4, step 2: a toggle that differs is a DUPLICATE. -/
theorem test_data_heard :
    let o := after (.pulseEvent 48) (withFrx (atEnd 1 9 { dataHeader true false with dest := 17 } [1#8]) pulsing)
    let s := after (.pulseEvent 48) (withFrx (atEnd 1 9 (dataHeader false false) [1#8]) pulsing)
    let d := after (.pulseEvent 48) (withFrx (atEnd 1 9 (dataHeader true false) [1#8]) pulsing)
    ((peerAt o 9).view = advert9 ∧ (peerAt o 9).stale = false ∧ o.frx.state = .answerWait)
    ∧ (s.rxp.queue = [stored .reserve] ∧ s.rxp.selfView = ⟨⟨2, 3, 2⟩, 16⟩ ∧ s.ftx.answer = some .accept)
    ∧ (d.rxp = active.rxp ∧ d.ftx.answer = some .duplicate ∧ d.hpt.counters.duplicatesSeen = 1#16) := by decide
theorem test_answer_none :
    (after .answerWindowClose (withFrx (window .waiting) active)).frx.state = .idle := by decide
/-- 2.9.1, step 7: UNCLASSIFIED makes the view stale and counts. -/
theorem test_answer_early :
    let s := after .answerEarlyUnclassified (withFrx (window .inTime) pulsing)
    (peerAt s 17).stale = true ∧ s.hpt.counters.staleEvents = 1#16 := by decide
theorem test_frame_gap_break :
    (after .frameGapBreak (withFrx (rxLead Frx.reset) active)).hpt.counters.breaks = 1#16 := by decide

/-! ### Line conditions -/

/-- 11.1: LISTENING with no frame heard stays at LINE_IDLE, and joins at ROUND_GAP. -/
theorem test_line_idle : (after .lineIdle (startStation configured)).stc.station = .listening
    ∧ (after .lineIdle (startStation configured)).frx.state = .idle := by decide
theorem test_round_gap :
    let s := after .roundGap (startStation configured)
    s.stc.station = .joining ∧ s.ctu.state = .lead ∧ s.ctu.locked = some ⟨.join, 31, .a, []⟩ := by decide
theorem test_line_stuck : (after .lineStuck pulsing).stc.station = .lineFault
    ∧ (after .lineStuck pulsing).stc.returnState = some .active := by decide
theorem test_rising_edge : (after (.lineRisingEdge 300) active).lfe.precedingGap = 255
    ∧ (after (.lineRisingEdge 300) active).frx.state = .lead := by decide
set_option maxRecDepth 20000 in
/-- 11.1: with a silence limit of 16 the heartbeat is offered at the eighth span expiry. -/
theorem test_span_expiry :
    let s := after .spanExpiry { active with stc := { active.stc with heartbeat := 7 } }
    s.rxp.owed = true ∧ s.rxp.causes = { Causes.empty with e := true } := by decide

/-! ### Line positions -/

/-- R141: a line active from START on has its rising edge dated at position 0, so the gap is 0. -/
theorem test_line_active_from_start :
    let s := { startStation configured with lineIn := List.replicate 3 ⟨true, true⟩ }
    (tick (tick (tick (tick (tick s))))).pending = [.lineRisingEdge 0] := by decide
/-- R152: a LEAD started on an idle line is in the sample of its naming position. -/
theorem test_started_lead_is_in_its_sample :
    lineRx (after .lineIdle (sampling (counting 50 (withStore [message 9 .b 0] active)))) = true := by decide
/-- R154, R109: where the drive does not reach the line, the eighth sample into the LEAD brings a drive fault. -/
theorem test_drive_cut_off :
    let s := sampling (withCtu { won data4 with state := .lead, drive := ⟨.driving, 8, none⟩ } active)
    let t := tick { s with lineIn := [⟨false, false⟩] }
    t.lfe.raw1 = false ∧ t.pending = [.driveFaultCheck] ∧ (after .driveFaultCheck t).ftx.faultCount = 1 := by decide

/-! ### The part's own drives -/

theorem test_lead_release :
    (after .leadRelease (withCtu { won data4 with state := .lead, drive := ⟨.driving, 64, some 63⟩ } active)).ctu.drive
      = ⟨.released, 0, some 63⟩ := by decide
/-- 11.2: the station that finds the line active after its release has lost, and its message is QUEUED again. -/
theorem test_loss_test :
    let s := after .lossTest (withStore [flying (message 9 .b 0)]
      (withCtu { won data4 with state := .claim, drive := ⟨.released, 4, none⟩ } pulsing))
    s.ctu.state = .lost ∧ s.hpt.counters.arbLost = 1#16 ∧ s.txs.store = [message 9 .b 0] := by decide
/-- 11.2: after the last digit of a lane-B claim, WON with round-spent set. -/
theorem test_claim_won :
    let s := after .lossTest
      (withCtu { won data4 with state := .claim, digitIndex := 3, drive := ⟨.released, 4, none⟩ } active)
    s.ctu.state = .won ∧ s.ctu.roundSpent = true ∧ s.ftx.state = .header := by decide
theorem test_digit_drive :
    (after .digitRelease (after .digitDriveStart (withCtu { won data4 with state := .claim } active))).ctu.drive.phase
      = .released := by decide
theorem test_drive_fault :
    let s := after .driveFaultCheck (withCtu { won data4 with state := .claim, drive := ⟨.driving, 4, none⟩ } active)
    s.ctu.state = .waiting ∧ s.ctu.idleSeen = false ∧ s.ftx.faultCount = 1 := by decide
/-- 11.3, step 4: the capture at the first header symbol. -/
theorem test_symbol_drive_start :
    let s := after .symbolDriveStart (withPool [stored .reserve]
      (withFtx { Ftx.reset with state := .header } (withCtu (won data4) active)))
    s.ftx.captured = some ⟨⟨2, 3, 2⟩, 16⟩ ∧ lineTx s = true := by decide
theorem test_symbol_release :
    lineTx (after .symbolRelease (withFtx { Ftx.reset with state := .check, drive := ⟨.driving, 8, some 7⟩ } active))
      = false := by decide
/-- R115: the fourth fault in a row halts the station. -/
theorem test_readback :
    let s := after .readbackTest (withFtx { Ftx.reset with state := .check, faultCount := 3, drive := ⟨.driving, 4, none⟩ }
      (withCtu (won data4) active))
    s.stc.station = .halted ∧ s.stc.haltReason = .transmitFault := by decide
theorem test_answer_drive :
    let s := after .answerDriveStart (withFtx { Ftx.reset with state := .answering, answer := some .accept } active)
    lineTx s = true ∧ (after .answerRelease s).ftx.state = .idle := by decide
/-- R52, R148: the part's own answer pulse gone stuck is a mismatch at its 44th position. -/
theorem test_own_answer_stuck :
    let s := after .answerEarlyUnclassified (withFtx { Ftx.reset with answer := some .accept, faultCount := 1 }
      (withFrx { Frx.reset with state := .answerWait, window := ⟨.inTime, 9, 4, .b⟩ } pulsing))
    s.ftx.faultCount = 2 ∧ s.ftx.answer = none ∧ s.frx.window.phase = .classed := by decide
theorem test_answer_check :
    (after .answerDriveCheck
      (withFtx { Ftx.reset with state := .answering, answer := some .accept, drive := ⟨.driving, 4, none⟩ }
        active)).ftx.faultCount = 1 := by decide
/-- 11.3, step 6: the completed STATUS makes the captured advertisement the self-view. 2.9.1, step 1: an ACCEPT heard
takes from reserve B. -/
theorem test_completion_and_observed_accept :
    let s := after (.pulseEvent 48) (withFtx
      { Ftx.reset with state := .endPulse, captured := some ⟨⟨2, 1, 2⟩, 0⟩, drive := ⟨.released, 2, some 48⟩ }
      (withCtu (won ⟨.status, 31, .a, []⟩) pulsing))
    (s.rxp.selfView = ⟨⟨2, 1, 2⟩, 0⟩ ∧ s.hpt.counters.framesSent = 1#16)
    ∧ (peerAt (after (.pulseEvent 16) (withFrx (window .inTime) pulsing)) 17).view = ⟨⟨2, 3, 2⟩, 16⟩ := by decide
/-- 4.9.1, opportunity 1: the lane-A message goes first although it was loaded last. -/
theorem test_selector :
    name (withStore [message 9 .b 0, message 17 .c 0, message 17 .a 0] active) = some ⟨.data, 17, .a, [7#8]⟩ := by decide

/-! ### Witnesses: for each statement with hypotheses, states that meet them, clause by clause -/

theorem witness_StepRunsTheFrontCommand :
    ({ active with pending := [.state, .start] } : State).pending = .state :: [.start] := by decide

/-- A position begins: each condition, end and beginning at the count or age that brings it, and one short of it. -/
theorem witness_EdgesNeedThreeAgreeingSamples_begins :
    let c (st : CtuState) (d : Drive) : State := withCtu { won data4 with state := st, drive := d } pulsing
    let f (st : TxState) (k : Option AnswerKind) (d : Drive) : State :=
      withFtx { Ftx.reset with state := st, answer := k, drive := d } active
    let span (n : Nat) : State := { active with stc := { active.stc with spanCount := n } }
    (active.pending = [] ∧ active.lfe.sampling = true ∧ active.lfe.sampleDue = false ∧ active.stc.profile.address ≤ 30)
    ∧ (brings .frameGapBreak (counting 26 active) ∧ ¬ brings .frameGapBreak (counting 25 active))
    ∧ (brings .lineIdle (counting 49 active) ∧ ¬ brings .lineIdle (counting 48 active))
    ∧ (brings .roundGap (counting 97 active) ∧ ¬ brings .roundGap (counting 96 active))
    ∧ (brings .lineStuck (counting 513 pulsing) ∧ ¬ brings .lineStuck (counting 512 pulsing))
    ∧ (brings .leadRelease (c .lead ⟨.driving, 60, some 63⟩) ∧ ¬ brings .leadRelease (c .lead ⟨.driving, 60, some 62⟩))
    ∧ (brings .leadRelease (c .lead ⟨.driving, 64, some 58⟩) ∧ ¬ brings .leadRelease (c .lead ⟨.driving, 63, some 58⟩))
    ∧ (brings .digitRelease (c .claim ⟨.driving, 12, some 15⟩) ∧ ¬ brings .digitRelease (c .claim ⟨.driving, 12, some 14⟩))
    ∧ brings .symbolRelease (f .endPulse none ⟨.driving, 40, some 47⟩)
    ∧ brings .answerRelease (f .answering (some .accept) ⟨.driving, 12, some 15⟩)
    ∧ brings .answerRelease (f .answering (some .duplicate) ⟨.driving, 20, some 23⟩)
    ∧ brings .answerRelease (f .answering (some .refused) ⟨.driving, 36, some 39⟩)
    ∧ brings .digitDriveStart (counting 7 (withCtu { won data4 with state := .claim } active))
    ∧ ¬ brings .digitDriveStart (counting 6 (withCtu { won data4 with state := .claim } active))
    ∧ brings .digitDriveStart (counting 30 (withCtu { won data4 with state := .claim } active))
    ∧ brings .symbolDriveStart (counting 7 (f .header none Drive.none))
    ∧ brings .answerDriveStart (counting 7 (f .answering (some .accept) Drive.none))
    ∧ (brings .spanExpiry (span 2047) ∧ ¬ brings .spanExpiry (span 2046)) := by decide

/-- The sample: an edge each way, the window's steps with and without an edge, each test at its sample. -/
theorem witness_EdgesNeedThreeAgreeingSamples_samples :
    let up : State :=
      sampling { active with lineIn := [⟨true, true⟩], lfe := { active.lfe with raw1 := true, raw2 := true } }
    let w := counting 26 (withFrx (window .waiting) active)
    let c (st : CtuState) (d : Drive) : State := sampling (withCtu { won data4 with state := st, drive := d } active)
    let f (st : TxState) (d : Drive) : State := sampling (withFtx { Ftx.reset with state := st, drive := d } active)
    (up.pending = [] ∧ up.lfe.sampling = true ∧ up.lfe.sampleDue = true ∧ lineRx up = true)
    ∧ (brings (.lineRisingEdge 58) up ∧ brings (.pulseEvent 8) (sampling pulsing))
    ∧ ¬ brings (.lineRisingEdge 58) { up with lfe := { up.lfe with raw2 := false } }
    ∧ brings .answerWindowClose (sampling w)
    ∧ ¬ brings .answerWindowClose (counting 26 (withFrx (window .waiting) up))
    ∧ brings .answerEarlyUnclassified
        { sampling (counting 46 (withFrx (window .inTime) pulsing)) with lineIn := [⟨true, true⟩] }
    ∧ (brings .lossTest (c .claim ⟨.released, 4, none⟩) ∧ ¬ brings .lossTest (c .claim ⟨.released, 3, none⟩))
    ∧ (brings .driveFaultCheck (c .lead ⟨.driving, 8, none⟩) ∧ brings .driveFaultCheck (c .claim ⟨.driving, 4, none⟩))
    ∧ ¬ brings .driveFaultCheck (c .lead ⟨.driving, 4, none⟩)
    ∧ (brings .readbackTest (f .check ⟨.driving, 4, none⟩) ∧ brings .readbackTest (f .check ⟨.released, 4, none⟩))
    ∧ brings .answerDriveCheck (f .answering ⟨.driving, 4, none⟩)
    ∧ (asked active).hostSelLow = true ∧ ({ asked active with hostIn := [0x01#8] } : State).hostIn = 0x01#8 :: []
    ∧ brings .state { asked active with hostIn := [0x01#8] } := by decide

theorem witness_StationResetKeepsTheProfile : (after .reset (asked active)).hpt.resetDue = true := by decide

theorem witness_SelectAndReleaseMoveOnlyThePort :
    (active.hostSelLow = false ∧ active.rstLow = false)
    ∧ ((after .hardReset active).hostSelLow = false ∧ (after .hardReset active).rstLow = true)
    ∧ (asked active).hpt.resetDue = false := by decide

/-- The port stands at a command byte, or at the operand of the same code. -/
theorem witness_portOpen :
    portOpen 0x01#8 (asked active) = true ∧ portOpen 0x03#8 (asked active) = true ∧ portOpen 0x12#8 (asked active) = true
    ∧ portOpen 0x02#8 (clockByte 0x02#8 (asked active)) = true
    ∧ portOpen 0x7F#8 (asked active) = true ∧ 0x7F#8 ∉ knownCodes ∧ 0x00#8 ∉ knownCodes ∧ 0x33#8 ∉ knownCodes := by decide

/-- Addresses 0, 30 and 31. -/
theorem witness_PeerCommandReadsTheRecord :
    let s := asked active
    portOpen 0x02#8 s = true ∧ s.peers.length = 31 ∧ s.peers[(0#8).toNat]? = some Peer.reset ∧ (0#8).toNat ≤ 30
    ∧ s.peers[(30#8).toNat]? = some Peer.reset ∧ (30#8).toNat ≤ 30 ∧ 31 ≤ (31#8).toNat ∧ 31 ≤ (255#8).toNat := by decide

/-- A profile at the edges of its ranges, and one beyond them. -/
theorem witness_SetupTakesTheWholeProfileOrNothing :
    portOpen 0x10#8 (asked active) = true ∧ active.stc.station ≠ .config
    ∧ portOpen 0x10#8 (asked configured) = true ∧ (asked configured).stc.station = .config
    ∧ (profileOf 30#8 5#8 7#8 5#8 0#8 8#8 8#8 0x18#8).isSome = true
    ∧ (profileOf 30#8 5#8 7#8 5#8 1#8 8#8 8#8 0x18#8).isSome = false := by decide

theorem witness_StartLocksAndListens :
    portOpen 0x11#8 (asked active) = true ∧ active.stc.station ≠ .config
    ∧ portOpen 0x11#8 (asked State.reset) = true ∧ (asked State.reset).stc.station = .config
    ∧ (asked State.reset).stc.profileSet = false
    ∧ portOpen 0x11#8 (asked configured) = true ∧ (asked configured).stc.profileSet = true
    ∧ (asked configured).stc.profile.inRange := by unfold Profile.inRange; decide

/-- RST low, every transaction state that takes no command, and the operand of another code. -/
theorem witness_HostCommandOutOfTurnIsIgnored :
    hostBytes .state = some (0x01#8, [])
    ∧ (after .hardReset active).rstLow = true ∧ active.hpt.txn = .idle
    ∧ (after .state (asked active)).hpt.txn = .result
    ∧ (clockByte 0#8 (after (.unknownCommand 0#8) (asked active))).hpt.txn = .trailing
    ∧ ((clockByte 0x02#8 (asked active)).hpt.txn = .operand
        ∧ (clockByte 0x02#8 (asked active)).hpt.commandByte ≠ some 0x01#8) := by decide

/-- Lengths 0, 1, 32 and 33; every refusal of Table 4.3; and a LOAD into the last free slot, to all and in every lane. -/
theorem witness_LoadFollowsTheTableOfChecks :
    let full := withStore (List.replicate 16 (message 9 .b 0)) active
    let last := withStore (List.replicate 15 (message 9 .b 0)) active
    let gone := { active with peers := active.peers.set 9 { heard with presence := .silent } }
    portOpen 0x20#8 (asked active) = true ∧ portOpen 0x20#8 (asked configured) = true
    ∧ (0#8).toNat = 0 ∧ 32 < (33#8).toNat ∧ 1 ≤ (1#8).toNat ∧ (32#8).toNat ≤ 32
    ∧ (32#8).toNat ≤ (List.replicate 32 (7#8)).length
    ∧ configured.stc.station = .config
    ∧ (active.stc.station ≠ .config ∧ active.stc.station ≠ .halted)
    ∧ (4#8).toNat = active.stc.profile.address ∧ 31 < (32#8).toNat ∧ 2 < (3#8).toNat
    ∧ (9#8).toNat ≠ active.stc.profile.address ∧ (31#8).toNat ≤ 31 ∧ (2#8).toNat ≤ 2
    ∧ (peerAt gone 9).presence = .silent ∧ (peerAt active 9).presence ≠ .silent
    ∧ 16 ≤ full.txs.store.length + full.txs.outcomes.length
    ∧ last.txs.store.length + last.txs.outcomes.length < 16 := by decide

theorem witness_WithdrawFindsTheOldestLiveMessage :
    let m := { message 9 .a 0 with tag := 0x0201#16 }
    let s := asked (withStore [m, flying (message 9 .a 0), message 17 .b 0] active)
    portOpen 0x21#8 s = true ∧ configured.stc.station = .config
    ∧ (after (.pulseEvent 48) (withFrx (atEnd 2 4 statusHeader []) pulsing)).stc.station = .halted
    ∧ (s.stc.station ≠ .config ∧ s.stc.station ≠ .halted)
    ∧ (∀ x ∈ s.txs.store, x.tag ≠ 0x0000#16)
    ∧ (s.txs.store = [m] ++ flying (message 9 .a 0) :: [message 17 .b 0] ∧ m.tag ≠ 0x0200#16
        ∧ (flying (message 9 .a 0)).tag = 0x0200#16 ∧ (flying (message 9 .a 0)).state = .inFlight)
    ∧ (s.txs.store = [] ++ m :: [flying (message 9 .a 0), message 17 .b 0] ∧ m.tag = 0x0201#16 ∧ m.state = .queued) := by
  decide

theorem witness_OldestRecordsTaken :
    let s := asked (withNotices 2 (withDone [(message 9 .b 1).finish .sent false]
      { active with bcr := ⟨[⟨9, .c, [5#8], 3#16⟩], 4#16⟩ }))
    (portOpen 0x22#8 s = true ∧ portOpen 0x31#8 s = true ∧ portOpen 0x32#8 s = true)
    ∧ s.txs.outcomes = (message 9 .b 1).finish .sent false :: []
    ∧ ((message 9 .b 1).finish .sent false).outcome = some .sent
    ∧ s.bcr.ring = ⟨9, .c, [5#8], 3#16⟩ :: [] ∧ s.hpt.notices = ⟨.joined, none⟩ :: [⟨.joined, none⟩]
    ∧ (asked active).txs.outcomes = [] ∧ (asked active).bcr.ring = [] ∧ (asked active).hpt.notices = [] := by decide

/-- A lane-B record behind a lane-C one, and an empty queue. -/
theorem witness_FetchTakesTheOldestOfTheHighestLane :
    let c := { stored .shared with lane := Lane.c }
    let s := asked (withPool [c, stored .reserve, stored .shared] active)
    portOpen 0x30#8 s = true ∧ (asked active).rxp.queue = []
    ∧ s.rxp.queue = [c] ++ stored .reserve :: [stored .shared]
    ∧ (∀ x ∈ [c], x.lane ≠ (stored .reserve).lane)
    ∧ (∀ x ∈ s.rxp.queue, (x.lane = .a → (stored .reserve).lane = .a) ∧ (x.lane = .b → (stored .reserve).lane ≠ .c)) := by
  decide

/-- A result with a last byte and with more, the trailing part, and no transaction. -/
theorem witness_PinsFollowTheirConditions :
    let s := after .state (asked active)
    let e := after .outcome (asked active)
    s.hostSelLow = true ∧ s.rstLow = false ∧ s.hpt.txn = .result ∧ s.hpt.result.length = 14
    ∧ e.hpt.txn = .result ∧ e.hpt.result = 0x81#8 :: [] ∧ (clockByte 0#8 e).hpt.txn = .trailing
    ∧ active.hpt.txn = .idle ∧ (asked active).hpt.txn ≠ .result := by decide

/-- Seven notices and eight. -/
theorem witness_NoticesAndCountersSaturate :
    (withNotices 7 active).hpt.notices.length < 8 ∧ 8 ≤ (withNotices 8 active).hpt.notices.length := by decide

theorem witness_bystander : bystander active ∧ bystander pulsing := by unfold bystander; decide

/-- With a message that can be sent, and with none. -/
theorem witness_JoinIsNamedAtTheEdge :
    let s := withCtu { active.ctu with idleSeen := true } (withStore [message 9 .a 0] active)
    s.lfe.sampling = true ∧ s.lfe.active = false ∧ decidesNoAnswer 48 s ∧ s.ftx.state = .idle ∧ s.ctu.state = .waiting
    ∧ s.ctu.idleSeen = true ∧ name s = some ⟨.data, 9, .a, [7#8]⟩ ∧ name (withStore [] s) = none := by
  unfold decidesNoAnswer; decide

/-- Gaps 5 and 24 in an answer window, and any gap outside one. -/
theorem witness_RisingEdgeDatesTheDrive :
    let w := withFrx (window .waiting) active
    active.lfe.sampling = true ∧ active.lfe.active = false ∧ decidesNoAnswer 0 active ∧ decidesNoAnswer 5 w
    ∧ decidesNoAnswer 24 w ∧ bystander w
    ∧ (withCtu { won data4 with state := .lead } active).ftx.state = .idle
    ∧ (withCtu { won data4 with state := .claim } active).ctu.state = .claim
    ∧ (withFtx { Ftx.reset with state := .header } (withCtu (won data4) active)).ftx.state.inFrame = true
    ∧ (withFtx { Ftx.reset with state := .answering } active).ftx.state = .answering := by
  unfold decidesNoAnswer bystander; decide

/-- The part's own LEAD and its own claim digit, heard while it contends; widths 60, 61, 67 and 68 of the pulse from IDLE. -/
theorem witness_OnlyAnEightQuantaPulseOpensAFrame :
    let c (st : CtuState) (d : Drive) : Ctu := { won data4 with state := st, drive := d }
    let l := withFrx { Frx.reset with state := .lead } (withCtu (c .lead ⟨.released, 4, some 64⟩) pulsing)
    let d := withFrx { rxLead Frx.reset with digitIndex := 3 } (withCtu (c .claim ⟨.rest, 0, some 3⟩) pulsing)
    l.lfe.sampling = true ∧ l.lfe.active = true ∧ decoding l = true ∧ readsNothingBack l ∧ l.frx.state = .lead
    ∧ 61 ≤ 61 ∧ 67 ≤ 67 ∧ 60 < 61 ∧ 67 < 68
    ∧ (readsNothingBack d ∧ d.frx.state = .claim ∧ d.lfe.precedingGap = 8 ∧ classOf 8 = pulseOf 0#2)
    ∧ (after (.pulseEvent 8) d).frx.state = .header ∧ (after (.pulseEvent 8) d).ctu.drive = Drive.none := by
  unfold readsNothingBack; decide

/-- Each symbol that only moves the FRX on, at the end of its range: the 15th header symbol, the last payload symbol and one
that completes no byte, the seventh check symbol; gaps 5 and 24. -/
theorem witness_OnlyAnEightQuanta_symbols :
    let s (st : RxState) (n gap : Nat) : State :=
      { withFrx { Frx.reset with state := st, symCount := n, header := headerBits (dataHeader true true) } pulsing with
        lfe := { pulsing.lfe with precedingGap := gap } }
    readsNothingBack (s .header 14 5) ∧ decoding (s .header 14 5) = true ∧ classOf 35 = pulseOf 3#2 ∧ 14 ≠ 15 ∧ 6 ≠ 7
    ∧ (s .payload 3 24).frx.symCount + 1 = 4 * ((s .payload 3 24).frx.header.toNat / 2 ^ 14 % 64)
    ∧ (s .payload 2 24).frx.symCount + 1 ≠ 4 * ((s .payload 2 24).frx.header.toNat / 2 ^ 14 % 64)
    ∧ (after (.pulseEvent 35) (s .payload 3 24)).frx.state = .check
    ∧ (after (.pulseEvent 35) (s .check 6 24)).frx.symCount = 7 := by
  unfold readsNothingBack; decide

/-- Table 7.4: station 9's STATUS and DATA headers are good; a STATUS in lane B, one from claim address 31 and kind 5 are not. -/
theorem witness_tableHeader :
    tableHeader (claimBits 2 9).toNat (headerBits statusHeader).toNat
    ∧ tableHeader (claimBits 1 9).toNat (headerBits (dataHeader true true)).toNat
    ∧ ¬ tableHeader (claimBits 2 9).toNat (headerBits { statusHeader with lane := 1 }).toNat
    ∧ ¬ tableHeader (claimBits 2 31).toNat (headerBits statusHeader).toNat
    ∧ ¬ tableHeader (claimBits 2 9).toNat (headerBits { statusHeader with kind := 5 }).toNat := by
  refine ⟨?_, ?_, ?_, ?_, ?_⟩ <;> (dsimp only [tableHeader]; decide)

/-- The last header symbol, and the last check symbol of a check that matches and of one that does not. -/
theorem witness_FailedFrame_headerAndCheck :
    let h (x : HeaderFields) : State :=
      withFrx { Frx.reset with
        state := .header, symCount := 15, claim := claimBits 2 9, header := headerBits x >>> 2 } pulsing
    let c (crc : Half) : State := withFrx { Frx.reset with state := .check, symCount := 7, check := 1#16, crc := crc } pulsing
    let last (s : State) (v : Nat) : Nat := (s.frx.header.toNat * 4 + v) % 2 ^ 32
    readsNothingBack (h statusHeader) ∧ readsNothingBack (c 7#16) ∧ classOf 32 = pulseOf 3#2 ∧ (h statusHeader).frx.symCount = 15
    ∧ last (h statusHeader) 3 = (headerBits statusHeader).toNat
    ∧ (c 7#16).frx.symCount = 7 ∧ ((c 7#16).frx.check.toNat * 4 + 3) % 2 ^ 16 = (c 7#16).frx.crc.toNat
    ∧ ((c 6#16).frx.check.toNat * 4 + 3) % 2 ^ 16 ≠ (c 6#16).frx.crc.toNat := by
  unfold readsNothingBack; decide

/-- A W5 and gaps of 4 and 25 in a claim, which may be the part's own; a W4 at the END; a pulse in DISCARD with the turn-on
mark and with a pair; a break in a claim and in DISCARD. -/
theorem witness_FailedFrameIsDiscardedAndCountedOnce :
    let s := withFrx (rxLead Frx.reset) (withCtu { won data4 with state := .claim } pulsing)
    let e := withFrx { Frx.reset with state := .endWait } pulsing
    let b := withFrx (rxLead Frx.reset) active
    let d (r : PulseRecord) : State := withFrx { Frx.reset with state := .discard, record := r } pulsing
    (s.lfe.sampling = true ∧ decoding s = true ∧ s.lfe.active = true ∧ readsNothingBack s ∧ s.frx.state = .claim
      ∧ classOf 37 ∉ [PulseClass.w1, .w2, .w3, .w4]
      ∧ 24 < ({ s with lfe := { s.lfe with precedingGap := 25 } } : State).lfe.precedingGap
      ∧ ({ s with lfe := { s.lfe with precedingGap := 4 } } : State).lfe.precedingGap < 5)
    ∧ (e.frx.state = .endWait ∧ readsNothingBack e ∧ classOf 35 ≠ .w6)
    ∧ (b.lfe.active = false ∧ b.lfe.breakReported = false ∧ b.frx.state = .claim)
    ∧ (readsNothingBack (d .turnOn) ∧ (d .turnOn).frx.state = .discard
      ∧ (after (.pulseEvent 48) (d .turnOn)).frx.record = .turnOn
      ∧ (after (.pulseEvent 48) (d (.pulses ⟨some .w1, some .w2⟩))).frx.record = .pulses ⟨some .w2, some .w6⟩)
    ∧ (withFrx { Frx.reset with state := .discard } active).frx.state = .discard := by unfold readsNothingBack; decide

/-- A frame of station 9 at its END: hypotheses common to the valid-frame statements, at widths 45 and 51. -/
theorem witness_validFrame :
    let s := withFrx (atEnd 2 9 statusHeader []) pulsing
    s.lfe.sampling = true ∧ s.lfe.active = true ∧ decoding s = true ∧ bystander s ∧ s.frx.state = .endWait
    ∧ 45 ≤ 45 ∧ 51 ≤ 51 ∧ 5 ≤ s.lfe.precedingGap ∧ s.lfe.precedingGap ≤ 24
    ∧ (frameOf s.frx.claim s.frx.header s.frx.payload).claim ≠ s.stc.profile.address := by unfold bystander; decide

/-- Every kind of frame; a DATA frame for station 17 and one for the part, a POLL likewise. -/
theorem witness_HeardFrameRefreshesItsSender :
    let fr (digit : Nat) (x : HeaderFields) (payload : List Byte) : Frame :=
      frameOf (atEnd digit 9 x payload).claim (atEnd digit 9 x payload).header payload
    let s := withFrx (atEnd 2 9 statusHeader []) pulsing
    (s.peers[9]? = some heard ∧ heard.presence ≠ .self ∧ (peerAt s 5).presence = .unknown)
    ∧ ((fr 2 statusHeader []).kind = .status ∧ (fr 2 statusHeader []).claim = 9)
    ∧ (fr 2 joinHeader []).kind = .join
    ∧ ((fr 1 castHeader [1#8]).kind = .broadcast ∧ (fr 1 castHeader [1#8]).claim = 9)
    ∧ ((fr 2 pollHeader []).kind = .poll ∧ (fr 2 pollHeader []).dest = 4 ∧ (fr 2 { pollHeader with dest := 17 } []).dest = 17)
    ∧ ((fr 1 (dataHeader false false) [1#8]).kind = .data ∧ (fr 1 (dataHeader false false) [1#8]).dest = 4)
    ∧ (fr 1 { dataHeader false false with dest := 17 } [1#8]).dest = 17
    ∧ ({ profile with broadcastStore := false } : Profile).broadcastStore = false ∧ profile.address = 4 := by decide

/-- A broadcast with seven and with eight records in the ring, and a POLL to the part. -/
theorem witness_BroadcastIsStoredAndPollOwes :
    let s := withFrx (atEnd 1 9 castHeader [1#8]) pulsing
    let p := withFrx (atEnd 2 9 pollHeader []) pulsing
    (frameOf s.frx.claim s.frx.header s.frx.payload).kind = .broadcast
    ∧ s.stc.profile.broadcastStore = true
    ∧ ({ s with bcr := ⟨List.replicate 7 ⟨9, .b, [1#8], 0#16⟩, 7#16⟩ } : State).bcr.ring.length < 8
    ∧ 8 ≤ ({ s with bcr := ⟨List.replicate 8 ⟨9, .b, [1#8], 0#16⟩, 8#16⟩ } : State).bcr.ring.length
    ∧ (frameOf p.frx.claim p.frx.header p.frx.payload).kind = .poll
    ∧ (frameOf p.frx.claim p.frx.header p.frx.payload).dest = p.stc.profile.address ∧ p.stc.station = .active
    ∧ (inStation .joining p).stc.station ≠ .active ∧ decoding (inStation .joining p) = true := by decide

/-- A repeat, a new frame without space, and a new frame into the last shared slot. -/
theorem witness_DataFrameIsAnsweredByToggleAndSpace :
    let s := withFrx (atEnd 1 9 (dataHeader false false) [1#8]) pulsing
    let d := withFrx (atEnd 1 9 (dataHeader true false) [1#8]) pulsing
    let full := withPool (List.replicate 4 (stored .reserve) ++ List.replicate 16 (stored .shared)) s
    let last := withPool (List.replicate 4 (stored .reserve) ++ List.replicate 15 (stored .shared)) s
    let fr := frameOf s.frx.claim s.frx.header s.frx.payload
    s.stc.station = .active ∧ bystander s ∧ fr.kind = .data ∧ fr.dest = s.stc.profile.address
    ∧ fr.claim ≠ s.stc.profile.address ∧ s.peers[fr.claim]? = some heard
    ∧ ((frameOf d.frx.claim d.frx.header d.frx.payload).toggle ≠ heard.rxExpected.get .b)
    ∧ fr.toggle = heard.rxExpected.get .b
    ∧ (freeReserve full .b = 0 ∧ freeShared full = 0) ∧ (freeReserve last .b = 0 ∧ freeShared last = 1) := by
  unfold bystander; decide

theorem witness_AddressClashHaltsTheStation :
    let s := withStore [message 9 .b 0] (withFrx (atEnd 2 4 statusHeader []) pulsing)
    bystander s ∧ (frameOf s.frx.claim s.frx.header s.frx.payload).claim = s.stc.profile.address
    ∧ (∀ m ∈ s.txs.store, m.state = .queued) ∧ s.frx.state = .endWait ∧ decoding s = true := by unfold bystander; decide

/-- Each deciding event, with gaps 4, 5 and 24 and widths at the edges of the three answer classes. -/
theorem witness_ObservedAnswerMovesTheView :
    let w := withFrx (window .waiting) active
    let p := withFrx (window .inTime) pulsing
    let c := withFrx (window .classed) pulsing
    let o (ph : WindowPhase) (s : State) : State :=
      withFrx { Frx.reset with state := .answerWait, window := ⟨ph, 9, 4, .b⟩ } s
    w.lfe.sampling = true ∧ decoding w = true ∧ bystander w ∧ bystander p ∧ w.frx.state = .answerWait
    ∧ w.frx.window.dest ≠ w.stc.profile.address ∧ w.peers[w.frx.window.dest]? = some heard
    ∧ w.lfe.active = false ∧ w.frx.window.phase = .waiting ∧ 4 < 5 ∧ 24 ≤ 24
    ∧ p.lfe.active = true ∧ p.frx.window.phase = .inTime ∧ p.peers[p.frx.window.dest]? = some heard
    ∧ (bystander c ∧ c.lfe.active = true ∧ c.frx.window.phase = .classed ∧ c.peers[c.frx.window.dest]? = some heard)
    ∧ (bystander (o .waiting active) ∧ (o .waiting active).frx.window.dest = (o .waiting active).stc.profile.address)
    ∧ (bystander (o .inTime pulsing) ∧ (o .classed pulsing).frx.window.phase = .classed)
    ∧ 19 ≤ 19 ∧ ¬ (13 ≤ 20 ∧ 20 ≤ 19) ∧ ¬ (21 ≤ 20 ∧ 20 ≤ 27) ∧ ¬ (37 ≤ 20 ∧ 20 ≤ 43) := by unfold bystander; decide

theorem witness_OwnAnswerEndsTheAttempt :
    let s := withCtu (won data4) (withFtx { Ftx.reset with state := .awaitAnswer } active)
    let w := withFrx (ownWindow .waiting) s
    let p := withFrx (ownWindow .inTime) { s with lfe := pulsing.lfe }
    w.lfe.sampling = true ∧ decoding w = true ∧ w.frx.state = .answerWait ∧ w.ftx.state = .awaitAnswer
    ∧ w.ftx.answer = none ∧ w.ctu.state = .won ∧ w.ctu.drive = Drive.none
    ∧ w.frx.window.claim = w.stc.profile.address ∧ w.frx.window.dest ≠ w.stc.profile.address
    ∧ w.lfe.active = false ∧ w.frx.window.phase = .waiting
    ∧ p.lfe.active = true ∧ p.frx.window.phase = .inTime ∧ p.frx.state = .answerWait ∧ 4 < 5 ∧ 5 ≤ 5 ∧ 24 ≤ 24 := by decide

/-- A message one try short of its limit, one two short, and a broadcast; and a peer whose silence expiry the message held,
which is taken once the message is back in its queue. -/
theorem witness_InFlightMessageIsResolvedByTheTable :
    let m := flying (message 9 .b 2)
    let s := withStore [message 17 .b 0, m, message 9 .b 0] active
    let old := { s with peers := active.peers.set 9 { heard with age := 16 } }
    s.txs.store = [message 17 .b 0] ++ m :: [message 9 .b 0] ∧ m.state = .inFlight
    ∧ (∀ x ∈ [message 17 .b 0], x.state ≠ .inFlight)
    ∧ s.stc.profile.retryLimit ≤ m.tries + 1
    ∧ (flying (message 9 .b 1)).tries + 1 < s.stc.profile.retryLimit
    ∧ m.dest ≠ 31 ∧ (flying (message 31 .b 0)).dest = 31
    ∧ (peerAt (resolve .released s) 9).presence = .present
    ∧ (peerAt (resolve .released old) 9).presence = .silent
    ∧ (resolve .released old).hpt.notices = [⟨.peerLost, some 9⟩] := by decide

/-- A JOIN in JOINING and a message frame in ACTIVE; and an FRX that has discarded the train, or hears a stray. -/
theorem witness_OwnFrameCompletesAtItsEnd :
    let s (c : Candidate) : State :=
      withFrx (atEnd 2 4 joinHeader []) (withCtu (won c)
        (withFtx
          { Ftx.reset with state := .endPulse, captured := some ⟨⟨2, 4, 2⟩, 16⟩, drive := ⟨.released, 2, some 48⟩ }
          pulsing))
    let d := withFrx { Frx.reset with state := .discard } (s data4)
    let j := inStation .joining (s ⟨.join, 31, .a, []⟩)
    j.stc.station = .joining ∧ j.lfe.sampling = true ∧ j.lfe.active = true ∧ j.frx.state = .endWait
    ∧ 5 ≤ j.lfe.precedingGap ∧ j.lfe.precedingGap ≤ 24 ∧ claimAddress j.frx.claim = j.stc.profile.address
    ∧ j.ftx.state = .endPulse ∧ j.ftx.drive.phase ≠ .rest ∧ j.ctu.state = .won ∧ j.ctu.drive = Drive.none
    ∧ (d.frx.state = .discard ∧ (after (.pulseEvent 48) d).ftx.state = .awaitAnswer
      ∧ (after (.pulseEvent 48) d).frx.state = .discard)
    ∧ (withFrx { Frx.reset with state := .lead } (s data4)).frx.state = .lead
    ∧ j.ctu.locked = some ⟨.join, 31, .a, []⟩ ∧ j.ftx.captured = some ⟨⟨2, 4, 2⟩, 16⟩
    ∧ (s data4).stc.station = .active ∧ (s data4).ctu.locked = some data4 := by decide

set_option maxRecDepth 20000 in
/-- The last header symbol and the last check symbol; and a first header symbol not yet begun, its edge heard. -/
theorem witness_SymbolReadBackMovesOn :
    let s (st : TxState) (i : Nat) : State :=
      withCtu (won data4) (withFtx
        { Ftx.reset with
          state := st, symbolIndex := i, captured := some ⟨⟨2, 4, 2⟩, 16⟩, drive := ⟨.released, 2, some 8⟩ } pulsing)
    let u := withCtu (won data4) (withFtx { Ftx.reset with state := .header, drive := ⟨.rest, 0, some 9⟩ } pulsing)
    (u.ftx.drive.phase = .rest ∧ (after (.pulseEvent 8) u).ftx = { Ftx.reset with state := .header })
    ∧ (s .header 15).ftx.drive.phase ≠ .rest ∧ (s .header 15).lfe.sampling = true ∧ decoding (s .header 15) = true
    ∧ (rxPulse (s .header 15).frx (classOf (symWidth (txSym (s .header 15)))) 8).2 = .quiet
    ∧ (s .header 15).ctu.state = .won ∧ (s .header 15).ctu.drive = Drive.none
    ∧ (s .header 15).ctu.locked = some data4
    ∧ classOf (symWidth (txSym (s .header 15))) = pulseOf (txSym (s .header 15))
    ∧ classOf (symWidth (txSym (s .check 27))) = pulseOf (txSym (s .check 27)) := by decide

/-- The turn-on mark, a W6 last, and another pulse last. -/
theorem witness_BlindFrameVerdictAtLineIdle :
    let s (r : PulseRecord) : State := withFrx { Frx.reset with state := .discard, record := r } active
    (s .turnOn).lfe.sampling = true ∧ (s .turnOn).lfe.active = false ∧ (s .turnOn).lfe.idleReported = false
    ∧ decoding (s .turnOn) = true ∧ (s .turnOn).frx.state = .discard ∧ (s .turnOn).frx.record = .turnOn
    ∧ (s (.pulses ⟨none, some .w6⟩)).frx.record = .pulses ⟨none, some .w6⟩
    ∧ (⟨some .w6, some .w2⟩ : PulsePair).last ≠ some .w6 := by decide

theorem witness_IdleLineOpensOpportunities :
    active.lfe.sampling = true ∧ active.lfe.active = false ∧ active.stc.station = .active
    ∧ active.lfe.idleReported = false ∧ active.frx.state ≠ .discard ∧ active.ctu.state = .waiting
    ∧ (withFrx (rxFail ⟨some .w6, some .w2⟩ .breaks).1 active).frx.state = .discard
    ∧ (withFrx (rxFail ⟨some .w6, some .w2⟩ .breaks).1 active).frx.record = .pulses ⟨some .w6, some .w2⟩
    ∧ (withCtu { Ctu.reset with state := .lost } active).ctu.state = .lost
    ∧ active.lfe.roundReported = false ∧ active.ctu.state ≠ .off ∧ active.ctu.roundSpent = false
    ∧ (withCtu { active.ctu with roundSpent := true } active).ctu.roundSpent = true := by decide

theorem witness_ListeningEndsInAJoin :
    let s := withFrx Frx.reset (startStation configured)
    s.lfe.sampling = true ∧ s.lfe.active = false ∧ s.stc.station = .listening ∧ s.ctu.state = .off
    ∧ s.ctu.roundSpent = false ∧ s.lfe.idleReported = false ∧ s.frx.state ≠ .discard ∧ s.lfe.roundReported = false
    ∧ (startStation configured).frx.state = .discard ∧ s.stc.frameHeard = false := by
  decide

theorem witness_StuckLineEntersLineFault :
    let s := withStore [flying (message 9 .b 0)] pulsing
    s.lfe.sampling = true ∧ s.lfe.active = true ∧ s.lfe.stuckReported = false ∧ s.stc.station = .active
    ∧ (inStation .listening s).stc.station = .listening ∧ (inStation .lineFault s).stc.station = .lineFault := by decide

theorem witness_RoundGapEndsTheLineFault :
    let s (st : StationState) : State :=
      { active with
        stc := { active.stc with station := .lineFault, returnState := some st }, ctu := Ctu.reset }
    (s .listening).lfe.sampling = true ∧ (s .listening).lfe.active = false ∧ (s .listening).lfe.roundReported = false
    ∧ (s .listening).stc.station = .lineFault ∧ (s .listening).stc.returnState = some .listening
    ∧ (s .joining).stc.returnState = some .joining ∧ (s .active).stc.returnState = some .active
    ∧ (s .active).ctu.state = .off ∧ (s .active).frx = Frx.reset := by decide

set_option maxRecDepth 20000 in
/-- An expiry that brings two peers to the limit, one that owes the heartbeat, one that makes a POLL owed, and one with
nothing new. -/
theorem witness_SpanExpiryAgesTheTable :
    let old := { heard with age := 15 }
    let s := { active with peers := (active.peers.set 9 old).set 30 old }
    let p := withStore [message 9 .b 0] { active with peers := active.peers.set 9 { heard with stale := true, pollAge := .zero } }
    s.stc.spanRunning = true ∧ s.stc.profile.silenceLimit = 16 ∧ s.peers[9]? = some old ∧ s.peers[30]? = some old
    ∧ (after .spanExpiry s).hpt.notices = [⟨.peerLost, some 9⟩, ⟨.peerLost, some 30⟩]
    ∧ (7 + 1 = s.stc.profile.silenceLimit / 2 ∧ 7 < 255)
    ∧ (pollOwed p 9 = false ∧ pollOwed (after .spanExpiry p) 9 = true)
    ∧ (active.rxp.owed = false ∧ (after .spanExpiry active).rxp.owed = false ∧ active.txs.store = []) := by decide

/-- An age at the limit, at addresses 9 and 30, with a message held in flight and without. -/
theorem witness_SilenceFailsThePeersMessages :
    let old := { heard with age := 16 }
    let s := withStore [message 9 .b 1] { active with peers := (active.peers.set 9 old).set 30 old }
    9 ≤ 30 ∧ 30 ≤ 30 ∧ s.peers[9]? = some old ∧ s.peers[30]? = some old
    ∧ ((old.presence = .unknown ∨ old.presence = .present) ∧ s.stc.profile.silenceLimit ≤ old.age
      ∧ ∀ m ∈ s.txs.store, m.dest = 9 → m.state ≠ .inFlight)
    ∧ ¬ (∀ m ∈ (withStore [flying (message 9 .b 1)] s).txs.store, m.dest = 9 → m.state ≠ .inFlight) := by decide

theorem witness_DrivesBeginAndEnd :
    let c (st : CtuState) (p : DrivePhase) : Ctu := { won data4 with state := st, drive := ⟨p, 0, none⟩ }
    let f (st : TxState) (p : DrivePhase) : Ftx := { Ftx.reset with state := st, drive := ⟨p, 0, none⟩ }
    (c .lead .driving).drive.phase = .driving ∧ (c .claim .rest).drive.phase = .rest
    ∧ (c .claim .driving).state = .claim ∧ (f .endPulse .driving).state.inFrame = true
    ∧ (f .answering .rest).drive.phase = .rest ∧ (f .answering .driving).drive.phase = .driving := by decide

/-- A loss, the ends of the LEAD, of digit 2 and of digit 3. -/
theorem witness_LossTestDecidesTheContest :
    let c (st : CtuState) (i : Nat) : Ctu := { won data4 with state := st, digitIndex := i, drive := ⟨.released, 4, none⟩ }
    (c .lead 0).drive.phase = .released ∧ (c .lead 0).locked = some data4 ∧ pulsing.lfe.active = true
    ∧ active.lfe.active = false ∧ (c .claim 2).digitIndex < 3 ∧ (c .claim 3).digitIndex = 3 := by decide

/-- Two and three faults before, a started and a joined LEAD. -/
theorem witness_DriveFaultReleasesTheCandidate :
    let c (st : CtuState) (j : Bool) : Ctu := { won data4 with state := st, joined := j, drive := ⟨.driving, 8, none⟩ }
    let f (n : Nat) : Ftx := { Ftx.reset with faultCount := n }
    (c .lead false).drive.phase = .driving ∧ (c .lead false).drive.edgeAge = none ∧ (c .lead false).joined = false
    ∧ (f 2).faultCount < 3 ∧ 3 ≤ (f 3).faultCount ∧ (c .claim false).state = .claim ∧ (c .lead true).joined = true := by
  decide

theorem witness_FirstHeaderSymbolCaptures :
    let f (i : Nat) : Ftx := { Ftx.reset with state := .header, symbolIndex := i }
    (f 0).state.inFrame = true ∧ (f 0).drive.phase = .rest ∧ (won data4).locked = some data4 ∧ (f 0).symbolIndex = 0
    ∧ (f 1).symbolIndex ≠ 0 := by decide

/-- A late edge, a held line, and neither; two faults before and three. -/
theorem witness_FailedReadbackAbortsTheFrame :
    let f (st : TxState) (d : Drive) (n : Nat) : Ftx := { Ftx.reset with state := st, drive := d, faultCount := n }
    let late : Drive := ⟨.driving, 4, none⟩
    (f .check late 2).state.inFrame = true ∧ late.edgeAge = none ∧ (f .check late 2).faultCount < 3
    ∧ ¬ (f .check late 3).faultCount < 3
    ∧ ((⟨.released, 4, none⟩ : Drive).phase = .released ∧ pulsing.lfe.active = true ∧ TxState.check ≠ .endPulse)
    ∧ (⟨.driving, 4, some 2⟩ : Drive).edgeAge ≠ none ∧ (f .answering late 3).state = .answering := by decide

/-- Mismatches at edges: gaps 4 and 25, and a gap of 4 before an answer of the part's own; a wrong class at the END with an FRX that fails and, with one that takes no part, with
one that is quiet; and an answer read back in its class and in another. -/
theorem witness_FailedReadback_edges :
    let f (st : TxState) : Ftx :=
      { Ftx.reset with state := st, captured := some ⟨⟨2, 4, 2⟩, 16⟩, drive := ⟨.released, 2, some 48⟩ }
    let e := withFrx { window .waiting with window := ⟨.waiting, 9, 4, .b⟩ }
      (withFtx { Ftx.reset with state := .answering, answer := some .duplicate } active)
    let s := withCtu (won data4) (withFtx (f .endPulse) pulsing)
    let a := withFrx { window .inTime with window := ⟨.inTime, 9, 4, .b⟩ }
      (withFtx { Ftx.reset with answer := some .duplicate } pulsing)
    active.lfe.sampling = true ∧ active.lfe.active = false ∧ decidesNoAnswer 4 active ∧ decidesNoAnswer 25 active
    ∧ 4 < 5 ∧ 24 < 25 ∧ (f .header).state.inFrame = true ∧ (won data4).state = .won
    ∧ (e.ftx.state = .answering ∧ e.frx.state = .answerWait ∧ e.frx.window.phase = .waiting
      ∧ e.frx.window.dest = e.stc.profile.address ∧ e.ctu.state = .waiting ∧ e.ctu.idleSeen = false ∧ decoding e = true
      ∧ (after (.lineRisingEdge 4) e).ftx.faultCount = 1)
    ∧ (decoding s = true ∧ s.ftx.state.inFrame = true ∧ s.ftx.drive.phase ≠ .rest ∧ classOf 40 ≠ .w6)
    ∧ (rxPulse (withFrx { Frx.reset with state := .endWait } s).frx (classOf 40) 8).2 = .failed .decodeErrors
    ∧ (rxPulse s.frx (classOf 40) s.lfe.precedingGap).2 = .quiet
    ∧ (a.ftx.answer = some .duplicate ∧ a.ftx.state = .idle ∧ a.ctu.drive = Drive.none ∧ a.frx.state = .answerWait
      ∧ a.frx.window.phase = .inTime ∧ a.frx.window.dest = a.stc.profile.address)
    ∧ classOf 24 = .w3 ∧ classOf 40 ≠ .w3 := by unfold decidesNoAnswer; decide

theorem witness_NamedDataFrameHasCreditAndOrder :
    name (withStore [message 9 .a 0] active) = some ⟨.data, 9, .a, [7#8]⟩
    ∧ name (withStore [message 5 .b 0, message 31 .b 0] active) = some ⟨.broadcast, 31, .b, [7#8]⟩
    ∧ name (inStation .joining active) = some ⟨.join, 31, .a, []⟩ := by decide

set_option maxRecDepth 20000 in
/-- Each branch of the walk: a message of each lane, the STATUS, a POLL, nothing, and round-spent. -/
theorem witness_SelectorWalksTheDigits :
    let stale := { active with peers := active.peers.set 9 { heard with stale := true } }
    (inStation .joining active).stc.station = .joining ∧ (inStation .listening active).stc.station ≠ .joining
    ∧ eligible active (message 9 .a 0) = true ∧ eligible active (message 9 .b 0) = true
    ∧ eligible active (message 31 .c 0) = true
    ∧ (after .spanExpiry { active with stc := { active.stc with heartbeat := 7 } }).stc.station = .active
    ∧ pollOwed (withStore [message 9 .b 0] stale) 9 = true ∧ active.rxp.owed = false
    ∧ (∀ q < 9, pollOwed (withStore [message 9 .b 0] stale) q = false) ∧ (∀ p ≤ 30, pollOwed active p = false)
    ∧ active.ctu.roundSpent = false ∧ (withCtu { active.ctu with roundSpent := true } active).ctu.roundSpent = true := by
  decide

theorem witness_NamingMomentStartsTheLead :
    let s := withCtu { active.ctu with idleSeen := true } (withStore [message 31 .b 0] active)
    s.ctu.state = .waiting ∧ s.ctu.idleSeen = true ∧ s.lfe.active = false ∧ name s = some ⟨.broadcast, 31, .b, [7#8]⟩
    ∧ active.ctu.idleSeen = false ∧ pulsing.lfe.active = true ∧ (withCtu Ctu.reset active).ctu.state ≠ .waiting
    ∧ name active = none := by decide

/-! ### The invariants hold of a station at work -/

/-- ACTIVE with a message IN_FLIGHT, an outcome, a stored message and a frame on the line. -/
def working : State :=
  withPool [stored .reserve, stored .shared] (withDone [(message 9 .b 3).finish .failedNoAnswer false]
    (withStore [flying (message 9 .b 2), message 17 .a 0]
      (withFtx { Ftx.reset with state := .payload, symbolIndex := 17, captured := some ⟨⟨2, 3, 2⟩, 15⟩ }
        (withCtu (won data4) { active with rxp := { active.rxp with selfView := ⟨⟨2, 2, 2⟩, 15⟩ } }))))

theorem witness_working_capacity : CapacityHolds working := by unfold CapacityHolds; decide
theorem witness_working_ranges : RangesHold working := by unfold RangesHold Profile.inRange; decide
theorem witness_working_owed : OwedHolds working := by unfold OwedHolds; decide
theorem witness_working_stale : StaleHolds working := by unfold StaleHolds; decide
theorem witness_working_window : WindowHolds working := by unfold WindowHolds; decide
theorem witness_working_pool : PoolHolds working := by unfold PoolHolds; decide
theorem witness_working_selfView : SelfViewHolds working := by
  refine ⟨by unfold Advert.atMost; decide, ?_, by decide⟩
  intro v hv
  have : v = ⟨⟨2, 3, 2⟩, 15⟩ := by injection hv with h; exact h.symm
  subst this
  exact ⟨by unfold Advert.atMost; decide, by decide⟩
theorem witness_working_station : StationHolds working where
  lock := by decide
  returns := by decide
  returnsTo := by intro st h; cases h
  reason := by decide
  samples := by decide
  spans := by decide
  receiver := by decide
  contends := by unfold onAir; decide
  transmits := by unfold onAir; decide
  answers := by decide
  contest := by decide
  frame := by decide
  captures := by decide
  faults := by decide
  held := by decide
theorem witness_working_slots : SlotsHold working := by unfold SlotsHold; decide
theorem witness_working_flight : FlightHolds working :=
  ⟨by decide, fun _ => ⟨by decide, data4, rfl, by decide⟩⟩
theorem witness_working_tries : TriesHold working := by unfold TriesHold; decide
/-- A step is taken from it, on a command and on an empty queue. -/
theorem witness_working_steps :
    step working = .next (tick working)
    ∧ step { working with pending := [.symbolDriveStart] } = .next (after .symbolDriveStart working) := ⟨rfl, rfl⟩

/-- Station changes along the rows: START, the join, the fault and its end, a halt and a reset. -/
theorem witness_StationAndProfileChangeByTheirCommands :
    (after .start (asked configured)).stc.station = .listening
    ∧ (after .roundGap (startStation configured)).stc.station = .joining
    ∧ (after .lineStuck pulsing).stc.station = .lineFault ∧ (after .hardReset active).stc.station = .config
    ∧ (after (.setup 5#8 0#8 2#8 4#8 2#8 3#8 16#8 0x13#8) (asked configured)).stc.profile ≠ configured.stc.profile := by
  decide

theorem witness_NothingIsTakenButByItsCommand :
    working.pending = [] ∧ ({ working with pending := [.lineIdle] } : State).pending = .lineIdle :: [] ∧ Instr.lineIdle ≠ .fetch
    ∧ working.txs.store ≠ [] ∧ working.bcr.ring.length < 8 := by decide

/-- A broadcast that finds the ring full, and FETCH_BROADCAST on a ring that is not empty. -/
theorem witness_NothingIsTaken_ring :
    let ring : Bcr := ⟨List.replicate 8 ⟨9, .b, [1#8], 0#16⟩, 8#16⟩
    let s := { withFrx (atEnd 1 9 castHeader [1#8]) pulsing with bcr := ring }
    8 ≤ s.bcr.ring.length ∧ (after (.pulseEvent 48) s).bcr.ring = s.bcr.ring.drop 1 ++ [⟨9, .b, [1#8], 8#16⟩]
    ∧ (after .fetchBroadcast (asked { active with bcr := ring })).bcr.ring = ring.ring.drop 1 := by decide

/-- The longest and the shortest LOAD. -/
theorem witness_HostBytesSpellTheirCommand :
    (Instr.load 0x0200#16 9#8 1#8 32#8 (List.replicate 32 7#8)).wellFormed = true
    ∧ (Instr.load 0x0200#16 9#8 1#8 0#8 []).wellFormed = true
    ∧ hostBytes (.load 0x0200#16 9#8 1#8 0#8 []) = some (0x20#8, [0x02#8, 0x00#8, 9#8, 1#8, 0#8])
    ∧ (asked active).hpt.txn = .command ∧ (asked active).rstLow = false := by decide

set_option maxRecDepth 20000 in
/-- 11.2: station 9's frame, with gaps of 5 and of 24 positions; and an FRX at the END of a STATUS. -/
theorem witness_ReceiverReadsWhatTheTransmitterSends :
    let syms := symsOf 4 (candidateClaim 9 data9) ++ frameSyms 9 data9 ⟨⟨2, 4, 2⟩, 16⟩ false false
    let line := syms.map fun v => (pulseOf v, if v = 0#2 then 5 else 24)
    ((atEnd 2 9 statusHeader []).state = .endWait
      ∧ tableHeader (atEnd 2 9 statusHeader []).claim.toNat (atEnd 2 9 statusHeader []).header.toNat)
    ∧ (9 ≤ 30 ∧ Advert.inRange ⟨⟨2, 4, 2⟩, 16⟩ ∧ data9.kind = .data) ∧ data9.proper 9
    ∧ line.map Prod.fst = syms.map pulseOf ∧ ∀ p ∈ line, 5 ≤ p.2 ∧ p.2 ≤ 24 := by
  refine ⟨⟨rfl, witness_tableHeader.1⟩, by unfold Advert.inRange; decide, ?_, by decide, by decide⟩
  show 4 ≤ 30 ∧ 4 ≠ 9 ∧ 1 ≤ 4 ∧ 4 ≤ 32
  decide

end Sys2Proof.Tests
end

