-- ==== Sys2Proof/Proofs/Load.lean ====
section
/-! SUPPORT. LOAD: the checks of Table 4.3 read as arithmetic, one equation per row of the table, and the statement about
them. -/

namespace Sys2Proof.Machine

/-! ### The checks -/

theorem running_eq_true_iff (s : State) : running s = true ↔ s.stc.station ≠ .config ∧ s.stc.station ≠ .halted := by
  unfold running
  cases s.stc.station <;> simp

theorem lengthValid_eq_true_iff (len : Byte) : lengthValid len = true ↔ 1 ≤ len.toNat ∧ len.toNat ≤ 32 := by
  simp [lengthValid]

theorem laneOfCode_eq_none_iff (n : Nat) : laneOfCode n = none ↔ 2 < n := by
  unfold laneOfCode
  split_ifs <;> simp <;> omega

theorem loadLane_eq_none_iff (dest lane : Byte) (s : State) :
    loadLane dest lane s = none ↔ ¬ (dest.toNat ≠ s.stc.profile.address ∧ dest.toNat ≤ 31 ∧ lane.toNat ≤ 2) := by
  unfold loadLane ownAddress
  split
  · simp only [true_iff]
    omega
  · rw [laneOfCode_eq_none_iff]
    omega

theorem exists_loadLane_of_inRange {dest lane : Byte} {s : State}
    (hin : dest.toNat ≠ s.stc.profile.address ∧ dest.toNat ≤ 31 ∧ lane.toNat ≤ 2) :
    ∃ l, loadLane dest lane s = some l :=
  Option.ne_none_iff_exists'.mp (mt (loadLane_eq_none_iff dest lane s).mp (not_not_intro hin))

/-- In range, the lane byte is the code of the lane (Table 0.5). -/
theorem loadLane_of_code {dest lane : Byte} {s : State} {l : Lane} (hown : dest.toNat ≠ s.stc.profile.address)
    (hdest : dest.toNat ≤ 31) (hlane : lane.toNat = l.code) : loadLane dest lane s = some l := by
  have hin : ¬ (dest.toNat = ownAddress s ∨ 31 < dest.toNat) := by unfold ownAddress; omega
  rw [loadLane, if_neg hin, hlane, laneOfCode_code]

theorem freeSlots_eq_zero_iff (s : State) : freeSlots s = 0 ↔ 16 ≤ s.txs.store.length + s.txs.outcomes.length := by
  unfold freeSlots Config.transmitSlots
  omega

/-- A reply is the result pending in the port, in the terms of the statements (R169). -/
theorem reply_eq_withResult (code : Byte) (operand : List Byte) (result : Byte) (data : List Byte) (s : State) :
    reply code operand result data s = withResult code operand (result :: data) s := rfl

/-! ### Table 4.3, a row each -/

section Table

variable {tag : Half} {dest lane len : Byte} {payload : List Byte} {s : State} {l : Lane}

theorem takeLoad_of_not_running (hrun : running s = false) :
    takeLoad tag dest lane len payload s = withResult 0x20#8 (loadHead tag dest lane len ++ payload) [0x83#8] s := by
  simp [takeLoad, hrun, reply_eq_withResult, resBadState]

theorem takeLoad_of_out_of_range (hrun : running s = true) (hlane : loadLane dest lane s = none) :
    takeLoad tag dest lane len payload s = withResult 0x20#8 (loadHead tag dest lane len ++ payload) [0x85#8] s := by
  simp [takeLoad, hrun, hlane, reply_eq_withResult, resBadOperand]

theorem takeLoad_of_silent (hrun : running s = true) (hlane : loadLane dest lane s = some l)
    (hsilent : dest.toNat ≤ 30 ∧ (peerAt s dest.toNat).presence = .silent) :
    takeLoad tag dest lane len payload s = withResult 0x20#8 (loadHead tag dest lane len ++ payload) [0x88#8] s := by
  simp [takeLoad, hrun, hlane, hsilent, reply_eq_withResult, resPeerSilent]

theorem takeLoad_of_full (hrun : running s = true) (hlane : loadLane dest lane s = some l)
    (hsilent : ¬ (dest.toNat ≤ 30 ∧ (peerAt s dest.toNat).presence = .silent)) (hfull : freeSlots s = 0) :
    takeLoad tag dest lane len payload s = withResult 0x20#8 (loadHead tag dest lane len ++ payload) [0x82#8] s := by
  simp [takeLoad, hrun, hlane, hsilent, hfull, reply_eq_withResult, resFull]

theorem takeLoad_of_accepted (hrun : running s = true) (hlane : loadLane dest lane s = some l)
    (hsilent : ¬ (dest.toNat ≤ 30 ∧ (peerAt s dest.toNat).presence = .silent)) (hfree : freeSlots s ≠ 0) :
    takeLoad tag dest lane len payload s =
      nameMoment
        (withResult 0x20#8 (loadHead tag dest lane len ++ payload) (0x80#8 :: bytesOf s.txs.loadCounter)
          (storeMessage (loadedMessage tag dest.toNat l payload s.txs.loadCounter) s)) := by
  simp [takeLoad, hrun, hlane, hsilent, hfree, reply_eq_withResult, resOk]

/-! ### The command -/

/-- A length byte outside 1..32 is the last byte of the command (R172). -/
theorem execLoad_of_bad_length (hopen : portOpen 0x20#8 s = true) (hlen : lengthValid len = false) :
    execLoad tag dest lane len payload s = .next (withResult 0x20#8 (loadHead tag dest lane len) [0x85#8] s) := by
  rw [execLoad, taken_of_open hopen]
  simp [hlen, reply_eq_withResult, resBadOperand]

/-- The command is taken at its last payload byte; what follows is no operand of it (R172). -/
theorem execLoad_of_complete (hopen : portOpen 0x20#8 s = true) (hlen : lengthValid len = true)
    (hpayload : len.toNat ≤ payload.length) :
    execLoad tag dest lane len payload s = .next (takeLoad tag dest lane len (payload.take len.toNat) s) := by
  rw [execLoad, taken_of_open hopen]
  simp [hlen, hpayload]

end Table

/-- Settles O13: each clause is a row of Table 4.3, reached with the rows above it failed. -/
theorem loadFollowsTheTableOfChecks : Obligations.LoadFollowsTheTableOfChecks := by
  unfold Obligations.LoadFollowsTheTableOfChecks
  intro tag dest lane len payload s hopen
  dsimp only
  refine ⟨fun hbad => ?_, fun hpos hmax hpayload => ?_⟩
  · exact execLoad_of_bad_length hopen (Bool.eq_false_iff.mpr (mt (lengthValid_eq_true_iff len).mp (by omega)))
  have hrun := running_eq_true_iff s
  rw [show exec (.load tag dest lane len payload) s = .next (takeLoad tag dest lane len (payload.take len.toNat) s) from
    execLoad_of_complete hopen ((lengthValid_eq_true_iff len).mpr ⟨hpos, hmax⟩) hpayload]
  refine ⟨fun hstop => ?badState, fun hgo hout => ?badOperand, fun hgo hin hsilent => ?peerSilent,
    fun hgo hin hheard hheld => ?full, fun hgo hin hheard hheld l hcode => ?accepted⟩
  case badState => exact congrArg _ (takeLoad_of_not_running (Bool.eq_false_iff.mpr (mt hrun.mp hstop)))
  case badOperand =>
    exact congrArg _ (takeLoad_of_out_of_range (hrun.mpr hgo) ((loadLane_eq_none_iff dest lane s).mpr hout))
  case peerSilent =>
    obtain ⟨l, hlane⟩ := exists_loadLane_of_inRange hin
    exact congrArg _ (takeLoad_of_silent (hrun.mpr hgo) hlane hsilent)
  case full =>
    obtain ⟨l, hlane⟩ := exists_loadLane_of_inRange hin
    exact congrArg _ (takeLoad_of_full (hrun.mpr hgo) hlane hheard ((freeSlots_eq_zero_iff s).mpr hheld))
  case accepted =>
    obtain ⟨hown, hdest, -⟩ := hin
    have hlane : loadLane dest lane s = some l := loadLane_of_code hown hdest (by rw [hcode]; cases l <;> rfl)
    have hfree : freeSlots s ≠ 0 := mt (freeSlots_eq_zero_iff s).mp (Nat.not_le.mpr hheld)
    exact congrArg _ (takeLoad_of_accepted (hrun.mpr hgo) hlane hheard hfree)

end Sys2Proof.Machine
end

