-- ==== Sys2Proof/Proofs/WidthClasses.lean ====
section
/-! SUPPORT. The width classes by their count of quanta (R144): the windows around different counts are disjoint, so the class
of a width is fixed by the window it lies in. -/

namespace Sys2Proof.Machine

/-- The n of Wn: the quanta the class's window is centred on. -/
def PulseClass.quanta : PulseClass → Option Nat
  | .w1 => some 1
  | .w2 => some 2
  | .w3 => some 3
  | .w4 => some 4
  | .w5 => some 5
  | .w6 => some 6
  | .w8 => some 8
  | .unclassified => none

/-- The counts of quanta that have a class: there is no W7. -/
def HasClass (n : Nat) : Prop := (1 ≤ n ∧ n ≤ 6) ∨ n = 8

/-- The window of R144 around n quanta. -/
def InWindow (n width : Nat) : Prop := 8 * n - 3 ≤ width ∧ width ≤ 8 * n + 3

/-- A width lies in one window at most. -/
theorem InWindow.unique {n m w : Nat} (hn : InWindow n w) (hm : InWindow m w) : n = m := by
  unfold InWindow at hn hm
  omega

theorem PulseClass.quanta_injective : Function.Injective PulseClass.quanta := by
  intro c d h
  cases c <;> cases d <;> simp [quanta] at h ⊢

theorem PulseClass.hasClass_of_quanta {c : PulseClass} {n : Nat} (h : c.quanta = some n) : HasClass n := by
  cases c <;> simp only [quanta, Option.some.injEq, reduceCtorEq] at h <;> simp [HasClass, ← h]

/-- A class is given only within its own window. -/
theorem inWindow_of_quanta_classOf {w n : Nat} (h : (classOf w).quanta = some n) : InWindow n w := by
  unfold classOf at h
  split_ifs at h <;> cases h <;> assumption

/-- A width left unclassified is in the window of no class. -/
theorem not_inWindow_of_quanta_classOf {w n : Nat} (h : (classOf w).quanta = none) (hn : HasClass n) : ¬ InWindow n w := by
  unfold classOf at h
  split_ifs at h <;> simp only [PulseClass.quanta, reduceCtorEq] at h
  unfold HasClass at hn
  unfold InWindow
  omega

theorem quanta_classOf_eq_some_iff {w n : Nat} (hn : HasClass n) : (classOf w).quanta = some n ↔ InWindow n w := by
  refine ⟨inWindow_of_quanta_classOf, fun hw => ?_⟩
  cases hq : (classOf w).quanta with
  | none => exact absurd hw (not_inWindow_of_quanta_classOf hq hn)
  | some m => rw [(inWindow_of_quanta_classOf hq).unique hw]

theorem classOf_eq_iff_inWindow {c : PulseClass} {n : Nat} (hc : c.quanta = some n) (w : Nat) :
    classOf w = c ↔ InWindow n w := by
  rw [← PulseClass.quanta_injective.eq_iff, hc, quanta_classOf_eq_some_iff (PulseClass.hasClass_of_quanta hc)]

theorem classOf_eq_unclassified_iff (w : Nat) :
    classOf w = .unclassified ↔ ∀ n, HasClass n → ¬ InWindow n w := by
  refine ⟨fun h n => not_inWindow_of_quanta_classOf (by rw [h]; rfl), fun h => ?_⟩
  apply PulseClass.quanta_injective
  cases hq : (classOf w).quanta with
  | none => rfl
  | some n => exact absurd (inWindow_of_quanta_classOf hq) (h n (PulseClass.hasClass_of_quanta hq))

/-- The widths outside every window. The one count whose window can hold w is (w + 3) / 8. -/
theorem outside_windows_iff (w : Nat) :
    (∀ n, HasClass n → ¬ InWindow n w) ↔
      w < 5 ∨ w = 12 ∨ w = 20 ∨ w = 28 ∨ w = 36 ∨ w = 44 ∨ (52 ≤ w ∧ w ≤ 60) ∨ 68 ≤ w := by
  unfold HasClass InWindow
  constructor
  · intro h
    have hnearest := h ((w + 3) / 8)
    omega
  · intro hw n hn
    omega

/-- Settles O21: each class by the window of its count of quanta, the rest by the widths outside every window. -/
theorem widthClassesAreTheWindows : Obligations.WidthClassesAreTheWindows := by
  unfold Obligations.WidthClassesAreTheWindows
  intro w
  refine ⟨classOf_eq_iff_inWindow (n := 1) rfl w, classOf_eq_iff_inWindow (n := 2) rfl w,
    classOf_eq_iff_inWindow (n := 3) rfl w, classOf_eq_iff_inWindow (n := 4) rfl w,
    classOf_eq_iff_inWindow (n := 5) rfl w, classOf_eq_iff_inWindow (n := 6) rfl w,
    classOf_eq_iff_inWindow (n := 8) rfl w, ?unclassified⟩
  case unclassified => exact (classOf_eq_unclassified_iff w).trans (outside_windows_iff w)

end Sys2Proof.Machine
end

