-- ==== Sys2Proof/Proofs/Setup.lean ====
section
/-! SUPPORT. SETUP: the operand of Table 10.8 read as arithmetic, one equation per case of R157, and the statement about
them. -/

namespace Sys2Proof.Machine

/-! ### The halves of the last operand byte -/

theorem toNat_low_half (b : Byte) : (b.extractLsb' 0 4).toNat = b.toNat % 16 := by
  rw [BitVec.extractLsb'_toNat, Nat.shiftRight_zero]

theorem toNat_high_half (b : Byte) : (b.extractLsb' 4 4).toNat = b.toNat / 16 := by
  have hdiv : b.toNat / 16 < 2 ^ 4 := by have := b.isLt; omega
  rw [BitVec.extractLsb'_toNat, Nat.shiftRight_eq_div_pow]
  exact Nat.mod_eq_of_lt hdiv

section Operand

variable (address quantum ra rb rc retries silence last : Byte)

/-- The checks of Table 9.3 on the operand bytes of Table 10.8: the advert step is the low half of the last byte, the
broadcast store its high half. -/
def OperandInRange : Prop :=
  address.toNat ≤ 30 ∧ quantum.toNat ≤ 5 ∧ ra.toNat ≤ 7 ∧ rb.toNat ≤ 7 ∧ rc.toNat ≤ 7
    ∧ ra.toNat + rb.toNat + rc.toNat ≤ 12 ∧ 1 ≤ retries.toNat ∧ retries.toNat ≤ 8
    ∧ 8 ≤ silence.toNat ∧ 1 ≤ last.toNat % 16 ∧ last.toNat % 16 ≤ 8 ∧ last.toNat / 16 ≤ 1

/-- The profile whose fields the operand bytes give (Table 10.8). -/
def operandProfile : Profile where
  address := address.toNat
  quantum := quantum.toNat
  reserve := ⟨ra.toNat, rb.toNat, rc.toNat⟩
  retryLimit := retries.toNat
  silenceLimit := silence.toNat
  advertStep := last.toNat % 16
  broadcastStore := decide (last.toNat / 16 = 1)

end Operand

section Cases

variable {address quantum ra rb rc retries silence last : Byte} {s : State}

theorem profileOf_of_inRange (hin : OperandInRange address quantum ra rb rc retries silence last) :
    profileOf address quantum ra rb rc retries silence last =
      some (operandProfile address quantum ra rb rc retries silence last) := by
  simp only [profileOf, toNat_low_half, toNat_high_half]
  exact if_pos hin

theorem profileOf_of_out_of_range (hout : ¬ OperandInRange address quantum ra rb rc retries silence last) :
    profileOf address quantum ra rb rc retries silence last = none := by
  simp only [profileOf, toNat_low_half, toNat_high_half]
  exact if_neg hout

/-! ### R157, a case each -/

theorem execSetup_of_not_config (hopen : portOpen 0x10#8 s = true) (hstation : s.stc.station ≠ .config) :
    execSetup address quantum ra rb rc retries silence last s =
      .next (withResult 0x10#8 [address, quantum, ra, rb, rc, retries, silence, last] [0x83#8] s) := by
  rw [execSetup, taken_of_open hopen]
  simp [hstation, reply_eq_withResult, resBadState]

theorem execSetup_of_inRange (hopen : portOpen 0x10#8 s = true) (hstation : s.stc.station = .config)
    (hin : OperandInRange address quantum ra rb rc retries silence last) :
    execSetup address quantum ra rb rc retries silence last s =
      .next
        (withResult 0x10#8 [address, quantum, ra, rb, rc, retries, silence, last] [0x80#8]
          (s.setStc
            { s.stc with
              profile := operandProfile address quantum ra rb rc retries silence last, profileSet := true })) := by
  rw [execSetup, taken_of_open hopen]
  simp [hstation, profileOf_of_inRange hin, reply_eq_withResult, resOk]

theorem execSetup_of_out_of_range (hopen : portOpen 0x10#8 s = true) (hstation : s.stc.station = .config)
    (hout : ¬ OperandInRange address quantum ra rb rc retries silence last) :
    execSetup address quantum ra rb rc retries silence last s =
      .next (withResult 0x10#8 [address, quantum, ra, rb, rc, retries, silence, last] [0x84#8] s) := by
  rw [execSetup, taken_of_open hopen]
  simp [hstation, profileOf_of_out_of_range hout, reply_eq_withResult, resBadProfile]

end Cases

/-- Settles O9: the three cases of R157 exclude each other, by the station state and then by the checks of Table 9.3. -/
theorem setupTakesTheWholeProfileOrNothing : Obligations.SetupTakesTheWholeProfileOrNothing := by
  unfold Obligations.SetupTakesTheWholeProfileOrNothing
  intro address quantum ra rb rc retries silence last s hopen
  refine ⟨fun hstation => ?badState, fun hstation hin => ?ok, fun hstation hout => ?badProfile⟩
  case badState => exact execSetup_of_not_config hopen hstation
  case ok => exact execSetup_of_inRange hopen hstation hin
  case badProfile => exact execSetup_of_out_of_range hopen hstation hout

end Sys2Proof.Machine
end

