-- ==== Sys2Proof/Proofs/PortRecords.lean ====
section
/-! SUPPORT. COUNTERS and NOTICE: the bytes of their records (Table 10.4, Table 10.9), one equation per case of R180 and
R177, and the statements about them. -/

namespace Sys2Proof.Machine

/-! ### Two bytes by arithmetic -/

theorem extractLsb'_high_byte (h : Half) : h.extractLsb' 8 8 = BitVec.ofNat 8 (h.toNat / 256) := by
  apply BitVec.eq_of_toNat_eq
  rw [BitVec.extractLsb'_toNat, Nat.shiftRight_eq_div_pow, BitVec.toNat_ofNat]

theorem extractLsb'_low_byte (h : Half) : h.extractLsb' 0 8 = BitVec.ofNat 8 (h.toNat % 256) := by
  apply BitVec.eq_of_toNat_eq
  rw [BitVec.extractLsb'_toNat, Nat.shiftRight_zero, BitVec.toNat_ofNat, Nat.mod_mod]

/-- Most significant byte first (10.8): the quotient by 256, then the remainder. -/
theorem bytesOf_eq_div_mod (h : Half) :
    bytesOf h = [BitVec.ofNat 8 (h.toNat / 256), BitVec.ofNat 8 (h.toNat % 256)] := by
  rw [bytesOf, extractLsb'_high_byte, extractLsb'_low_byte]

/-! ### COUNTERS (R180) -/

/-- The ten counters in the order of Table 10.4. -/
def Counters.inOrder (x : Counters) : List Half :=
  [x.framesSent, x.arbLost, x.retries, x.refusedReceived, x.refusedIssued, x.duplicatesSeen, x.decodeErrors, x.breaks,
    x.bcastOverwritten, x.staleEvents]

theorem counterRecord_eq_flatMap_bytesOf (x : Counters) : counterRecord x = x.inOrder.flatMap bytesOf := by
  simp [counterRecord, Counters.inOrder]

theorem counterRecord_eq_flatMap_div_mod (x : Counters) :
    counterRecord x =
      x.inOrder.flatMap fun c => [BitVec.ofNat 8 (c.toNat / 256), BitVec.ofNat 8 (c.toNat % 256)] := by
  rw [counterRecord_eq_flatMap_bytesOf, funext bytesOf_eq_div_mod]

/-- The record is of the counters as they stood; the state it is pending in has them all 0. -/
theorem execCounters_of_open {s : State} (hopen : portOpen 0x03#8 s = true) :
    execCounters s =
      .next
        (withResult 0x03#8 [] (0x80#8 :: counterRecord s.hpt.counters)
          (s.setHpt { s.hpt with counters := Counters.zero })) := by
  rw [execCounters, taken_of_open hopen, reply_eq_withResult, resOk]

/-- Settles O8: the record is of the counters in order, two bytes each by quotient and remainder. -/
theorem countersAreReturnedAndCleared : Obligations.CountersAreReturnedAndCleared := by
  unfold Obligations.CountersAreReturnedAndCleared
  intro s hopen
  rw [show exec .counters s = _ from execCounters_of_open hopen, counterRecord_eq_flatMap_div_mod]
  rfl

/-! ### NOTICE (R177) -/

theorem noticeRecord_with_addr (k : NoticeKind) (a lost : Nat) :
    noticeRecord ⟨k, some a⟩ lost = [byteOf k.code, BitVec.ofNat 8 a, BitVec.ofNat 8 lost] := rfl

theorem noticeRecord_without_addr (k : NoticeKind) (lost : Nat) :
    noticeRecord ⟨k, none⟩ lost = [byteOf k.code, 0xFF#8, BitVec.ofNat 8 lost] := rfl

section Notice

variable {s : State} (hopen : portOpen 0x32#8 s = true)
include hopen

theorem execNotice_of_empty (hempty : s.hpt.notices = []) :
    execNotice s = .next (withResult 0x32#8 [] [0x81#8] s) := by
  rw [execNotice, taken_of_open hopen]
  simp [hempty, reply_eq_withResult, resEmpty]

/-- Notices-lost goes out as it stood; the state the record is pending in has it 0 and the oldest notice gone. -/
theorem execNotice_of_cons {n : Notice} {rest : List Notice} (hcons : s.hpt.notices = n :: rest) :
    execNotice s =
      .next
        (withResult 0x32#8 [] (0x80#8 :: noticeRecord n s.hpt.noticesLost)
          (s.setHpt { s.hpt with notices := rest, noticesLost := 0 })) := by
  rw [execNotice, taken_of_open hopen]
  simp [hcons, reply_eq_withResult, resOk]

end Notice

/-- Settles O18: the queue is empty or has an oldest notice, and that one carries an address or goes out with FFh. -/
theorem noticeTakesTheOldestAndClearsLost : Obligations.NoticeTakesTheOldestAndClearsLost := by
  unfold Obligations.NoticeTakesTheOldestAndClearsLost
  intro s hopen
  refine ⟨fun hempty => execNotice_of_empty hopen hempty, fun ⟨kind, addr⟩ rest hcons => ?oldest⟩
  case oldest =>
    rw [show exec .notice s = _ from execNotice_of_cons hopen hcons]
    cases addr with
    | some a => rw [noticeRecord_with_addr]; cases kind <;> rfl
    | none => rw [noticeRecord_without_addr]; cases kind <;> rfl

end Sys2Proof.Machine
end

