-- ==== Sys2Proof/Proofs/Evolution.lean ====
section
/-! SUPPORT. What any command but a reset or a host command of its own store can do to the stores, said once: a chain of a few
kinds of change (`Evolves`), one lemma for each operation of the model. The invariants of the stores are then proved for each
kind of change alone. -/

namespace Sys2Proof.Machine

/-! ### The kinds of change -/

/-- The stores and the profile: what a command may change only in the ways `Evolves` lists. -/
def State.held (s : State) : Rxp × List Peer × Txs × Bcr × List Notice × Nat × Profile × Bool × Bool :=
  (s.rxp, s.peers, s.txs, s.bcr, s.hpt.notices, s.hpt.noticesLost, s.stc.profile, s.stc.profileSet,
    s.stc.profileLocked)

/-- The counts of the station and of the line lie in their ranges (Tables 8.1 and 9.1). -/
def ClocksInRange (x : Stc) (y : Lfe) : Prop :=
  x.heartbeat ≤ 255 ∧ x.spanCount < 2048 ∧ y.count ≤ 1023 ∧ y.precedingGap ≤ 255

/-- The window of a receiver is open exactly in ANSWER_WAIT (R137). -/
def Frx.WindowInOrder (f : Frx) : Prop := f.state = .answerWait ↔ f.window.phase ≠ .closed

/-- A peer record's age and view lie in their ranges (Table 2.1). -/
def Peer.InRange (r : Peer) : Prop :=
  r.age ≤ 255 ∧ r.view.reserve.a ≤ 7 ∧ r.view.reserve.b ≤ 7 ∧ r.view.reserve.c ≤ 7 ∧ r.view.shared ≤ 31

/-- A record that is UNKNOWN or SILENT has a stale view (R21). -/
def Peer.StaleUnlessPresent (r : Peer) : Prop := r.presence = .unknown ∨ r.presence = .silent → r.stale = true

/-- A change of a peer record that keeps its ranges and its stale mark in order. -/
structure PeerUpdate (f : Peer → Peer) : Prop where
  range : ∀ r, r.InRange → (f r).InRange
  stale : ∀ r, r.StaleUnlessPresent → (f r).StaleUnlessPresent

/-- Two records of one accepted message: what a LOAD gave it stays (R67, R70). -/
def Message.SameLoad (m' m : Message) : Prop :=
  m'.loadNumber = m.loadNumber ∧ m'.tag = m.tag ∧ m'.dest = m.dest ∧ m'.lane = m.lane ∧ m'.payload = m.payload

/-- A live message as a DONE record, charged at most one more try (R57, R66). -/
structure Message.FinishedAs (m m' : Message) : Prop where
  same : m'.SameLoad m
  done : m'.state = .done ∧ m'.outcome.isSome = true ∧ m'.withdrawPending = false
  tries : m'.tries ≤ m.tries + 1

/-- A live message that stays live, below the retry limit if it is charged a try (R57, R64). -/
structure Message.ChangedTo (limit : Nat) (m m' : Message) : Prop where
  same : m'.SameLoad m
  live : m'.state ≠ .done ∧ m'.outcome = m.outcome ∧ (m'.withdrawPending = true → m'.state = .inFlight)
  tries : m'.tries ≤ m.tries ∨ m'.tries < limit

/-- A message as LOAD makes it (R70). -/
structure Message.Fresh (m : Message) : Prop where
  queued : m.state = .queued
  outcome : m.outcome = none
  pending : m.withdrawPending = false
  tries : m.tries = 0

/-- The receiver and the counts that have a range. -/
def State.counts (s : State) : Frx × Nat × Nat × Nat × Nat :=
  (s.frx, s.stc.heartbeat, s.stc.spanCount, s.lfe.count, s.lfe.precedingGap)

/-- Chains of the changes that the stores go through while no host command takes a record from them. -/
inductive Evolves : State → State → Prop
  | line {s t : State} (h : t.held = s.held) (hc : ClocksInRange s.stc s.lfe → ClocksInRange t.stc t.lfe)
      (hw : s.frx.WindowInOrder → t.frx.WindowInOrder) : Evolves s t
  | trans {s t u : State} : Evolves s t → Evolves t u → Evolves s u
  | notice (k : NoticeKind) (a : Option Nat) (s : State) : Evolves s (postNotice k a s)
  | cause (k : Cause) (s : State) : Evolves s (addCause k s)
  | accept (fr : Frame) (s : State) (h : hasSpace s fr.lane = true) : Evolves s (storeRecord fr s)
  | complete (adv : Advert) (s : State) : Evolves s (completeAdvert adv s)
  | broadcast (fr : Frame) (s : State) : Evolves s (storeBroadcast fr s)
  | peer (p : Nat) (f : Peer → Peer) (s : State) (hf : PeerUpdate f) : Evolves s (updatePeer p f s)
  | everyPeer (f : Peer → Peer) (s : State) (hf : PeerUpdate f) : Evolves s (updatePeers f s)
  | load (m : Message) (s : State) (hfree : freeSlots s ≠ 0) (hm : m.Fresh) : Evolves s (storeMessage m s)
  | finish {s : State} {before after : List Message} {m m' : Message} (hs : s.txs.store = before ++ m :: after)
      (hm : m.FinishedAs m') :
      Evolves s (s.setTxs { s.txs with store := before ++ after, outcomes := s.txs.outcomes ++ [m'] })
  | change {s : State} {before after : List Message} {m m' : Message} (hs : s.txs.store = before ++ m :: after)
      (hm : m.ChangedTo s.stc.profile.retryLimit m') :
      Evolves s (s.setTxs { s.txs with store := before ++ m' :: after })

/-- What the stores, the receiver and the counts do not see. -/
theorem Evolves.control {s t : State} (h : (t.held, t.counts) = (s.held, s.counts)) : Evolves s t := by
  simp only [State.counts, Prod.mk.injEq] at h
  obtain ⟨hheld, hfrx, hbeat, hspan, hcount, hgap⟩ := h
  exact .line hheld (by simp [ClocksInRange, *]) (by simp [hfrx])

theorem Evolves.refl (s : State) : Evolves s s := .control rfl

/-- A chain read from its last change back. -/
theorem Evolves.after {s t u : State} (h : Evolves t u) (h' : Evolves s t) : Evolves s u := h'.trans h

/-! ### Peer records -/

theorem peerUpdate_hear {fr : Frame} (h : fr.advert.inRange) : PeerUpdate (fun r => r.hear fr) := by
  constructor
  · intro r _
    unfold Peer.hear
    split <;> exact ⟨Nat.zero_le _, h⟩
  · intro r _
    unfold Peer.hear
    split <;> simp [Peer.StaleUnlessPresent, Peer.clearSequence]

theorem Advert.inRange_lend {v w : Advert} {l : Lane} (h : v.inRange) (hl : v.lend l = some w) : w.inRange := by
  unfold Advert.inRange at *
  unfold Advert.lend at hl
  split at hl
  · cases hl; cases l <;> simp [PerLane.set, PerLane.get] <;> omega
  · split at hl
    · cases hl; simp; omega
    · cases hl

theorem peerUpdate_answered (l : Lane) (cls : AnswerClass) : PeerUpdate (fun r => r.answered l cls) := by
  constructor
  · intro r ⟨hage, hview⟩
    cases cls with
    | accept =>
      simp only [Peer.answered]
      cases hl : r.view.lend l with
      | some v => exact ⟨Nat.zero_le _, Advert.inRange_lend hview hl⟩
      | none => exact ⟨Nat.zero_le _, hview⟩
    | duplicate => exact ⟨Nat.zero_le _, hview⟩
    | refused => exact ⟨Nat.zero_le _, hview⟩
    | unclassified => exact ⟨hage, hview⟩
    | none => exact ⟨hage, hview⟩
  · intro r h
    cases cls with
    | accept =>
      simp only [Peer.answered]
      split
      · exact h
      · exact fun _ => rfl
    | duplicate => exact h
    | refused => exact fun _ => rfl
    | unclassified => exact fun _ => rfl
    | none => exact h

theorem peerUpdate_stale : PeerUpdate (fun r => { r with stale := true }) :=
  ⟨fun _ h => h, fun _ _ _ => rfl⟩

theorem peerUpdate_flipTx (l : Lane) (pending : Bool) : PeerUpdate (fun r => r.flipTx l pending) :=
  ⟨fun _ h => h, fun _ h => h⟩

theorem peerUpdate_accepted (fr : Frame) : PeerUpdate (fun r => r.accepted fr) :=
  ⟨fun _ h => h, fun _ h => h⟩

theorem peerUpdate_pollAge (x : PollAge) : PeerUpdate (fun r => { r with pollAge := x }) :=
  ⟨fun _ h => h, fun _ h => h⟩

theorem peerUpdate_expire : PeerUpdate Peer.expire := by
  constructor
  · intro r ⟨hage, hview⟩
    refine ⟨?_, hview⟩
    simp only [Peer.expire]
    split
    · exact hage
    · exact Nat.min_le_left _ _
  · exact fun _ h => h

theorem PeerUpdate.comp {f g : Peer → Peer} (hg : PeerUpdate g) (hf : PeerUpdate f) : PeerUpdate (fun r => g (f r)) :=
  ⟨fun r h => hg.range _ (hf.range r h), fun r h => hg.stale _ (hf.stale r h)⟩

theorem peerUpdate_failedMessages : ∀ ms : List Message, PeerUpdate (fun r => r.failedMessages ms)
  | [] => ⟨fun _ h => h, fun _ h => h⟩
  | m :: ms => by
    by_cases hm : 0 < m.tries
    · have h := (peerUpdate_failedMessages ms).comp (peerUpdate_flipTx m.lane true)
      simpa [Peer.failedMessages, hm] using h
    · simpa [Peer.failedMessages, hm] using peerUpdate_failedMessages ms

/-- The record of a peer taken to silence (R36). -/
theorem peerUpdate_silent (ms : List Message) :
    PeerUpdate (fun r =>
      ({ r with presence := .silent, view := Advert.zero, stale := true, pollAge := .none } : Peer).failedMessages ms) := by
  have hsilent : PeerUpdate (fun r =>
      ({ r with presence := .silent, view := Advert.zero, stale := true, pollAge := .none } : Peer)) :=
    ⟨fun _ h => ⟨h.1, by simp [Advert.zero]⟩, fun _ _ _ => rfl⟩
  exact (peerUpdate_failedMessages ms).comp hsilent

/-! ### Messages -/

theorem finishedAs_finish (m : Message) {tries : Nat} (o : MsgOutcome) (note : Bool) (h : tries ≤ m.tries + 1) :
    m.FinishedAs (({ m with tries := tries } : Message).finish o note) :=
  ⟨⟨rfl, rfl, rfl, rfl, rfl⟩, ⟨rfl, rfl, rfl⟩, h⟩

/-- The move of one message to DONE is one change (R69). -/
theorem moveToDone_evolves (p : Message → Bool) (f : Message → Message) (s : State)
    (h : ∀ m, s.txs.store.find? p = some m → m.FinishedAs (f m)) : Evolves s (moveToDone p f s) := by
  cases hm : s.txs.store.find? p with
  | none => simp [moveToDone, hm, Evolves.refl]
  | some m =>
    obtain ⟨before, after, hs, hb, hp⟩ := exists_split hm
    rw [moveToDone_split hs hb hp]
    exact .finish hs (h m hm)

/-- The messages of a tail fail one by one, oldest first (R84, R85). -/
theorem failTail_evolves (p : Message → Bool) (o : MsgOutcome) : ∀ (rest before : List Message) (s : State),
    s.txs.store = before ++ rest →
      Evolves s
        (s.setTxs
          { s.txs with
            store := before ++ rest.filter (fun m => !p m)
            outcomes := s.txs.outcomes ++ (rest.filter p).map (fun m => m.finish o false) })
  | [], before, s, hs => .control (by simp [State.held, State.counts, ← hs])
  | m :: rest, before, s, hs => by
    cases hp : p m with
    | false =>
      have h := failTail_evolves p o rest (before ++ [m]) s (by simp [hs])
      simpa [hp] using h
    | true =>
      have h1 := Evolves.finish hs (finishedAs_finish m o false (Nat.le_succ _))
      have h2 := failTail_evolves p o rest before
        (s.setTxs { s.txs with store := before ++ rest, outcomes := s.txs.outcomes ++ [m.finish o false] }) rfl
      refine (h1.trans h2).trans (.control ?_)
      simp [State.held, State.counts, hp]

theorem failAll_evolves (p : Message → Bool) (o : MsgOutcome) (s : State) : Evolves s (failAll p o s) :=
  failTail_evolves p o s.txs.store [] s rfl

/-- The first message that satisfies a test changes and stays live. -/
theorem updateFirst_evolves (p : Message → Bool) (f : Message → Message) (s : State)
    (h : ∀ m, s.txs.store.find? p = some m → m.ChangedTo s.stc.profile.retryLimit (f m)) :
    Evolves s (s.setTxs { s.txs with store := updateFirst p f s.txs.store }) := by
  cases hm : s.txs.store.find? p with
  | none =>
    have hnone : ∀ l : List Message, l.find? p = none → updateFirst p f l = l := by
      intro l
      induction l with
      | nil => exact fun _ => rfl
      | cons x xs ih => intro hl; simp_all [updateFirst]
    rw [hnone _ hm]
    exact .control rfl
  | some m =>
    obtain ⟨before, after, hs, hb, hp⟩ := exists_split hm
    have hc := Evolves.change hs (h m hm)
    rwa [hs, updateFirst_split hp hb]

/-! ### Peers, silence, resolution -/

theorem hearFrame_evolves {fr : Frame} (h : fr.advert.inRange) (s : State) : Evolves s (hearFrame fr s) := by
  unfold hearFrame
  have h1 := Evolves.peer fr.claim _ s (peerUpdate_hear h)
  cases hearNotice (peerAt s fr.claim).presence fr.kind with
  | none => exact h1
  | some k => exact h1.trans (.notice ..)

theorem raise_evolves (k : Counter) (s : State) : Evolves s (raise k s) := .control rfl

theorem observeAnswer_evolves (dest : Nat) (l : Lane) (cls : AnswerClass) (s : State) :
    Evolves s (observeAnswer dest l cls s) := by
  have h := Evolves.peer dest _ s (peerUpdate_answered l cls)
  unfold observeAnswer
  dsimp only
  split
  · exact h.trans (raise_evolves ..)
  · exact h

theorem markAllStale_evolves (s : State) : Evolves s (markAllStale s) := .everyPeer _ _ peerUpdate_stale

theorem takeSilence_evolves (p : Nat) (s : State) : Evolves s (takeSilence p s) := by
  have h := (Evolves.peer p _ s (peerUpdate_silent (s.txs.store.filter (queuedTo p)))).trans
    (failAll_evolves (queuedTo p) .failedPeerSilent _)
  unfold takeSilence
  dsimp only
  split
  · exact h.trans (.notice ..)
  · exact h

theorem settleSilence_evolves (p : Nat) (s : State) : Evolves s (settleSilence p s) := by
  rcases settleSilence_cases p s with ⟨-, h⟩ | ⟨-, h⟩ <;> rw [h]
  · exact takeSilence_evolves p s
  · exact .refl _

theorem settleAll_evolves : ∀ (l : List Nat) (s : State), Evolves s (l.foldl (fun u p => settleSilence p u) s)
  | [], s => .refl s
  | p :: l, s => (settleSilence_evolves p s).trans (settleAll_evolves l _)

theorem expirePeers_evolves (s : State) : Evolves s (expirePeers s) :=
  (Evolves.everyPeer _ s peerUpdate_expire).trans (settleAll_evolves _ _)

theorem flipFor_evolves (m : Message) (pending : Bool) (s : State) : Evolves s (flipFor m pending s) := by
  unfold flipFor
  split
  · exact .peer _ _ _ (peerUpdate_flipTx ..)
  · exact .refl _

theorem lockMessage_evolves (c : Candidate) (s : State) : Evolves s (lockMessage c s) := by
  unfold lockMessage
  split
  · exact updateFirst_evolves _ _ _ fun m _ => ⟨⟨rfl, rfl, rfl, rfl, rfl⟩, ⟨by simp, rfl, fun _ => rfl⟩, .inl (le_refl _)⟩
  · exact .refl _

theorem returnMessage_evolves {m : Message} {s : State} (hm : s.txs.store.find? isInFlight = some m) {tries : Nat}
    (h : tries ≤ m.tries ∨ (tries ≤ m.tries + 1 ∧ tries < s.stc.profile.retryLimit)) :
    Evolves s (returnMessage m tries s) := by
  unfold returnMessage
  split
  · refine moveToDone_evolves _ _ _ fun x hx => ?_
    cases hm.symm.trans hx
    exact finishedAs_finish m .withdrawn false (by omega)
  · rename_i hpending
    refine updateFirst_evolves _ _ _ fun x hx => ?_
    cases hm.symm.trans hx
    exact ⟨⟨rfl, rfl, rfl, rfl, rfl⟩, ⟨by simp, rfl, fun hp => absurd hp hpending⟩, by dsimp only; omega⟩

theorem resolveMessage_evolves {m : Message} {s : State} (hm : s.txs.store.find? isInFlight = some m) (r : Resolution) :
    Evolves s (resolveMessage r m s) := by
  have hfound : ∀ k, (raise k s).txs.store.find? isInFlight = some m := fun _ => hm
  cases r with
  | sent dup =>
    refine (moveToDone_evolves _ _ _ fun x hx => ?_).trans (flipFor_evolves ..)
    exact finishedAs_finish x .sent dup (Nat.le_succ _)
  | refused => exact (raise_evolves ..).trans (returnMessage_evolves (hfound _) (.inl (le_refl _)))
  | released => exact returnMessage_evolves hm (.inl (le_refl _))
  | tried =>
    simp only [resolveMessage]
    split
    · refine ((raise_evolves ..).trans (moveToDone_evolves _ _ _ fun x _ => ?_)).trans (flipFor_evolves ..)
      exact finishedAs_finish x _ false (le_refl _)
    · rename_i hlimit
      exact (raise_evolves ..).trans (returnMessage_evolves (hfound _) (.inr ⟨le_refl _, by simpa using hlimit⟩))

theorem resolve_evolves (r : Resolution) (s : State) : Evolves s (resolve r s) := by
  unfold resolve
  split
  · exact .refl _
  · rename_i m hm
    exact (resolveMessage_evolves hm r).trans (settleSilence_evolves ..)

/-! ### The answer window (R137) -/

theorem windowInOrder_reset : Frx.reset.WindowInOrder := by simp [Frx.WindowInOrder, Frx.reset, AnswerWindow.shut]

theorem windowInOrder_frxTurnOn (quietLine : Bool) : (frxTurnOn quietLine).WindowInOrder := by
  cases quietLine <;> simp [frxTurnOn, Frx.WindowInOrder, Frx.reset, AnswerWindow.shut]

theorem windowInOrder_rxRise {f : Frx} (h : f.WindowInOrder) (gap : Nat) : (rxRise f gap).1.WindowInOrder := by
  unfold Frx.WindowInOrder at *
  unfold rxRise rxAnswer
  repeat' split
  all_goals simp_all

theorem windowInOrder_rxFail (p : PulsePair) (k : Counter) : (rxFail p k).1.WindowInOrder := by
  simp [rxFail, Frx.WindowInOrder, Frx.reset, AnswerWindow.shut]

theorem windowInOrder_rxBreak {f : Frx} (h : f.WindowInOrder) : (rxBreak f).1.WindowInOrder := by
  unfold rxBreak
  split
  case h_6 => exact h
  all_goals exact windowInOrder_rxFail ..

theorem windowInOrder_rxWindowClose {f : Frx} (h : f.WindowInOrder) : (rxWindowClose f).1.WindowInOrder := by
  unfold rxWindowClose
  split
  · simp [rxAnswer, Frx.WindowInOrder]
  · exact h

theorem windowInOrder_rxEarlyAnswer {f : Frx} (h : f.WindowInOrder) : (rxEarlyAnswer f).1.WindowInOrder := by
  unfold rxEarlyAnswer
  split
  · simp [rxAnswer, Frx.WindowInOrder]
  · exact h

/-- A symbol leaves the window as it was, or fails the frame. -/
theorem windowInOrder_rxSymbol {f : Frx} (h : f.WindowInOrder) (v : Sym) : (rxSymbol f v).1.WindowInOrder := by
  have hfail := windowInOrder_rxFail f.recent .decodeErrors
  unfold Frx.WindowInOrder at *
  unfold rxSymbol rxClaim rxHeader rxPayload rxCheck
  dsimp only
  repeat' split
  all_goals simp_all

theorem windowInOrder_rxPulse {f : Frx} (h : f.WindowInOrder) (cls : PulseClass) (gap : Nat) :
    (rxPulse f cls gap).1.WindowInOrder := by
  have hpushed : ({ f with recent := f.recent.push cls } : Frx).WindowInOrder := h
  have hsymbol : (match symOf cls with
      | some v => if inFrameGap gap then rxSymbol { f with recent := f.recent.push cls } v
        else rxFail (f.recent.push cls) .decodeErrors
      | none => rxFail (f.recent.push cls) .decodeErrors).1.WindowInOrder := by
    repeat' split
    · exact windowInOrder_rxSymbol hpushed _
    · exact windowInOrder_rxFail ..
    · exact windowInOrder_rxFail ..
  unfold rxPulse
  dsimp only
  split
  case h_1 => exact h
  case h_2 => split <;> simp_all [rxLead, Frx.WindowInOrder, Frx.reset, AnswerWindow.shut]
  case h_7 =>
    split
    · unfold rxEnd
      dsimp only
      split <;> simp_all [Frx.WindowInOrder]
    · exact windowInOrder_rxFail ..
  case h_8 =>
    split
    · simp [rxAnswer, Frx.WindowInOrder]
    · simp [Frx.WindowInOrder]
    · exact h
  case h_9 => split <;> simp_all [Frx.WindowInOrder]
  all_goals exact hsymbol

/-! ### Halts, naming moments, the ends of an attempt -/

theorem halt_evolves (why : HaltReason) (s : State) : Evolves s (halt why s) :=
  (failAll_evolves ..).after
    (.line rfl (fun h => ⟨h.1, Nat.two_pow_pos 11, Nat.zero_le _, Nat.zero_le _⟩) (fun _ => windowInOrder_reset))

theorem haltIfFaulty_evolves (s : State) : Evolves s (haltIfFaulty s) := by
  rcases haltIfFaulty_cases s with ⟨-, h⟩ | ⟨-, h⟩ <;> rw [h]
  · exact halt_evolves ..
  · exact .refl _

theorem startLead_evolves (c : Candidate) (s : State) : Evolves s (startLead c s) :=
  (lockMessage_evolves c s).trans (.control rfl)

theorem joinLead_evolves (c : Candidate) (s : State) : Evolves s (joinLead c s) :=
  (lockMessage_evolves c s).trans (.control rfl)

theorem nameMoment_evolves (s : State) : Evolves s (nameMoment s) := by
  rcases nameMoment_cases s with h | ⟨c, -, -, -, -, h⟩ <;> rw [h]
  · exact .refl _
  · exact startLead_evolves c s

theorem nameOnChange_evolves {s t : State} (h : Evolves s t) : Evolves s (nameOnChange s t) := by
  rcases nameOnChange_cases s t with e | e <;> rw [e]
  · exact h.trans (nameMoment_evolves t)
  · exact h

theorem enterJoining_evolves (s : State) : Evolves s (enterJoining s) :=
  (nameMoment_evolves _).after (.control rfl)

theorem enterLineFault_evolves (s : State) : Evolves s (enterLineFault s) := by
  have posted := (Evolves.notice .lineFault none (s.setStc
    { s.stc with station := .lineFault, returnState := some s.stc.station, frameHeard := false })).after
      (.control (s := s) rfl)
  exact (markAllStale_evolves _).after ((resolve_evolves ..).after (posted.trans (.line rfl id fun _ => windowInOrder_reset)))

theorem claimLost_evolves (s : State) : Evolves s (claimLost s) := (resolve_evolves ..).after (.control rfl)

theorem driveFault_evolves (s : State) : Evolves s (driveFault s) :=
  (nameMoment_evolves _).after ((haltIfFaulty_evolves _).after ((resolve_evolves ..).after (.control rfl)))

theorem abortFrame_evolves (s : State) : Evolves s (abortFrame s) :=
  (haltIfFaulty_evolves _).after ((resolve_evolves ..).after (.control rfl))

theorem answerMismatch_evolves (s : State) : Evolves s (answerMismatch s) :=
  (haltIfFaulty_evolves _).after (.control rfl)

/-! ### The Frame Transmitter -/

theorem completeKind_evolves (c : Candidate) (s : State) : Evolves s (completeKind c s) := by
  unfold completeKind
  split
  · exact .peer _ _ _ (peerUpdate_pollAge _)
  · split
    · exact (Evolves.notice ..).after (.control rfl)
    · exact .refl _
  · exact resolve_evolves ..
  · exact .refl _

theorem completeFrame_evolves (s : State) : Evolves s (completeFrame s) := by
  have h1 : Evolves s (completeCounts (completeAdvert (s.ftx.captured.getD s.rxp.selfView) s)) :=
    (Evolves.complete _ s).trans (.line rfl (fun h => ⟨Nat.zero_le _, h.2⟩) id)
  unfold completeFrame
  dsimp only
  split
  · have h2 := h1.trans (completeKind_evolves ‹_› _)
    split <;> exact h2.trans (.control rfl)
  · exact h1.trans (.control rfl)

theorem ftxRise_evolves (gap : Nat) (s : State) : Evolves s (ftxRise gap s) := by
  unfold ftxRise
  repeat' split
  · exact .control rfl
  · exact abortFrame_evolves s
  · exact .control rfl
  · exact answerMismatch_evolves s
  · exact .refl _

theorem ftxFall_evolves (cls : PulseClass) (s : State) : Evolves s (ftxFall cls s) := by
  unfold ftxFall
  repeat' split
  · exact .control rfl
  · exact completeFrame_evolves s
  · exact .control rfl
  · exact abortFrame_evolves s
  · exact .control rfl
  · exact answerMismatch_evolves s
  · exact .refl _

theorem ftxEarly_evolves (s : State) : Evolves s (ftxEarly s) := by
  rcases ftxEarly_cases s with ⟨-, -, h⟩ | ⟨-, h⟩ <;> rw [h]
  · exact answerMismatch_evolves s
  · exact .refl _

theorem answerEvent_evolves (claim dest : Nat) (l : Lane) (cls : AnswerClass) (s : State) :
    Evolves s (answerEvent claim dest l cls s) := by
  have h1 : Evolves s (if dest = ownAddress s then s else observeAnswer dest l cls s) := by
    split
    · exact .refl _
    · exact observeAnswer_evolves ..
  unfold answerEvent
  dsimp only
  split
  · exact h1.trans ((resolve_evolves ..).after (.control rfl))
  · exact h1

/-! ### The Frame Receiver -/

theorem decideAnswer_evolves (fr : Frame) (s : State) : Evolves s (decideAnswer fr s) := by
  unfold decideAnswer
  repeat' split
  · exact (Evolves.accept fr s ‹_›).trans ((Evolves.peer _ _ _ (peerUpdate_accepted fr)).trans (.control rfl))
  · exact (Evolves.cause .d s).trans (.control rfl)
  · exact .control rfl

theorem frameEffects_evolves (fr : Frame) (s : State) : Evolves s (frameEffects fr s) := by
  unfold frameEffects
  repeat' split
  · exact decideAnswer_evolves fr s
  · exact .refl _
  · exact .cause .c s
  · exact .refl _
  · exact .broadcast fr s
  · exact .refl _
  · exact .refl _

theorem markHeard_evolves (s : State) : Evolves s (markHeard s) := by
  unfold markHeard
  split <;> exact .control rfl

theorem validFrame_evolves (own : Bool) {fr : Frame} (h : fr.advert.inRange) (s : State) :
    Evolves s (validFrame own fr s) := by
  have h1 := markHeard_evolves s
  unfold validFrame
  dsimp only
  repeat' split
  · exact h1
  · exact h1.trans ((Evolves.notice ..).trans (halt_evolves ..))
  · exact h1.trans ((hearFrame_evolves h _).trans (frameEffects_evolves fr _))

/-- The advertisement a header carries lies in the ranges of its fields (Table 10.5). -/
theorem frameOf_advert_inRange (claim : Byte) (h : Word) (payload : List Byte) :
    (frameOf claim h payload).advert.inRange := by
  have h3 : ∀ k : Nat, (h.extractLsb' k 3).toNat ≤ 7 := fun k => Nat.le_of_lt_succ (h.extractLsb' k 3).isLt
  exact ⟨h3 11, h3 8, h3 5, Nat.le_of_lt_succ (h.extractLsb' 0 5).isLt⟩

/-- Every frame the receiver issues carries an advertisement in range. -/
def RxEvent.InRange (e : RxEvent) : Prop := ∀ fr, e = .valid fr → fr.advert.inRange

theorem RxEvent.inRange_of_not_valid {e : RxEvent} (h : ∀ fr, e ≠ .valid fr) : e.InRange := fun fr he => absurd he (h fr)

theorem applyRx_evolves (own : Bool) {e : RxEvent} (h : e.InRange) (s : State) : Evolves s (applyRx own e s) := by
  cases e with
  | quiet => exact .refl _
  | stray => exact raise_evolves ..
  | failed k => exact raise_evolves ..
  | valid fr => exact validFrame_evolves own (h fr rfl) s
  | answered claim dest l cls => exact answerEvent_evolves ..

theorem toFrx_evolves (own : Bool) {step : Frx → Frx × RxEvent} (h : ∀ f, (step f).2.InRange)
    (hw : ∀ f : Frx, f.WindowInOrder → (step f).1.WindowInOrder) (s : State) : Evolves s (toFrx own step s) := by
  unfold toFrx
  split
  · exact (applyRx_evolves own (h _) _).after (.line rfl id (hw _))
  · exact .refl _

theorem frxIdle_evolves (s : State) : Evolves s (frxIdle s) := by
  unfold frxIdle
  dsimp only
  split
  · rename_i hd
    have hclear : Evolves s (s.setFrx { s.frx with state := .idle, record := .pulses ⟨none, none⟩ }) :=
      .line rfl id fun hw => by
        unfold Frx.WindowInOrder at *
        simp_all
    repeat' split
    · exact hclear
    · exact (raise_evolves ..).after ((markAllStale_evolves _).after hclear)
    · exact hclear
  · exact .refl _


/-! ### The commands -/

theorem rxRise_event (f : Frx) (gap : Nat) : (rxRise f gap).2.InRange := by
  refine RxEvent.inRange_of_not_valid fun fr => ?_
  unfold rxRise rxAnswer
  repeat' split
  all_goals simp

theorem rxBreak_event (f : Frx) : (rxBreak f).2.InRange := by
  refine RxEvent.inRange_of_not_valid fun fr => ?_
  unfold rxBreak rxFail
  split <;> simp

theorem rxWindowClose_event (f : Frx) : (rxWindowClose f).2.InRange := by
  refine RxEvent.inRange_of_not_valid fun fr => ?_
  unfold rxWindowClose rxAnswer
  split <;> simp

theorem rxEarlyAnswer_event (f : Frx) : (rxEarlyAnswer f).2.InRange := by
  refine RxEvent.inRange_of_not_valid fun fr => ?_
  unfold rxEarlyAnswer rxAnswer
  split <;> simp

/-- A symbol of a frame issues no valid frame: the END does. -/
theorem rxSymbol_not_valid (f : Frx) (v : Sym) (fr : Frame) : (rxSymbol f v).2 ≠ .valid fr := by
  unfold rxSymbol rxHeader rxPayload rxCheck rxFail
  dsimp only
  repeat' split
  all_goals simp

/-- A pulse issues a valid frame only as the END of the frame received. -/
theorem eq_frameOf_of_rxPulse_valid {f : Frx} {cls : PulseClass} {gap : Nat} {fr : Frame}
    (h : (rxPulse f cls gap).2 = .valid fr) :
    f.state = .endWait ∧ cls = .w6 ∧ inFrameGap gap = true ∧ fr = frameOf f.claim f.header f.payload := by
  have hsym : ∀ g v, (rxSymbol g v).2 ≠ .valid fr := fun g v => rxSymbol_not_valid g v fr
  unfold rxPulse rxFail rxEnd rxAnswer at h
  dsimp only at h
  repeat' split at h
  all_goals simp_all

theorem rxPulse_event (f : Frx) (cls : PulseClass) (gap : Nat) : (rxPulse f cls gap).2.InRange := by
  intro fr h
  obtain ⟨-, -, -, rfl⟩ := eq_frameOf_of_rxPulse_valid h
  exact frameOf_advert_inRange ..

theorem heartbeatExpiry_evolves (s : State) : Evolves s (heartbeatExpiry s) := by
  unfold heartbeatExpiry
  dsimp only
  have h1 : Evolves s (s.setStc { s.stc with heartbeat := min 255 (s.stc.heartbeat + 1) }) :=
    .line rfl (fun h => ⟨Nat.min_le_left _ _, h.2⟩) id
  split
  · exact h1.trans (.cause ..)
  · exact h1

theorem ctuRise_evolves (s : State) : Evolves s (ctuRise s) := by
  unfold ctuRise
  dsimp only
  repeat' split
  · exact (joinLead_evolves ..).after (.control rfl)
  all_goals exact .control rfl

theorem ctuFall_evolves (s : State) : Evolves s (ctuFall s) := by
  unfold ctuFall
  split <;> exact .control rfl

theorem ctuIdle_evolves (s : State) : Evolves s (ctuIdle s) := by
  unfold ctuIdle
  split
  · exact (nameMoment_evolves _).after (.control rfl)
  · exact (nameMoment_evolves _).after (.control rfl)
  · exact .refl _

theorem recoverTo_evolves (st : StationState) (s : State) : Evolves s (recoverTo st s) := by
  have h1 : Evolves s (postNotice .lineRecovered none (s.setStc { s.stc with station := st, returnState := none })) :=
    (Evolves.notice ..).after (.control rfl)
  unfold recoverTo
  dsimp only
  refine (nameMoment_evolves _).after ?_
  split
  · refine (Evolves.cause ..).after (h1.trans ?_)
    split <;> exact .line rfl id fun _ => windowInOrder_frxTurnOn _
  · split <;> exact h1.trans (.line rfl id fun _ => windowInOrder_frxTurnOn _)

/-! The line events and the timed steps. -/

section Line

variable {s t : State}

theorem recognitionLag_le_countLimit : recognitionLag ≤ 1023 := by decide

theorem execLineRisingEdge_evolves {gap : Nat} (h : execLineRisingEdge gap s = .next t) : Evolves s t := by
  cases h
  split
  · exact (toFrx_evolves false (fun f => rxRise_event f _) (fun _ h => windowInOrder_rxRise h _) _).after
      ((ctuRise_evolves _).after ((ftxRise_evolves _ _).after (.line rfl
        (fun h => ⟨h.1, h.2.1, recognitionLag_le_countLimit, Nat.min_le_left _ _⟩) id)))
  · exact .refl _

theorem execPulseEvent_evolves {width : Nat} (h : execPulseEvent width s = .next t) : Evolves s t := by
  cases h
  split
  · exact nameOnChange_evolves ((toFrx_evolves _ (fun f => rxPulse_event f _ _)
      (fun _ h => windowInOrder_rxPulse h _ _) _).after ((ctuFall_evolves _).after ((ftxFall_evolves _ _).after
        (.line rfl (fun h => ⟨h.1, h.2.1, recognitionLag_le_countLimit, h.2.2.2⟩) id))))
  · exact .refl _

/-- A report raises the running count at least to its own threshold. -/
theorem ClocksInRange.counted {x : Stc} {y : Lfe} (h : ClocksInRange x y) {n : Nat} (hn : n ≤ 1023) :
    ClocksInRange x { y with count := max n y.count } := by
  obtain ⟨hbeat, hspan, hcount, hgap⟩ := h
  exact ⟨hbeat, hspan, max_le hn hcount, hgap⟩

theorem execFrameGapBreak_evolves (h : execFrameGapBreak s = .next t) : Evolves s t := by
  cases h
  split
  · exact (toFrx_evolves false rxBreak_event (fun _ => windowInOrder_rxBreak) _).after
      (.line rfl (fun h => h.counted (by decide)) id)
  · exact .refl _

theorem execLineIdle_evolves (h : execLineIdle s = .next t) : Evolves s t := by
  cases h
  dsimp only
  have h1 : Evolves s (ctuIdle (frxIdle (s.setLfe { s.lfe with idleReported := true, count := max idleGap s.lfe.count }))) :=
    (ctuIdle_evolves _).after ((frxIdle_evolves _).after (.line rfl (fun h => h.counted (by decide)) id))
  split
  · split
    · exact h1.trans (enterJoining_evolves _)
    · exact h1
  · exact .refl _

theorem execRoundGap_evolves (h : execRoundGap s = .next t) : Evolves s t := by
  cases h
  dsimp only
  have h1 : Evolves s (s.setLfe { s.lfe with roundReported := true, count := max roundGapLength s.lfe.count }) :=
    .line rfl (fun h => h.counted (by decide)) id
  repeat' split
  · exact (enterJoining_evolves _).after (h1.trans (.control rfl))
  · exact (recoverTo_evolves _ _).after h1
  · exact h1
  · exact (nameMoment_evolves _).after (h1.trans (.control rfl))
  · exact h1
  · exact .refl _

theorem execLineStuck_evolves (h : execLineStuck s = .next t) : Evolves s t := by
  cases h
  dsimp only
  have h1 : Evolves s (s.setLfe { s.lfe with stuckReported := true, count := max stuckWidth s.lfe.count }) :=
    .line rfl (fun h => h.counted (by decide)) id
  repeat' split
  · exact (enterLineFault_evolves _).after h1
  · exact h1
  · exact .refl _

theorem execAnswerWindowClose_evolves (h : execAnswerWindowClose s = .next t) : Evolves s t := by
  cases h
  split
  · exact toFrx_evolves false rxWindowClose_event (fun _ => windowInOrder_rxWindowClose) s
  · exact .refl _

theorem execAnswerEarlyUnclassified_evolves (h : execAnswerEarlyUnclassified s = .next t) : Evolves s t := by
  cases h
  have h1 : Evolves s (if classesEarly s then ftxEarly s else s) := by
    split
    · exact ftxEarly_evolves s
    · exact .refl _
  split
  · exact h1.trans (toFrx_evolves false rxEarlyAnswer_event (fun _ => windowInOrder_rxEarlyAnswer) _)
  · exact .refl _

theorem execSpanExpiry_evolves (h : execSpanExpiry s = .next t) : Evolves s t := by
  cases h
  split
  · exact nameOnChange_evolves ((heartbeatExpiry_evolves _).after ((expirePeers_evolves _).after
      (.line rfl (fun h => ⟨h.1, Nat.two_pow_pos 11, h.2.2⟩) id)))
  · exact .refl _

theorem execLossTest_evolves (h : execLossTest s = .next t) : Evolves s t := by
  cases h
  repeat' split
  · exact claimLost_evolves s
  all_goals exact .control rfl

theorem execDriveFaultCheck_evolves (h : execDriveFaultCheck s = .next t) : Evolves s t := by
  cases h
  split
  · exact driveFault_evolves s
  · exact .refl _

theorem beginSymbol_evolves (s : State) : Evolves s (beginSymbol s) := by
  unfold beginSymbol
  dsimp only
  split <;> exact .control rfl

theorem execReadbackTest_evolves (h : execReadbackTest s = .next t) : Evolves s t := by
  cases h
  split
  · exact abortFrame_evolves s
  · exact .refl _

theorem execAnswerDriveCheck_evolves (h : execAnswerDriveCheck s = .next t) : Evolves s t := by
  cases h
  split
  · exact answerMismatch_evolves s
  · exact .refl _

end Line

/-! The host commands that take nothing from a store. -/

/-- A reply moves the port alone. -/
theorem Evolves.replied {s t : State} (h : Evolves s t) (code : Byte) (operand : List Byte) (result : Byte)
    (data : List Byte) : Evolves s (reply code operand result data t) := h.trans (.control rfl)

section Host

variable {s t : State}

/-- A host command that the port cannot take changes nothing; a taken one has its effect. -/
theorem taken_cases {code : Byte} {effect : State → State} (h : taken code s effect = .next t) :
    t = s ∨ (portOpen code s = true ∧ t = effect s) := by
  unfold taken at h
  cases h
  split
  · exact .inr ⟨‹_›, rfl⟩
  · exact .inl rfl

theorem takeLoad_evolves (tag : Half) (dest lane len : Byte) (payload : List Byte) (s : State) :
    Evolves s (takeLoad tag dest lane len payload s) := by
  unfold takeLoad
  dsimp only
  repeat' split
  · exact (Evolves.refl s).replied ..
  · exact (Evolves.refl s).replied ..
  · exact (Evolves.refl s).replied ..
  · exact (nameMoment_evolves _).after ((Evolves.load _ s ‹_› ⟨rfl, rfl, rfl, rfl⟩).replied ..)
  · exact (Evolves.refl s).replied ..

theorem execLoad_evolves {tag : Half} {dest lane len : Byte} {payload : List Byte}
    (h : execLoad tag dest lane len payload s = .next t) : Evolves s t := by
  rcases taken_cases h with rfl | ⟨-, rfl⟩
  · exact .refl _
  · dsimp only
    repeat' split
    · exact takeLoad_evolves ..
    · exact .control rfl
    · exact (Evolves.refl s).replied ..

theorem execWithdraw_evolves {tag : Half} (h : execWithdraw tag s = .next t) : Evolves s t := by
  rcases taken_cases h with rfl | ⟨-, rfl⟩
  · exact .refl _
  · dsimp only
    repeat' split
    · exact (Evolves.refl s).replied ..
    · rename_i m hm hflight
      refine (updateFirst_evolves _ _ s fun x hx => ?_).replied ..
      cases hm.symm.trans hx
      exact ⟨⟨rfl, rfl, rfl, rfl, rfl⟩, ⟨by simp [hflight], rfl, fun _ => hflight⟩, .inl (le_refl _)⟩
    · exact (moveToDone_evolves _ _ s fun x _ => finishedAs_finish x .withdrawn false (Nat.le_succ _)).replied ..
    · exact (Evolves.refl s).replied ..

theorem execPeer_evolves {addr : Byte} (h : execPeer addr s = .next t) : Evolves s t := by
  rcases taken_cases h with rfl | ⟨-, rfl⟩
  · exact .refl _
  · split <;> exact (Evolves.refl s).replied ..

theorem execUnknownCommand_evolves {code : Byte} (h : execUnknownCommand code s = .next t) : Evolves s t := by
  rcases taken_cases h with rfl | ⟨-, rfl⟩
  · exact .refl _
  · split
    · exact .refl _
    · exact (Evolves.refl s).replied ..

theorem execHostSelFall_evolves (h : execHostSelFall s = .next t) : Evolves s t := by
  cases h
  repeat' split
  all_goals exact .control rfl

end Host

/-- The commands that reset the part, write its profile or take a record from a store. -/
def resetsOrTakes : Instr → Bool
  | .hardReset | .hostSelRise | .setup .. | .start | .outcome | .fetch | .fetchBroadcast | .notice => true
  | _ => false

/-- A change of one of the line's blocks under a condition. -/
theorem evolves_of_ite {s t u : State} {p : Prop} [Decidable p] (h : Host.Outcome.next (if p then u else s) =
    (Host.Outcome.next t : Host.Outcome State Fault Refusal)) (hu : (u.held, u.counts) = (s.held, s.counts)) :
    Evolves s t := by
  cases h
  split
  · exact .control hu
  · exact .refl _

/-- Every command but those is a chain of the listed changes. -/
theorem exec_evolves {c : Instr} {s t : State} (hc : resetsOrTakes c = false) (h : exec c s = .next t) :
    Evolves s t := by
  cases c with
  | hardReset => cases hc
  | hostSelRise => cases hc
  | setup => cases hc
  | start => cases hc
  | outcome => cases hc
  | fetch => cases hc
  | fetchBroadcast => cases hc
  | notice => cases hc
  | state => exact evolves_of_ite h rfl
  | peer addr => exact execPeer_evolves h
  | counters => exact evolves_of_ite h rfl
  | reset => exact evolves_of_ite h rfl
  | load tag dest lane len payload => exact execLoad_evolves h
  | withdraw tag => exact execWithdraw_evolves h
  | unknownCommand code => exact execUnknownCommand_evolves h
  | lineRisingEdge gap => exact execLineRisingEdge_evolves h
  | pulseEvent width => exact execPulseEvent_evolves h
  | frameGapBreak => exact execFrameGapBreak_evolves h
  | lineIdle => exact execLineIdle_evolves h
  | roundGap => exact execRoundGap_evolves h
  | lineStuck => exact execLineStuck_evolves h
  | answerWindowClose => exact execAnswerWindowClose_evolves h
  | answerEarlyUnclassified => exact execAnswerEarlyUnclassified_evolves h
  | leadRelease => exact evolves_of_ite h rfl
  | lossTest => exact execLossTest_evolves h
  | digitDriveStart => exact evolves_of_ite h rfl
  | digitRelease => exact evolves_of_ite h rfl
  | driveFaultCheck => exact execDriveFaultCheck_evolves h
  | symbolDriveStart =>
    cases h
    split
    · exact beginSymbol_evolves s
    · exact .refl _
  | symbolRelease => exact evolves_of_ite h rfl
  | readbackTest => exact execReadbackTest_evolves h
  | answerDriveStart => exact evolves_of_ite h rfl
  | answerDriveCheck => exact execAnswerDriveCheck_evolves h
  | answerRelease => exact evolves_of_ite h rfl
  | spanExpiry => exact execSpanExpiry_evolves h
  | hostSelFall => exact execHostSelFall_evolves h
  | rstRelease => cases h; exact .control rfl

end Sys2Proof.Machine
end

