-- ==== Sys2Proof/Proofs/StoreInvariants.lean ====
section
/-! SUPPORT. What every chain of changes keeps of the stores, and the statements about ranges, flags and what is taken. -/

namespace Sys2Proof.Machine

/-! ### What `held` holds -/

section Held

variable {s t : State}

theorem held_stores (h : t.held = s.held) :
    t.rxp = s.rxp ∧ t.peers = s.peers ∧ t.txs = s.txs ∧ t.bcr = s.bcr := by
  simp only [State.held, Prod.mk.injEq] at h
  exact ⟨h.1, h.2.1, h.2.2.1, h.2.2.2.1⟩

theorem held_notices (h : t.held = s.held) :
    t.hpt.notices = s.hpt.notices ∧ t.hpt.noticesLost = s.hpt.noticesLost := by
  simp only [State.held, Prod.mk.injEq] at h
  exact ⟨h.2.2.2.2.1, h.2.2.2.2.2.1⟩

theorem held_profile (h : t.held = s.held) :
    t.stc.profile = s.stc.profile ∧ t.stc.profileSet = s.stc.profileSet
      ∧ t.stc.profileLocked = s.stc.profileLocked := by
  simp only [State.held, Prod.mk.injEq] at h
  exact h.2.2.2.2.2.2

end Held

/-! ### The profile, the delivery queue, the outcome list and the notices -/

/-- No chain of changes moves the profile, its status or its lock. -/
theorem Evolves.profile {s t : State} (h : Evolves s t) :
    t.stc.profile = s.stc.profile ∧ t.stc.profileSet = s.stc.profileSet
      ∧ t.stc.profileLocked = s.stc.profileLocked := by
  induction h with
  | line h hc hw => exact held_profile h
  | trans _ _ ih1 ih2 => exact ⟨ih2.1.trans ih1.1, ih2.2.1.trans ih1.2.1, ih2.2.2.trans ih1.2.2⟩
  | load => simp [storeMessage]
  | _ => simp

theorem storeRecord_queue (fr : Frame) (s : State) :
    (storeRecord fr s).rxp.queue =
      s.rxp.queue ++ [⟨fr.claim, fr.lane, fr.payload, s.rxp.arrivals, chargeFor s fr.lane⟩] := by
  simp [storeRecord, evalCauses_rxp]

theorem completeAdvert_queue (adv : Advert) (s : State) : (completeAdvert adv s).rxp.queue = s.rxp.queue := by
  simp [completeAdvert, evalCauses_rxp]

theorem storeBroadcast_ring (fr : Frame) (s : State) :
    (storeBroadcast fr s).bcr.ring =
      (if 8 ≤ s.bcr.ring.length then s.bcr.ring.tail else s.bcr.ring)
        ++ [⟨fr.claim, fr.lane, fr.payload, s.bcr.arrivals⟩] := rfl

theorem storeBroadcast_notices (fr : Frame) (s : State) :
    (storeBroadcast fr s).hpt.notices = s.hpt.notices ∧ (storeBroadcast fr s).hpt.noticesLost = s.hpt.noticesLost := by
  unfold storeBroadcast
  dsimp only
  split <;> exact ⟨rfl, rfl⟩

theorem Evolves.queue {s t : State} (h : Evolves s t) : s.rxp.queue <+: t.rxp.queue := by
  induction h with
  | line h hc hw => rw [(held_stores h).1]
  | trans _ _ ih1 ih2 => exact ih1.trans ih2
  | cause => simp [addCause_rxp]
  | accept fr s h => rw [storeRecord_queue]; exact List.prefix_append ..
  | complete adv s => rw [completeAdvert_queue]
  | load => simp [storeMessage]
  | _ => simp

theorem Evolves.outcomes {s t : State} (h : Evolves s t) : s.txs.outcomes <+: t.txs.outcomes := by
  induction h with
  | line h hc hw => rw [(held_stores h).2.2.1]
  | trans _ _ ih1 ih2 => exact ih1.trans ih2
  | load => simp [storeMessage]
  | _ => simp

theorem Evolves.notices {s t : State} (h : Evolves s t) : s.hpt.notices <+: t.hpt.notices := by
  induction h with
  | line h hc hw => rw [(held_notices h).1]
  | trans _ _ ih1 ih2 => exact ih1.trans ih2
  | notice k a s =>
    rw [postNotice_hpt]
    split <;> simp
  | broadcast fr s => rw [(storeBroadcast_notices fr s).1]
  | load => simp [storeMessage]
  | _ => simp

/-! ### Messages -/

/-- A message that is held in the store order or in the outcome list. -/
def State.holds (s : State) (m : Message) : Prop := m ∈ s.txs.store ++ s.txs.outcomes

theorem Message.SameLoad.rfl {m : Message} : m.SameLoad m := ⟨Eq.refl _, Eq.refl _, Eq.refl _, Eq.refl _, Eq.refl _⟩

theorem Message.SameLoad.trans {a b c : Message} (h : b.SameLoad a) (h' : c.SameLoad b) : c.SameLoad a := by
  obtain ⟨h1, h2, h3, h4, h5⟩ := h
  obtain ⟨g1, g2, g3, g4, g5⟩ := h'
  exact ⟨g1.trans h1, g2.trans h2, g3.trans h3, g4.trans h4, g5.trans h5⟩

/-- A message once held stays held as it was loaded (R69, R88). -/
theorem Evolves.survives {s t : State} (h : Evolves s t) : ∀ m, s.holds m → ∃ m', t.holds m' ∧ m'.SameLoad m := by
  induction h with
  | line h hc hw =>
    intro m hm
    exact ⟨m, by rwa [State.holds, (held_stores h).2.2.1], .rfl⟩
  | trans _ _ ih1 ih2 =>
    intro m hm
    obtain ⟨m1, hm1, h1⟩ := ih1 m hm
    obtain ⟨m2, hm2, h2⟩ := ih2 m1 hm1
    exact ⟨m2, hm2, h1.trans h2⟩
  | @finish s before after x x' hs hx =>
    intro m hm
    simp only [State.holds, hs, List.mem_append, List.mem_cons, State.setTxs_txs] at hm ⊢
    by_cases h : m = x
    · exact ⟨x', by simp, h ▸ hx.same⟩
    · exact ⟨m, by tauto, .rfl⟩
  | @change s before after x x' hs hx =>
    intro m hm
    simp only [State.holds, hs, List.mem_append, List.mem_cons, State.setTxs_txs] at hm ⊢
    by_cases h : m = x
    · exact ⟨x', by simp, h ▸ hx.same⟩
    · exact ⟨m, by tauto, .rfl⟩
  | load x s hfree hx =>
    intro m hm
    refine ⟨m, ?_, .rfl⟩
    simp only [State.holds, storeMessage, State.setTxs_txs, List.mem_append] at hm ⊢
    tauto
  | _ => exact fun m hm => ⟨m, by simpa [State.holds] using hm, .rfl⟩

/-- The store order and the outcome list keep to their slot states (R66). -/
theorem Evolves.slots {s t : State} (h : Evolves s t) : SlotsHold s → SlotsHold t := by
  induction h with
  | line h hc hw => exact fun hs => by rwa [SlotsHold, (held_stores h).2.2.1]
  | trans _ _ ih1 ih2 => exact ih2 ∘ ih1
  | @finish s before after x x' hs hx =>
    intro ⟨hlive, hdone⟩
    refine ⟨fun m hm => hlive m ?_, fun m hm => ?_⟩
    · simp only [State.setTxs_txs, List.mem_append] at hm
      simp only [hs, List.mem_append, List.mem_cons]
      tauto
    · simp only [State.setTxs_txs, List.mem_append, List.mem_singleton] at hm
      rcases hm with hm | rfl
      · exact hdone m hm
      · exact hx.done
  | @change s before after x x' hs hx =>
    intro ⟨hlive, hdone⟩
    refine ⟨fun m hm => ?_, hdone⟩
    simp only [State.setTxs_txs, List.mem_append, List.mem_cons] at hm
    simp only [hs, List.mem_append, List.mem_cons] at hlive
    obtain ⟨hstate, houtcome, hpending⟩ := hx.live
    rcases hm with hm | rfl | hm
    · exact hlive m (by tauto)
    · exact ⟨hstate, houtcome.trans (hlive x (by tauto)).2.1, hpending⟩
    · exact hlive m (by tauto)
  | load x s hfree hx =>
    intro ⟨hlive, hdone⟩
    refine ⟨fun m hm => ?_, hdone⟩
    simp only [storeMessage, State.setTxs_txs, List.mem_append, List.mem_singleton] at hm
    rcases hm with hm | rfl
    · exact hlive m hm
    · exact ⟨by simp [hx.queued], hx.outcome, by simp [hx.pending]⟩
  | _ => exact fun h => by simpa [SlotsHold] using h

/-- The try counts of the messages stand within a limit: below it while live, at most at it once DONE (R57). -/
def TriesWithin (limit : Nat) (s : State) : Prop :=
  (∀ m ∈ s.txs.store, m.tries < limit) ∧ ∀ m ∈ s.txs.outcomes, m.tries ≤ limit

theorem Evolves.tries {s t : State} (h : Evolves s t) (hlimit : 1 ≤ s.stc.profile.retryLimit) :
    TriesWithin s.stc.profile.retryLimit s → TriesWithin t.stc.profile.retryLimit t := by
  induction h with
  | line h hc hw =>
    intro hs
    rwa [TriesWithin, (held_stores h).2.2.1, (held_profile h).1]
  | trans h1 _ ih1 ih2 =>
    rw [← h1.profile.1] at ih1 hlimit
    intro hs
    rw [← h1.profile.1] at hs
    exact ih2 hlimit (ih1 hlimit hs)
  | @finish s before after x x' hs hx =>
    intro ⟨hlive, hdone⟩
    refine ⟨fun m hm => hlive m ?_, fun m hm => ?_⟩
    · simp only [State.setTxs_txs, List.mem_append] at hm
      simp only [hs, List.mem_append, List.mem_cons]
      tauto
    · simp only [State.setTxs_txs, List.mem_append, List.mem_singleton] at hm
      rcases hm with hm | rfl
      · exact hdone m hm
      · have hx1 := hlive x (by simp [hs])
        have hx2 := hx.tries
        show m.tries ≤ s.stc.profile.retryLimit
        omega
  | @change s before after x x' hs hx =>
    intro ⟨hlive, hdone⟩
    refine ⟨fun m hm => ?_, hdone⟩
    simp only [State.setTxs_txs, List.mem_append, List.mem_cons] at hm
    have hx1 := hlive x (by simp [hs])
    have hx2 := hx.tries
    simp only [hs, List.mem_append, List.mem_cons] at hlive
    rcases hm with hm | rfl | hm
    · exact hlive m (by tauto)
    · show m.tries < s.stc.profile.retryLimit
      omega
    · exact hlive m (by tauto)
  | load x s hfree hx =>
    intro ⟨hlive, hdone⟩
    refine ⟨fun m hm => ?_, hdone⟩
    simp only [storeMessage, State.setTxs_txs, List.mem_append, List.mem_singleton] at hm
    rcases hm with hm | rfl
    · exact hlive m hm
    · rw [hx.tries]; exact hlimit
  | _ => exact fun h => by simpa [TriesWithin] using h

/-! ### Capacities (R175, R93, R66, R20) -/

theorem Evolves.capacity {s t : State} (h : Evolves s t) : CapacityHolds s → CapacityHolds t := by
  induction h with
  | line h hc hw =>
    intro hs
    obtain ⟨-, hpeers, htxs, hbcr⟩ := held_stores h
    rwa [CapacityHolds, hpeers, htxs, hbcr, (held_notices h).1]
  | trans _ _ ih1 ih2 => exact ih2 ∘ ih1
  | notice k a s =>
    intro ⟨hn, hrest⟩
    refine ⟨?_, by simpa using hrest⟩
    rw [postNotice_hpt]
    split <;> simp <;> omega
  | broadcast fr s =>
    intro ⟨hn, hring, hrest⟩
    refine ⟨?_, ?_, by simpa using hrest⟩
    · rwa [(storeBroadcast_notices fr s).1]
    · rw [storeBroadcast_ring]
      split <;> simp <;> omega
  | peer p f s hf => exact fun h => by simpa [CapacityHolds, length_updatePeer] using h
  | everyPeer f s hf => exact fun h => by simpa [CapacityHolds, length_updatePeers] using h
  | finish hs hx =>
    intro ⟨hn, hring, hslots, hpeers⟩
    refine ⟨hn, hring, ?_, hpeers⟩
    simp only [hs, List.length_append, List.length_cons] at hslots
    simp
    omega
  | change hs hx =>
    intro ⟨hn, hring, hslots, hpeers⟩
    refine ⟨hn, hring, ?_, hpeers⟩
    simpa [hs] using hslots
  | load x s hfree hx =>
    intro ⟨hn, hring, hslots, hpeers⟩
    refine ⟨hn, hring, ?_, hpeers⟩
    simp only [Ne, freeSlots_eq_zero_iff] at hfree
    simp [storeMessage]
    omega
  | _ => exact fun h => by simpa [CapacityHolds] using h

/-! ### Peer records, flags and counts -/

/-- A property of single records that every listed change keeps, all records have throughout. -/
theorem Evolves.peerRecords {P : Peer → Prop} (hP : ∀ f, PeerUpdate f → ∀ r, P r → P (f r)) {s t : State}
    (h : Evolves s t) : (∀ r ∈ s.peers, P r) → ∀ r ∈ t.peers, P r := by
  induction h with
  | line h hc hw => exact fun hs => by rwa [(held_stores h).2.1]
  | trans _ _ ih1 ih2 => exact ih2 ∘ ih1
  | peer p f s hf =>
    intro hs r hr
    rw [updatePeer_peers] at hr
    obtain ⟨i, hi, rfl⟩ := List.mem_iff_getElem.mp hr
    rw [List.getElem_modify]
    rw [List.length_modify] at hi
    split
    · exact hP f hf _ (hs _ (List.getElem_mem hi))
    · exact hs _ (List.getElem_mem hi)
  | everyPeer f s hf =>
    intro hs r hr
    simp only [updatePeers, State.setPeers_peers, List.mem_map] at hr
    obtain ⟨r0, hr0, rfl⟩ := hr
    split
    · exact hs r0 hr0
    · exact hP f hf r0 (hs r0 hr0)
  | load => exact id
  | _ => exact fun h => by simpa using h

theorem Evolves.peersInRange {s t : State} (h : Evolves s t) :
    (∀ r ∈ s.peers, r.InRange) → ∀ r ∈ t.peers, r.InRange :=
  h.peerRecords fun _ hf => hf.range

theorem Evolves.stale {s t : State} (h : Evolves s t) : StaleHolds s → StaleHolds t :=
  h.peerRecords fun _ hf => hf.stale

theorem Evolves.noticesLost {s t : State} (h : Evolves s t) : s.hpt.noticesLost ≤ 255 → t.hpt.noticesLost ≤ 255 := by
  induction h with
  | line h hc hw => rw [(held_notices h).2]; exact id
  | trans _ _ ih1 ih2 => exact ih2 ∘ ih1
  | notice k a s =>
    intro hs
    rw [postNotice_hpt]
    split
    · exact hs
    · exact Nat.min_le_left _ _
  | broadcast fr s => rw [(storeBroadcast_notices fr s).2]; exact id
  | load => exact id
  | _ => exact fun h => by simpa using h

theorem Evolves.clocks {s t : State} (h : Evolves s t) :
    ClocksInRange s.stc s.lfe → ClocksInRange t.stc t.lfe := by
  induction h with
  | line h hc hw => exact hc
  | trans _ _ ih1 ih2 => exact ih2 ∘ ih1
  | load => exact id
  | _ => exact fun h => by simpa using h

theorem Evolves.window {s t : State} (h : Evolves s t) : WindowHolds s → WindowHolds t := by
  induction h with
  | line h hc hw => exact hw
  | trans _ _ ih1 ih2 => exact ih2 ∘ ih1
  | load => exact id
  | _ => exact fun h => by simpa [WindowHolds] using h

/-- The evaluation of causes (a) and (b) keeps the flag and the set together (R15). -/
theorem evalCauses_owed {s : State} (h : OwedHolds s) : OwedHolds (evalCauses s) := by
  unfold OwedHolds Causes.any at *
  rw [evalCauses_rxp]
  simp only [h]
  cases conditionA s <;> cases conditionB s <;> simp

theorem Evolves.owed {s t : State} (h : Evolves s t) : OwedHolds s → OwedHolds t := by
  induction h with
  | line h hc hw => exact fun hs => by rwa [OwedHolds, (held_stores h).1]
  | trans _ _ ih1 ih2 => exact ih2 ∘ ih1
  | cause k s => exact fun _ => by simp [OwedHolds, addCause_rxp]
  | accept fr s h => exact fun hs => evalCauses_owed hs
  | complete adv s => exact fun _ => evalCauses_owed rfl
  | load => exact id
  | _ => exact fun h => by simpa [OwedHolds] using h

/-- A chain of changes keeps every range (Tables 2.1, 8.1, 9.1, 9.3 and 10.1). -/
theorem Evolves.ranges {s t : State} (h : Evolves s t) : RangesHold s → RangesHold t := by
  intro ⟨hpeers, hbeat, hspan, hlost, hcount, hgap, hprofile⟩
  obtain ⟨hbeat', hspan', hcount', hgap'⟩ := h.clocks ⟨hbeat, hspan, hcount, hgap⟩
  obtain ⟨hp, hset, -⟩ := h.profile
  exact ⟨h.peersInRange hpeers, hbeat', hspan', h.noticesLost hlost, hcount', hgap', by rwa [hp, hset]⟩

/-! ### The step -/

/-- A step runs the front command on the rest of the queue, or ticks. -/
theorem step_cases {s t : State} (h : step s = .next t) :
    (s.pending = [] ∧ t = tick s) ∨ ∃ c rest, s.pending = c :: rest ∧ exec c { s with pending := rest } = .next t := by
  unfold step at h
  cases hp : s.pending with
  | nil =>
    rw [hp] at h
    cases h
    exact .inl ⟨rfl, rfl⟩
  | cons c rest =>
    rw [hp] at h
    exact .inr ⟨c, rest, rfl, h⟩

/-- A property that the queue does not bear on is kept by every step once the tick and every command keep it. -/
theorem step_keeps {P : State → Prop} (hqueue : ∀ s rest, P s → P { s with pending := rest })
    (htick : ∀ s, P s → P (tick s)) (hexec : ∀ c s t, P s → exec c s = .next t → P t) {s t : State}
    (h : step s = .next t) : P s → P t := by
  intro hs
  rcases step_cases h with ⟨-, rfl⟩ | ⟨c, rest, -, h⟩
  · exact htick s hs
  · exact hexec c _ t (hqueue s rest hs) h

end Sys2Proof.Machine
end

