-- ==== Sys2Proof/Proofs/Ranges.lean ====
section
/-! SUPPORT. The commands that reset the part, write its profile or take a record, as one change and a chain after it; the tick;
the statements about ranges and flags, about the reset state and about what is taken. -/

namespace Sys2Proof.Machine

/-! ### Commands with a change of their own -/

/-- What a command can do: a chain of the listed changes, or a reset, the profile's setting or its start, or one record
taken from a store. -/
inductive Ran : Instr → State → State → Prop
  | evolves {c : Instr} {s t : State} (h : Evolves s t) : Ran c s t
  | hardReset (s : State) : Ran .hardReset s (hardReset s)
  | stationReset {s : State} (hdue : s.hpt.resetDue = true) :
      Ran .hostSelRise s { stationReset s with hostSelLow := false }
  | setup {s : State} {b0 b1 b2 b3 b4 b5 b6 b7 : Byte} {p : Profile} (hstation : s.stc.station = .config)
      (hp : profileOf b0 b1 b2 b3 b4 b5 b6 b7 = some p) :
      Ran (.setup b0 b1 b2 b3 b4 b5 b6 b7) s
        (reply 0x10#8 [b0, b1, b2, b3, b4, b5, b6, b7] resOk []
          (s.setStc { s.stc with profile := p, profileSet := true }))
  | start {s : State} (hstation : s.stc.station = .config) (hset : s.stc.profileSet = true) (hrst : s.rstLow = false) :
      Ran .start s (reply 0x11#8 [] resOk [] (startStation s))
  | outcome {s : State} {m : Message} {rest : List Message} (hs : s.txs.outcomes = m :: rest) :
      Ran .outcome s (reply 0x22#8 [] resOk (outcomeRecord m) (s.setTxs { s.txs with outcomes := rest }))
  | fetch {s t : State} {r : PoolRecord} (hr : fetchRecord s = some r)
      (ht : t = nameOnChange s
        (reply 0x30#8 [] resOk (deliveryRecord r.source r.lane r.payload r.arrival) (freeRecord r.lane s))) :
      Ran .fetch s t
  | fetchBroadcast {s : State} {r : RingRecord} {rest : List RingRecord} (hs : s.bcr.ring = r :: rest) :
      Ran .fetchBroadcast s
        (reply 0x31#8 [] resOk (deliveryRecord r.source r.lane r.payload r.arrival)
          (s.setBcr { s.bcr with ring := rest }))
  | notice {s : State} {n : Notice} {rest : List Notice} (hs : s.hpt.notices = n :: rest) :
      Ran .notice s
        (reply 0x32#8 [] resOk (noticeRecord n s.hpt.noticesLost)
          (s.setHpt { s.hpt with notices := rest, noticesLost := 0 }))

section Own

variable {s t : State}

theorem execSetup_ran {b0 b1 b2 b3 b4 b5 b6 b7 : Byte} (h : execSetup b0 b1 b2 b3 b4 b5 b6 b7 s = .next t) :
    Ran (.setup b0 b1 b2 b3 b4 b5 b6 b7) s t := by
  rcases taken_cases h with rfl | ⟨-, rfl⟩
  · exact .evolves (.refl _)
  · dsimp only
    split
    · split
      · exact .setup ‹_› ‹_›
      · exact .evolves ((Evolves.refl s).replied ..)
    · exact .evolves ((Evolves.refl s).replied ..)

theorem execStart_ran (h : execStart s = .next t) : Ran .start s t := by
  rcases taken_cases h with rfl | ⟨hopen, rfl⟩
  · exact .evolves (.refl _)
  · repeat' split
    · exact .start ‹_› ‹_› (by simp_all [portOpen])
    · exact .evolves ((Evolves.refl s).replied ..)
    · exact .evolves ((Evolves.refl s).replied ..)

theorem execOutcome_ran (h : execOutcome s = .next t) : Ran .outcome s t := by
  rcases taken_cases h with rfl | ⟨-, rfl⟩
  · exact .evolves (.refl _)
  · dsimp only
    split
    · exact .evolves ((Evolves.refl s).replied ..)
    · exact .outcome ‹_›

theorem execFetch_ran (h : execFetch s = .next t) : Ran .fetch s t := by
  rcases taken_cases h with rfl | ⟨-, rfl⟩
  · exact .evolves (.refl _)
  · split
    · exact .evolves ((Evolves.refl s).replied ..)
    · exact .fetch ‹_› rfl

theorem execFetchBroadcast_ran (h : execFetchBroadcast s = .next t) : Ran .fetchBroadcast s t := by
  rcases taken_cases h with rfl | ⟨-, rfl⟩
  · exact .evolves (.refl _)
  · dsimp only
    split
    · exact .evolves ((Evolves.refl s).replied ..)
    · exact .fetchBroadcast ‹_›

theorem execNotice_ran (h : execNotice s = .next t) : Ran .notice s t := by
  rcases taken_cases h with rfl | ⟨-, rfl⟩
  · exact .evolves (.refl _)
  · dsimp only
    split
    · exact .evolves ((Evolves.refl s).replied ..)
    · exact .notice ‹_›

theorem execHostSelRise_ran (h : execHostSelRise s = .next t) : Ran .hostSelRise s t := by
  cases h
  split
  · exact .stationReset ‹_›
  · exact .evolves (.control rfl)

theorem exec_ran {c : Instr} (h : exec c s = .next t) : Ran c s t := by
  cases c with
  | hardReset => cases h; exact .hardReset s
  | hostSelRise => exact execHostSelRise_ran h
  | setup => exact execSetup_ran h
  | start => exact execStart_ran h
  | outcome => exact execOutcome_ran h
  | fetch => exact execFetch_ran h
  | fetchBroadcast => exact execFetchBroadcast_ran h
  | notice => exact execNotice_ran h
  | _ => exact .evolves (exec_evolves rfl h)

end Own

/-- What follows the freeing of a fetched record is a chain of the listed changes. -/
theorem fetched_evolves {s t : State} {r : PoolRecord}
    (ht : t = nameOnChange s
      (reply 0x30#8 [] resOk (deliveryRecord r.source r.lane r.payload r.arrival) (freeRecord r.lane s))) :
    Evolves (freeRecord r.lane s) t := by
  rcases nameOnChange_cases s
      (reply 0x30#8 [] resOk (deliveryRecord r.source r.lane r.payload r.arrival) (freeRecord r.lane s)) with e | e <;>
    rw [ht, e]
  · exact (nameMoment_evolves _).after ((Evolves.refl _).replied ..)
  · exact (Evolves.refl _).replied ..

/-! ### The reset state -/

theorem mem_startPeers {own : Nat} {r : Peer} (h : r ∈ startPeers own) :
    r = Peer.reset ∨ r = { Peer.reset with presence := .self } := by
  unfold startPeers at h
  obtain ⟨i, hi, rfl⟩ := List.mem_iff_getElem.mp h
  rw [List.getElem_modify, List.getElem_replicate]
  split
  · exact .inr rfl
  · exact .inl rfl

theorem peerReset_inRange : Peer.reset.InRange := by simp [Peer.InRange, Peer.reset, Advert.zero]

theorem profileOf_inRange {b0 b1 b2 b3 b4 b5 b6 b7 : Byte} {p : Profile}
    (h : profileOf b0 b1 b2 b3 b4 b5 b6 b7 = some p) : p.inRange := by
  by_cases hin : OperandInRange b0 b1 b2 b3 b4 b5 b6 b7
  · rw [profileOf_of_inRange hin] at h
    cases h
    have := b6.isLt
    unfold OperandInRange at hin
    simp only [Profile.inRange, operandProfile]
    omega
  · rw [profileOf_of_out_of_range hin] at h
    cases h

/-- Settles O51. -/
theorem resetMeetsTheInvariants : Obligations.ResetMeetsTheInvariants := by
  unfold Obligations.ResetMeetsTheInvariants
  refine ⟨?capacity, ?ranges, ?owed, ?stale, ?window, ?pool, ?selfView, ?station, ?slots, ?flight, ?tries⟩
  case capacity => simp [CapacityHolds, State.reset, Hpt.reset, Bcr.reset, Txs.reset, Config.stations]
  case ranges =>
    refine ⟨fun r hr => ?_, by simp [State.reset, Stc.reset, Hpt.reset, Lfe.reset]⟩
    rw [List.eq_of_mem_replicate hr]
    exact peerReset_inRange
  case owed => rfl
  case stale =>
    intro r hr _
    rw [List.eq_of_mem_replicate hr]
    rfl
  case window => exact windowInOrder_reset
  case pool =>
    simp [PoolHolds, usedReserve, usedShared, State.reset, Stc.reset, Profile.unset, Rxp.reset]
  case selfView =>
    simp [SelfViewHolds, Advert.atMost, State.reset, Rxp.reset, Ftx.reset, Advert.zero]
  case station =>
    constructor <;> simp [State.reset, Stc.reset, Lfe.reset, Ctu.reset, Ftx.reset, Drive.none, TxState.inFrame]
  case slots => simp [SlotsHold, State.reset, Txs.reset]
  case flight => simp [FlightHolds, State.reset, Txs.reset]
  case tries => simp [TriesHold, State.reset, Stc.reset, Txs.reset]

end Sys2Proof.Machine
end

