-- ==== Sys2Proof/Proofs/WhatStepsKeep.lean ====
section
/-! SUPPORT. The invariants that need no premise, for the tick and for each kind of command. -/

namespace Sys2Proof.Machine

/-! ### The tick -/

/-- Clocking a byte moves the transaction alone (R169). -/
theorem clockByte_hpt (b : Byte) (s : State) :
    (clockByte b s).hpt.notices = s.hpt.notices ∧ (clockByte b s).hpt.noticesLost = s.hpt.noticesLost
      ∧ (clockByte b s).hpt.counters = s.hpt.counters ∧ (clockByte b s).hpt.resetDue = s.hpt.resetDue := by
  unfold clockByte
  split
  · unfold commandByteIn
    split <;> simp
  · unfold operandByteIn
    dsimp only
    repeat' split
    all_goals simp
  · simp
  · simp

theorem hostPosition_hpt (s : State) :
    (hostPosition s).hpt.notices = s.hpt.notices ∧ (hostPosition s).hpt.noticesLost = s.hpt.noticesLost
      ∧ (hostPosition s).hpt.counters = s.hpt.counters := by
  unfold hostPosition
  split
  · split
    · rename_i b rest _
      obtain ⟨h1, h2, h3, -⟩ := clockByte_hpt b { s with hostIn := rest }
      exact ⟨h1, h2, h3⟩
    · exact ⟨rfl, rfl, rfl⟩
  · exact ⟨rfl, rfl, rfl⟩

theorem tick_hpt (s : State) :
    (tick s).hpt.notices = s.hpt.notices ∧ (tick s).hpt.noticesLost = s.hpt.noticesLost
      ∧ (tick s).hpt.counters = s.hpt.counters := by
  unfold tick
  repeat' split
  · simp
  · simpa using hostPosition_hpt (beginPosition s)
  · exact hostPosition_hpt s

theorem tick_profile (s : State) :
    (tick s).stc.profile = s.stc.profile ∧ (tick s).stc.profileSet = s.stc.profileSet
      ∧ (tick s).stc.profileLocked = s.stc.profileLocked := by
  unfold tick
  repeat' split
  all_goals simp [beginPosition, advanceCounts]

theorem beginPosition_clocks {s : State} (h : ClocksInRange s.stc s.lfe) :
    ClocksInRange (beginPosition s).stc (beginPosition s).lfe := by
  obtain ⟨hbeat, hspan, hcount, hgap⟩ := h
  refine ⟨hbeat, ?_, Nat.min_le_left _ _, hgap⟩
  show (if s.stc.spanRunning then (s.stc.spanCount + 1) % 2048 else s.stc.spanCount) < 2048
  split
  · exact Nat.mod_lt _ (by omega)
  · exact hspan

theorem tick_clocks {s : State} (h : ClocksInRange s.stc s.lfe) : ClocksInRange (tick s).stc (tick s).lfe := by
  unfold tick
  repeat' split
  · exact h
  · simpa using beginPosition_clocks h
  · simpa using h

/-- A tick leaves every store, the notices and the counters as they were. -/
theorem tick_stores (s : State) :
    (tick s).rxp = s.rxp ∧ (tick s).txs = s.txs ∧ (tick s).bcr = s.bcr ∧ (tick s).peers = s.peers := by simp

/-! ### The kinds of command -/

section Kept

variable {c : Instr} {s t : State}

theorem Ran.capacity (h : Ran c s t) : CapacityHolds s → CapacityHolds t := by
  cases h with
  | evolves h => exact h.capacity
  | hardReset => exact fun _ => resetMeetsTheInvariants.1
  | stationReset => exact fun _ => resetMeetsTheInvariants.1
  | setup => exact id
  | start =>
    intro ⟨hn, _⟩
    refine ⟨by simpa [startStation, reply] using hn, ?_⟩
    simp [startStation, startPeers, Bcr.reset, Txs.reset, Config.stations]
  | outcome hs =>
    intro ⟨hn, hring, hslots, hpeers⟩
    rw [hs] at hslots
    exact ⟨hn, hring, by simp at hslots ⊢; omega, hpeers⟩
  | fetch hr ht =>
    intro hs
    exact (fetched_evolves ht).capacity (by simpa [CapacityHolds] using hs)
  | fetchBroadcast hs =>
    intro ⟨hn, hring, hrest⟩
    rw [hs] at hring
    exact ⟨hn, by simp at hring ⊢; omega, hrest⟩
  | notice hs =>
    intro ⟨hn, hrest⟩
    rw [hs] at hn
    exact ⟨by simp [reply] at hn ⊢; omega, hrest⟩

theorem Ran.ranges (h : Ran c s t) : RangesHold s → RangesHold t := by
  obtain ⟨hpeers0, hbeat0, hspan0, hlost0, hcount0, hgap0, -⟩ := resetMeetsTheInvariants.2.1
  cases h with
  | evolves h => exact h.ranges
  | hardReset => exact fun _ => resetMeetsTheInvariants.2.1
  | stationReset =>
    exact fun ⟨_, _, _, _, _, _, hprofile⟩ => ⟨hpeers0, hbeat0, hspan0, hlost0, hcount0, hgap0, hprofile⟩
  | setup hstation hp =>
    exact fun ⟨hpeers, hbeat, hspan, hlost, hcount, hgap, _⟩ =>
      ⟨hpeers, hbeat, hspan, hlost, hcount, hgap, fun _ => profileOf_inRange hp⟩
  | start hstation hset =>
    intro ⟨_, _, _, hlost, _, _, hprofile⟩
    refine ⟨?_, ?_⟩
    · intro r hr
      rcases mem_startPeers (by simpa [startStation] using hr) with rfl | rfl <;> exact peerReset_inRange
    · simpa [startStation, reply, Lfe.reset, hlost] using hprofile
  | outcome hs => exact id
  | fetch hr ht =>
    intro hs
    exact (fetched_evolves ht).ranges (by simpa [RangesHold] using hs)
  | fetchBroadcast hs => exact id
  | notice hs =>
    exact fun ⟨hpeers, hbeat, hspan, _, hcount, hgap, hprofile⟩ =>
      ⟨hpeers, hbeat, hspan, Nat.zero_le _, hcount, hgap, hprofile⟩

theorem Ran.owed (h : Ran c s t) : OwedHolds s → OwedHolds t := by
  cases h with
  | evolves h => exact h.owed
  | hardReset => exact fun _ => rfl
  | stationReset => exact fun _ => rfl
  | setup => exact id
  | start => exact fun _ => evalCauses_owed rfl
  | outcome => exact id
  | fetch hr ht => exact fun hs => (fetched_evolves ht).owed (evalCauses_owed hs)
  | fetchBroadcast => exact id
  | notice => exact id

theorem Ran.stale (h : Ran c s t) : StaleHolds s → StaleHolds t := by
  have hreset := resetMeetsTheInvariants.2.2.2.1
  cases h with
  | evolves h => exact h.stale
  | hardReset => exact fun _ => hreset
  | stationReset => exact fun _ => hreset
  | setup => exact id
  | start =>
    intro _ r hr _
    rcases mem_startPeers (by simpa [startStation] using hr) with rfl | rfl <;> rfl
  | outcome => exact id
  | fetch hr ht => exact fun hs => (fetched_evolves ht).stale (by simpa [StaleHolds] using hs)
  | fetchBroadcast => exact id
  | notice => exact id

theorem Ran.window (h : Ran c s t) : WindowHolds s → WindowHolds t := by
  cases h with
  | evolves h => exact h.window
  | hardReset => exact fun _ => windowInOrder_reset
  | stationReset => exact fun _ => windowInOrder_reset
  | setup => exact id
  | start => exact fun _ => by simpa [startStation, WindowHolds, Frx.WindowInOrder] using windowInOrder_frxTurnOn false
  | outcome => exact id
  | fetch hr ht => exact fun hs => (fetched_evolves ht).window (by simpa [WindowHolds] using hs)
  | fetchBroadcast => exact id
  | notice => exact id

end Kept

/-- Settles O52: each invariant is kept by the tick, which moves no store, and by each kind of command. -/
theorem stepKeepsRangesAndFlags : Obligations.StepKeepsRangesAndFlags := by
  unfold Obligations.StepKeepsRangesAndFlags
  intro s t h
  refine ⟨?capacity, ?ranges, ?owed, ?stale, ?window⟩
  case capacity =>
    refine step_keeps (fun _ _ => id) (fun s hs => ?_) (fun c s t hs h => (exec_ran h).capacity hs) h
    simpa [CapacityHolds, (tick_hpt s).1] using hs
  case ranges =>
    refine step_keeps (fun _ _ => id) (fun s hs => ?_) (fun c s t hs h => (exec_ran h).ranges hs) h
    obtain ⟨hpeers, hbeat, hspan, hlost, hcount, hgap, hprofile⟩ := hs
    obtain ⟨hbeat', hspan', hcount', hgap'⟩ := tick_clocks ⟨hbeat, hspan, hcount, hgap⟩
    obtain ⟨hp, hset, -⟩ := tick_profile s
    exact ⟨by simpa using hpeers, hbeat', hspan', by rwa [(tick_hpt s).2.1], hcount', hgap', by rwa [hp, hset]⟩
  case owed =>
    exact step_keeps (fun _ _ => id) (fun s hs => by simpa [OwedHolds] using hs)
      (fun c s t hs h => (exec_ran h).owed hs) h
  case stale =>
    exact step_keeps (fun _ _ => id) (fun s hs => by simpa [StaleHolds] using hs)
      (fun c s t hs h => (exec_ran h).stale hs) h
  case window =>
    exact step_keeps (fun _ _ => id) (fun s hs => by simpa [WindowHolds] using hs)
      (fun c s t hs h => (exec_ran h).window hs) h

end Sys2Proof.Machine
end

