-- ==== Sys2Proof/Proofs/NothingTaken.lean ====
section
/-! SUPPORT. What is taken from the stores, and by which command: the queue, the lists and the messages by the chains of
changes, the Broadcast Ring by the one pulse that stores a broadcast. -/

namespace Sys2Proof.Machine

/-! ### The Broadcast Ring -/

theorem frameEffects_bcr (fr : Frame) (s : State) :
    (frameEffects fr s).bcr = s.bcr ∨ (frameEffects fr s).bcr = (storeBroadcast fr s).bcr := by
  unfold frameEffects
  repeat' split
  all_goals simp

theorem validFrame_bcr (own : Bool) (fr : Frame) (s : State) :
    (validFrame own fr s).bcr = s.bcr ∨ (validFrame own fr s).bcr.ring = (storeBroadcast fr s).bcr.ring := by
  unfold validFrame
  dsimp only
  repeat' split
  · simp
  · simp
  · rcases frameEffects_bcr fr (hearFrame fr (markHeard s)) with h | h
    · exact .inl (by simpa using h)
    · exact .inr (by simp [h, storeBroadcast_ring])

/-- The FRX's event stores a broadcast or leaves the ring (R94). -/
theorem toFrx_bcr (own : Bool) (step : Frx → Frx × RxEvent) (s : State) :
    (toFrx own step s).bcr = s.bcr ∨
      ∃ fr, (step s.frx).2 = .valid fr ∧ (toFrx own step s).bcr.ring = (storeBroadcast fr s).bcr.ring := by
  unfold toFrx applyRx
  repeat' split
  · simp
  · simp
  · simp
  · rename_i fr he
    rcases validFrame_bcr own fr (s.setFrx (step s.frx).1) with h | h
    · exact .inl h
    · exact .inr ⟨fr, he, h⟩
  · simp
  · simp

theorem toFrx_bcr_of_not_valid (own : Bool) {step : Frx → Frx × RxEvent} {s : State}
    (h : ∀ fr, (step s.frx).2 ≠ .valid fr) : (toFrx own step s).bcr = s.bcr := by
  rcases toFrx_bcr own step s with e | ⟨fr, he, -⟩
  · exact e
  · exact absurd he (h fr)

theorem nameOnChange_bcr (s t : State) : (nameOnChange s t).bcr = t.bcr := by
  rcases nameOnChange_cases s t with e | e <;> simp [e]

theorem rxRise_not_valid (f : Frx) (gap : Nat) (fr : Frame) : (rxRise f gap).2 ≠ .valid fr := by
  unfold rxRise rxAnswer
  repeat' split
  all_goals simp

theorem rxBreak_not_valid (f : Frx) (fr : Frame) : (rxBreak f).2 ≠ .valid fr := by
  unfold rxBreak rxFail
  split <;> simp

theorem rxWindowClose_not_valid (f : Frx) (fr : Frame) : (rxWindowClose f).2 ≠ .valid fr := by
  unfold rxWindowClose rxAnswer
  split <;> simp

theorem rxEarlyAnswer_not_valid (f : Frx) (fr : Frame) : (rxEarlyAnswer f).2 ≠ .valid fr := by
  unfold rxEarlyAnswer rxAnswer
  split <;> simp

section Ring

variable {s t : State}

theorem taken_bcr {code : Byte} {effect : State → State} (h : taken code s effect = .next t)
    (he : (effect s).bcr = s.bcr) : t.bcr = s.bcr := by
  rcases taken_cases h with rfl | ⟨-, rfl⟩
  · rfl
  · exact he

theorem ite_bcr {p : Prop} [Decidable p] {u : State}
    (h : Host.Outcome.next (if p then u else s) = (Host.Outcome.next t : Host.Outcome State Fault Refusal))
    (hu : u.bcr = s.bcr) : t.bcr = s.bcr := by
  cases h
  split
  · exact hu
  · rfl

/-- A pulse event moves the ring only as a broadcast does. -/
theorem execPulseEvent_bcr {width : Nat} (h : execPulseEvent width s = .next t) :
    t.bcr = s.bcr ∨ ∃ fr, t.bcr.ring = (storeBroadcast fr s).bcr.ring := by
  cases h
  split
  · rw [nameOnChange_bcr]
    rcases toFrx_bcr (completesAt (classOf width) s) (fun f => rxPulse f (classOf width) s.lfe.precedingGap)
      (ctuFall (ftxFall (classOf width) (s.setLfe (lfeFall s.lfe)))) with e | ⟨fr, -, e⟩
    · exact .inl (by simp [e])
    · exact .inr ⟨fr, by rw [e]; simp [storeBroadcast_ring]⟩
  · exact .inl rfl

theorem execWithdraw_bcr {tag : Half} (h : execWithdraw tag s = .next t) : t.bcr = s.bcr := by
  refine taken_bcr h ?_
  dsimp only
  repeat' split
  all_goals simp

theorem execLoad_bcr {tag : Half} {dest lane len : Byte} {payload : List Byte}
    (h : execLoad tag dest lane len payload s = .next t) : t.bcr = s.bcr := by
  refine taken_bcr h ?_
  unfold takeLoad
  dsimp only
  repeat' split
  all_goals simp [storeMessage]

theorem execSetup_bcr {b0 b1 b2 b3 b4 b5 b6 b7 : Byte} (h : execSetup b0 b1 b2 b3 b4 b5 b6 b7 s = .next t) :
    t.bcr = s.bcr := by
  refine taken_bcr h ?_
  dsimp only
  repeat' split
  all_goals rfl

theorem execRoundGap_bcr (h : execRoundGap s = .next t) : t.bcr = s.bcr := by
  refine ite_bcr h ?_
  dsimp only
  repeat' split
  all_goals simp

theorem execLineIdle_bcr (h : execLineIdle s = .next t) : t.bcr = s.bcr := by
  refine ite_bcr h ?_
  dsimp only
  split <;> simp

theorem execLineStuck_bcr (h : execLineStuck s = .next t) : t.bcr = s.bcr := by
  refine ite_bcr h ?_
  dsimp only
  split <;> simp

theorem execLossTest_bcr (h : execLossTest s = .next t) : t.bcr = s.bcr := by
  refine ite_bcr h ?_
  repeat' split
  all_goals simp

/-- Every other command than a pulse event leaves the ring, apart from those that reset the part or take from it. -/
theorem exec_bcr {c : Instr} (h : exec c s = .next t) (hpulse : ∀ width, c ≠ .pulseEvent width)
    (h1 : c ≠ .hardReset) (h2 : c ≠ .hostSelRise) (h3 : c ≠ .start) (h4 : c ≠ .fetchBroadcast) : t.bcr = s.bcr := by
  cases c with
  | hardReset => exact absurd rfl h1
  | hostSelRise => exact absurd rfl h2
  | start => exact absurd rfl h3
  | fetchBroadcast => exact absurd rfl h4
  | pulseEvent width => exact absurd rfl (hpulse width)
  | state => exact taken_bcr (show execState s = _ from h) rfl
  | peer addr => exact taken_bcr (show execPeer addr s = _ from h) (by split <;> rfl)
  | counters => exact taken_bcr (show execCounters s = _ from h) rfl
  | setup => exact execSetup_bcr h
  | reset => exact taken_bcr (show execReset s = _ from h) rfl
  | load => exact execLoad_bcr h
  | withdraw => exact execWithdraw_bcr h
  | outcome => exact taken_bcr (show execOutcome s = _ from h) (by dsimp only; split <;> rfl)
  | fetch => exact taken_bcr (show execFetch s = _ from h) (by split <;> simp [nameOnChange_bcr])
  | notice => exact taken_bcr (show execNotice s = _ from h) (by dsimp only; split <;> rfl)
  | unknownCommand code => exact taken_bcr (show execUnknownCommand code s = _ from h) (by split <;> rfl)
  | lineRisingEdge gap => exact ite_bcr h (by rw [toFrx_bcr_of_not_valid _ (rxRise_not_valid _ _)]; simp)
  | frameGapBreak => exact ite_bcr h (by rw [toFrx_bcr_of_not_valid _ (rxBreak_not_valid _)]; simp)
  | lineIdle => exact execLineIdle_bcr h
  | roundGap => exact execRoundGap_bcr h
  | lineStuck => exact execLineStuck_bcr h
  | answerWindowClose => exact ite_bcr h (toFrx_bcr_of_not_valid _ (rxWindowClose_not_valid _))
  | answerEarlyUnclassified =>
    refine ite_bcr h ?_
    rw [toFrx_bcr_of_not_valid _ (rxEarlyAnswer_not_valid _)]
    split <;> simp
  | leadRelease => exact ite_bcr h rfl
  | lossTest => exact execLossTest_bcr h
  | digitDriveStart => exact ite_bcr h rfl
  | digitRelease => exact ite_bcr h rfl
  | driveFaultCheck => exact ite_bcr h (by simp)
  | symbolDriveStart => exact ite_bcr h (by simp)
  | symbolRelease => exact ite_bcr h rfl
  | readbackTest => exact ite_bcr h (by simp)
  | answerDriveStart => exact ite_bcr h rfl
  | answerDriveCheck => exact ite_bcr h (by simp)
  | answerRelease => exact ite_bcr h rfl
  | spanExpiry => exact ite_bcr h (by simp [nameOnChange_bcr])
  | hostSelFall =>
    cases h
    repeat' split
    all_goals rfl
  | rstRelease => cases h; rfl

/-- The ring loses its oldest record at most, and that only to FETCH_BROADCAST or to a broadcast that finds it full (R95,
R97). -/
theorem exec_ring {c : Instr} (h : exec c s = .next t) (h1 : c ≠ .hardReset) (h2 : c ≠ .hostSelRise) (h3 : c ≠ .start) :
    ∃ n ≤ 1, s.bcr.ring.drop n <+: t.bcr.ring ∧ (n = 1 → (c = .fetchBroadcast ∧ s.bcr.ring ≠ [])
      ∨ ((∃ width, c = .pulseEvent width) ∧ 8 ≤ s.bcr.ring.length)) := by
  have kept (e : t.bcr = s.bcr) : ∃ n ≤ 1, s.bcr.ring.drop n <+: t.bcr.ring ∧
      (n = 1 → (c = .fetchBroadcast ∧ s.bcr.ring ≠ []) ∨ ((∃ width, c = .pulseEvent width) ∧ 8 ≤ s.bcr.ring.length)) :=
    ⟨0, by omega, by simp [e], by omega⟩
  by_cases hf : c = .fetchBroadcast
  · subst hf
    cases hr : s.bcr.ring with
    | nil => exact ⟨0, by omega, by simp, by omega⟩
    | cons r rest =>
      rcases taken_cases (show execFetchBroadcast s = _ from h) with rfl | ⟨-, rfl⟩
      · exact ⟨0, by omega, by simp [hr], by omega⟩
      · exact ⟨1, le_refl _, by simp [hr], by simp⟩
  · by_cases hp : ∃ width, c = .pulseEvent width
    · obtain ⟨width, rfl⟩ := hp
      rcases execPulseEvent_bcr h with e | ⟨fr, e⟩
      · exact kept e
      · rw [e, storeBroadcast_ring]
        by_cases hfull : 8 ≤ s.bcr.ring.length
        · exact ⟨1, le_refl _, by simp [hfull, List.drop_one], fun _ => .inr ⟨⟨width, rfl⟩, hfull⟩⟩
        · exact ⟨0, by omega, by simp [hfull], by omega⟩
    · exact kept (exec_bcr h (fun width e => hp ⟨width, e⟩) h1 h2 h3 hf)

end Ring

/-! ### The other stores -/

section Taken

variable {c : Instr} {s t : State}

theorem Ran.queue (h : Ran c s t) (h1 : c ≠ .hardReset) (h2 : c ≠ .hostSelRise) (h3 : c ≠ .start) (hc : c ≠ .fetch) :
    s.rxp.queue <+: t.rxp.queue := by
  cases h with
  | evolves h => exact h.queue
  | hardReset => exact absurd rfl h1
  | stationReset => exact absurd rfl h2
  | start => exact absurd rfl h3
  | fetch => exact absurd rfl hc
  | _ => exact List.prefix_rfl

theorem Ran.outcomes (h : Ran c s t) (h1 : c ≠ .hardReset) (h2 : c ≠ .hostSelRise) (h3 : c ≠ .start)
    (hc : c ≠ .outcome) : s.txs.outcomes <+: t.txs.outcomes := by
  cases h with
  | evolves h => exact h.outcomes
  | hardReset => exact absurd rfl h1
  | stationReset => exact absurd rfl h2
  | start => exact absurd rfl h3
  | outcome => exact absurd rfl hc
  | fetch hr ht => simpa using (fetched_evolves ht).outcomes
  | _ => exact List.prefix_rfl

theorem Ran.notices (h : Ran c s t) (h1 : c ≠ .hardReset) (h2 : c ≠ .hostSelRise) (h3 : c ≠ .start)
    (hc : c ≠ .notice) : s.hpt.notices <+: t.hpt.notices := by
  cases h with
  | evolves h => exact h.notices
  | hardReset => exact absurd rfl h1
  | stationReset => exact absurd rfl h2
  | start => exact absurd rfl h3
  | notice => exact absurd rfl hc
  | fetch hr ht => simpa using (fetched_evolves ht).notices
  | _ => exact List.prefix_rfl

/-- A live message is held after every command, as it was loaded: OUTCOME takes DONE records alone. -/
theorem Ran.survives (h : Ran c s t) (h1 : c ≠ .hardReset) (h2 : c ≠ .hostSelRise) (h3 : c ≠ .start) {m : Message}
    (hm : m ∈ s.txs.store) : ∃ m', t.holds m' ∧ m'.SameLoad m := by
  have held : s.holds m := List.mem_append_left _ hm
  cases h with
  | evolves h => exact h.survives m held
  | hardReset => exact absurd rfl h1
  | stationReset => exact absurd rfl h2
  | start => exact absurd rfl h3
  | outcome => exact ⟨m, List.mem_append_left _ hm, .rfl⟩
  | fetch hr ht => exact (fetched_evolves ht).survives m (by simpa [State.holds] using held)
  | _ => exact ⟨m, held, .rfl⟩

end Taken

/-- Settles O58: a tick moves no store; the queue, the lists and the messages go by the kinds of command, the ring by the one
pulse that stores a broadcast. -/
theorem nothingIsTakenButByItsCommand : Obligations.NothingIsTakenButByItsCommand := by
  unfold Obligations.NothingIsTakenButByItsCommand
  intro s t h
  rcases step_cases h with ⟨hempty, rfl⟩ | ⟨c, rest, hpending, hexec⟩
  · refine ⟨fun _ => ?_, fun c rest hp => by simp [hempty] at hp⟩
    obtain ⟨hrxp, htxs, hbcr, hpeers⟩ := tick_stores s
    exact ⟨hrxp, htxs, hbcr, hpeers, tick_hpt s⟩
  · refine ⟨fun hempty => by simp [hempty] at hpending, fun c' rest' hp h1 h2 h3 => ?_⟩
    cases hpending.symm.trans hp
    have ran := exec_ran hexec
    have ring := exec_ring hexec h1 h2 h3
    refine ⟨ran.queue h1 h2 h3, ran.outcomes h1 h2 h3, ran.notices h1 h2 h3, ring, fun m hm => ?_⟩
    exact ran.survives h1 h2 h3 hm

end Sys2Proof.Machine
end

