-- ==== Sys2Proof/Proofs/StationOrder.lean ====
section
/-! SUPPORT. What the station state allows the blocks: one rule for each block that changes under an unchanged station, one
for each change of the station, the operations by these rules, and the statement. -/

namespace Sys2Proof.Machine

/-! ### Rules -/

/-- The fields that the order of the station is about. -/
def State.control (s : State) : Bool × Stc × Bool × Frx × Ctu × Ftx :=
  (s.rstLow, s.stc, s.lfe.sampling, s.frx, s.ctu, s.ftx)

theorem decoding_of_onAir {s : State} (h : onAir s) : decoding s = true := by
  rcases h with h | h <;> simp [decoding, h]

theorem decoding_eq_true_iff (s : State) :
    decoding s = true ↔ s.stc.station = .listening ∨ s.stc.station = .joining ∨ s.stc.station = .active := by
  unfold decoding
  cases s.stc.station <;> simp

namespace StationHolds

variable {s t : State}

theorem of_control (h : StationHolds s) (e : t.control = s.control) : StationHolds t := by
  simp only [State.control, Prod.mk.injEq] at e
  obtain ⟨hrst, hstc, hsampling, hfrx, hctu, hftx⟩ := e
  constructor
  · rw [hstc]; exact h.lock
  · rw [hstc]; exact h.returns
  · rw [hstc]; exact h.returnsTo
  · rw [hstc]; exact h.reason
  · rw [hstc, hsampling]; exact h.samples
  · rw [hstc]; exact h.spans
  · rw [decoding, hstc, hfrx]; exact h.receiver
  · rw [onAir, hstc, hctu]; exact h.contends
  · rw [onAir, hstc, hftx]; exact h.transmits
  · rw [hstc, hftx]; exact h.answers
  · rw [hctu]; exact h.contest
  · rw [hftx]; exact h.frame
  · rw [hftx]; exact h.captures
  · rw [hstc, hftx]; exact h.faults
  · rw [hrst, hstc]; exact h.held

theorem setCtu (h : StationHolds s) {x : Ctu} (hair : x.state ≠ .off → onAir s)
    (hdrive : x.drive.phase ≠ .rest → x.state = .lead ∨ x.state = .claim) : StationHolds (s.setCtu x) :=
  { h with contends := hair, contest := hdrive }

/-- A Frame Transmitter that stands in order under the station of `s`. -/
structure Transmits (s : State) (x : Ftx) : Prop where
  air : x.state ≠ .idle → onAir s
  answers : x.state = .answering ∨ x.answer.isSome = true → s.stc.station = .active
  frame : x.drive.phase ≠ .rest → x.state.inFrame = true ∨ x.state = .answering
  captures : x.state.inFrame = true → x.captured.isSome = true
    ∨ (x.state = .header ∧ x.symbolIndex = 0 ∧ x.drive.phase = .rest)
  faults : x.faultCount ≤ 4 ∧ (x.faultCount = 4 → s.stc.station = .halted)

theorem setFtx (h : StationHolds s) {x : Ftx} (hx : Transmits s x) : StationHolds (s.setFtx x) :=
  { h with transmits := hx.air, answers := hx.answers, frame := hx.frame, captures := hx.captures, faults := hx.faults }

theorem transmitter (h : StationHolds s) : Transmits s s.ftx := ⟨h.transmits, h.answers, h.frame, h.captures, h.faults⟩

/-- An idle transmitter with a fault count that has not come to 4. -/
theorem Transmits.idle {n : Nat} (hn : n ≤ 4 ∧ (n = 4 → s.stc.station = .halted)) :
    Transmits s { Ftx.reset with faultCount := n } := by
  constructor
  case faults => exact hn
  all_goals simp [Ftx.reset, Drive.none, TxState.inFrame]

theorem setFrx (h : StationHolds s) (hd : decoding s = true) (x : Frx) : StationHolds (s.setFrx x) :=
  { h with receiver := fun hoff => absurd (hd.symm.trans hoff) (by simp) }

theorem setLfe (h : StationHolds s) {x : Lfe} (hx : x.sampling = s.lfe.sampling) : StationHolds (s.setLfe x) :=
  h.of_control (by simp [State.control, hx])

/-- The station's marks and counts move; its state, its reasons and its locks stay. -/
theorem setStc (h : StationHolds s) {x : Stc}
    (hx : x = { s.stc with frameHeard := x.frameHeard, heartbeat := x.heartbeat, spanCount := x.spanCount }) :
    StationHolds (s.setStc x) := by
  rw [hx]
  exact { h with }

/-- On the air the station has neither a return state nor a halt reason. -/
theorem of_decoding (h : StationHolds s) (hd : decoding s = true) :
    s.rstLow = false ∧ s.stc.profileLocked = true ∧ s.stc.returnState = none ∧ s.stc.haltReason = .none
      ∧ s.lfe.sampling = true ∧ s.stc.spanRunning = true ∧ s.ftx.faultCount < 4 := by
  have hstation := (decoding_eq_true_iff s).mp hd
  have hrst : s.rstLow = false := by
    by_contra hlow
    have := h.held (by simpa using hlow)
    simp [this] at hstation
  have hreturn : s.stc.returnState = none := by
    by_contra hsome
    have := h.returns.mp (Option.isSome_iff_ne_none.mpr hsome)
    simp [this] at hstation
  have hreason : s.stc.haltReason = .none := by
    by_contra hhalt
    have := h.reason.mp hhalt
    simp [this] at hstation
  have hfault : s.ftx.faultCount < 4 := by
    have hle := h.faults.1
    have hne : s.ftx.faultCount ≠ 4 := by
      intro heq
      have := h.faults.2 heq
      simp [this] at hstation
    omega
  refine ⟨hrst, h.lock.mpr ?_, hreturn, hreason, h.samples.mpr ?_, h.spans.mpr ?_, hfault⟩ <;>
    rcases hstation with e | e | e <;> simp [e]

/-! Changes of the station state. -/

/-- The entry to HALTED (R162), from a state that has the station's marks of one in order. -/
theorem halts (h : StationHolds s) (hd : decoding s = true) (hstc : t.stc = s.stc) (hrst : t.rstLow = s.rstLow)
    (hfault : t.ftx.faultCount ≤ 4) {why : HaltReason} (hwhy : why ≠ .none) : StationHolds (halt why t) := by
  obtain ⟨hlow, hlock, hreturn, -, -, -, -⟩ := h.of_decoding hd
  constructor <;>
    simp [halt, haltFailures, failAll, hstc, hrst, hlow, hlock, hreturn, hwhy, hfault, ctuOff, Ctu.reset, ftxIdle, Ftx.reset,
      Drive.none, Lfe.reset, TxState.inFrame]

/-- A counted fault halts at the fourth, and leaves the order as it was before it (R115). -/
theorem haltsIfFaulty (h : StationHolds s) (hd : decoding s = true) (hstc : t.stc = s.stc) (hrst : t.rstLow = s.rstLow)
    (hfault : t.ftx.faultCount ≤ 4) (ht : t.ftx.faultCount < 4 → StationHolds t) : StationHolds (haltIfFaulty t) := by
  rcases haltIfFaulty_cases t with ⟨-, e⟩ | ⟨hlt, e⟩ <;> rw [e]
  · exact h.halts hd hstc hrst hfault (by simp)
  · exact ht hlt

/-- LISTENING gives way to JOINING (R160). -/
theorem joins (h : StationHolds s) (hs : s.stc.station = .listening) :
    StationHolds (s.setStc { s.stc with station := .joining, frameHeard := false }) := by
  have hd : decoding s = true := by simp [decoding, hs]
  obtain ⟨hlow, hlock, hreturn, hreason, hsamples, hspans, hfault⟩ := h.of_decoding hd
  have hair : ¬ onAir s := by simp [onAir, hs]
  have hctu : s.ctu.state = .off := by_contra fun hne => hair (h.contends hne)
  have hftx : s.ftx.state = .idle := by_contra fun hne => hair (h.transmits hne)
  have hanswer : s.ftx.answer = none := by
    by_contra hsome
    have := h.answers (.inr (Option.isSome_iff_ne_none.mpr hsome))
    simp [hs] at this
  have hcontest := h.contest
  have hframe := h.frame
  have hcaptures := h.captures
  have hreceiver := h.receiver
  constructor <;> simp_all [onAir, decoding]
  omega

/-- JOINING gives way to ACTIVE (R160). -/
theorem activates (h : StationHolds s) (hs : s.stc.station = .joining) :
    StationHolds (s.setStc { s.stc with station := .active }) := by
  have hd : decoding s = true := by simp [decoding, hs]
  obtain ⟨hlow, hlock, hreturn, hreason, hsamples, hspans, hfault⟩ := h.of_decoding hd
  have hcontest := h.contest
  have hframe := h.frame
  have hcaptures := h.captures
  have hreceiver := h.receiver
  constructor <;> simp_all [onAir, decoding]
  omega

/-- A live station enters LINE_FAULT with its line's blocks off (R149). -/
theorem faultsLine (h : StationHolds s) (hd : decoding s = true) {t : State}
    (e : t.control = (s.rstLow,
      { s.stc with station := .lineFault, returnState := some s.stc.station, frameHeard := false },
      s.lfe.sampling, Frx.reset, ctuOff s.ctu, ftxIdle s.ftx)) : StationHolds t := by
  obtain ⟨hlow, hlock, hreturn, hreason, hsamples, hspans, hfault⟩ := h.of_decoding hd
  have hstation := (decoding_eq_true_iff s).mp hd
  simp only [State.control, Prod.mk.injEq] at e
  obtain ⟨hrst', hstc', hsampling', hfrx', hctu', hftx'⟩ := e
  constructor <;>
    simp_all [ctuOff, Ctu.reset, ftxIdle, Ftx.reset, Drive.none, TxState.inFrame, onAir]
  omega

/-- LINE_FAULT gives way to the state recorded at its entry, with the receiver on (R151). -/
theorem recovers (h : StationHolds s) (hs : s.stc.station = .lineFault) {st : StationState}
    (hst : s.stc.returnState = some st) {t : State} (hreceiver : t.frx = frxTurnOn (quiet t))
    (e : t.control = (s.rstLow, { s.stc with station := st, returnState := none }, s.lfe.sampling, t.frx, s.ctu, s.ftx)) :
    StationHolds t := by
  have hback := h.returnsTo st hst
  have hlow : s.rstLow = false := by
    by_contra hlow
    have := h.held (by simpa using hlow)
    simp [hs] at this
  have hlock := h.lock
  have hreason := h.reason
  have hsamples := h.samples
  have hspans := h.spans
  have hair : ¬ onAir s := by simp [onAir, hs]
  have hctu : s.ctu.state = .off := by_contra fun hne => hair (h.contends hne)
  have hftx : s.ftx.state = .idle := by_contra fun hne => hair (h.transmits hne)
  have hanswer : s.ftx.answer = none := by
    by_contra hsome
    have := h.answers (.inr (Option.isSome_iff_ne_none.mpr hsome))
    simp [hs] at this
  have hcontest := h.contest
  have hframe := h.frame
  have hfault := h.faults
  simp only [State.control, Prod.mk.injEq] at e
  obtain ⟨hrst', hstc', hsampling', -, hctu', hftx'⟩ := e
  constructor <;> rcases hback with rfl | rfl | rfl <;>
    simp_all [onAir, decoding, TxState.inFrame]

/-! ### The Contention Unit -/

theorem startLead (h : StationHolds s) (hair : onAir s) (c : Candidate) : StationHolds (startLead c s) := by
  have hlock : StationHolds (lockMessage c s) := h.of_control (by simp [State.control])
  exact hlock.setCtu (fun _ => by simpa [onAir] using hair) (fun _ => .inl rfl)

theorem joinLead (h : StationHolds s) (hair : onAir s) (c : Candidate) : StationHolds (joinLead c s) := by
  have hlock : StationHolds (lockMessage c s) := h.of_control (by simp [State.control])
  exact hlock.setCtu (fun _ => by simpa [onAir] using hair) (fun _ => .inl rfl)

theorem nameMoment (h : StationHolds s) : StationHolds (nameMoment s) := by
  rcases nameMoment_cases s with e | ⟨c, -, hstate, -, -, e⟩ <;> rw [e]
  · exact h
  · exact h.startLead (h.contends (by simp [hstate])) c

theorem nameOnChange (h : StationHolds t) (before : State) : StationHolds (nameOnChange before t) := by
  rcases nameOnChange_cases before t with e | e <;> rw [e]
  · exact h.nameMoment
  · exact h

theorem ctuEnterWaiting (h : StationHolds s) (hair : onAir s) : StationHolds (ctuEnterWaiting s) :=
  h.setCtu (fun _ => hair) (fun hd => absurd rfl hd)

theorem enterJoining (h : StationHolds s) (hs : s.stc.station = .listening) : StationHolds (enterJoining s) :=
  ((h.joins hs).ctuEnterWaiting (.inl rfl)).nameMoment

theorem attemptEnd (h : StationHolds s) (hair : onAir s) : StationHolds (attemptEnd s) :=
  h.setCtu (fun _ => hair) (fun hd => absurd rfl hd)

theorem resolve (h : StationHolds s) (r : Resolution) : StationHolds (resolve r s) :=
  h.of_control (by simp [State.control])

theorem claimLost (h : StationHolds s) (hair : onAir s) : StationHolds (claimLost s) :=
  resolve (of_control (h.setCtu (x := { s.ctu with state := .lost, locked := none, drive := Drive.none }) (fun _ => hair)
    (fun hd => absurd rfl hd)) (by simp [State.control])) _

theorem claimWon (h : StationHolds s) (hair : onAir s) : StationHolds (claimWon s) := by
  have hctu := h.setCtu (x := { s.ctu with
    state := .won, drive := Drive.none, roundSpent := s.ctu.roundSpent || decide (lockedDigit s ≤ 1) }) (fun _ => hair)
    (fun hd => absurd rfl hd)
  refine hctu.setFtx (x := { ftxIdle s.ftx with state := .header }) ?_
  constructor
  case air => exact fun _ => hair
  case faults => exact h.faults
  all_goals simp [ftxIdle, Ftx.reset, Drive.none]

/-- One fault more, where that one does not halt (R115). -/
theorem recordFault (h : StationHolds s) (hlt : (recordFault s).ftx.faultCount < 4) : StationHolds (recordFault s) :=
  h.setFtx { h.transmitter with
    faults := ⟨Nat.le_of_lt hlt, fun e => absurd (show (Machine.recordFault s).ftx.faultCount = 4 from e) (by omega)⟩ }

theorem faultCount_recordFault_le : (Machine.recordFault s).ftx.faultCount ≤ 4 := Nat.min_le_left _ _

theorem driveFault (h : StationHolds s) (hair : onAir s) : StationHolds (driveFault s) := by
  have hd := decoding_of_onAir hair
  have hctu := h.setCtu (x := { s.ctu with
    state := .waiting, idleSeen := s.ctu.state = .lead, locked := none, drive := Drive.none }) (fun _ => hair)
    (fun hd => absurd rfl hd)
  refine nameMoment (h.haltsIfFaulty hd (by simp) (by simp) ?_ fun hlt => resolve (hctu.recordFault ?_) _)
  · simpa using faultCount_recordFault_le
  · simpa using hlt

/-! ### The Frame Transmitter -/

theorem abortFrame (h : StationHolds s) (hair : onAir s) : StationHolds (abortFrame s) := by
  have hidle : StationHolds (s.setFtx (ftxIdle s.ftx)) := h.setFtx (Transmits.idle h.faults)
  refine h.haltsIfFaulty (decoding_of_onAir hair) (by simp) (by simp) ?_ fun hlt => ?_
  · simpa using faultCount_recordFault_le
  · exact resolve (attemptEnd (hidle.recordFault (by simpa using hlt)) hair) _

theorem answerMismatch (h : StationHolds s) (hd : decoding s = true) : StationHolds (answerMismatch s) := by
  have hidle : StationHolds (s.setFtx (ftxIdle s.ftx)) := h.setFtx (Transmits.idle h.faults)
  exact h.haltsIfFaulty hd (by simp) (by simp) faultCount_recordFault_le hidle.recordFault

theorem dateEdge (h : StationHolds s) (age : Option Nat) :
    StationHolds (s.setFtx { s.ftx with drive := { s.ftx.drive with edgeAge := age } }) :=
  h.setFtx { h.transmitter with }

theorem onAir_of_inFrame (h : StationHolds s) (hf : s.ftx.state.inFrame = true) : onAir s :=
  h.transmits fun e => by simp [e, TxState.inFrame] at hf

theorem ftxRise (h : StationHolds s) (gap : Nat) : StationHolds (ftxRise gap s) := by
  unfold Machine.ftxRise
  repeat' split
  · exact h.dateEdge _
  · exact h.abortFrame (h.onAir_of_inFrame ‹_›)
  · exact h.dateEdge _
  · exact h.answerMismatch (decoding_of_onAir (h.transmits (by simp [*])))
  · exact h

/-- The next symbol, or the END, begins at rest with the capture of the symbol before it. -/
theorem txAdvance (h : StationHolds s) (hf : s.ftx.state.inFrame = true) (hdriven : s.ftx.drive.phase ≠ .rest) :
    StationHolds (txAdvance s) := by
  have hcaptured : s.ftx.captured.isSome = true := by
    rcases h.captures hf with hc | ⟨-, -, hrest⟩
    · exact hc
    · exact absurd hrest hdriven
  have hne : ∀ n i, txStateAt n i ≠ .answering := by
    intro n i
    unfold txStateAt
    repeat' split
    all_goals simp
  refine h.setFtx ?_
  constructor
  case air => exact fun _ => h.onAir_of_inFrame hf
  case answers =>
    rintro (e | e)
    · exact absurd e (hne _ _)
    · exact h.answers (.inr e)
  case frame => exact fun e => absurd rfl e
  case captures => exact fun _ => .inl hcaptured
  case faults => exact h.faults

theorem completeKind (h : StationHolds s) (c : Candidate) : StationHolds (completeKind c s) := by
  unfold Machine.completeKind
  repeat' split
  · exact h.of_control (by simp [State.control])
  · exact of_control (h.activates ‹_›) (by simp [State.control])
  · exact h
  · exact h.resolve _
  · exact h

theorem completeCounts (h : StationHolds s) : StationHolds (completeCounts s) := by
  have hstc := h.setStc (x := { s.stc with heartbeat := 0 }) rfl
  exact of_control (hstc.setFtx (x := { s.ftx with faultCount := 0 }) { hstc.transmitter with faults := by simp })
    (by simp [State.control, Machine.completeCounts])

theorem completeKind_onAir (c : Candidate) (hair : onAir s) : onAir (Machine.completeKind c s) := by
  unfold Machine.completeKind
  repeat' split
  · simpa [onAir] using hair
  · exact .inr (by simp)
  · exact hair
  · simpa [onAir] using hair
  · exact hair

theorem completeFrame (h : StationHolds s) (hair : onAir s) : StationHolds (completeFrame s) := by
  unfold Machine.completeFrame
  dsimp only
  have h1 : StationHolds
      (Machine.completeCounts (Machine.completeAdvert (s.ftx.captured.getD s.rxp.selfView) s)) :=
    completeCounts (h.of_control (by simp [State.control]))
  have hair1 : onAir (Machine.completeCounts (Machine.completeAdvert (s.ftx.captured.getD s.rxp.selfView) s)) := by
    simpa [onAir, Machine.completeCounts] using hair
  split
  · rename_i c _
    have h2 := h1.completeKind c
    have hair2 := completeKind_onAir c hair1
    split
    · refine h2.setFtx ?_
      constructor
      case air => exact fun _ => hair2
      case faults => exact h2.faults
      all_goals simp [ftxIdle, Ftx.reset, Drive.none, TxState.inFrame]
    · exact attemptEnd (h2.setFtx (Transmits.idle h2.faults)) hair2
  · exact attemptEnd (h1.setFtx (Transmits.idle h1.faults)) hair1

theorem ftxFall (h : StationHolds s) (cls : PulseClass) : StationHolds (ftxFall cls s) := by
  unfold Machine.ftxFall
  split
  · exact h.dateEdge _
  · rename_i hbefore
    split
    · rename_i hf
      have hair := h.onAir_of_inFrame hf
      have hdriven : s.ftx.drive.phase ≠ .rest := fun e => hbefore (by simp [beforeDrive, e, hf])
      repeat' split
      · exact h.completeFrame hair
      · exact h.txAdvance hf hdriven
      · exact h.abortFrame hair
    · split
      · rename_i k hk
        have hactive := h.answers (.inr (by simp [hk]))
        split
        · exact h.setFtx (Transmits.idle h.faults)
        · exact h.answerMismatch (by simp [decoding, hactive])
      · exact h

theorem ftxEarly (h : StationHolds s) : StationHolds (ftxEarly s) := by
  rcases ftxEarly_cases s with ⟨hsome, -, e⟩ | ⟨-, e⟩ <;> rw [e]
  · exact h.answerMismatch (by simp [decoding, h.answers (.inr hsome)])
  · exact h

theorem startAnswer (h : StationHolds s) (hactive : s.stc.station = .active) (k : AnswerKind) :
    StationHolds (startAnswer k s) := by
  refine h.setFtx ?_
  constructor
  case air => exact fun _ => .inr hactive
  case answers => exact fun _ => hactive
  case faults => exact h.faults
  all_goals simp [ftxIdle, Ftx.reset, Drive.none, TxState.inFrame]

theorem beginSymbol (h : StationHolds s) (hf : s.ftx.state.inFrame = true) : StationHolds (beginSymbol s) := by
  unfold Machine.beginSymbol
  dsimp only
  split
  · exact h.setFtx { h.transmitter with frame := fun _ => .inl hf, captures := fun _ => .inl rfl }
  · rename_i hfirst
    refine h.setFtx { h.transmitter with frame := fun _ => .inl hf, captures := fun _ => .inl ?_ }
    rcases h.captures hf with hc | ⟨hheader, hindex, -⟩
    · exact hc
    · exact absurd ⟨hheader, hindex⟩ hfirst

/-! ### The Frame Receiver -/

theorem answerEvent (h : StationHolds s) (claim dest : Nat) (l : Lane) (cls : AnswerClass) :
    StationHolds (answerEvent claim dest l cls s) := by
  unfold Machine.answerEvent
  dsimp only
  have h1 : StationHolds (if dest = ownAddress s then s else observeAnswer dest l cls s) := by
    split
    · exact h
    · exact h.of_control (by simp [State.control])
  have hstc : (if dest = ownAddress s then s else observeAnswer dest l cls s).stc = s.stc := by split <;> simp
  split
  · rename_i hown
    have hair : onAir s := h.transmits (by simp [hown.2])
    exact resolve (attemptEnd (h1.setFtx (Transmits.idle h1.faults)) (by simpa [onAir, hstc] using hair)) _
  · exact h1

theorem decideAnswer (h : StationHolds s) (hactive : s.stc.station = .active) (fr : Frame) :
    StationHolds (decideAnswer fr s) := by
  unfold Machine.decideAnswer
  repeat' split
  · exact startAnswer (h.of_control (by simp [State.control])) (by simpa using hactive) _
  · exact startAnswer (h.of_control (by simp [State.control])) (by simpa using hactive) _
  · exact startAnswer (h.of_control (by simp [State.control])) (by simpa using hactive) _

theorem frameEffects (h : StationHolds s) (fr : Frame) : StationHolds (frameEffects fr s) := by
  unfold Machine.frameEffects
  repeat' split
  · rename_i hmine
    exact h.decideAnswer hmine.2 fr
  · exact h
  · exact h.of_control (by simp [State.control])
  · exact h
  · exact h.of_control (by simp [State.control])
  · exact h
  · exact h

theorem markHeard (h : StationHolds s) : StationHolds (markHeard s) := by
  unfold Machine.markHeard
  split
  · exact h.setStc rfl
  · exact h

theorem decoding_markHeard : decoding (Machine.markHeard s) = decoding s := by
  unfold Machine.markHeard
  split <;> rfl

theorem validFrame (h : StationHolds s) (hd : decoding s = true) (own : Bool) (fr : Frame) :
    StationHolds (validFrame own fr s) := by
  have h1 := h.markHeard
  unfold Machine.validFrame
  dsimp only
  repeat' split
  · exact h1
  · exact h1.halts (decoding_markHeard.trans hd) (by simp) (by simp) (by simpa using h.faults.1) (by simp)
  · exact frameEffects (h1.of_control (by simp [State.control])) fr

theorem applyRx (h : StationHolds s) (hd : decoding s = true) (own : Bool) (e : RxEvent) :
    StationHolds (applyRx own e s) := by
  cases e with
  | quiet => exact h
  | stray => exact h.of_control (by simp [State.control, Machine.applyRx])
  | failed k => exact h.of_control (by simp [State.control, Machine.applyRx])
  | valid fr => exact h.validFrame hd own fr
  | answered claim dest l cls => exact h.answerEvent ..

theorem toFrx (h : StationHolds s) (own : Bool) (step : Frx → Frx × RxEvent) : StationHolds (toFrx own step s) := by
  unfold Machine.toFrx
  split
  · rename_i hd
    exact (h.setFrx hd (step s.frx).1).applyRx hd own (step s.frx).2
  · exact h

theorem frxIdle (h : StationHolds s) : StationHolds (frxIdle s) := by
  unfold Machine.frxIdle
  dsimp only
  split
  · rename_i hd
    have h1 := h.setFrx hd.1 { s.frx with state := .idle, record := .pulses ⟨none, none⟩ }
    repeat' split
    · exact h1
    · exact h1.of_control (by simp [State.control])
    · exact h1
  · exact h

/-! ### The edges and the conditions of the line -/

theorem ctuRise (h : StationHolds s) : StationHolds (ctuRise s) := by
  unfold Machine.ctuRise
  split
  · rename_i hwaiting
    have hair : onAir s := h.contends (by simp [hwaiting])
    split
    · have h1 := h.setCtu (x := { s.ctu with idleSeen := false }) (fun _ => hair) h.contest
      dsimp only
      split
      · exact h1.joinLead hair _
      · exact h1
    · exact h
  · exact h.setCtu h.contends h.contest
  · exact h.setCtu h.contends h.contest
  · exact h

theorem ctuFall (h : StationHolds s) : StationHolds (ctuFall s) := by
  unfold Machine.ctuFall
  split
  · exact h.setCtu h.contends h.contest
  · exact h

theorem ctuIdle (h : StationHolds s) : StationHolds (ctuIdle s) := by
  unfold Machine.ctuIdle
  split
  · exact nameMoment (h.setCtu h.contends h.contest)
  · rename_i hlost
    have hrest : s.ctu.drive.phase = .rest := by
      by_contra hne
      have := h.contest hne
      simp [hlost] at this
    exact nameMoment (h.setCtu (fun _ => h.contends (by simp [hlost])) (fun hne => absurd hrest hne))
  · exact h

/-- The unit waits again, with the round before LINE_FAULT spent no more (R111, R151). -/
theorem ctuRecovers (h : StationHolds s) (hair : onAir s) :
    StationHolds ((Machine.ctuEnterWaiting s).setCtu { (Machine.ctuEnterWaiting s).ctu with roundSpent := false }) :=
  setCtu (h.ctuEnterWaiting hair) (fun _ => hair) (fun hne => absurd rfl hne)

theorem recoverTo (h : StationHolds s) (hs : s.stc.station = .lineFault) {st : StationState}
    (hst : s.stc.returnState = some st) : StationHolds (recoverTo st s) := by
  unfold Machine.recoverTo
  dsimp only
  have h1 : StationHolds ((postNotice .lineRecovered none
      (s.setStc { s.stc with station := st, returnState := none })).setFrx (frxTurnOn (quiet (postNotice .lineRecovered
        none (s.setStc { s.stc with station := st, returnState := none }))))) :=
    h.recovers hs hst rfl (by simp [State.control])
  refine nameMoment ?_
  repeat' split
  · rename_i hback hair
    exact of_control (h1.ctuRecovers (by simpa [onAir] using hair)) (by simp [State.control])
  · exact h1.of_control (by simp [State.control])
  · rename_i hback hair
    exact h1.ctuRecovers (by simpa [onAir] using hair)
  · exact h1

theorem enterLineFault (h : StationHolds s) (hd : decoding s = true) : StationHolds (enterLineFault s) :=
  h.faultsLine hd (by simp [State.control, Machine.enterLineFault])

theorem heartbeatExpiry (h : StationHolds s) : StationHolds (heartbeatExpiry s) := by
  unfold Machine.heartbeatExpiry
  dsimp only
  have h1 := h.setStc (x := { s.stc with heartbeat := min 255 (s.stc.heartbeat + 1) }) rfl
  split
  · exact h1.of_control (by simp [State.control])
  · exact h1

end StationHolds

/-! ### The commands -/

section Commands

variable {s t : State}

theorem station_of_taken {code : Byte} {effect : State → State} (h : StationHolds s)
    (ht : taken code s effect = .next t) (he : StationHolds (effect s)) : StationHolds t := by
  rcases taken_cases ht with rfl | ⟨-, rfl⟩
  · exact h
  · exact he

theorem station_of_ite {p : Prop} [Decidable p] {u : State} (h : StationHolds s)
    (ht : Host.Outcome.next (if p then u else s) = (Host.Outcome.next t : Host.Outcome State Fault Refusal))
    (hu : p → StationHolds u) : StationHolds t := by
  cases ht
  split
  · exact hu ‹_›
  · exact h

theorem execLineIdle_station (h : StationHolds s) (ht : execLineIdle s = .next t) : StationHolds t := by
  refine station_of_ite h ht fun _ => ?_
  dsimp only
  have h1 : StationHolds (Machine.ctuIdle (Machine.frxIdle
      (s.setLfe { s.lfe with idleReported := true, count := max idleGap s.lfe.count }))) := by
    refine (h.setLfe ?_).frxIdle.ctuIdle
    rfl
  split
  · rename_i hl
    exact h1.enterJoining hl.1
  · exact h1

theorem execRoundGap_station (h : StationHolds s) (ht : execRoundGap s = .next t) : StationHolds t := by
  refine station_of_ite h ht fun _ => ?_
  dsimp only
  have h1 : StationHolds (s.setLfe { s.lfe with roundReported := true, count := max roundGapLength s.lfe.count }) :=
    h.setLfe rfl
  have hspent := h1.setCtu (x := { s.ctu with roundSpent := false }) h.contends h.contest
  repeat' split
  · exact hspent.enterJoining ‹_›
  · exact h1.recoverTo ‹_› ‹_›
  · exact h1
  · exact hspent.nameMoment
  · exact h1

theorem execLineStuck_station (h : StationHolds s) (ht : execLineStuck s = .next t) : StationHolds t := by
  refine station_of_ite h ht fun _ => ?_
  dsimp only
  have h1 : StationHolds (s.setLfe { s.lfe with stuckReported := true, count := max stuckWidth s.lfe.count }) :=
    h.setLfe rfl
  split
  · exact h1.enterLineFault ‹_›
  · exact h1

theorem onAir_of_contest (h : StationHolds s) (hs : s.ctu.state = .lead ∨ s.ctu.state = .claim) : onAir s :=
  h.contends (by rcases hs with e | e <;> simp [e])

theorem execLossTest_station (h : StationHolds s) (ht : execLossTest s = .next t) : StationHolds t := by
  refine station_of_ite h ht fun ⟨_, hs⟩ => ?_
  have hair := onAir_of_contest h hs
  repeat' split
  · exact h.claimLost hair
  · exact h.setCtu (fun _ => hair) (fun hne => absurd rfl hne)
  · exact h.claimWon hair
  · exact h.setCtu (fun _ => hair) (fun hne => absurd rfl hne)

theorem execDriveFaultCheck_station (h : StationHolds s) (ht : execDriveFaultCheck s = .next t) : StationHolds t := by
  refine station_of_ite h ht fun hf => h.driveFault (onAir_of_contest h ?_)
  simp only [faultChecked, Bool.and_eq_true, Bool.or_eq_true, beq_iff_eq] at hf
  tauto

theorem execAnswerRelease_station (h : StationHolds s) (ht : execAnswerRelease s = .next t) : StationHolds t := by
  refine station_of_ite h ht fun ⟨hs, _⟩ => h.setFtx ?_
  constructor
  case answers => exact fun _ => h.answers (.inl hs)
  case faults => exact h.faults
  all_goals simp [Drive.none, TxState.inFrame]

/-- The part right after START has its blocks in order. -/
theorem startStation_station (hrst : s.rstLow = false) : StationHolds (startStation s) := by
  constructor <;>
    simp [startStation, hrst, decoding, Ctu.reset, Ftx.reset, Drive.none, TxState.inFrame]

theorem hardReset_station : StationHolds (hardReset s) := by
  constructor <;>
    simp [hardReset, blocksReset, State.reset, Stc.reset, Lfe.reset, Ctu.reset, Ftx.reset, Drive.none, TxState.inFrame]

theorem stationReset_station : StationHolds { stationReset s with hostSelLow := false } := by
  constructor <;>
    simp [stationReset, blocksReset, State.reset, Stc.reset, Lfe.reset, Ctu.reset, Ftx.reset, Drive.none, TxState.inFrame]

theorem takeLoad_station (h : StationHolds s) (tag : Half) (dest lane len : Byte) (payload : List Byte) :
    StationHolds (takeLoad tag dest lane len payload s) := by
  unfold takeLoad
  dsimp only
  repeat' split
  · exact h.of_control rfl
  · exact h.of_control rfl
  · exact h.of_control rfl
  · exact StationHolds.nameMoment (h.of_control rfl)
  · exact h.of_control rfl

theorem execLoad_station (h : StationHolds s) {tag : Half} {dest lane len : Byte} {payload : List Byte}
    (ht : execLoad tag dest lane len payload s = .next t) : StationHolds t := by
  refine station_of_taken h ht ?_
  repeat' split
  · exact takeLoad_station h ..
  · exact h.of_control rfl
  · exact h.of_control rfl

theorem execSetup_station (h : StationHolds s) {b0 b1 b2 b3 b4 b5 b6 b7 : Byte}
    (ht : execSetup b0 b1 b2 b3 b4 b5 b6 b7 s = .next t) : StationHolds t := by
  refine station_of_taken h ht ?_
  dsimp only
  repeat' split
  · exact { h with }
  · exact h.of_control rfl
  · exact h.of_control rfl

theorem execStart_station (h : StationHolds s) (ht : execStart s = .next t) : StationHolds t := by
  rcases taken_cases ht with rfl | ⟨hopen, rfl⟩
  · exact h
  · have hrst : s.rstLow = false := by
      rw [portOpen, Bool.and_eq_true] at hopen
      simpa using hopen.1
    repeat' split
    · exact StationHolds.of_control (startStation_station hrst) rfl
    · exact h.of_control rfl
    · exact h.of_control rfl

theorem execWithdraw_station (h : StationHolds s) {tag : Half} (ht : execWithdraw tag s = .next t) :
    StationHolds t := by
  refine station_of_taken h ht ?_
  dsimp only
  repeat' split
  all_goals exact h.of_control (by simp [State.control])

/-- Every command keeps the blocks in order. -/
theorem exec_station {c : Instr} (h : StationHolds s) (ht : exec c s = .next t) : StationHolds t := by
  cases c with
  | hardReset => cases ht; exact hardReset_station
  | hostSelRise =>
    cases ht
    split
    · exact stationReset_station
    · exact h.of_control rfl
  | state => exact station_of_taken h (show execState s = _ from ht) (h.of_control rfl)
  | peer addr =>
    exact station_of_taken h (show execPeer addr s = _ from ht) (by split <;> exact h.of_control rfl)
  | counters => exact station_of_taken h (show execCounters s = _ from ht) (h.of_control rfl)
  | setup => exact execSetup_station h ht
  | start => exact execStart_station h ht
  | reset => exact station_of_taken h (show execReset s = _ from ht) (h.of_control rfl)
  | load => exact execLoad_station h ht
  | withdraw => exact execWithdraw_station h ht
  | outcome =>
    exact station_of_taken h (show execOutcome s = _ from ht) (by dsimp only; split <;> exact h.of_control rfl)
  | fetch =>
    refine station_of_taken h (show execFetch s = _ from ht) ?_
    split
    · exact h.of_control rfl
    · exact StationHolds.nameOnChange (h.of_control (by simp [State.control])) s
  | fetchBroadcast =>
    exact station_of_taken h (show execFetchBroadcast s = _ from ht) (by dsimp only; split <;> exact h.of_control rfl)
  | notice =>
    exact station_of_taken h (show execNotice s = _ from ht) (by dsimp only; split <;> exact h.of_control rfl)
  | unknownCommand code =>
    exact station_of_taken h (show execUnknownCommand code s = _ from ht) (by split <;> exact h.of_control rfl)
  | lineRisingEdge gap =>
    refine station_of_ite h ht fun _ => (((h.setLfe ?_).ftxRise _).ctuRise).toFrx _ _
    rfl
  | pulseEvent width =>
    refine station_of_ite h ht fun _ => ((((h.setLfe ?_).ftxFall _).ctuFall).toFrx _ _).nameOnChange s
    rfl
  | frameGapBreak =>
    refine station_of_ite h ht fun _ => (h.setLfe ?_).toFrx _ _
    rfl
  | lineIdle => exact execLineIdle_station h ht
  | roundGap => exact execRoundGap_station h ht
  | lineStuck => exact execLineStuck_station h ht
  | answerWindowClose => exact station_of_ite h ht fun _ => h.toFrx _ _
  | answerEarlyUnclassified =>
    refine station_of_ite h ht fun _ => StationHolds.toFrx ?_ _ _
    split
    · exact h.ftxEarly
    · exact h
  | leadRelease => exact station_of_ite h ht fun ⟨hs, _⟩ => h.setCtu h.contends fun _ => .inl hs
  | lossTest => exact execLossTest_station h ht
  | digitDriveStart => exact station_of_ite h ht fun ⟨hs, _⟩ => h.setCtu h.contends fun _ => .inr hs
  | digitRelease => exact station_of_ite h ht fun ⟨hs, _⟩ => h.setCtu h.contends fun _ => .inr hs
  | driveFaultCheck => exact execDriveFaultCheck_station h ht
  | symbolDriveStart => exact station_of_ite h ht fun ⟨hf, _⟩ => h.beginSymbol hf
  | symbolRelease =>
    refine station_of_ite h ht fun ⟨hf, hdriving⟩ => h.setFtx { h.transmitter with frame := fun _ => .inl hf, captures := ?_ }
    intro _
    rcases h.captures hf with hc | ⟨-, -, hrest⟩
    · exact .inl hc
    · simp [hdriving] at hrest
  | readbackTest => exact station_of_ite h ht fun ⟨hf, _⟩ => h.abortFrame (h.onAir_of_inFrame hf)
  | answerDriveStart =>
    refine station_of_ite h ht fun ⟨hs, _⟩ => h.setFtx { h.transmitter with frame := fun _ => .inr hs, captures := ?_ }
    simp [hs, TxState.inFrame]
  | answerDriveCheck =>
    exact station_of_ite h ht fun ⟨hs, _⟩ => h.answerMismatch (by simp [decoding, h.answers (.inl hs)])
  | answerRelease => exact execAnswerRelease_station h ht
  | spanExpiry =>
    refine station_of_ite h ht fun _ => StationHolds.nameOnChange (StationHolds.heartbeatExpiry (StationHolds.of_control (h.setStc (x := { s.stc with spanCount := 0 })
      rfl) (by simp [State.control]))) s
  | hostSelFall =>
    cases ht
    repeat' split
    all_goals exact h.of_control rfl
  | rstRelease => cases ht; exact { h with held := fun hlow => by simp at hlow }

/-! ### The tick and the statement -/

/-- A tick moves the counts and the timers of the drives; every phase stays. -/
theorem tick_station (h : StationHolds s) : StationHolds (tick s) := by
  have host : ∀ u, StationHolds u → StationHolds (hostPosition u) := fun u hu => hu.of_control (by simp [State.control])
  unfold tick
  repeat' split
  · exact { h with }
  · exact host _ { h with }
  · exact host s h

end Commands

/-- Settles O55: the tick leaves every state and phase, and each command is built of operations that keep the order. -/
theorem stepKeepsTheStationInOrder : Obligations.StepKeepsTheStationInOrder := by
  unfold Obligations.StepKeepsTheStationInOrder
  intro s t hs h
  exact step_keeps (fun _ _ hs => { hs with }) (fun _ hs => tick_station hs) (fun _ _ _ hs h => exec_station hs h) h hs

end Sys2Proof.Machine
end

