-- ==== Sys2Proof/Proofs/PoolAccounts.lean ====
section
/-! SUPPORT. The commands in CONFIG, where every block is off; and the accounts of the pool under every kind of change. -/

namespace Sys2Proof.Machine

/-! ### CONFIG -/

/-- The stores, the contest and the transmitter, and what the station says. -/
def State.working (s : State) : Rxp × Txs × Ctu × Ftx × Stc := (s.rxp, s.txs, s.ctu, s.ftx, s.stc)

section Config

variable {s t : State}

theorem working_of_taken {code : Byte} {effect : State → State} (ht : taken code s effect = .next t)
    (he : (effect s).working = s.working) : t.working = s.working := by
  rcases taken_cases ht with rfl | ⟨-, rfl⟩
  · rfl
  · exact he

theorem working_of_not {p : Prop} [Decidable p] {u : State} (hp : ¬ p)
    (ht : Host.Outcome.next (if p then u else s) = (Host.Outcome.next t : Host.Outcome State Fault Refusal)) :
    t.working = s.working := by
  cases ht
  rw [if_neg hp]

/-- In CONFIG the line's blocks and the timebase stand still: the commands of the line, of the drives and of a span are
nothing, and the host's move the port alone, the resets, SETUP, START and the takings apart. -/
theorem exec_of_config {c : Instr} (h : StationHolds s) (hs : s.stc.station = .config) (hc : resetsOrTakes c = false)
    (ht : exec c s = .next t) : t.working = s.working := by
  have hair : ¬ onAir s := by simp [onAir, hs]
  have hsampling : s.lfe.sampling = false := by
    by_contra hon
    exact (h.samples.mp (by simpa using hon)).1 hs
  have hspan : s.stc.spanRunning = false := by
    by_contra hon
    exact (h.spans.mp (by simpa using hon)).1 hs
  have hctu : s.ctu.state = .off := by_contra fun hne => hair (h.contends hne)
  have hftx : s.ftx.state = .idle := by_contra fun hne => hair (h.transmits hne)
  cases c with
  | hardReset => cases hc
  | hostSelRise => cases hc
  | setup => cases hc
  | start => cases hc
  | outcome => cases hc
  | fetch => cases hc
  | fetchBroadcast => cases hc
  | notice => cases hc
  | state => exact working_of_taken (show execState s = _ from ht) rfl
  | peer addr => exact working_of_taken (show execPeer addr s = _ from ht) (by split <;> rfl)
  | counters => exact working_of_taken (show execCounters s = _ from ht) rfl
  | reset => exact working_of_taken (show execReset s = _ from ht) rfl
  | load tag dest lane len payload =>
    exact working_of_taken (show execLoad tag dest lane len payload s = _ from ht) (by
      simp only [running, hs, takeLoad]
      repeat' split
      all_goals simp_all [State.working])
  | withdraw tag => exact working_of_taken (show execWithdraw tag s = _ from ht) (by simp [running, hs, State.working])
  | unknownCommand code =>
    exact working_of_taken (show execUnknownCommand code s = _ from ht) (by split <;> rfl)
  | answerEarlyUnclassified => exact working_of_not (by simp [hsampling]) ht
  | driveFaultCheck => exact working_of_not (by simp [faultChecked, hctu]) ht
  | spanExpiry => exact working_of_not (by simp [hspan]) ht
  | hostSelFall =>
    cases ht
    repeat' split
    all_goals rfl
  | rstRelease => cases ht; rfl
  | _ => exact working_of_not (by simp [hsampling, hctu, hftx, TxState.inFrame]) ht

/-- A part whose pool, self-view and store stay empty if they were. -/
structure StaysEmpty (s t : State) : Prop where
  pool : s.rxp.queue = [] → t.rxp.queue = []
  view : s.rxp.selfView = Advert.zero → t.rxp.selfView = Advert.zero
  store : s.txs.store = [] ∧ s.txs.outcomes = [] → t.txs.store = [] ∧ t.txs.outcomes = []

theorem StaysEmpty.of_eq (hrxp : t.rxp = s.rxp) (htxs : t.txs = s.txs) : StaysEmpty s t := by
  constructor <;> simp [hrxp, htxs]

theorem staysEmpty_of_reset (hrxp : t.rxp = Rxp.reset) (htxs : t.txs = Txs.reset) : StaysEmpty s t := by
  constructor <;> simp [hrxp, htxs, Rxp.reset, Txs.reset]

theorem staysEmpty_of_taken {code : Byte} {effect : State → State} (ht : taken code s effect = .next t)
    (he : StaysEmpty s (effect s)) : StaysEmpty s t := by
  rcases taken_cases ht with rfl | ⟨-, rfl⟩
  · exact .of_eq rfl rfl
  · exact he

/-- In CONFIG, where no frame is heard and no message taken, empty stores stay empty, and START and the resets empty them
(R18, R86). -/
theorem exec_staysEmpty {c : Instr} (h : StationHolds s) (hs : s.stc.station = .config) (ht : exec c s = .next t) :
    StaysEmpty s t := by
  cases hc : resetsOrTakes c with
  | false =>
    have e := exec_of_config h hs hc ht
    simp only [State.working, Prod.mk.injEq] at e
    exact .of_eq e.1 e.2.1
  | true =>
    cases c with
    | hardReset => cases ht; exact staysEmpty_of_reset rfl rfl
    | hostSelRise =>
      cases ht
      split
      · exact staysEmpty_of_reset rfl rfl
      · exact .of_eq rfl rfl
    | setup =>
      refine staysEmpty_of_taken (show execSetup _ _ _ _ _ _ _ _ s = _ from ht) ?_
      dsimp only
      repeat' split
      all_goals exact .of_eq rfl rfl
    | start =>
      refine staysEmpty_of_taken (show execStart s = _ from ht) ?_
      rw [if_pos hs]
      split
      · constructor <;> simp [startStation, evalCauses_rxp, Rxp.reset, Txs.reset]
      · exact .of_eq rfl rfl
    | outcome =>
      refine staysEmpty_of_taken (show execOutcome s = _ from ht) ?_
      dsimp only
      split
      · exact .of_eq rfl rfl
      · rename_i hm
        exact ⟨id, id, fun e => by simp [hm] at e⟩
    | fetch =>
      refine staysEmpty_of_taken (show execFetch s = _ from ht) ?_
      split
      · exact .of_eq rfl rfl
      · rename_i r hr
        have hctu : s.ctu.state = .off := by_contra fun hne => by simpa [onAir, hs] using h.contends hne
        have hquiet : ∀ u, u.ctu = s.ctu → nameOnChange s u = u := by
          intro u hu
          rcases nameOnChange_cases s u with e | e <;> rw [e]
          exact nameMoment_of_closed (.inl (by simp [hu, hctu]))
        rw [hquiet _ (by simp)]
        refine ⟨fun e => by simp [fetchRecord, fetchLane, e] at hr, fun e => ?_, fun e => by simpa using e⟩
        simpa [freeRecord, evalCauses_rxp] using e
    | fetchBroadcast =>
      refine staysEmpty_of_taken (show execFetchBroadcast s = _ from ht) ?_
      dsimp only
      split <;> exact .of_eq rfl rfl
    | notice =>
      refine staysEmpty_of_taken (show execNotice s = _ from ht) ?_
      dsimp only
      split <;> exact .of_eq rfl rfl
    | _ => cases hc

/-- Only SETUP and the resets leave the part in CONFIG, and only a part in CONFIG or a reset one is there afterwards. -/
theorem station_config_of_evolves (h : StationHolds s) (h' : StationHolds t) (he : Evolves s t)
    (ht : t.stc.station = .config) : s.stc.station = .config := by
  by_contra hne
  have hlock := h.lock.mpr hne
  rw [← he.profile.2.2] at hlock
  exact h'.lock.mp hlock ht

end Config

/-! ### The accounts -/

/-- Each region of the pool within its size (R1). -/
def PoolWithin (s : State) : Prop :=
  (∀ l, usedReserve s l ≤ s.stc.profile.reserve.get l) ∧ usedShared s ≤ sharedSize s

theorem poolHolds_iff (s : State) :
    PoolHolds s ↔ s.stc.profile.reserve.a + s.stc.profile.reserve.b + s.stc.profile.reserve.c ≤ 12 ∧ PoolWithin s
      ∧ (s.stc.station = .config → s.rxp.queue = []) := by
  have lanes : (∀ l, usedReserve s l ≤ s.stc.profile.reserve.get l) ↔ usedReserve s .a ≤ s.stc.profile.reserve.a
      ∧ usedReserve s .b ≤ s.stc.profile.reserve.b ∧ usedReserve s .c ≤ s.stc.profile.reserve.c :=
    ⟨fun h => ⟨h .a, h .b, h .c⟩, fun ⟨ha, hb, hc⟩ l => by cases l <;> assumption⟩
  rw [PoolHolds, PoolWithin, lanes]
  tauto

section Accounts

variable {s t : State}

theorem PoolWithin.of_queue (h : PoolWithin s) (hq : t.rxp.queue = s.rxp.queue)
    (hp : t.stc.profile = s.stc.profile) : PoolWithin t := by
  simpa only [PoolWithin, usedReserve, usedShared, sharedSize, hq, hp] using h

theorem poolWithin_of_empty (hq : s.rxp.queue = []) : PoolWithin s := by simp [PoolWithin, usedReserve, usedShared, hq]

/-- A stored record is charged to the region its lane is charged to, and to no other. -/
theorem usedReserve_storeRecord (fr : Frame) (s : State) (l : Lane) :
    usedReserve (storeRecord fr s) l =
      usedReserve s l + if fr.lane = l ∧ 0 < freeReserve s fr.lane then 1 else 0 := by
  unfold usedReserve
  rw [storeRecord_queue, List.countP_append, List.countP_singleton]
  simp only [chargeFor]
  split <;> simp_all

theorem usedShared_storeRecord (fr : Frame) (s : State) :
    usedShared (storeRecord fr s) = usedShared s + if 0 < freeReserve s fr.lane then 0 else 1 := by
  unfold usedShared
  rw [storeRecord_queue, List.countP_append, List.countP_singleton]
  simp only [chargeFor]
  split <;> simp_all

/-- A record is stored only where its region has room (R4, R5). -/
theorem PoolWithin.storeRecord (h : PoolWithin s) {fr : Frame} (hspace : hasSpace s fr.lane = true) :
    PoolWithin (storeRecord fr s) := by
  obtain ⟨hlanes, hshared⟩ := h
  constructor
  · intro l
    have := hlanes l
    rw [usedReserve_storeRecord]
    simp only [storeRecord_frame]
    split
    · rename_i hl
      obtain ⟨rfl, hfree⟩ := hl
      unfold freeReserve at hfree
      omega
    · omega
  · rw [usedShared_storeRecord]
    have hsize : sharedSize (Machine.storeRecord fr s) = sharedSize s := by simp [sharedSize]
    rw [hsize]
    split
    · exact hshared
    · rw [hasSpace, Bool.or_eq_true, decide_eq_true_eq, decide_eq_true_eq] at hspace
      unfold freeShared at hspace
      omega

theorem PoolWithin.evolves (he : Evolves s t) : PoolWithin s → PoolWithin t := by
  induction he with
  | line h hc hw => exact fun hs => hs.of_queue (by rw [(held_stores h).1]) (held_profile h).1
  | trans _ _ ih1 ih2 => exact ih2 ∘ ih1
  | cause => exact fun hs => hs.of_queue (by rw [addCause_rxp]) (by simp)
  | accept fr s h => exact fun hs => hs.storeRecord h
  | complete adv s => exact fun hs => hs.of_queue (completeAdvert_queue adv s) (by simp)
  | load => exact fun hs => hs.of_queue rfl rfl
  | _ => exact fun hs => hs.of_queue (by simp) (by simp)

theorem freeRecord_queue (l : Lane) (s : State) :
    (freeRecord l s).rxp.queue = s.rxp.queue.eraseP (fun r => r.lane == l) := by
  simp [freeRecord, evalCauses_rxp]

theorem usedReserve_freeRecord_le (l k : Lane) (s : State) : usedReserve (freeRecord l s) k ≤ usedReserve s k := by
  unfold usedReserve
  rw [freeRecord_queue]
  exact List.eraseP_sublist.countP_le

theorem usedShared_freeRecord_le (l : Lane) (s : State) : usedShared (freeRecord l s) ≤ usedShared s := by
  unfold usedShared
  rw [freeRecord_queue]
  exact List.eraseP_sublist.countP_le

theorem PoolWithin.freeRecord (h : PoolWithin s) (l : Lane) : PoolWithin (freeRecord l s) := by
  obtain ⟨hlanes, hshared⟩ := h
  constructor
  · intro k
    simpa using (usedReserve_freeRecord_le l k s).trans (hlanes k)
  · have hsize : sharedSize (Machine.freeRecord l s) = sharedSize s := by simp [sharedSize]
    exact (usedShared_freeRecord_le l s).trans (by rwa [hsize])

theorem fetchRecord_of_empty (hq : s.rxp.queue = []) : fetchRecord s = none := by
  simp [fetchRecord, fetchLane, hq]

theorem Ran.poolWithin {c : Instr} (h : Ran c s t) (hempty : s.stc.station = .config → s.rxp.queue = []) :
    PoolWithin s → PoolWithin t := by
  cases h with
  | evolves he => exact PoolWithin.evolves he
  | hardReset => exact fun _ => poolWithin_of_empty rfl
  | stationReset => exact fun _ => poolWithin_of_empty rfl
  | setup hstation => exact fun _ => poolWithin_of_empty (hempty hstation)
  | start => exact fun _ => poolWithin_of_empty (by simp [startStation, evalCauses_rxp, Rxp.reset])
  | fetch hr ht => exact fun hs => (hs.freeRecord _).evolves (fetched_evolves ht)
  | _ => exact id

theorem Ran.reserves {c : Instr} (h : Ran c s t)
    (hsum : s.stc.profile.reserve.a + s.stc.profile.reserve.b + s.stc.profile.reserve.c ≤ 12) :
    t.stc.profile.reserve.a + t.stc.profile.reserve.b + t.stc.profile.reserve.c ≤ 12 := by
  cases h with
  | evolves he => rwa [he.profile.1]
  | hardReset => exact Nat.zero_le _
  | setup hstation hp =>
    obtain ⟨-, -, -, -, -, hle, -⟩ := profileOf_inRange hp
    exact hle
  | start => simpa [startStation] using hsum
  | fetch hr ht =>
    rw [(fetched_evolves ht).profile.1]
    simpa using hsum
  | _ => exact hsum

/-- Into CONFIG lead SETUP and the commands that leave a part there, and the resets, which empty it. -/
theorem Ran.config {c : Instr} (h : StationHolds s) (h' : StationHolds t) (ran : Ran c s t)
    (ht : t.stc.station = .config) : s.stc.station = .config ∨ (t.rxp = Rxp.reset ∧ t.txs = Txs.reset) := by
  cases ran with
  | evolves he => exact .inl (station_config_of_evolves h h' he ht)
  | hardReset => exact .inr ⟨rfl, rfl⟩
  | stationReset => exact .inr ⟨rfl, rfl⟩
  | setup hstation => exact .inl hstation
  | start => simp [startStation] at ht
  | @fetch _ _ r hr e =>
    have hfree : StationHolds (Machine.freeRecord r.lane s) := h.of_control (by simp [State.control])
    have hconfig := station_config_of_evolves hfree h' (fetched_evolves e) ht
    exact .inl (by simpa using hconfig)
  | _ => exact .inl ht

end Accounts

/-- A tick leaves the station state. -/
theorem tick_stationState (s : State) : (tick s).stc.station = s.stc.station := by
  unfold tick
  repeat' split
  all_goals simp [beginPosition, advanceCounts]

/-- Settles O53: the accounts hold under each kind of command, and in CONFIG, which only a reset leads to, no record comes
in. -/
theorem stepKeepsThePoolAccounts : Obligations.StepKeepsThePoolAccounts := by
  unfold Obligations.StepKeepsThePoolAccounts
  intro s t hstation hpool h
  have hstation' := stepKeepsTheStationInOrder s t hstation h
  rw [poolHolds_iff] at hpool ⊢
  obtain ⟨hsum, hwithin, hempty⟩ := hpool
  rcases step_cases h with ⟨-, rfl⟩ | ⟨c, rest, -, hexec⟩
  · rw [(tick_profile s).1]
    exact ⟨hsum, hwithin.of_queue (by simp) (tick_profile s).1, fun hc => by simpa using hempty (tick_stationState s ▸ hc)⟩
  · have ran := exec_ran hexec
    have hs0 : StationHolds { s with pending := rest } := hstation.of_control rfl
    refine ⟨ran.reserves hsum, ran.poolWithin hempty hwithin, fun hc => ?_⟩
    rcases ran.config hs0 hstation' hc with hconfig | ⟨hrxp, -⟩
    · exact (exec_staysEmpty hs0 hconfig hexec).pool (hempty hconfig)
    · rw [hrxp]; rfl

end Sys2Proof.Machine
end

