-- ==== Sys2Proof/Proofs/SelfViewBelowFree.lean ====
section
/-! SUPPORT. What the part has promised, its self-view and a captured advertisement, against the free counts: rules for what
moves neither, the five operations that move one, and the statement. -/

namespace Sys2Proof.Machine

/-! ### Rules -/

/-- The self-view and a captured advertisement promise no more than is free (R12). -/
def Promises (s : State) : Prop :=
  s.rxp.selfView.atMost (freeCounts s)
    ∧ ∀ v, s.ftx.captured = some v → v.atMost (freeCounts s) ∧ s.ftx.state.inFrame = true

theorem Advert.atMost_refl (v : Advert) : v.atMost v := ⟨le_refl _, le_refl _, le_refl _, le_refl _⟩

theorem Advert.atMost_trans {u v w : Advert} (h : u.atMost v) (h' : v.atMost w) : u.atMost w := by
  obtain ⟨h1, h2, h3, h4⟩ := h
  obtain ⟨g1, g2, g3, g4⟩ := h'
  exact ⟨h1.trans g1, h2.trans g2, h3.trans g3, h4.trans g4⟩

theorem Advert.zero_atMost (v : Advert) : Advert.zero.atMost v :=
  ⟨Nat.zero_le _, Nat.zero_le _, Nat.zero_le _, Nat.zero_le _⟩

theorem freeCounts_of_queue {s t : State} (hq : t.rxp.queue = s.rxp.queue) (hp : t.stc.profile = s.stc.profile) :
    freeCounts t = freeCounts s := by
  simp only [freeCounts, freeReserve, freeShared, sharedSize, usedReserve, usedShared, hq, hp]

theorem Advert.atMost_iff (v w : Advert) :
    v.atMost w ↔ (∀ l, v.reserve.get l ≤ w.reserve.get l) ∧ v.shared ≤ w.shared := by
  constructor
  · rintro ⟨ha, hb, hc, hs⟩
    exact ⟨fun l => by cases l <;> assumption, hs⟩
  · rintro ⟨hl, hs⟩
    exact ⟨hl .a, hl .b, hl .c, hs⟩

theorem freeCounts_get (s : State) (l : Lane) : (freeCounts s).reserve.get l = freeReserve s l := by cases l <;> rfl

/-- What the promises are about, the transmitter apart. -/
def State.promised (s : State) : List PoolRecord × Advert × Profile := (s.rxp.queue, s.rxp.selfView, s.stc.profile)

namespace Promises

variable {s t : State}

/-- The pool stays and the transmitter keeps what it captured. -/
theorem of_promised (h : Promises s) (e : t.promised = s.promised) (hc : t.ftx.captured = s.ftx.captured)
    (hf : t.ftx.state.inFrame = s.ftx.state.inFrame) : Promises t := by
  simp only [State.promised, Prod.mk.injEq] at e
  obtain ⟨hq, hv, hp⟩ := e
  rwa [Promises, freeCounts_of_queue hq hp, hv, hc, hf]

/-- The pool stays and the transmitter holds nothing captured. -/
theorem released (h : Promises s) (e : t.promised = s.promised) (hc : t.ftx.captured = none) : Promises t := by
  simp only [State.promised, Prod.mk.injEq] at e
  obtain ⟨hq, hv, hp⟩ := e
  refine ⟨?_, by simp [hc]⟩
  rw [freeCounts_of_queue hq hp, hv]
  exact h.1

end Promises

/-- A listed change that leaves the pool leaves what is promised: none moves the profile. -/
theorem promised_of_evolves {s t : State} (he : Evolves s t) (hr : t.rxp = s.rxp) : t.promised = s.promised := by
  simp only [State.promised, hr, he.profile.1]

theorem promised_addCause (k : Cause) (s : State) : (addCause k s).promised = s.promised := by
  simp [State.promised, addCause_rxp]

/-! ### The pool -/

/-- An accepted record takes from the free counts at most what the lending takes from the self-view (R5, R13). -/
theorem lend_atMost_storeRecord {s : State} {v : Advert} (fr : Frame) (h : v.atMost (freeCounts s)) :
    ((v.lend fr.lane).getD v).atMost (freeCounts (storeRecord fr s)) := by
  rw [Advert.atMost_iff] at h ⊢
  obtain ⟨hlanes, hshared⟩ := h
  simp only [freeCounts_get] at hlanes ⊢
  have hreserve : ∀ l, freeReserve (storeRecord fr s) l =
      freeReserve s l - if fr.lane = l ∧ 0 < freeReserve s fr.lane then 1 else 0 := by
    intro l
    unfold freeReserve
    rw [usedReserve_storeRecord]
    simp only [storeRecord_frame]
    exact Nat.sub_add_eq ..
  have hfree : (freeCounts (storeRecord fr s)).shared =
      (freeCounts s).shared - if 0 < freeReserve s fr.lane then 0 else 1 := by
    show sharedSize _ - usedShared _ = _
    rw [usedShared_storeRecord]
    simp only [sharedSize, storeRecord_frame]
    exact Nat.sub_add_eq ..
  have hlane := hlanes fr.lane
  unfold Advert.lend
  split
  · rename_i hpos
    refine ⟨fun l => ?_, ?_⟩
    · have := hlanes l
      simp only [Option.getD_some, PerLane.get_set, hreserve]
      by_cases hl : l = fr.lane
      · subst hl
        have hfree : 0 < freeReserve s fr.lane := by omega
        simp only [if_true, true_and, if_pos hfree]
        omega
      · simp [hl, Ne.symm hl, this]
    · simp only [Option.getD_some, hfree]
      rw [if_pos (by omega)]
      exact hshared
  · rename_i hzero
    have rest : ∀ l, v.reserve.get l ≤ freeReserve s l - if fr.lane = l ∧ 0 < freeReserve s fr.lane then 1 else 0 := by
      intro l
      have := hlanes l
      by_cases hl : fr.lane = l
      · subst hl
        simp
        omega
      · simpa [hl] using this
    split
    · refine ⟨fun l => by simpa [hreserve] using rest l, ?_⟩
      simp only [Option.getD_some, hfree]
      split <;> omega
    · refine ⟨fun l => by simpa [hreserve] using rest l, ?_⟩
      simp only [Option.getD_none]
      omega

theorem freeCounts_atMost_freeRecord (l : Lane) (s : State) : (freeCounts s).atMost (freeCounts (freeRecord l s)) := by
  rw [Advert.atMost_iff]
  refine ⟨fun k => ?_, ?_⟩
  · rw [freeCounts_get, freeCounts_get]
    unfold freeReserve
    have := usedReserve_freeRecord_le l k s
    simp only [freeRecord_frame]
    omega
  · have := usedShared_freeRecord_le l s
    simp only [freeCounts, freeShared, sharedSize, freeRecord_frame]
    omega

namespace Promises

variable {s t : State}

theorem freeRecord (h : Promises s) (l : Lane) : Promises (freeRecord l s) := by
  have hmore := freeCounts_atMost_freeRecord l s
  have hview : (Machine.freeRecord l s).rxp.selfView = s.rxp.selfView := by simp [Machine.freeRecord, evalCauses_rxp]
  refine ⟨hview ▸ Advert.atMost_trans h.1 hmore, fun v hv => ?_⟩
  obtain ⟨hv, hf⟩ := h.2 v (by simpa using hv)
  exact ⟨Advert.atMost_trans hv hmore, by simpa using hf⟩

/-! ### The station and the contest -/

theorem addCause (h : Promises s) (k : Cause) : Promises (addCause k s) :=
  h.of_promised (promised_addCause k s) (by simp) (by simp)

theorem halt (h : Promises s) (why : HaltReason) : Promises (halt why s) :=
  h.released (promised_of_evolves (halt_evolves why s) (by simp)) (by simp [Machine.halt, ftxIdle, Ftx.reset])

theorem haltIfFaulty (h : Promises s) : Promises (haltIfFaulty s) := by
  rcases haltIfFaulty_cases s with ⟨-, e⟩ | ⟨-, e⟩ <;> rw [e]
  · exact h.halt _
  · exact h

theorem nameMoment (h : Promises s) : Promises (nameMoment s) := h.of_promised (by simp [State.promised]) (by simp) (by simp)

theorem nameOnChange (h : Promises t) (before : State) : Promises (nameOnChange before t) := by
  rcases nameOnChange_cases before t with e | e <;> rw [e]
  · exact h.nameMoment
  · exact h

theorem enterJoining (h : Promises s) : Promises (enterJoining s) :=
  h.of_promised (promised_of_evolves (enterJoining_evolves s) (by simp)) (by simp) (by simp)

theorem enterLineFault (h : Promises s) : Promises (enterLineFault s) :=
  h.released (promised_of_evolves (enterLineFault_evolves s) (by simp)) (by simp [Machine.enterLineFault, ftxIdle, Ftx.reset])

theorem driveFault (h : Promises s) : Promises (driveFault s) := by
  refine nameMoment (haltIfFaulty (h.of_promised ?_ ?_ ?_)) <;> simp [State.promised, recordFault]

theorem claimLost (h : Promises s) : Promises (claimLost s) := h.of_promised (by simp [State.promised]) (by simp) (by simp)

theorem claimWon (h : Promises s) : Promises (claimWon s) :=
  h.released (by simp [State.promised]) (by simp [Machine.claimWon, ftxIdle, Ftx.reset])

theorem recoverTo (h : Promises s) (st : StationState) : Promises (recoverTo st s) := by
  refine h.of_promised ?_ (by simp) (by simp)
  unfold Machine.recoverTo
  dsimp only
  repeat' split
  all_goals simp [State.promised, addCause_rxp]

theorem heartbeatExpiry (h : Promises s) : Promises (heartbeatExpiry s) := by
  have h1 : Promises (s.setStc { s.stc with heartbeat := min 255 (s.stc.heartbeat + 1) }) := h.of_promised rfl rfl rfl
  unfold Machine.heartbeatExpiry
  dsimp only
  split
  · exact h1.addCause _
  · exact h1

/-! ### The Frame Transmitter -/

theorem idle (h : Promises s) : Promises (s.setFtx (ftxIdle s.ftx)) := h.released rfl rfl

theorem abortFrame (h : Promises s) : Promises (abortFrame s) := by
  refine haltIfFaulty (h.idle.of_promised ?_ ?_ ?_) <;> simp [State.promised, recordFault]

theorem answerMismatch (h : Promises s) : Promises (answerMismatch s) := by
  refine haltIfFaulty (h.idle.of_promised ?_ ?_ ?_) <;> simp [State.promised, recordFault]

theorem ftxRise (h : Promises s) (gap : Nat) : Promises (ftxRise gap s) := by
  unfold Machine.ftxRise
  repeat' split
  · exact h.of_promised rfl rfl rfl
  · exact h.abortFrame
  · exact h.of_promised rfl rfl rfl
  · exact h.answerMismatch
  · exact h

theorem txStateAt_inFrame (n i : Nat) : (txStateAt n i).inFrame = true := by
  unfold txStateAt
  repeat' split
  all_goals rfl

theorem txAdvance (h : Promises s) (hf : s.ftx.state.inFrame = true) : Promises (txAdvance s) :=
  h.of_promised rfl rfl ((txStateAt_inFrame _ _).trans hf.symm)

theorem completeFrame_rxp (s : State) :
    (completeFrame s).rxp = (completeAdvert (s.ftx.captured.getD s.rxp.selfView) s).rxp := by
  unfold Machine.completeFrame
  dsimp only
  repeat' split
  all_goals simp

theorem completeFrame_captured (s : State) : (completeFrame s).ftx.captured = none := by
  unfold Machine.completeFrame
  dsimp only
  repeat' split
  all_goals simp [ftxIdle, Ftx.reset]

/-- At completion the captured advertisement becomes the self-view (R10). -/
theorem completeFrame (h : Promises s) : Promises (completeFrame s) := by
  refine ⟨?_, by simp [completeFrame_captured]⟩
  rw [freeCounts_of_queue (s := s) (by rw [completeFrame_rxp, completeAdvert_queue]) (completeFrame_evolves s).profile.1,
    completeFrame_rxp]
  have hview : ∀ adv, (completeAdvert adv s).rxp.selfView = adv := fun adv => by simp [completeAdvert, evalCauses_rxp]
  rw [hview]
  cases hc : s.ftx.captured with
  | none => exact h.1
  | some v => exact (h.2 v hc).1

theorem ftxFall (h : Promises s) (cls : PulseClass) : Promises (ftxFall cls s) := by
  unfold Machine.ftxFall
  repeat' split
  · exact h.of_promised rfl rfl rfl
  · exact h.completeFrame
  · exact h.txAdvance ‹_›
  · exact h.abortFrame
  · exact h.idle
  · exact h.answerMismatch
  · exact h

theorem ftxEarly (h : Promises s) : Promises (ftxEarly s) := by
  rcases ftxEarly_cases s with ⟨-, -, e⟩ | ⟨-, e⟩ <;> rw [e]
  · exact h.answerMismatch
  · exact h

/-- The capture takes the free counts themselves (R9). -/
theorem beginSymbol (h : Promises s) (hf : s.ftx.state.inFrame = true) : Promises (beginSymbol s) := by
  unfold Machine.beginSymbol
  dsimp only
  split
  · refine ⟨h.1, fun v hv => ?_⟩
    cases hv
    exact ⟨Advert.atMost_refl _, hf⟩
  · exact h.of_promised rfl rfl rfl

/-! ### The Frame Receiver -/

theorem answerEvent (h : Promises s) (claim dest : Nat) (l : Lane) (cls : AnswerClass) :
    Promises (answerEvent claim dest l cls s) := by
  have e := promised_of_evolves (answerEvent_evolves claim dest l cls s) (by simp)
  unfold Machine.answerEvent at e ⊢
  dsimp only at e ⊢
  split
  · rename_i hown
    rw [if_pos hown] at e
    exact h.released e (by simp [ftxIdle, Ftx.reset])
  · rename_i hown
    rw [if_neg hown] at e
    refine h.of_promised e ?_ ?_ <;> split <;> simp

/-- An accepted record lowers the self-view by the rule that every observer uses; an answer takes the transmitter (R13). -/
theorem decideAnswer (h : Promises s) (fr : Frame) : Promises (decideAnswer fr s) := by
  unfold Machine.decideAnswer
  repeat' split
  · have hview : (storeRecord fr s).rxp.selfView = (s.rxp.selfView.lend fr.lane).getD s.rxp.selfView := by
      simp [storeRecord, evalCauses_rxp]
    refine ⟨?_, fun v hv => by cases hv⟩
    show (storeRecord fr s).rxp.selfView.atMost (freeCounts (storeRecord fr s))
    rw [hview]
    exact lend_atMost_storeRecord fr h.1
  · exact (h.addCause .d).released rfl rfl
  · exact h.released rfl rfl

theorem frameEffects (h : Promises s) (fr : Frame) : Promises (frameEffects fr s) := by
  unfold Machine.frameEffects
  repeat' split
  · exact h.decideAnswer fr
  · exact h
  · exact h.addCause _
  · exact h
  · exact h.of_promised (by simp [State.promised]) (by simp) (by simp)
  · exact h
  · exact h

theorem markHeard (h : Promises s) : Promises (markHeard s) :=
  h.of_promised (promised_of_evolves (markHeard_evolves s) (by simp)) (by simp) (by simp)

theorem validFrame (h : Promises s) (own : Bool) (fr : Frame) : Promises (validFrame own fr s) := by
  have h1 := h.markHeard
  unfold Machine.validFrame
  dsimp only
  repeat' split
  · exact h1
  · exact halt (h1.of_promised (by simp [State.promised]) (by simp) (by simp)) _
  · exact frameEffects (h1.of_promised (by simp [State.promised]) (by simp) (by simp)) fr

theorem applyRx (h : Promises s) (own : Bool) (e : RxEvent) : Promises (applyRx own e s) := by
  cases e with
  | quiet => exact h
  | stray => exact h.of_promised rfl rfl rfl
  | failed k => exact h.of_promised rfl rfl rfl
  | valid fr => exact h.validFrame own fr
  | answered claim dest l cls => exact h.answerEvent ..

theorem toFrx (h : Promises s) (own : Bool) (step : Frx → Frx × RxEvent) : Promises (toFrx own step s) := by
  unfold Machine.toFrx
  split
  · exact applyRx (h.of_promised (t := s.setFrx (step s.frx).1) rfl rfl rfl) own (step s.frx).2
  · exact h

end Promises

/-! ### The commands -/

section Commands

variable {s t : State}

theorem promises_of_ite {p : Prop} [Decidable p] {u : State} (h : Promises s)
    (ht : Host.Outcome.next (if p then u else s) = (Host.Outcome.next t : Host.Outcome State Fault Refusal))
    (hu : p → Promises u) : Promises t := by
  cases ht
  split
  · exact hu ‹_›
  · exact h

theorem promises_of_taken {code : Byte} {effect : State → State} (h : Promises s)
    (ht : taken code s effect = .next t) (he : Promises (effect s)) : Promises t := by
  rcases taken_cases ht with rfl | ⟨-, rfl⟩
  · exact h
  · exact he

theorem execRoundGap_promises (h : Promises s) (ht : execRoundGap s = .next t) : Promises t := by
  refine promises_of_ite h ht fun _ => ?_
  dsimp only
  have h1 : Promises (s.setLfe { s.lfe with roundReported := true, count := max roundGapLength s.lfe.count }) :=
    h.of_promised rfl rfl rfl
  have hspent : Promises ((s.setLfe { s.lfe with roundReported := true, count := max roundGapLength s.lfe.count }).setCtu
      { s.ctu with roundSpent := false }) := h1.of_promised rfl rfl rfl
  repeat' split
  · exact hspent.enterJoining
  · exact h1.recoverTo _
  · exact h1
  · exact hspent.nameMoment
  · exact h1

theorem execLossTest_promises (h : Promises s) (ht : execLossTest s = .next t) : Promises t := by
  refine promises_of_ite h ht fun _ => ?_
  repeat' split
  · exact h.claimLost
  · exact h.of_promised rfl rfl rfl
  · exact h.claimWon
  · exact h.of_promised rfl rfl rfl

theorem execLineRisingEdge_promises {gap : Nat} (h : Promises s) (ht : execLineRisingEdge gap s = .next t) :
    Promises t := by
  refine promises_of_ite h ht fun _ => Promises.toFrx ?_ _ _
  have h1 : Promises (s.setLfe (lfeRise gap s.lfe)) := h.of_promised rfl rfl rfl
  exact (h1.ftxRise (min precedingGapLimit gap)).of_promised (by simp [State.promised]) (by simp) (by simp)

theorem execPulseEvent_promises {width : Nat} (h : Promises s) (ht : execPulseEvent width s = .next t) :
    Promises t := by
  refine promises_of_ite h ht fun _ => Promises.nameOnChange (Promises.toFrx ?_ _ _) s
  have h1 : Promises (s.setLfe (lfeFall s.lfe)) := h.of_promised rfl rfl rfl
  exact (h1.ftxFall (classOf width)).of_promised (by simp [State.promised]) (by simp) (by simp)

theorem execLineIdle_promises (h : Promises s) (ht : execLineIdle s = .next t) : Promises t := by
  refine promises_of_ite h ht fun _ => ?_
  dsimp only
  have h1 : Promises (ctuIdle (frxIdle (s.setLfe { s.lfe with idleReported := true, count := max idleGap s.lfe.count }))) :=
    h.of_promised (by simp [State.promised]) (by simp) (by simp)
  split
  · exact h1.enterJoining
  · exact h1

theorem execLineStuck_promises (h : Promises s) (ht : execLineStuck s = .next t) : Promises t := by
  refine promises_of_ite h ht fun _ => ?_
  dsimp only
  have h1 : Promises (s.setLfe { s.lfe with stuckReported := true, count := max stuckWidth s.lfe.count }) :=
    h.of_promised rfl rfl rfl
  split
  · exact h1.enterLineFault
  · exact h1

theorem execFrameGapBreak_promises (h : Promises s) (ht : execFrameGapBreak s = .next t) : Promises t := by
  refine promises_of_ite h ht fun _ => Promises.toFrx ?_ _ _
  exact h.of_promised (t := s.setLfe _) rfl rfl rfl

theorem execSpanExpiry_promises (h : Promises s) (ht : execSpanExpiry s = .next t) : Promises t := by
  refine promises_of_ite h ht fun _ => Promises.nameOnChange (Promises.heartbeatExpiry ?_) s
  exact h.of_promised (by simp [State.promised]) (by simp) (by simp)

theorem takeLoad_promises (h : Promises s) (tag : Half) (dest lane len : Byte) (payload : List Byte) :
    Promises (takeLoad tag dest lane len payload s) := by
  unfold takeLoad
  dsimp only
  repeat' split
  · exact h.of_promised rfl rfl rfl
  · exact h.of_promised rfl rfl rfl
  · exact h.of_promised rfl rfl rfl
  · exact Promises.nameMoment (Promises.of_promised (s := s) h rfl rfl rfl)
  · exact h.of_promised rfl rfl rfl

theorem execLoad_promises {tag : Half} {dest lane len : Byte} {payload : List Byte} (h : Promises s)
    (ht : execLoad tag dest lane len payload s = .next t) : Promises t := by
  refine promises_of_taken h ht ?_
  repeat' split
  · exact takeLoad_promises h ..
  · exact h.of_promised rfl rfl rfl
  · exact h.of_promised rfl rfl rfl

theorem execSymbolTimed_promises {c : Instr} (h : Promises s) (hc : c = .symbolDriveStart ∨ c = .symbolRelease
    ∨ c = .readbackTest ∨ c = .answerDriveStart ∨ c = .answerDriveCheck ∨ c = .answerRelease)
    (ht : exec c s = .next t) : Promises t := by
  rcases hc with rfl | rfl | rfl | rfl | rfl | rfl
  · exact promises_of_ite h ht fun ⟨hf, _⟩ => h.beginSymbol hf
  · exact promises_of_ite h ht fun _ => h.of_promised rfl rfl rfl
  · exact promises_of_ite h ht fun _ => h.abortFrame
  · exact promises_of_ite h ht fun _ => h.of_promised rfl rfl rfl
  · exact promises_of_ite h ht fun _ => h.answerMismatch
  · refine promises_of_ite h ht fun ⟨hs, _⟩ => h.of_promised rfl rfl ?_
    simp [hs, TxState.inFrame]

/-- Right after a reset or START nothing is promised. -/
theorem promises_of_zero (hv : s.rxp.selfView = Advert.zero) (hc : s.ftx.captured = none) : Promises s :=
  ⟨hv ▸ Advert.zero_atMost _, by simp [hc]⟩

/-- Every command keeps the promises; SETUP alone changes the sizes, in CONFIG, where nothing is promised. -/
theorem exec_promises {c : Instr} (hs : StationHolds s) (hzero : s.stc.station = .config → s.rxp.selfView = Advert.zero)
    (h : Promises s) (ht : exec c s = .next t) : Promises t := by
  have port : ∀ u : State, (u.rxp, u.stc, u.ftx) = (s.rxp, s.stc, s.ftx) → Promises u := by
    intro u hu
    simp only [Prod.mk.injEq] at hu
    obtain ⟨hrxp, hstc, hftx⟩ := hu
    exact h.of_promised (by simp [State.promised, hrxp, hstc]) (by rw [hftx]) (by rw [hftx])
  cases c with
  | hardReset => cases ht; exact promises_of_zero rfl rfl
  | hostSelRise =>
    cases ht
    split
    · exact promises_of_zero rfl rfl
    · exact port _ rfl
  | setup =>
    refine promises_of_taken h (show execSetup _ _ _ _ _ _ _ _ s = _ from ht) ?_
    dsimp only
    split
    · rename_i hconfig
      have hnone : s.ftx.captured = none := by
        by_contra hsome
        obtain ⟨v, hv⟩ := Option.ne_none_iff_exists'.mp hsome
        have hair := hs.onAir_of_inFrame (h.2 v hv).2
        simp [onAir, hconfig] at hair
      split
      · exact promises_of_zero (hzero hconfig) hnone
      · exact port _ rfl
    · exact port _ rfl
  | start =>
    refine promises_of_taken h (show execStart s = _ from ht) ?_
    repeat' split
    · exact promises_of_zero (by simp [startStation, evalCauses_rxp, Rxp.reset]) (by simp [startStation, Ftx.reset])
    · exact port _ rfl
    · exact port _ rfl
  | fetch =>
    refine promises_of_taken h (show execFetch s = _ from ht) ?_
    split
    · exact port _ rfl
    · rename_i r _
      exact Promises.nameOnChange ((h.freeRecord r.lane).of_promised (by simp [State.promised]) (by simp) (by simp)) s
  | lineRisingEdge gap => exact execLineRisingEdge_promises h ht
  | pulseEvent width => exact execPulseEvent_promises h ht
  | frameGapBreak => exact execFrameGapBreak_promises h ht
  | lineIdle => exact execLineIdle_promises h ht
  | roundGap => exact execRoundGap_promises h ht
  | lineStuck => exact execLineStuck_promises h ht
  | answerWindowClose => exact promises_of_ite h ht fun _ => h.toFrx _ _
  | answerEarlyUnclassified =>
    refine promises_of_ite h ht fun _ => Promises.toFrx ?_ _ _
    split
    · exact h.ftxEarly
    · exact h
  | lossTest => exact execLossTest_promises h ht
  | driveFaultCheck => exact promises_of_ite h ht fun _ => h.driveFault
  | symbolDriveStart => exact execSymbolTimed_promises h (by simp) ht
  | symbolRelease => exact execSymbolTimed_promises h (by simp) ht
  | readbackTest => exact execSymbolTimed_promises h (by simp) ht
  | answerDriveStart => exact execSymbolTimed_promises h (by simp) ht
  | answerDriveCheck => exact execSymbolTimed_promises h (by simp) ht
  | answerRelease => exact execSymbolTimed_promises h (by simp) ht
  | spanExpiry => exact execSpanExpiry_promises h ht
  | load tag dest lane len payload => exact execLoad_promises h ht
  | withdraw tag =>
    refine promises_of_taken h (show execWithdraw tag s = _ from ht) (port _ ?_)
    dsimp only
    repeat' split
    all_goals simp
  | outcome =>
    refine promises_of_taken h (show execOutcome s = _ from ht) (port _ ?_)
    dsimp only
    split <;> simp
  | fetchBroadcast =>
    refine promises_of_taken h (show execFetchBroadcast s = _ from ht) (port _ ?_)
    dsimp only
    split <;> simp
  | notice =>
    refine promises_of_taken h (show execNotice s = _ from ht) (port _ ?_)
    dsimp only
    split <;> simp
  | peer addr => exact promises_of_taken h (show execPeer addr s = _ from ht) (port _ (by split <;> rfl))
  | unknownCommand code =>
    exact promises_of_taken h (show execUnknownCommand code s = _ from ht) (port _ (by split <;> rfl))
  | hostSelFall =>
    cases ht
    refine port _ ?_
    repeat' split
    all_goals rfl
  | rstRelease => cases ht; exact port _ rfl
  | _ => exact promises_of_ite h ht fun _ => port _ rfl

end Commands

theorem tick_captured (s : State) :
    (tick s).ftx.captured = s.ftx.captured ∧ (tick s).ftx.state.inFrame = s.ftx.state.inFrame := by
  unfold tick
  repeat' split
  · exact ⟨rfl, rfl⟩
  · simp [beginPosition, advanceCounts]
  · simp

/-- Settles O54: each operation keeps the promises, and in CONFIG, which only a reset leads to, nothing is promised. -/
theorem stepKeepsSelfViewBelowFree : Obligations.StepKeepsSelfViewBelowFree := by
  unfold Obligations.StepKeepsSelfViewBelowFree
  intro s t hstation ⟨hview, hcaptured, hzero⟩ h
  have hstation' := stepKeepsTheStationInOrder s t hstation h
  have hs : Promises s := ⟨hview, hcaptured⟩
  rcases step_cases h with ⟨-, rfl⟩ | ⟨c, rest, -, hexec⟩
  · have ht : Promises (tick s) := hs.of_promised (by simp [State.promised, (tick_profile s).1])
      (tick_captured s).1 (tick_captured s).2
    exact ⟨ht.1, ht.2, fun hc => by simpa using hzero (tick_stationState s ▸ hc)⟩
  · have hs0 : StationHolds { s with pending := rest } := hstation.of_control rfl
    have ht := exec_promises hs0 hzero (hs.of_promised rfl rfl rfl) hexec
    refine ⟨ht.1, ht.2, fun hc => ?_⟩
    rcases (exec_ran hexec).config hs0 hstation' hc with hconfig | ⟨hrxp, -⟩
    · exact (exec_staysEmpty hs0 hconfig hexec).view (hzero hconfig)
    · rw [hrxp]; rfl

end Sys2Proof.Machine
end

