-- ==== Sys2Proof/Proofs/MessagesInOrder.lean ====
section
/-! SUPPORT. The IN_FLIGHT message, at most one and only while the contest holds it locked: how many are IN_FLIGHT after each
operation, the operations by that count, and the statement about messages. -/

namespace Sys2Proof.Machine

/-! ### How many messages are IN_FLIGHT -/

/-- The number of IN_FLIGHT messages. -/
def flying (s : State) : Nat := s.txs.store.countP isInFlight

section Flying

variable {s t : State}

theorem flying_of_txs (h : t.txs = s.txs) : flying t = flying s := by rw [flying, h, flying]

theorem flying_failAll_le (p : Message → Bool) (o : MsgOutcome) (s : State) : flying (failAll p o s) ≤ flying s := by
  unfold flying failAll
  exact List.filter_sublist.countP_le

theorem flying_takeSilence_le (p : Nat) (s : State) : flying (takeSilence p s) ≤ flying s := by
  unfold takeSilence
  dsimp only
  have h := flying_failAll_le (queuedTo p) .failedPeerSilent (updatePeer p (fun r =>
    ({ r with presence := .silent, view := Advert.zero, stale := true, pollAge := .none } : Peer).failedMessages
      (s.txs.store.filter (queuedTo p))) s)
  split
  · exact (flying_of_txs (by simp)).trans_le h
  · exact h

theorem flying_settleSilence_le (p : Nat) (s : State) : flying (settleSilence p s) ≤ flying s := by
  rcases settleSilence_cases p s with ⟨-, e⟩ | ⟨-, e⟩ <;> rw [e]
  exact flying_takeSilence_le p s

theorem flying_settleAll_le : ∀ (l : List Nat) (s : State),
    flying (l.foldl (fun u p => settleSilence p u) s) ≤ flying s
  | [], _ => le_refl _
  | p :: l, s => (flying_settleAll_le l _).trans (flying_settleSilence_le p s)

theorem flying_expirePeers_le (s : State) : flying (expirePeers s) ≤ flying s :=
  flying_settleAll_le _ (updatePeers Peer.expire s)

theorem flying_of_split {before after : List Message} {m : Message} (hs : s.txs.store = before ++ m :: after) :
    flying s = before.countP isInFlight + after.countP isInFlight + if isInFlight m then 1 else 0 := by
  rw [flying, hs, List.countP_append, List.countP_cons]
  omega

/-- A message that leaves the store, or is back in QUEUED, is IN_FLIGHT no more. -/
theorem flying_moveToDone {m : Message} (hm : s.txs.store.find? isInFlight = some m) (f : Message → Message) :
    flying (moveToDone isInFlight f s) = flying s - 1 := by
  obtain ⟨before, after, hs, hb, hp⟩ := exists_split hm
  rw [moveToDone_split hs hb hp, flying_of_split hs, if_pos hp]
  simp [flying]

theorem flying_returnMessage {m : Message} (hm : s.txs.store.find? isInFlight = some m) (tries : Nat) :
    flying (returnMessage m tries s) = flying s - 1 := by
  unfold returnMessage
  split
  · exact flying_moveToDone hm _
  · obtain ⟨before, after, hs, hb, hp⟩ := exists_split hm
    rw [flying_of_split hs, if_pos hp, flying, State.setTxs_txs, hs, updateFirst_split hp hb]
    simp [isInFlight]

theorem flying_flipFor (m : Message) (pending : Bool) (s : State) : flying (flipFor m pending s) = flying s :=
  flying_of_txs (by simp)

theorem flying_resolveMessage {m : Message} (hm : s.txs.store.find? isInFlight = some m) (r : Resolution) :
    flying (resolveMessage r m s) = flying s - 1 := by
  have hraised : ∀ k, (raise k s).txs.store.find? isInFlight = some m := fun _ => hm
  cases r with
  | sent dup => rw [resolveMessage, flying_flipFor, flying_moveToDone hm]
  | refused => exact flying_returnMessage (hraised _) _
  | released => exact flying_returnMessage hm _
  | tried =>
    simp only [resolveMessage]
    split
    · rw [flying_flipFor]
      exact flying_moveToDone (hraised _) _
    · exact flying_returnMessage (hraised _) _

/-- A resolution ends the flight of one message (R79). -/
theorem flying_resolve_le (r : Resolution) (s : State) : flying (resolve r s) ≤ flying s - 1 := by
  unfold resolve
  cases hm : inFlight s with
  | none =>
    have hnone : ∀ m ∈ s.txs.store, ¬ isInFlight m = true := List.find?_eq_none.mp hm
    have hzero : flying s = 0 := List.countP_eq_zero.mpr hnone
    simp [hzero]
  | some m =>
    have h := flying_resolveMessage hm r
    exact (flying_settleSilence_le m.dest _).trans h.le

/-- The lock makes one QUEUED message IN_FLIGHT, and for a control frame none (R78). -/
theorem flying_lockMessage_le (c : Candidate) (s : State) :
    flying (lockMessage c s) ≤ flying s + if c.kind.isMessage then 1 else 0 := by
  unfold lockMessage
  split
  · cases hm : s.txs.store.find? (pickable s c.lane) with
    | none =>
      have hnone : ∀ l : List Message, l.find? (pickable s c.lane) = none →
          updateFirst (pickable s c.lane) (fun m => { m with state := .inFlight }) l = l := by
        intro l
        induction l with
        | nil => exact fun _ => rfl
        | cons x xs ih => intro hl; simp_all [updateFirst]
      simp [flying, hnone _ hm]
    | some m =>
      obtain ⟨before, after, hs, hb, hp⟩ := exists_split hm
      rw [flying, State.setTxs_txs, hs, updateFirst_split hp hb, flying_of_split hs]
      simp [isInFlight, List.countP_append]
      omega
  · simp

/-- A halt leaves no message live (R85). -/
theorem flying_halt (why : HaltReason) (s : State) : flying (halt why s) = 0 := by
  simp [flying, halt, haltFailures, failAll]

end Flying

/-! ### Rules -/

namespace FlightHolds

variable {s t : State}

theorem grounded (hz : flying t = 0) : FlightHolds t :=
  ⟨hz.trans_le (Nat.zero_le _), fun hpos => absurd (show 0 < flying t from hpos) (by omega)⟩

/-- No more messages fly, and the contest goes on with the candidate it has locked. -/
theorem goesOn (h : FlightHolds s) (hle : flying t ≤ flying s) (hl : t.ctu.locked = s.ctu.locked)
    (hst : (s.ctu.state = .lead ∨ s.ctu.state = .claim ∨ s.ctu.state = .won) →
      t.ctu.state = .lead ∨ t.ctu.state = .claim ∨ t.ctu.state = .won) : FlightHolds t := by
  obtain ⟨hone, hlocked⟩ := h
  refine ⟨hle.trans hone, fun hpos => ?_⟩
  obtain ⟨hstate, c, hc, hmessage⟩ := hlocked (lt_of_lt_of_le hpos hle)
  exact ⟨hst hstate, c, hl.trans hc, hmessage⟩

theorem of_le (h : FlightHolds s) (hle : flying t ≤ flying s) (hctu : t.ctu = s.ctu) : FlightHolds t :=
  h.goesOn hle (by rw [hctu]) (by rw [hctu]; exact id)

theorem of_txs (h : FlightHolds s) (htxs : t.txs = s.txs) (hctu : t.ctu = s.ctu) : FlightHolds t :=
  h.of_le (flying_of_txs htxs).le hctu

/-- Outside the contest nothing is IN_FLIGHT. -/
theorem zero (h : FlightHolds s) (hs : s.ctu.state = .off ∨ s.ctu.state = .waiting ∨ s.ctu.state = .lost) :
    flying s = 0 := by
  by_contra hne
  obtain ⟨hstate, -⟩ := h.2 (Nat.pos_of_ne_zero hne)
  rcases hs with e | e | e <;> simp [e] at hstate

/-- A resolution leaves nothing IN_FLIGHT, whatever the contest has come to. -/
theorem resolved (h : FlightHolds s) (htxs : t.txs = s.txs) (r : Resolution) : flying (resolve r t) = 0 := by
  have hone : flying t ≤ 1 := (flying_of_txs htxs).trans_le h.1
  have := flying_resolve_le r t
  omega

/-! ### The contest -/

/-- A LEAD that begins from WAITING locks at most one message (R78, R102, R103). -/
theorem locks (hz : flying s = 0) {c : Candidate} (htxs : t.txs = (lockMessage c s).txs) (hst : t.ctu.state = .lead)
    (hl : t.ctu.locked = some c) : FlightHolds t := by
  have hle := (flying_of_txs htxs).trans_le (flying_lockMessage_le c s)
  rw [hz] at hle
  refine ⟨hle.trans (by split <;> simp), fun hpos => ⟨.inl hst, c, hl, ?_⟩⟩
  by_contra hcontrol
  rw [if_neg hcontrol] at hle
  exact absurd (show 0 < flying t from hpos) (by omega)

theorem nameMoment (h : FlightHolds s) : FlightHolds (nameMoment s) := by
  rcases nameMoment_cases s with e | ⟨c, -, hstate, -, -, e⟩ <;> rw [e]
  · exact h
  · exact locks (c := c) (h.zero (.inr (.inl hstate))) rfl rfl rfl

theorem nameOnChange (h : FlightHolds t) (before : State) : FlightHolds (nameOnChange before t) := by
  rcases nameOnChange_cases before t with e | e <;> rw [e]
  · exact h.nameMoment
  · exact h

theorem enterJoining (hz : flying s = 0) : FlightHolds (enterJoining s) := nameMoment (grounded hz)

theorem haltIfFaulty (h : FlightHolds s) : FlightHolds (haltIfFaulty s) := by
  rcases haltIfFaulty_cases s with ⟨-, e⟩ | ⟨-, e⟩ <;> rw [e]
  · exact grounded (flying_halt _ _)
  · exact h

theorem driveFault (h : FlightHolds s) : FlightHolds (driveFault s) := by
  refine nameMoment (haltIfFaulty (grounded (h.resolved ?_ _)))
  rfl

theorem claimLost (h : FlightHolds s) : FlightHolds (claimLost s) := by
  refine grounded (show flying (resolve .released _) = 0 from h.resolved ?_ _)
  rfl

theorem enterLineFault (h : FlightHolds s) : FlightHolds (enterLineFault s) := by
  refine grounded (show flying (resolve .tried _) = 0 from h.resolved ?_ _)
  simp

theorem recoverTo (hz : flying s = 0) (st : StationState) : FlightHolds (recoverTo st s) := by
  unfold Machine.recoverTo
  dsimp only
  refine nameMoment (grounded ((flying_of_txs ?_).trans hz))
  repeat' split
  all_goals simp

theorem ctuRise (h : FlightHolds s) : FlightHolds (ctuRise s) := by
  unfold Machine.ctuRise
  dsimp only
  repeat' split
  · rename_i hstate _ _ c _
    exact locks (c := c) (s := s.setCtu { s.ctu with idleSeen := false }) (h.zero (.inr (.inl hstate))) rfl rfl rfl
  · exact h.goesOn le_rfl rfl id
  · exact h
  · exact h.goesOn le_rfl rfl id
  · exact h.goesOn le_rfl rfl id
  · exact h

theorem ctuFall (h : FlightHolds s) : FlightHolds (ctuFall s) := by
  unfold Machine.ctuFall
  split
  · exact h.goesOn le_rfl rfl id
  · exact h

theorem ctuIdle (h : FlightHolds s) : FlightHolds (ctuIdle s) := by
  unfold Machine.ctuIdle
  split
  · exact nameMoment (h.goesOn le_rfl rfl id)
  · rename_i hlost
    exact nameMoment (grounded (h.zero (.inr (.inr hlost))))
  · exact h

/-! ### The Frame Transmitter -/

theorem abortFrame (h : FlightHolds s) : FlightHolds (abortFrame s) := by
  refine haltIfFaulty (grounded (h.resolved ?_ _))
  rfl

theorem answerMismatch (h : FlightHolds s) : FlightHolds (answerMismatch s) := haltIfFaulty (h.of_txs rfl rfl)

theorem ftxRise (h : FlightHolds s) (gap : Nat) : FlightHolds (ftxRise gap s) := by
  unfold Machine.ftxRise
  repeat' split
  · exact h.of_txs rfl rfl
  · exact h.abortFrame
  · exact h.of_txs rfl rfl
  · exact h.answerMismatch
  · exact h

/-- A completed frame ends the attempt with nothing IN_FLIGHT, or awaits the answer to its message (R53, R60, R104). -/
theorem completeFrame (h : FlightHolds s) : FlightHolds (completeFrame s) := by
  unfold Machine.completeFrame
  dsimp only
  have h1 : FlightHolds (Machine.completeCounts (Machine.completeAdvert (s.ftx.captured.getD s.rxp.selfView) s)) :=
    h.of_txs (by simp) (by simp)
  have hcontrol : ∀ c : Candidate, s.ctu.locked = some c → c.kind.isMessage = false → flying s = 0 := by
    intro c hc hkind
    by_contra hne
    obtain ⟨-, c', hc', hmessage⟩ := h.2 (Nat.pos_of_ne_zero hne)
    cases hc.symm.trans hc'
    simp [hkind] at hmessage
  split
  · rename_i c hlocked
    have hlocked' : s.ctu.locked = some c := by simpa using hlocked
    split
    · rename_i hdata
      refine h1.of_txs ?_ ?_ <;> simp [completeKind, hdata]
    · rename_i hdata
      refine grounded ?_
      show flying (completeKind c _) = 0
      unfold Machine.completeKind
      repeat' split
      · rename_i hkind
        exact (flying_of_txs (by simp)).trans (hcontrol c hlocked' (by simp [hkind, FrameKind.isMessage]))
      · rename_i hkind _
        exact (flying_of_txs (by simp)).trans (hcontrol c hlocked' (by simp [hkind, FrameKind.isMessage]))
      · rename_i hkind _
        exact (flying_of_txs (by simp)).trans (hcontrol c hlocked' (by simp [hkind, FrameKind.isMessage]))
      · exact h1.resolved rfl _
      · rename_i hpoll hjoin hbroadcast
        refine (flying_of_txs (by simp)).trans (hcontrol c hlocked' ?_)
        cases hk : c.kind <;> simp_all [FrameKind.isMessage]
  · rename_i hnone
    refine grounded ?_
    by_contra hne
    obtain ⟨-, c, hc, -⟩ := h1.2 (Nat.pos_of_ne_zero hne)
    cases hnone.symm.trans hc

theorem ftxFall (h : FlightHolds s) (cls : PulseClass) : FlightHolds (ftxFall cls s) := by
  unfold Machine.ftxFall
  repeat' split
  · exact h.of_txs rfl rfl
  · exact h.completeFrame
  · exact h.of_txs rfl rfl
  · exact h.abortFrame
  · exact h.of_txs rfl rfl
  · exact h.answerMismatch
  · exact h

theorem ftxEarly (h : FlightHolds s) : FlightHolds (ftxEarly s) := by
  rcases ftxEarly_cases s with ⟨-, -, e⟩ | ⟨-, e⟩ <;> rw [e]
  · exact h.answerMismatch
  · exact h

/-! ### The Frame Receiver -/

theorem answerEvent (h : FlightHolds s) (claim dest : Nat) (l : Lane) (cls : AnswerClass) :
    FlightHolds (answerEvent claim dest l cls s) := by
  unfold Machine.answerEvent
  dsimp only
  have h1 : FlightHolds (if dest = ownAddress s then s else observeAnswer dest l cls s) := by
    split
    · exact h
    · exact h.of_txs (by simp) (by simp)
  split
  · refine grounded (h1.resolved ?_ _)
    rfl
  · exact h1

theorem validFrame (h : FlightHolds s) (own : Bool) (fr : Frame) : FlightHolds (validFrame own fr s) := by
  unfold Machine.validFrame
  dsimp only
  repeat' split
  · exact h.of_txs (by simp) (by simp)
  · exact grounded (flying_halt _ _)
  · exact h.of_txs (by simp) (by simp)

theorem toFrx (h : FlightHolds s) (own : Bool) (step : Frx → Frx × RxEvent) : FlightHolds (toFrx own step s) := by
  unfold Machine.toFrx
  split
  · have h1 : FlightHolds (s.setFrx (step s.frx).1) := h.of_txs rfl rfl
    unfold applyRx
    split
    · exact h1
    · exact h1.of_txs (by simp) (by simp)
    · exact h1.of_txs (by simp) (by simp)
    · exact h1.validFrame own _
    · exact h1.answerEvent ..
  · exact h

end FlightHolds

/-! ### The commands -/

section Commands

variable {s t : State}

theorem flight_of_ite {p : Prop} [Decidable p] {u : State} (h : FlightHolds s)
    (ht : Host.Outcome.next (if p then u else s) = (Host.Outcome.next t : Host.Outcome State Fault Refusal))
    (hu : p → FlightHolds u) : FlightHolds t := by
  cases ht
  split
  · exact hu ‹_›
  · exact h

theorem flight_of_taken {code : Byte} {effect : State → State} (h : FlightHolds s)
    (ht : taken code s effect = .next t) (he : FlightHolds (effect s)) : FlightHolds t := by
  rcases taken_cases ht with rfl | ⟨-, rfl⟩
  · exact h
  · exact he

/-- Off the air the CTU is OFF, and nothing is IN_FLIGHT (R101). -/
theorem flying_of_offAir (hs : StationHolds s) (h : FlightHolds s) (hair : ¬ onAir s) : flying s = 0 :=
  h.zero (.inl (by_contra fun hne => hair (hs.contends hne)))

theorem execLineRisingEdge_flight {gap : Nat} (h : FlightHolds s) (ht : execLineRisingEdge gap s = .next t) :
    FlightHolds t := by
  refine flight_of_ite h ht fun _ => FlightHolds.toFrx ?_ _ _
  have h1 : FlightHolds (s.setLfe (lfeRise gap s.lfe)) := h.of_txs rfl rfl
  exact (h1.ftxRise _).ctuRise

theorem execPulseEvent_flight {width : Nat} (h : FlightHolds s) (ht : execPulseEvent width s = .next t) :
    FlightHolds t := by
  refine flight_of_ite h ht fun _ => FlightHolds.nameOnChange (FlightHolds.toFrx ?_ _ _) s
  have h1 : FlightHolds (s.setLfe (lfeFall s.lfe)) := h.of_txs rfl rfl
  exact (h1.ftxFall _).ctuFall

theorem execFrameGapBreak_flight (h : FlightHolds s) (ht : execFrameGapBreak s = .next t) : FlightHolds t := by
  refine flight_of_ite h ht fun _ => FlightHolds.toFrx ?_ _ _
  exact h.of_txs (t := s.setLfe _) rfl rfl

theorem execLineIdle_flight (hs : StationHolds s) (h : FlightHolds s) (ht : execLineIdle s = .next t) :
    FlightHolds t := by
  refine flight_of_ite h ht fun _ => ?_
  dsimp only
  have hs1 : StationHolds (s.setLfe { s.lfe with idleReported := true, count := max idleGap s.lfe.count }) := hs.setLfe rfl
  have h1 : FlightHolds (frxIdle (s.setLfe { s.lfe with idleReported := true, count := max idleGap s.lfe.count })) :=
    h.of_txs (by simp) (by simp)
  split
  · rename_i hl
    have hair : ¬ onAir s := by
      have hlistening : s.stc.station = .listening := by simpa using hl.1
      simp [onAir, hlistening]
    exact FlightHolds.enterJoining (flying_of_offAir hs1.frxIdle.ctuIdle h1.ctuIdle (by simpa [onAir] using hair))
  · exact h1.ctuIdle

theorem execRoundGap_flight (hs : StationHolds s) (h : FlightHolds s) (ht : execRoundGap s = .next t) :
    FlightHolds t := by
  refine flight_of_ite h ht fun _ => ?_
  dsimp only
  have h1 : FlightHolds (s.setLfe { s.lfe with roundReported := true, count := max roundGapLength s.lfe.count }) :=
    h.of_txs rfl rfl
  have hspent : FlightHolds ((s.setLfe { s.lfe with roundReported := true, count := max roundGapLength s.lfe.count }).setCtu
      { s.ctu with roundSpent := false }) := h1.goesOn le_rfl rfl id
  repeat' split
  · rename_i hstation
    have hz := flying_of_offAir hs h (by simp [onAir, hstation])
    exact FlightHolds.enterJoining hz
  · rename_i hstation _ _ _
    have hz := flying_of_offAir hs h (by simp [onAir, hstation])
    refine FlightHolds.recoverTo ?_ _
    exact hz
  · exact h1
  · exact hspent.nameMoment
  · exact h1

theorem execLineStuck_flight (h : FlightHolds s) (ht : execLineStuck s = .next t) : FlightHolds t := by
  refine flight_of_ite h ht fun _ => ?_
  dsimp only
  have h1 : FlightHolds (s.setLfe { s.lfe with stuckReported := true, count := max stuckWidth s.lfe.count }) :=
    h.of_txs rfl rfl
  split
  · exact h1.enterLineFault
  · exact h1

theorem execLossTest_flight (h : FlightHolds s) (ht : execLossTest s = .next t) : FlightHolds t := by
  refine flight_of_ite h ht fun _ => ?_
  repeat' split
  · exact h.claimLost
  · exact h.goesOn le_rfl rfl fun _ => .inr (.inl rfl)
  · exact h.goesOn le_rfl rfl fun _ => .inr (.inr rfl)
  · exact h.goesOn le_rfl rfl id

theorem execSpanExpiry_flight (h : FlightHolds s) (ht : execSpanExpiry s = .next t) : FlightHolds t := by
  refine flight_of_ite h ht fun _ => FlightHolds.nameOnChange ?_ s
  refine h.of_le ?_ (by simp)
  rw [flying_of_txs (s := expirePeers (s.setStc { s.stc with spanCount := 0 })) (by simp)]
  exact flying_expirePeers_le _

theorem execLoad_flight {tag : Half} {dest lane len : Byte} {payload : List Byte} (h : FlightHolds s)
    (ht : execLoad tag dest lane len payload s = .next t) : FlightHolds t := by
  refine flight_of_taken h ht ?_
  unfold takeLoad
  repeat' split
  · exact h.of_txs rfl rfl
  · exact h.of_txs rfl rfl
  · exact h.of_txs rfl rfl
  · refine FlightHolds.nameMoment (FlightHolds.of_le (s := s) h ?_ rfl)
    simp [flying, storeMessage, isInFlight, loadedMessage]
  · exact h.of_txs rfl rfl
  · exact h.of_txs rfl rfl
  · exact h.of_txs rfl rfl

/-- A withdrawal leaves an IN_FLIGHT message IN_FLIGHT, and takes a QUEUED one (R80). -/
theorem execWithdraw_flight {tag : Half} (h : FlightHolds s) (ht : execWithdraw tag s = .next t) : FlightHolds t := by
  refine flight_of_taken h ht ?_
  dsimp only
  repeat' split
  · exact h.of_txs rfl rfl
  · rename_i m hm hflight
    refine h.of_le ?_ rfl
    obtain ⟨before, after, hs, hb, hp⟩ := exists_split hm
    show List.countP isInFlight (updateFirst (tagged tag) _ s.txs.store) ≤ List.countP isInFlight s.txs.store
    rw [hs, updateFirst_split hp hb]
    simp [isInFlight, List.countP_append, List.countP_cons]
  · rename_i m hm hqueued
    refine h.of_le ?_ (by simp)
    obtain ⟨before, after, hs, hb, hp⟩ := exists_split hm
    rw [moveToDone_split hs hb hp, flying_of_split hs]
    simp [flying]
  · exact h.of_txs rfl rfl

theorem exec_flight {c : Instr} (hs : StationHolds s) (h : FlightHolds s) (ht : exec c s = .next t) : FlightHolds t := by
  cases c with
  | hardReset => cases ht; exact FlightHolds.grounded rfl
  | hostSelRise =>
    cases ht
    split
    · exact FlightHolds.grounded rfl
    · exact h.of_txs rfl rfl
  | setup =>
    refine flight_of_taken h (show execSetup _ _ _ _ _ _ _ _ s = _ from ht) (h.of_txs ?_ ?_)
    all_goals
      dsimp only
      repeat' split
      all_goals rfl
  | start =>
    refine flight_of_taken h (show execStart s = _ from ht) ?_
    repeat' split
    · exact FlightHolds.grounded (by simp [flying, startStation, Txs.reset])
    · exact h.of_txs rfl rfl
    · exact h.of_txs rfl rfl
  | load tag dest lane len payload => exact execLoad_flight h ht
  | withdraw tag => exact execWithdraw_flight h ht
  | outcome =>
    refine flight_of_taken h (show execOutcome s = _ from ht) ?_
    dsimp only
    split
    · exact h.of_txs rfl rfl
    · exact h.of_le le_rfl rfl
  | fetch =>
    refine flight_of_taken h (show execFetch s = _ from ht) ?_
    split
    · exact h.of_txs rfl rfl
    · exact FlightHolds.nameOnChange (h.of_txs (by simp) (by simp)) s
  | fetchBroadcast =>
    refine flight_of_taken h (show execFetchBroadcast s = _ from ht) ?_
    dsimp only
    split <;> exact h.of_txs rfl rfl
  | notice =>
    refine flight_of_taken h (show execNotice s = _ from ht) ?_
    dsimp only
    split <;> exact h.of_txs rfl rfl
  | peer addr =>
    refine flight_of_taken h (show execPeer addr s = _ from ht) ?_
    split <;> exact h.of_txs rfl rfl
  | unknownCommand code =>
    refine flight_of_taken h (show execUnknownCommand code s = _ from ht) ?_
    split <;> exact h.of_txs rfl rfl
  | lineRisingEdge gap => exact execLineRisingEdge_flight h ht
  | pulseEvent width => exact execPulseEvent_flight h ht
  | frameGapBreak => exact execFrameGapBreak_flight h ht
  | lineIdle => exact execLineIdle_flight hs h ht
  | roundGap => exact execRoundGap_flight hs h ht
  | lineStuck => exact execLineStuck_flight h ht
  | answerWindowClose => exact flight_of_ite h ht fun _ => h.toFrx _ _
  | answerEarlyUnclassified =>
    refine flight_of_ite h ht fun _ => FlightHolds.toFrx ?_ _ _
    split
    · exact h.ftxEarly
    · exact h
  | leadRelease => exact flight_of_ite h ht fun _ => h.goesOn le_rfl rfl id
  | lossTest => exact execLossTest_flight h ht
  | digitDriveStart => exact flight_of_ite h ht fun _ => h.goesOn le_rfl rfl id
  | digitRelease => exact flight_of_ite h ht fun _ => h.goesOn le_rfl rfl id
  | driveFaultCheck => exact flight_of_ite h ht fun _ => h.driveFault
  | symbolDriveStart => exact flight_of_ite h ht fun _ => h.of_txs (by simp) (by simp)
  | readbackTest => exact flight_of_ite h ht fun _ => h.abortFrame
  | answerDriveCheck => exact flight_of_ite h ht fun _ => h.answerMismatch
  | spanExpiry => exact execSpanExpiry_flight h ht
  | hostSelFall =>
    cases ht
    refine h.of_txs ?_ ?_
    all_goals
      repeat' split
      all_goals rfl
  | rstRelease => cases ht; exact h.of_txs rfl rfl
  | _ => exact flight_of_ite h ht fun _ => h.of_txs rfl rfl

theorem tick_flight (h : FlightHolds s) : FlightHolds (tick s) := by
  have hctu : (tick s).ctu.locked = s.ctu.locked ∧ (tick s).ctu.state = s.ctu.state := by
    unfold tick
    repeat' split
    · exact ⟨rfl, rfl⟩
    · simp [beginPosition, advanceCounts]
    · simp
  exact h.goesOn (flying_of_txs (by simp)).le hctu.1 (by rw [hctu.2]; exact id)

/-! Slot states and tries. -/

theorem Ran.slots {c : Instr} (h : Ran c s t) : SlotsHold s → SlotsHold t := by
  cases h with
  | evolves h => exact h.slots
  | hardReset => exact fun _ => ⟨nofun, nofun⟩
  | stationReset => exact fun _ => ⟨nofun, nofun⟩
  | start => exact fun _ => by simp [SlotsHold, startStation, Txs.reset]
  | outcome hs => exact fun ⟨hlive, hdone⟩ => ⟨hlive, fun m hm => hdone m (hs ▸ List.mem_cons_of_mem _ hm)⟩
  | fetch hr ht => exact fun hs => (fetched_evolves ht).slots (by simpa [SlotsHold] using hs)
  | _ => exact id

theorem Ran.tries {c : Instr} (h : Ran c s t) (hstation : s.stc.station ≠ .config)
    (hlimit : 1 ≤ s.stc.profile.retryLimit) :
    TriesWithin s.stc.profile.retryLimit s → TriesWithin t.stc.profile.retryLimit t := by
  cases h with
  | evolves h => exact h.tries hlimit
  | hardReset => exact fun _ => ⟨nofun, nofun⟩
  | stationReset => exact fun _ => ⟨nofun, nofun⟩
  | setup hconfig => exact absurd hconfig hstation
  | start hconfig => exact absurd hconfig hstation
  | outcome hs => exact fun ⟨hlive, hdone⟩ => ⟨hlive, fun m hm => hdone m (hs ▸ List.mem_cons_of_mem _ hm)⟩
  | fetch hr ht =>
    intro hs
    exact (fetched_evolves ht).tries (by simpa using hlimit) (by simpa [TriesWithin] using hs)
  | _ => exact id

/-- A SET profile has a retry limit of at least 1 (Table 9.3). -/
theorem Ran.retryLimit {c : Instr} (h : Ran c s t) (hlimit : s.stc.profileSet = true → 1 ≤ s.stc.profile.retryLimit) :
    t.stc.profileSet = true → 1 ≤ t.stc.profile.retryLimit := by
  cases h with
  | evolves h => rw [h.profile.1, h.profile.2.1]; exact hlimit
  | hardReset => exact fun hset => by cases hset
  | setup hconfig hp =>
    obtain ⟨-, -, -, -, -, -, hle, -⟩ := profileOf_inRange hp
    exact fun _ => hle
  | start => simpa [startStation] using hlimit
  | fetch hr ht =>
    obtain ⟨hprofile, hset, -⟩ := (fetched_evolves ht).profile
    rw [hprofile, hset]
    simpa using hlimit
  | _ => exact hlimit

/-- The part leaves CONFIG by START alone, with its profile SET (R158). -/
theorem Ran.profileSet {c : Instr} (h : Ran c s t) (hs : StationHolds s) (ht : StationHolds t)
    (hset : s.stc.station ≠ .config → s.stc.profileSet = true) : t.stc.station ≠ .config → t.stc.profileSet = true := by
  have locked : t.stc.profileLocked = s.stc.profileLocked → t.stc.profileSet = s.stc.profileSet →
      t.stc.station ≠ .config → t.stc.profileSet = true := fun hl hp hne =>
    hp.trans (hset (hs.lock.mp (hl ▸ ht.lock.mpr hne)))
  cases h with
  | evolves h => exact locked h.profile.2.2 h.profile.2.1
  | hardReset => exact fun hne => absurd rfl hne
  | stationReset => exact fun hne => absurd rfl hne
  | setup => exact fun _ => rfl
  | start _ hset' => exact fun _ => by simpa [startStation] using hset'
  | fetch hr e =>
    obtain ⟨-, hp, hl⟩ := (fetched_evolves e).profile
    exact locked (by simpa using hl) (by simpa using hp)
  | _ => exact locked rfl rfl

theorem exec_tries {c : Instr} (hs : StationHolds s) (ht : StationHolds t) (h : exec c s = .next t) :
    TriesHold s → TriesHold t := by
  rintro ⟨hlimit, hset, hempty, htries⟩
  have ran := exec_ran h
  refine ⟨ran.retryLimit hlimit, ran.profileSet hs ht hset, fun hc => ?_, ?_⟩
  · rcases ran.config hs ht hc with hconfig | ⟨-, htxs⟩
    · exact (exec_staysEmpty hs hconfig h).store (hempty hconfig)
    · rw [htxs]
      exact ⟨rfl, rfl⟩
  · show TriesWithin t.stc.profile.retryLimit t
    by_cases hconfig : s.stc.station = .config
    · obtain ⟨hstore, houtcomes⟩ := (exec_staysEmpty hs hconfig h).store (hempty hconfig)
      exact ⟨by simp [hstore], by simp [houtcomes]⟩
    · exact ran.tries hconfig (hlimit (hset hconfig)) htries

end Commands

/-- Settles O56: the slot states and the tries by the kinds of change, the IN_FLIGHT message by the operations of the
contest. -/
theorem stepKeepsMessagesInOrder : Obligations.StepKeepsMessagesInOrder := by
  unfold Obligations.StepKeepsMessagesInOrder
  intro s t hstation h
  have hstation' := stepKeepsTheStationInOrder s t hstation h
  rcases step_cases h with ⟨-, rfl⟩ | ⟨c, rest, -, hexec⟩
  · obtain ⟨hprofile, hset, -⟩ := tick_profile s
    refine ⟨fun hs => by simpa [SlotsHold] using hs, tick_flight, fun hs => ?_⟩
    simpa [TriesHold, hprofile, hset, tick_stationState] using hs
  · have hs0 : StationHolds { s with pending := rest } := hstation.of_control rfl
    have tries := exec_tries hs0 hstation' hexec
    refine ⟨(exec_ran hexec).slots, fun hs => ?_, fun hs => tries hs⟩
    exact exec_flight hs0 (hs.of_txs (t := { s with pending := rest }) rfl rfl) hexec

end Sys2Proof.Machine
end

