-- ==== Sys2Proof/Proofs/ResetsAndPins.lean ====
section
/-! SUPPORT. The step, the resets and the select pin, the output pins, notices and counters, and the commands the port takes
in every station state or in none. -/

namespace Sys2Proof.Machine

/-! ### The step and the resets -/

/-- Settles O1. -/
theorem stepRunsTheFrontCommand : Obligations.StepRunsTheFrontCommand := by
  unfold Obligations.StepRunsTheFrontCommand
  intro c rest s hpending
  unfold step
  rw [hpending]

theorem Counters.get_zero (k : Counter) : Counters.zero.get k = 0#16 := by cases k <;> rfl

/-- Settles O3: every block of the reset state, and then the pins, which follow the blocks. -/
theorem hardResetLeavesTheTableValues : Obligations.HardResetLeavesTheTableValues := by
  unfold Obligations.HardResetLeavesTheTableValues
  intro s
  refine ⟨hardReset s, rfl, rfl, rfl, rfl, rfl, rfl, rfl, rfl, rfl, rfl, rfl, rfl, rfl, rfl, rfl, rfl, rfl, rfl, rfl, rfl,
    rfl, rfl, rfl, rfl, rfl, rfl, rfl, rfl, rfl, rfl, Counters.get_zero, rfl, rfl, ?dout⟩
  case dout =>
    unfold hostDout
    exact if_pos (Bool.or_true _)

/-- Settles O4: the blocks are at their reset values, with the profile put back. -/
theorem stationResetKeepsTheProfile : Obligations.StationResetKeepsTheProfile := by
  unfold Obligations.StationResetKeepsTheProfile
  intro s hdue
  show execHostSelRise s = _
  unfold execHostSelRise
  rw [if_pos hdue]
  rfl

/-- Settles O5: with no reset due, the pins move the transaction alone. -/
theorem selectAndReleaseMoveOnlyThePort : Obligations.SelectAndReleaseMoveOnlyThePort := by
  unfold Obligations.SelectAndReleaseMoveOnlyThePort
  refine ⟨fun s hsel hrst => ?fall, fun s hsel hrst => ?held, fun s hdue => ?rise, fun s => rfl⟩
  case fall =>
    show execHostSelFall s = _
    simp only [execHostSelFall, hsel, hrst]
    rfl
  case held =>
    show execHostSelFall s = _
    simp only [execHostSelFall, hsel, hrst]
    rfl
  case rise =>
    show execHostSelRise s = _
    simp only [execHostSelRise, hdue]
    rfl

/-! ### Notices, counters and pins -/

/-- Settles O19: a notice by the length of the queue, a counter by its own increment. -/
theorem noticesAndCountersSaturate : Obligations.NoticesAndCountersSaturate := by
  unfold Obligations.NoticesAndCountersSaturate
  refine ⟨fun k addr s => ⟨fun hroom => ?joins, fun hfull => ?lost⟩, fun k s => ⟨rfl, rfl, ?own, fun j hj => ?other⟩⟩
  case joins => exact if_pos hroom
  case lost => exact if_neg (Nat.not_lt.mpr hfull)
  case own => rw [raise_hpt, Counters.get_add, if_pos rfl, bump_toNat]
  case other => rw [raise_hpt, Counters.get_add, if_neg hj]

theorem attnActive_iff (s : State) :
    attnActive s = true ↔ s.txs.outcomes ≠ [] ∨ s.rxp.queue ≠ [] ∨ s.bcr.ring ≠ [] ∨ s.hpt.notices ≠ []
      ∨ s.stc.station = .lineFault ∨ s.stc.station = .halted := by
  simp [attnActive, or_assoc]

theorem lineTx_iff (s : State) : lineTx s = true ↔ s.ctu.drive.phase = .driving ∨ s.ftx.drive.phase = .driving := by
  simp [lineTx]

theorem hostDout_eq_none_iff (s : State) : hostDout s = none ↔ s.hostSelLow = false ∨ s.rstLow = true := by
  unfold hostDout
  split
  · rename_i hshut
    simpa using hshut
  · rename_i hopen
    simp only [Bool.or_eq_true, Bool.not_eq_true', not_or] at hopen
    split <;> simp [hopen]

theorem hostDout_of_selected {s : State} (hsel : s.hostSelLow = true) (hrst : s.rstLow = false) :
    hostDout s = some (if s.hpt.txn = .result then s.hpt.result.headD 0x00#8 else 0x00#8) := by
  unfold hostDout
  simp only [hsel, hrst]
  cases s.hpt.txn <;> rfl

/-- Settles O20: each pin by its own condition, and the byte clocked in by the transaction state. -/
theorem pinsFollowTheirConditions : Obligations.PinsFollowTheirConditions := by
  unfold Obligations.PinsFollowTheirConditions
  intro s
  refine ⟨attnActive_iff s, lineTx_iff s, hostDout_eq_none_iff s, fun hsel hrst => ⟨fun htxn => ?zero, fun b rest htxn hresult => ?shown⟩,
    fun x b rest htxn hresult => ?clocked, fun x htxn => ?ignored⟩
  case zero => rw [hostDout_of_selected hsel hrst, if_neg htxn]
  case shown => rw [hostDout_of_selected hsel hrst, if_pos htxn, hresult]; rfl
  case clocked =>
    simp only [clockByte, htxn, hresult, List.tail_cons, List.isEmpty_iff]
    rfl
  case ignored => rcases htxn with h | h <;> simp only [clockByte, h]

/-! ### Commands taken anywhere, and commands ignored -/

/-- Settles O11. -/
theorem resetAndUnknownCodesAreAnsweredAnywhere : Obligations.ResetAndUnknownCodesAreAnsweredAnywhere := by
  unfold Obligations.ResetAndUnknownCodesAreAnsweredAnywhere
  refine ⟨fun s hopen => ?reset, fun code s hopen hcode => ?unknown⟩
  case reset =>
    show execReset s = _
    rw [execReset, taken_of_open hopen]
    rfl
  case unknown =>
    have hunknown : knownCodes.contains code = false := by
      rw [← Bool.not_eq_true, List.contains_iff_mem]
      exact hcode
    show execUnknownCommand code s = _
    rw [execUnknownCommand, taken_of_open hopen]
    simp only [hunknown]
    rfl

/-- The port takes no command with RST low, or in a transaction that does not stand at the command's bytes (R166, R169). -/
theorem portOpen_eq_false {code : Byte} {s : State}
    (h : s.rstLow = true ∨ s.hpt.txn = .idle ∨ s.hpt.txn = .result ∨ s.hpt.txn = .trailing
      ∨ (s.hpt.txn = .operand ∧ s.hpt.commandByte ≠ some code)) : portOpen code s = false := by
  unfold portOpen
  rcases h with h | h | h | h | ⟨h, hbyte⟩
  · simp [h]
  · simp [h]
  · simp [h]
  · simp [h]
  · simp [h, hbyte]

/-- A host command with the port shut to its code is nothing. -/
theorem exec_of_shut {c : Instr} {code : Byte} {operand : List Byte} {s : State}
    (hbytes : hostBytes c = some (code, operand)) (hshut : portOpen code s = false) : exec c s = .next s := by
  cases c <;> cases hbytes <;>
    simp only [exec, execState, execPeer, execCounters, execSetup, execStart, execReset, execLoad, execWithdraw, execOutcome,
      execFetch, execFetchBroadcast, execNotice, execUnknownCommand, taken_of_shut hshut]

/-- Settles O12. -/
theorem hostCommandOutOfTurnIsIgnored : Obligations.HostCommandOutOfTurnIsIgnored := by
  unfold Obligations.HostCommandOutOfTurnIsIgnored
  exact fun c code operand s hbytes hturn => exec_of_shut hbytes (portOpen_eq_false hturn)

end Sys2Proof.Machine
end

