-- ==== Sys2Proof/Proofs/PortReplies.lean ====
section
/-! SUPPORT. The host commands with a record of their own: the bytes of the records, one equation per case, and the statements
about STATE, PEER, START, WITHDRAW, OUTCOME, FETCH and FETCH_BROADCAST. -/

namespace Sys2Proof.Machine

/-! ### STATE and PEER -/

theorem flagByte_eq_ofNat : ∀ b0 b1 b2 b3 b4 b5 b6 : Bool, flagByte b0 b1 b2 b3 b4 b5 b6 false =
    BitVec.ofNat 8 (b0.toNat + 2 * b1.toNat + 4 * b2.toNat + 8 * b3.toNat + 16 * b4.toNat + 32 * b5.toNat
      + 64 * b6.toNat) := by decide

theorem flagByte_single : ∀ b : Bool, flagByte b false false false false false false false =
    if b then 0x01#8 else 0x00#8 := by decide

/-- Settles O6: STATE's record, byte by byte. -/
theorem stateCommandReportsASnapshot : Obligations.StateCommandReportsASnapshot := by
  unfold Obligations.StateCommandReportsASnapshot
  intro s hopen
  show execState s = _
  rw [execState, taken_of_open hopen, reply_eq_withResult]
  refine congrArg (fun bytes => Host.Outcome.next (withResult 0x01#8 [] (0x80#8 :: bytes) s)) ?_
  simp only [stateRecord, Causes.byte, flagByte_eq_ofNat, List.cons.injEq, and_true]
  refine ⟨?station, ?reason, ?back, rfl, ?flags, ?causes, rfl, rfl, rfl, rfl, rfl, rfl, rfl⟩
  case station => cases s.stc.station <;> rfl
  case reason => cases s.stc.haltReason <;> rfl
  case back =>
    cases hback : s.stc.returnState with
    | none => rfl
    | some st => cases st <;> rfl
  case flags => simp
  case causes => simp

theorem execPeer_of_inRange {addr : Byte} {s : State} (hopen : portOpen 0x02#8 s = true) (haddr : addr.toNat ≤ 30) :
    execPeer addr s = .next (withResult 0x02#8 [addr] (0x80#8 :: peerRecord (peerAt s addr.toNat)) s) := by
  rw [execPeer, taken_of_open hopen, if_pos haddr]
  rfl

theorem execPeer_of_out_of_range {addr : Byte} {s : State} (hopen : portOpen 0x02#8 s = true) (haddr : 31 ≤ addr.toNat) :
    execPeer addr s = .next (withResult 0x02#8 [addr] [0x85#8] s) := by
  rw [execPeer, taken_of_open hopen, if_neg (by omega)]
  rfl

/-- Settles O7: PEER's record, byte by byte. -/
theorem peerCommandReadsTheRecord : Obligations.PeerCommandReadsTheRecord := by
  unfold Obligations.PeerCommandReadsTheRecord
  intro addr s r hopen hlength
  refine ⟨fun haddr hr => ?record, fun haddr => execPeer_of_out_of_range hopen haddr⟩
  case record =>
    rw [show exec (.peer addr) s = _ from execPeer_of_inRange hopen haddr, peerAt_of_getElem? hr]
    refine congrArg (fun bytes => Host.Outcome.next (withResult 0x02#8 [addr] (0x80#8 :: bytes) s)) ?_
    simp only [peerRecord, laneFlags, flagByte_single]
    simp only [flagByte_eq_ofNat, List.cons.injEq, and_true]
    refine ⟨?presence, trivial, rfl, rfl, rfl, rfl, rfl, ?tx, ?rx, ?poll⟩
    case presence => cases r.presence <;> rfl
    case tx => simp
    case rx => simp
    case poll => cases r.pollAge <;> rfl

/-! ### START -/

theorem execStart_of_not_config {s : State} (hopen : portOpen 0x11#8 s = true) (hstation : s.stc.station ≠ .config) :
    execStart s = .next (withResult 0x11#8 [] [0x83#8] s) := by
  rw [execStart, taken_of_open hopen, if_neg hstation]
  rfl

theorem execStart_of_unset {s : State} (hopen : portOpen 0x11#8 s = true) (hstation : s.stc.station = .config)
    (hunset : s.stc.profileSet = false) : execStart s = .next (withResult 0x11#8 [] [0x84#8] s) := by
  rw [execStart, taken_of_open hopen, if_pos hstation, if_neg (by simp [hunset])]
  rfl

theorem execStart_of_set {s : State} (hopen : portOpen 0x11#8 s = true) (hstation : s.stc.station = .config)
    (hset : s.stc.profileSet = true) : execStart s = .next (withResult 0x11#8 [] [0x80#8] (startStation s)) := by
  rw [execStart, taken_of_open hopen, if_pos hstation, if_pos hset]
  rfl

/-- An empty pool that nothing is advertised of meets conditions (a) and (b): at least 12 of its 24 slots are shared (R14,
R16). -/
theorem conditions_of_unadvertised {s : State} (hprofile : s.stc.profile.inRange) (hq : s.rxp.queue = [])
    (hv : s.rxp.selfView = Advert.zero) : conditionA s = true ∧ conditionB s = true := by
  obtain ⟨-, -, -, -, -, hsum, -, -, -, -, -, hstep⟩ := hprofile
  have hshared : freeShared s = 24 - (s.stc.profile.reserve.a + s.stc.profile.reserve.b + s.stc.profile.reserve.c) := by
    simp [freeShared, sharedSize, usedShared, hq, Config.poolSlots]
  constructor
  · simp only [conditionA, unadvertised, hv, Advert.zero, decide_eq_true_eq]
    omega
  · have hshut : laneShutOut s .a = true := by
      simp only [laneShutOut, hv, Advert.zero, PerLane.get, Bool.and_eq_true, beq_self_eq_true, decide_eq_true_eq, true_and]
      omega
    simp [conditionB, hshut]

theorem startPeers_eq_map (own : Nat) :
    startPeers own = (List.range 31).map fun p =>
      if p = own then { Peer.reset with presence := .self } else Peer.reset := by
  apply List.ext_getElem
  · simp [startPeers, Config.stations]
  · intro i h1 h2
    simp only [startPeers, List.getElem_modify, List.getElem_replicate, List.getElem_map, List.getElem_range,
      @eq_comm _ own i]

/-- The evaluation of causes (a) and (b) moves the pool's flag and set alone (R16). -/
theorem evalCauses_eq (s : State) :
    evalCauses s = s.setRxp
      { s.rxp with
        owed := s.rxp.owed || conditionA s || conditionB s
        causes := { s.rxp.causes with a := s.rxp.causes.a || conditionA s, b := s.rxp.causes.b || conditionB s } } := by
  rw [← evalCauses_rxp]
  unfold evalCauses
  dsimp only
  repeat' split
  all_goals rfl

theorem evalCauses_of_conditions {s : State} (h : conditionA s = true ∧ conditionB s = true) :
    evalCauses s = s.setRxp { s.rxp with owed := true, causes := { s.rxp.causes with a := true, b := true } } := by
  rw [evalCauses_eq, h.1, h.2]
  simp

/-- Settles O10: the two refusals, and the After START values with the evaluation of causes (a) and (b). -/
theorem startLocksAndListens : Obligations.StartLocksAndListens := by
  unfold Obligations.StartLocksAndListens
  intro s hopen
  refine ⟨fun hstation => execStart_of_not_config hopen hstation, fun hstation hunset => execStart_of_unset hopen hstation hunset,
    fun hstation hset hprofile => ?started⟩
  case started =>
    rw [show exec .start s = _ from execStart_of_set hopen hstation hset]
    refine congrArg (fun u => Host.Outcome.next (withResult 0x11#8 [] [0x80#8] u)) ?_
    rw [startStation, evalCauses_of_conditions, startPeers_eq_map]
    · dsimp only [State.setRxp]
      rw [hset]
      rfl
    · exact conditions_of_unadvertised hprofile rfl rfl

/-! ### WITHDRAW and OUTCOME -/

section Withdraw

variable {tag : Half} {s : State} (hopen : portOpen 0x21#8 s = true)
include hopen

theorem execWithdraw_of_not_running (hrun : running s = false) :
    execWithdraw tag s = .next (withResult 0x21#8 (bytesOf tag) [0x83#8] s) := by
  rw [execWithdraw, taken_of_open hopen, if_neg (by simp [hrun])]
  rfl

theorem execWithdraw_of_none (hrun : running s = true) (hnone : ∀ m ∈ s.txs.store, m.tag ≠ tag) :
    execWithdraw tag s = .next (withResult 0x21#8 (bytesOf tag) [0x86#8] s) := by
  have hfind : s.txs.store.find? (tagged tag) = none := List.find?_eq_none.mpr (by simpa [tagged] using hnone)
  rw [execWithdraw, taken_of_open hopen, if_pos hrun, hfind]
  rfl

variable {before after : List Message} {m : Message} (hs : s.txs.store = before ++ m :: after)
  (hb : ∀ x ∈ before, x.tag ≠ tag) (hm : m.tag = tag) (hrun : running s = true)
include hs hb hm hrun

/-- The oldest live message with the tag, by its split of the store order. -/
theorem execWithdraw_of_inFlight (hflight : m.state = .inFlight) :
    execWithdraw tag s = .next (withResult 0x21#8 (bytesOf tag) [0x87#8]
      (s.setTxs { s.txs with store := before ++ { m with withdrawPending := true } :: after })) := by
  have htagged : ∀ x ∈ before, tagged tag x = false := by simpa [tagged] using hb
  have hself : tagged tag m = true := by simp [tagged, hm]
  rw [execWithdraw, taken_of_open hopen, if_pos hrun, hs, find?_split htagged hself]
  simp only [hflight, if_true, updateFirst_split hself htagged]
  rfl

theorem execWithdraw_of_queued (hqueued : m.state = .queued) :
    execWithdraw tag s = .next (withResult 0x21#8 (bytesOf tag) [0x80#8]
      (s.setTxs { s.txs with store := before ++ after, outcomes := s.txs.outcomes ++ [m.finish .withdrawn false] })) := by
  have htagged : ∀ x ∈ before, tagged tag x = false := by simpa [tagged] using hb
  have hself : tagged tag m = true := by simp [tagged, hm]
  rw [execWithdraw, taken_of_open hopen, if_pos hrun, hs, find?_split htagged hself]
  simp only [hqueued, reduceCtorEq, if_false, moveToDone_split hs htagged hself]
  rfl

end Withdraw

/-- Settles O14. -/
theorem withdrawFindsTheOldestLiveMessage : Obligations.WithdrawFindsTheOldestLiveMessage := by
  unfold Obligations.WithdrawFindsTheOldestLiveMessage
  intro tag s hopen
  have hrun := running_eq_true_iff s
  refine ⟨fun hstop => ?refused, fun hconfig hhalted => ⟨fun hnone => ?none, fun before after m hs hb hm =>
    ⟨fun hflight => ?inFlight, fun hqueued => ?queued⟩⟩⟩
  case refused =>
    refine execWithdraw_of_not_running hopen (Bool.eq_false_iff.mpr (mt hrun.mp ?_))
    tauto
  case none => exact execWithdraw_of_none hopen (hrun.mpr ⟨hconfig, hhalted⟩) hnone
  case inFlight => exact execWithdraw_of_inFlight hopen hs hb hm (hrun.mpr ⟨hconfig, hhalted⟩) hflight
  case queued => exact execWithdraw_of_queued hopen hs hb hm (hrun.mpr ⟨hconfig, hhalted⟩) hqueued

/-- Settles O15: the list is empty or has an oldest record, whose bytes are Table 10.9's. -/
theorem outcomeTakesTheOldestRecord : Obligations.OutcomeTakesTheOldestRecord := by
  unfold Obligations.OutcomeTakesTheOldestRecord
  intro s hopen
  refine ⟨fun hempty => ?empty, fun m rest o hcons ho => ?oldest⟩
  case empty =>
    show execOutcome s = _
    rw [execOutcome, taken_of_open hopen, hempty]
    rfl
  case oldest =>
    show execOutcome s = _
    rw [execOutcome, taken_of_open hopen, hcons]
    dsimp only
    rw [outcomeRecord, ho, flagByte_single]
    cases o <;> rfl

/-! ### FETCH and FETCH_BROADCAST -/

/-- Settles O17. -/
theorem fetchBroadcastTakesTheOldest : Obligations.FetchBroadcastTakesTheOldest := by
  unfold Obligations.FetchBroadcastTakesTheOldest
  intro s hopen
  refine ⟨fun hempty => ?empty, fun r rest hcons => ?oldest⟩
  case empty =>
    show execFetchBroadcast s = _
    rw [execFetchBroadcast, taken_of_open hopen, hempty]
    rfl
  case oldest =>
    show execFetchBroadcast s = _
    rw [execFetchBroadcast, taken_of_open hopen, hcons]
    cases r with
    | mk source lane payload arrival => cases lane <;> rfl

section Fetch

variable {s : State} {before after : List PoolRecord} {r : PoolRecord} (hs : s.rxp.queue = before ++ r :: after)
include hs

theorem fetchLane_of_highest (hhighest : ∀ x ∈ s.rxp.queue, (x.lane = .a → r.lane = .a) ∧ (x.lane = .b → r.lane ≠ .c)) :
    fetchLane s = some r.lane := by
  have hr : r ∈ s.rxp.queue := by simp [hs]
  have none_of : ∀ l, (∀ x ∈ s.rxp.queue, x.lane ≠ l) → s.rxp.queue.any (fun x => x.lane == l) = false := by
    intro l h
    simpa using h
  have some_of : ∀ l, r.lane = l → s.rxp.queue.any (fun x => x.lane == l) = true := by
    intro l h
    exact List.any_eq_true.mpr ⟨r, hr, by simp [h]⟩
  unfold fetchLane
  cases hl : r.lane with
  | a => rw [if_pos (some_of .a hl)]
  | b =>
    have ha := none_of .a fun x hx e => by simpa [hl] using (hhighest x hx).1 e
    rw [ha, if_neg (by simp), if_pos (some_of .b hl)]
  | c =>
    have ha := none_of .a fun x hx e => by simpa [hl] using (hhighest x hx).1 e
    have hb := none_of .b fun x hx e => (hhighest x hx).2 e hl
    rw [ha, hb, if_neg (by simp), if_neg (by simp), if_pos (some_of .c hl)]

variable (hb : ∀ x ∈ before, x.lane ≠ r.lane)
include hb

theorem fetchRecord_of_highest (hhighest : ∀ x ∈ s.rxp.queue, (x.lane = .a → r.lane = .a) ∧ (x.lane = .b → r.lane ≠ .c)) :
    fetchRecord s = some r := by
  rw [fetchRecord, fetchLane_of_highest hs hhighest, Option.bind_some, hs]
  exact find?_split (by simpa using hb) (by simp)

theorem freeRecord_of_split :
    freeRecord r.lane s = evalCauses (s.setRxp { s.rxp with queue := before ++ after }) := by
  unfold freeRecord
  have herase := eraseP_split (p := fun x : PoolRecord => x.lane == r.lane) (before := before) (after := after) (x := r)
    (by simp) (by simpa using hb)
  rw [hs, herase]

omit hb in
/-- The freed slot returns to the region it was charged to, and to no other (R7). -/
theorem used_of_split :
    (∀ l, usedReserve s l = usedReserve (s.setRxp { s.rxp with queue := before ++ after }) l
      + if r.lane = l ∧ r.charge = .reserve then 1 else 0)
    ∧ usedShared s = usedShared (s.setRxp { s.rxp with queue := before ++ after })
      + if r.charge = .shared then 1 else 0 := by
  constructor
  · intro l
    simp only [usedReserve, hs, State.setRxp_rxp, List.countP_append, List.countP_cons, Bool.and_eq_true, beq_iff_eq]
    omega
  · simp only [usedShared, hs, State.setRxp_rxp, List.countP_append, List.countP_cons, beq_iff_eq]
    omega

end Fetch

/-- Nothing becomes sendable while the peer table and the store order stay. -/
theorem newlySendable_of_peers {s t : State} (hpeers : t.peers = s.peers) (htxs : t.txs = s.txs) :
    newlySendable s t = false := by
  have heligible : ∀ m, eligible t m = eligible s m := fun m => by simp only [eligible, peerAt, hpeers]
  have howed : ∀ p, pollOwed t p = pollOwed s p := fun p => by simp only [pollOwed, peerAt, hpeers, htxs]
  simp [newlySendable, heligible, howed]

theorem nameOnChange_of_peers {s t : State} (hpeers : t.peers = s.peers) (htxs : t.txs = s.txs) :
    nameOnChange s t = if t.rxp.owed = true ∧ s.rxp.owed = false then nameMoment t else t := by
  simp [nameOnChange, newlySendable_of_peers hpeers htxs]

/-- Settles O16: the record by the split of the queue, then its reply, the evaluation and the naming. -/
theorem fetchTakesTheOldestOfTheHighestLane : Obligations.FetchTakesTheOldestOfTheHighestLane := by
  unfold Obligations.FetchTakesTheOldestOfTheHighestLane
  intro s hopen
  refine ⟨fun hempty => ?empty, fun before after r hs hb hhighest => ⟨?taken, used_of_split hs⟩⟩
  case empty =>
    show execFetch s = _
    rw [execFetch, taken_of_open hopen, fetchRecord]
    simp [fetchLane, hempty, reply_eq_withResult, resEmpty]
  case taken =>
    show execFetch s = _
    rw [execFetch, taken_of_open hopen, fetchRecord_of_highest hs hb hhighest]
    dsimp only
    rw [freeRecord_of_split hs hb, nameOnChange_of_peers (by simp) (by simp)]
    cases r with
    | mk source lane payload arrival charge => cases lane <;> rfl

end Sys2Proof.Machine
end

