-- ==== Sys2Proof/Proofs/Contest.lean ====
section
/-! SUPPORT. The timed steps of the contest and of the frame: one equation per case, and the statements about the drives, the
loss test, the drive fault, the capture, the naming moment and the evaluation of causes (a) and (b). -/

namespace Sys2Proof.Machine

/-! ### Drives -/

/-- A command of the line or of a drive under its condition. -/
theorem next_of_pos {p : Prop} [Decidable p] {s t : State} (hp : p) :
    Host.Outcome.next (if p then t else s) = (Host.Outcome.next t : Host.Outcome State Fault Refusal) := by rw [if_pos hp]

/-- A command of the line or of a drive without its condition. -/
theorem next_of_neg {p : Prop} [Decidable p] {s t : State} (hp : ¬ p) :
    Host.Outcome.next (if p then t else s) = (Host.Outcome.next s : Host.Outcome State Fault Refusal) := by rw [if_neg hp]

/-- Settles O42: each step under its condition. -/
theorem drivesBeginAndEnd : Obligations.DrivesBeginAndEnd := by
  unfold Obligations.DrivesBeginAndEnd
  intro s
  exact ⟨fun h1 h2 => next_of_pos ⟨h1, h2⟩, fun h1 h2 => next_of_pos ⟨h1, h2⟩, fun h1 h2 => next_of_pos ⟨h1, h2⟩,
    fun h1 h2 => next_of_pos ⟨h1, h2⟩, fun h1 h2 => next_of_pos ⟨h1, h2⟩, fun h1 h2 => next_of_pos ⟨h1, h2⟩⟩

/-! ### The loss test -/

section LossTest

variable {s : State} (hreleased : s.ctu.drive.phase = .released)
include hreleased

theorem execLossTest_of_active (hactive : s.lfe.active = true) (hs : s.ctu.state = .lead ∨ s.ctu.state = .claim) :
    execLossTest s = .next (claimLost s) := by
  rw [execLossTest, if_pos ⟨hreleased, hs⟩, if_pos hactive]

variable (hactive : s.lfe.active = false)
include hactive

theorem execLossTest_of_lead (hs : s.ctu.state = .lead) :
    execLossTest s = .next (s.setCtu { s.ctu with state := .claim, digitIndex := 0, drive := Drive.none }) := by
  rw [execLossTest, if_pos ⟨hreleased, .inl hs⟩, if_neg (by simp [hactive]), if_pos hs]

theorem execLossTest_of_digit (hs : s.ctu.state = .claim) (hindex : s.ctu.digitIndex < 3) :
    execLossTest s = .next (s.setCtu { s.ctu with digitIndex := s.ctu.digitIndex + 1, drive := Drive.none }) := by
  rw [execLossTest, if_pos ⟨hreleased, .inr hs⟩, if_neg (by simp [hactive]), if_neg (by simp [hs]), if_neg (by omega)]

theorem execLossTest_of_last_digit (hs : s.ctu.state = .claim) (hindex : s.ctu.digitIndex = 3) :
    execLossTest s = .next (claimWon s) := by
  rw [execLossTest, if_pos ⟨hreleased, .inr hs⟩, if_neg (by simp [hactive]), if_neg (by simp [hs]), if_pos (by omega)]

end LossTest

theorem claimWon_of_locked {s : State} {c : Candidate} (hc : s.ctu.locked = some c) :
    claimWon s =
      { s with
        ctu :=
          { s.ctu with
            state := .won, drive := Drive.none
            roundSpent := s.ctu.roundSpent || decide (priorityDigit c.kind c.lane ≤ 1) }
        ftx := { Ftx.reset with state := .header, faultCount := s.ftx.faultCount } } := by
  simp only [claimWon, lockedDigit, hc]
  rfl

/-- Settles O43: the level of the line, the state of the contest and the digit index exclude each other's cases. -/
theorem lossTestDecidesTheContest : Obligations.LossTestDecidesTheContest := by
  unfold Obligations.LossTestDecidesTheContest
  intro s c hreleased hc
  refine ⟨fun hactive hs => ?lost, fun hactive hs => ?first, fun hactive hs hindex => ?next, fun hactive hs hindex => ?won⟩
  case lost => exact execLossTest_of_active hreleased hactive hs
  case first => exact execLossTest_of_lead hreleased hactive hs
  case next => exact execLossTest_of_digit hreleased hactive hs hindex
  case won =>
    rw [show exec .lossTest s = _ from execLossTest_of_last_digit hreleased hactive hs hindex, claimWon_of_locked hc]

/-! ### The drive fault -/

/-- The part after a drive fault has been counted and the candidate released, before a halt or a naming (R109, R115). -/
def faulted (seen : Bool) (s : State) : State :=
  resolve .released
    { s with
      ctu := { s.ctu with state := .waiting, idleSeen := seen, locked := none, drive := Drive.none }
      ftx := { s.ftx with faultCount := min 4 (s.ftx.faultCount + 1) } }

theorem faulted_ftx (seen : Bool) (s : State) :
    (faulted seen s).ftx = { s.ftx with faultCount := min 4 (s.ftx.faultCount + 1) } := by simp [faulted]

theorem faulted_ctu (seen : Bool) (s : State) :
    (faulted seen s).ctu = { s.ctu with state := .waiting, idleSeen := seen, locked := none, drive := Drive.none } := by
  simp [faulted]

theorem driveFault_eq (s : State) :
    driveFault s = nameMoment (haltIfFaulty (faulted (decide (s.ctu.state = .lead)) s)) := rfl

/-- Fewer than four faults do not halt (R115). -/
theorem haltIfFaulty_of_lt {s : State} (h : s.ftx.faultCount < 4) : haltIfFaulty s = s := by
  rcases haltIfFaulty_cases s with ⟨hle, -⟩ | ⟨-, e⟩
  · omega
  · exact e

theorem haltIfFaulty_of_four {s : State} (h : 4 ≤ s.ftx.faultCount) : haltIfFaulty s = halt .transmitFault s := by
  rcases haltIfFaulty_cases s with ⟨-, e⟩ | ⟨hlt, -⟩
  · exact e
  · omega

/-- A halted part names nothing: its CTU is OFF. -/
theorem nameMoment_halt (why : HaltReason) (s : State) : nameMoment (halt why s) = halt why s :=
  nameMoment_of_closed (.inl (by simp [halt, ctuOff, Ctu.reset]))

theorem driveFault_of_lt {s : State} (hlt : s.ftx.faultCount < 3) :
    driveFault s = nameMoment (faulted (decide (s.ctu.state = .lead)) s) := by
  rw [driveFault_eq, haltIfFaulty_of_lt]
  rw [faulted_ftx]
  show min 4 (s.ftx.faultCount + 1) < 4
  omega

theorem driveFault_of_third {s : State} (hle : 3 ≤ s.ftx.faultCount) :
    driveFault s = halt .transmitFault (faulted (decide (s.ctu.state = .lead)) s) := by
  rw [driveFault_eq, haltIfFaulty_of_four, nameMoment_halt]
  rw [faulted_ftx]
  show 4 ≤ min 4 (s.ftx.faultCount + 1)
  omega

theorem faultChecked_of_lead {s : State} (hdriving : s.ctu.drive.phase = .driving) (hedge : s.ctu.drive.edgeAge = none)
    (hs : s.ctu.state = .lead) (hjoined : s.ctu.joined = false) : faultChecked s = true := by
  simp [faultChecked, hdriving, hedge, hs, hjoined]

theorem faultChecked_of_claim {s : State} (hdriving : s.ctu.drive.phase = .driving) (hedge : s.ctu.drive.edgeAge = none)
    (hs : s.ctu.state = .claim) : faultChecked s = true := by
  simp [faultChecked, hdriving, hedge, hs]

theorem faultChecked_of_no_fault {s : State}
    (h : s.ctu.drive.edgeAge ≠ none ∨ (s.ctu.state = .lead ∧ s.ctu.joined = true)) : faultChecked s = false := by
  unfold faultChecked
  rcases h with h | ⟨hs, hjoined⟩
  · cases he : s.ctu.drive.edgeAge with
    | none => exact absurd he h
    | some n => simp
  · simp [hs, hjoined]

/-- Settles O44: a fault that is checked, by the state of the contest and the count before it. -/
theorem driveFaultReleasesTheCandidate : Obligations.DriveFaultReleasesTheCandidate := by
  unfold Obligations.DriveFaultReleasesTheCandidate
  intro s hdriving
  refine ⟨fun hedge hs hjoined hlt => ?lead, fun hedge hs hlt => ?digit, fun hedge hs hle => ?digitHalts,
    fun hedge hs hjoined hle => ?leadHalts, fun hno => ?noFault⟩
  case lead =>
    rw [show exec .driveFaultCheck s = _ from next_of_pos (faultChecked_of_lead hdriving hedge hs hjoined),
      driveFault_of_lt hlt, decide_eq_true hs]
    rfl
  case digit =>
    rw [show exec .driveFaultCheck s = _ from next_of_pos (faultChecked_of_claim hdriving hedge hs),
      driveFault_of_lt hlt, decide_eq_false (by simp [hs]), nameMoment_of_closed (.inr (by rw [faulted_ctu]))]
    rfl
  case digitHalts =>
    rw [show exec .driveFaultCheck s = _ from next_of_pos (faultChecked_of_claim hdriving hedge hs),
      driveFault_of_third hle, decide_eq_false (by simp [hs])]
    rfl
  case leadHalts =>
    rw [show exec .driveFaultCheck s = _ from next_of_pos (faultChecked_of_lead hdriving hedge hs hjoined),
      driveFault_of_third hle, decide_eq_true hs]
    rfl
  case noFault => exact next_of_neg (by simp [faultChecked_of_no_fault hno])

/-! ### The capture -/

theorem readSequence_of_locked {s : State} {c : Candidate} (hc : s.ctu.locked = some c) :
    readSequence s = if c.kind = .data then
        ((peerAt s c.dest).txToggle.get c.lane, (peerAt s c.dest).resyncPending.get c.lane)
      else (false, false) := by
  simp only [readSequence, hc]

/-- Settles O45: the first header symbol captures, the later ones begin alone. -/
theorem firstHeaderSymbolCaptures : Obligations.FirstHeaderSymbolCaptures := by
  unfold Obligations.FirstHeaderSymbolCaptures
  intro s c hframe hrest hc
  refine ⟨fun hheader hindex => ?first, fun hlater => ?later⟩
  case first =>
    rw [show exec .symbolDriveStart s = _ from next_of_pos ⟨hframe, hrest⟩, beginSymbol, if_pos ⟨hheader, hindex⟩,
      readSequence_of_locked hc]
    split <;> rfl
  case later =>
    rw [show exec .symbolDriveStart s = _ from next_of_pos ⟨hframe, hrest⟩, beginSymbol, if_neg (by tauto)]
    rfl

/-! ### The naming moment, and causes (a) and (b) -/

theorem lockMessage_eq (c : Candidate) (s : State) : lockMessage c s = s.setTxs (lockMessage c s).txs := by
  unfold lockMessage
  split <;> rfl

theorem startLead_eq (c : Candidate) (s : State) :
    startLead c s =
      { s with
        ctu :=
          { s.ctu with
            state := .lead, idleSeen := false, locked := some c, joined := false, drive := ⟨.driving, 0, none⟩ }
        txs := (lockMessage c s).txs } := by
  rw [startLead, lockMessage_eq]
  rfl

/-- Settles O49. -/
theorem namingMomentStartsTheLead : Obligations.NamingMomentStartsTheLead := by
  unfold Obligations.NamingMomentStartsTheLead
  intro s
  refine ⟨fun c hs hseen hactive hname => ?starts, fun hno => ?nothing⟩
  case starts => 
    rw [nameMoment, if_pos ⟨hs, hseen, by simp [hactive]⟩, hname]
    exact startLead_eq c s
  case nothing =>
    rcases nameMoment_cases s with e | ⟨c, hname, hs, hseen, hactive, -⟩
    · exact e
    · simp [hname, hs, hseen, hactive] at hno

/-- Condition (b) by its four free counts: room in the shared region serves every lane (R16). -/
theorem conditionB_iff (s : State) :
    conditionB s = true ↔
      (0 < freeShared s ∧ s.rxp.selfView.shared = 0
        ∧ (s.rxp.selfView.reserve.a = 0 ∨ s.rxp.selfView.reserve.b = 0 ∨ s.rxp.selfView.reserve.c = 0))
      ∨ (0 < freeReserve s .a ∧ s.rxp.selfView.reserve.a + s.rxp.selfView.shared = 0)
      ∨ (0 < freeReserve s .b ∧ s.rxp.selfView.reserve.b + s.rxp.selfView.shared = 0)
      ∨ (0 < freeReserve s .c ∧ s.rxp.selfView.reserve.c + s.rxp.selfView.shared = 0) := by
  simp only [conditionB, laneShutOut, PerLane.get, Bool.or_eq_true, Bool.and_eq_true, beq_iff_eq, decide_eq_true_eq]
  omega

/-- Settles O50: the two conditions on the free counts as numbers. -/
theorem evaluationAddsCausesAAndB : Obligations.EvaluationAddsCausesAAndB := by
  unfold Obligations.EvaluationAddsCausesAAndB
  intro s
  extract_lets fa fb fc fs v a b
  have ha : conditionA s = a := rfl
  have hb : conditionB s = b := by
    have hfa : fa = (freeReserve s .a : Nat) := rfl
    have hfb : fb = (freeReserve s .b : Nat) := rfl
    have hfc : fc = (freeReserve s .c : Nat) := rfl
    have hfs : fs = (freeShared s : Nat) := rfl
    rw [Bool.eq_iff_iff, conditionB_iff]
    simp only [b, Bool.or_eq_true, decide_eq_true_eq, hfa, hfb, hfc, hfs, Int.natCast_pos, or_assoc]
    rfl
  rw [evalCauses_eq, ha, hb]
  rfl

end Sys2Proof.Machine
end

