-- ==== Sys2Proof/Proofs/Selection.lean ====
section
/-! SUPPORT. The Frame Selector: eligibility and owed POLLs as the rules say them, the lanes by their oldest eligible message,
and the statements about what is named. -/

namespace Sys2Proof.Machine

/-! ### Eligibility and owed POLLs -/

theorem Message.unicast_iff (m : Message) : m.unicast = true ↔ m.dest ≠ 31 := by simp [Message.unicast, Config.broadcastDest]

theorem Message.unicast_eq_false_iff (m : Message) : m.unicast = false ↔ m.dest = 31 := by
  simp [Message.unicast, Config.broadcastDest]

theorem Advert.room_iff (v : Advert) (l : Lane) : v.room l = true ↔ 0 < v.reserve.get l ∨ 0 < v.shared := by
  simp [Advert.room]

/-- Eligibility (R72). -/
theorem eligible_iff (s : State) (m : Message) :
    eligible s m = true ↔
      m.state = .queued ∧ (m.dest = 31 ∨
        ((peerAt s m.dest).presence = .present ∧ (peerAt s m.dest).stale = false
          ∧ (0 < (peerAt s m.dest).view.reserve.get m.lane ∨ 0 < (peerAt s m.dest).view.shared))) := by
  simp only [eligible, Bool.and_eq_true, Bool.or_eq_true, beq_iff_eq, Bool.not_eq_true', Message.unicast_eq_false_iff,
    Advert.room_iff, and_assoc]

theorem pickable_iff (s : State) (l : Lane) (m : Message) :
    pickable s l m = true ↔ m.lane = l ∧ eligible s m = true := by
  simp [pickable]

/-- A POLL is owed (R40). -/
theorem pollOwed_iff {s : State} {p : Nat} (hp : p ≤ 30) :
    pollOwed s p = true ↔
      (peerAt s p).presence = .present ∧ (peerAt s p).stale = true ∧ (peerAt s p).pollAge ≠ .zero
        ∧ ∃ m ∈ s.txs.store, m.state = .queued ∧ m.dest = p := by
  simp only [pollOwed, queuedTo, Bool.and_eq_true, List.any_eq_true, beq_iff_eq, bne_iff_ne, Message.unicast_iff, and_assoc]
  constructor
  · rintro ⟨h1, h2, h3, m, hm, hq, hd, -⟩
    exact ⟨h1, h2, h3, m, hm, hq, hd⟩
  · rintro ⟨h1, h2, h3, m, hm, hq, hd⟩
    exact ⟨h1, h2, h3, m, hm, hq, hd, by omega⟩

/-! ### The lanes -/

theorem candidate_eq (m : Message) :
    m.candidate = { kind := if m.dest = 31 then .broadcast else .data, dest := m.dest, lane := m.lane, payload := m.payload } := by
  unfold Message.candidate
  by_cases h : m.dest = 31
  · rw [if_pos h, if_neg (by simp [(Message.unicast_eq_false_iff m).mpr h])]
  · rw [if_neg h, if_pos ((Message.unicast_iff m).mpr h)]

theorem laneCandidate_of_split {s : State} {l : Lane} {before after : List Message} {m : Message}
    (hs : s.txs.store = before ++ m :: after) (hb : ∀ x ∈ before, x.lane = l → ¬ eligible s x = true) (hl : m.lane = l)
    (hm : eligible s m = true) : laneCandidate s l = some m.candidate := by
  have hbefore : ∀ x ∈ before, pickable s l x = false := by
    intro x hx
    rw [← Bool.not_eq_true, pickable_iff]
    exact fun ⟨h, he⟩ => hb x hx h he
  rw [laneCandidate, hs, find?_split hbefore ((pickable_iff s l m).mpr ⟨hl, hm⟩)]
  rfl

theorem laneCandidate_of_none {s : State} {l : Lane} (h : ∀ m ∈ s.txs.store, m.lane = l → ¬ eligible s m = true) :
    laneCandidate s l = none := by
  have hnone : s.txs.store.find? (pickable s l) = none :=
    List.find?_eq_none.mpr fun m hm hp => h m hm ((pickable_iff s l m).mp hp).1 ((pickable_iff s l m).mp hp).2
  rw [laneCandidate, hnone]
  rfl

/-- What a lane offers is its oldest eligible message (R73). -/
theorem exists_split_of_laneCandidate {s : State} {l : Lane} {c : Candidate} (h : laneCandidate s l = some c) :
    ∃ before after m, s.txs.store = before ++ m :: after ∧ pickable s l m = true ∧ (∀ x ∈ before, pickable s l x = false)
      ∧ c = m.candidate := by
  unfold laneCandidate at h
  cases hm : s.txs.store.find? (pickable s l) with
  | none => rw [hm] at h; cases h
  | some m =>
    rw [hm] at h
    cases h
    obtain ⟨before, after, hs, hb, hp⟩ := exists_split hm
    exact ⟨before, after, m, hs, hp, hb, rfl⟩

/-! ### The digits -/

theorem controlNamed_of_owed {s : State} (h : s.rxp.owed = true) : controlNamed s = some (controlCandidate .status 31) := by
  rw [controlNamed, if_pos h]
  rfl

theorem controlNamed_of_poll {s : State} (h : s.rxp.owed = false) {p : Nat} (hp : p ≤ 30) (howed : pollOwed s p = true)
    (hfirst : ∀ q < p, pollOwed s q = false) : controlNamed s = some (controlCandidate .poll p) := by
  have hfind : (List.range 31).find? (pollOwed s) = some p := by
    rw [List.find?_range_eq_some]
    exact ⟨howed, List.mem_range.mpr (by omega), fun q hq => by simpa using hfirst q hq⟩
  rw [controlNamed, if_neg (by simp [h]), Config.stations, hfind]
  rfl

theorem controlNamed_of_none {s : State} (h : s.rxp.owed = false) (hnone : ∀ p ≤ 30, pollOwed s p = false) :
    controlNamed s = none := by
  have hfind : (List.range 31).find? (pollOwed s) = none :=
    List.find?_eq_none.mpr fun p hp => by simp [hnone p (by have := List.mem_range.mp hp; omega)]
  rw [controlNamed, if_neg (by simp [h]), Config.stations, hfind]
  rfl

theorem name_of_active {s : State} (h : s.stc.station = .active) :
    name s = (laneCandidate s .a).or ((controlNamed s).or
      (if s.ctu.roundSpent then none else (laneCandidate s .b).or (laneCandidate s .c))) := by
  rw [name, h]

/-- Settles O48: the digits one after the other, each by what the digits above it do not offer. -/
theorem selectorWalksTheDigits : Obligations.SelectorWalksTheDigits := by
  unfold Obligations.SelectorWalksTheDigits
  intro s
  extract_lets control sendable polled noneIn oldestIn
  have hsendable : ∀ m, sendable m ↔ eligible s m = true := fun m => (eligible_iff s m).symm
  have hpolled : ∀ p ≤ 30, polled p ↔ pollOwed s p = true := fun p hp => (pollOwed_iff hp).symm
  have hnone : ∀ l, noneIn l → laneCandidate s l = none := fun l h =>
    laneCandidate_of_none fun m hm hl he => h m hm hl ((hsendable m).mpr he)
  have holdest : ∀ l, (∀ c, laneCandidate s l = some c → name s = some c) → oldestIn l := by
    intro l hname before after m hs hl hm hb
    have hlane := laneCandidate_of_split hs (fun x hx hxl he => hb x hx hxl ((hsendable x).mpr he)) hl ((hsendable m).mp hm)
    rw [hname _ hlane, candidate_eq, hl]
  refine ⟨fun hj => ?joining, fun hj ha => ?silent, fun hactive => ?_⟩
  case joining => rw [name, hj]; rfl
  case silent => unfold name; split <;> simp_all
  have hname := name_of_active hactive
  refine ⟨holdest .a fun c hc => by rw [hname, hc]; rfl, fun ha => ?_⟩
  rw [hnone .a ha, Option.none_or] at hname
  refine ⟨fun howed => ?status, fun howed p hp hpoll hfirst => ?poll, fun howed hpolls => ?_⟩
  case status => rw [hname, controlNamed_of_owed howed]; rfl
  case poll =>
    have hq : ∀ q < p, pollOwed s q = false := fun q hq => Bool.eq_false_iff.mpr fun h => hfirst q hq ((hpolled q (by omega)).mpr h)
    rw [hname, controlNamed_of_poll howed hp ((hpolled p hp).mp hpoll) hq]
    rfl
  have hcontrol : controlNamed s = none :=
    controlNamed_of_none howed fun p hp => Bool.eq_false_iff.mpr fun h => hpolls p hp ((hpolled p hp).mpr h)
  rw [hcontrol, Option.none_or] at hname
  refine ⟨fun hspent => by rw [hname, if_pos hspent], fun hfresh => ?_⟩
  rw [if_neg (by simp [hfresh])] at hname
  refine ⟨holdest .b fun c hc => by rw [hname, hc]; rfl, fun hb => ?_⟩
  rw [hnone .b hb, Option.none_or] at hname
  exact ⟨holdest .c fun c hc => by rw [hname, hc], fun hc => by rw [hname, hnone .c hc]⟩

/-! ### The lock -/

/-- A named message is the oldest eligible one of a lane in ACTIVE (R73, R74). -/
theorem exists_message_of_name {s : State} {c : Candidate} (h : name s = some c) (hk : c.kind = .data ∨ c.kind = .broadcast) :
    s.stc.station = .active ∧ ∃ before after m, s.txs.store = before ++ m :: after ∧ pickable s c.lane m = true
      ∧ (∀ x ∈ before, pickable s c.lane x = false) ∧ c = m.candidate := by
  have lane : ∀ l, laneCandidate s l = some c → ∃ before after m, s.txs.store = before ++ m :: after
      ∧ pickable s c.lane m = true ∧ (∀ x ∈ before, pickable s c.lane x = false) ∧ c = m.candidate := by
    intro l hl
    obtain ⟨before, after, m, hs, hp, hb, rfl⟩ := exists_split_of_laneCandidate hl
    have hlane : m.candidate.lane = l := ((pickable_iff s l m).mp hp).1
    exact ⟨before, after, m, hs, by rwa [hlane], by rwa [hlane], rfl⟩
  unfold name at h
  split at h
  · rename_i hactive
    refine ⟨hactive, ?_⟩
    rw [Option.or_eq_some_iff, Option.or_eq_some_iff] at h
    rcases h with h | ⟨-, h | ⟨-, h⟩⟩
    · exact lane .a h
    · unfold controlNamed at h
      split at h
      · cases h
        simp [controlCandidate] at hk
      · obtain ⟨p, -, rfl⟩ := Option.map_eq_some_iff.mp h
        simp [controlCandidate] at hk
    · split at h
      · cases h
      · rw [Option.or_eq_some_iff] at h
        rcases h with h | ⟨-, h⟩
        · exact lane .b h
        · exact lane .c h
  · cases h
    simp [controlCandidate] at hk
  · cases h

theorem lockMessage_of_split {s : State} {c : Candidate} {before after : List Message} {m : Message}
    (hk : c.kind.isMessage = true) (hs : s.txs.store = before ++ m :: after) (hb : ∀ x ∈ before, pickable s c.lane x = false)
    (hm : pickable s c.lane m = true) :
    lockMessage c s = s.setTxs { s.txs with store := before ++ { m with state := .inFlight } :: after } := by
  rw [lockMessage, if_pos hk, hs, updateFirst_split hm hb]

/-- Settles O47: the named message by the split of the store order at it. -/
theorem namedDataFrameHasCreditAndOrder : Obligations.NamedDataFrameHasCreditAndOrder := by
  unfold Obligations.NamedDataFrameHasCreditAndOrder
  intro s c hname
  refine ⟨fun hk => ?message, fun hk => ?control⟩
  case control =>
    rw [lockMessage, if_neg]
    rcases hk with h | h | h <;> simp [h, FrameKind.isMessage]
  case message =>
    obtain ⟨hactive, before, after, m, hs, hm, hb, hc⟩ := exists_message_of_name hname hk
    have hfields := candidate_eq m
    rw [← hc] at hfields
    obtain ⟨hlane, helig⟩ := (pickable_iff s c.lane m).mp hm
    obtain ⟨hqueued, hdest⟩ := (eligible_iff s m).mp helig
    have hd : c.dest = m.dest := by rw [hfields]
    have hbroadcast : c.kind = .broadcast ↔ c.dest = 31 := by
      rw [hfields]
      dsimp only
      by_cases h31 : m.dest = 31
      · rw [if_pos h31]
        exact iff_of_true rfl h31
      · rw [if_neg h31]
        exact iff_of_false (by simp) h31
    refine ⟨hactive, hbroadcast, fun hdata => ?_, before, after, m, hs, hqueued, hd.symm, hlane, by rw [hfields], fun x hx => ?_,
      lockMessage_of_split (by rcases hk with h | h <;> simp [h, FrameKind.isMessage]) hs hb hm⟩
    · have hne : m.dest ≠ 31 := by
        intro e
        have := hbroadcast.mpr (hd.trans e)
        simp [hdata] at this
      rcases hdest with e | hcredit
      · exact absurd e hne
      · rwa [hd, ← hlane]
    · rintro ⟨hxq, hxd, hxl⟩
      have hxe : eligible s x = true := (eligible_iff s x).mpr ⟨hxq, by rwa [hxd, hxl]⟩
      have := hb x hx
      rw [(pickable_iff s c.lane x).mpr ⟨hxl.trans hlane, hxe⟩] at this
      cases this

end Sys2Proof.Machine
end

