-- ==== Sys2Proof/Proofs/HostBytes.lean ====
section
/-! SUPPORT. The bytes of a host command at the port: a byte at a time, a run of operand bytes, and the statement that they
spell their command. -/

namespace Sys2Proof.Machine

/-! ### A byte at a time -/

/-- The port in the operand of a command, with the operand bytes that have come and the number it needs. -/
def collecting (code : Byte) (operand : List Byte) (need : Nat) (s : State) : State :=
  s.setHpt { s.hpt with txn := .operand, commandByte := some code, operand := operand, operandLength := need }

theorem clockByte_of_command {code : Byte} {n : Nat} {s : State} (htxn : s.hpt.txn = .command)
    (hlen : operandLengthOf code = some (n + 1)) : clockByte code s = collecting code [] (n + 1) s := by
  simp only [clockByte, htxn, commandByteIn, hlen]
  rfl

theorem clockByte_of_bare_command {code : Byte} {s : State} (htxn : s.hpt.txn = .command)
    (hlen : operandLengthOf code = none ∨ operandLengthOf code = some 0) :
    clockByte code s = enqueueCommand code [] (s.setHpt { s.hpt with commandByte := some code }) := by
  rcases hlen with h | h <;> simp only [clockByte, htxn, commandByteIn, h]

/-- The bytes that are needed once a byte has come: a LOAD's length byte, the fifth, may say how many follow (R172). -/
def needAfter (code : Byte) (operand : List Byte) (need : Nat) (b : Byte) : Nat :=
  if (code = 0x20#8 ∧ operand.length + 1 = 5) ∧ lengthValid b = true then 5 + b.toNat else need

theorem clockByte_collecting (code : Byte) (operand : List Byte) (need : Nat) (b : Byte) (s : State) :
    clockByte b (collecting code operand need s) =
      if operand.length + 1 = needAfter code operand need b then
        enqueueCommand code (operand ++ [b]) (collecting code (operand ++ [b]) (needAfter code operand need b) s)
      else collecting code (operand ++ [b]) (needAfter code operand need b) s := by
  simp only [clockByte, collecting, operandByteIn, State.setHpt_hpt, Option.getD_some, List.length_append, List.length_singleton]
  rfl

theorem needAfter_of_plain {code : Byte} {operand : List Byte} {need : Nat} {b : Byte}
    (h : code ≠ 0x20#8 ∨ operand.length ≠ 4) : needAfter code operand need b = need :=
  if_neg fun ⟨⟨hcode, hlen⟩, _⟩ => h.elim (· hcode) fun hne => hne (by omega)

/-- Operand bytes, of which none is a LOAD's length byte, short of the last. -/
theorem foldl_clockByte_of_lt {code : Byte} {need : Nat} {s : State} : ∀ (bytes operand : List Byte),
    (code ≠ 0x20#8 ∨ operand.length + bytes.length ≤ 4 ∨ 5 ≤ operand.length) → operand.length + bytes.length < need →
    bytes.foldl (fun u b => clockByte b u) (collecting code operand need s) = collecting code (operand ++ bytes) need s
  | [], operand, _, _ => by simp
  | b :: bytes, operand, hplain, hlt => by
    simp only [List.length_cons] at hplain hlt
    have hb : code ≠ 0x20#8 ∨ operand.length ≠ 4 := hplain.imp_right fun h => by omega
    have hnext : code ≠ 0x20#8 ∨ (operand ++ [b]).length + bytes.length ≤ 4 ∨ 5 ≤ (operand ++ [b]).length :=
      hplain.imp_right fun h => by simp only [List.length_append, List.length_singleton]; omega
    rw [List.foldl_cons, clockByte_collecting, needAfter_of_plain hb, if_neg (by omega),
      foldl_clockByte_of_lt bytes (operand ++ [b]) hnext (by simp; omega)]
    simp

/-- Operand bytes up to the last one needed: the command joins the queue. -/
theorem foldl_clockByte_of_last {code : Byte} {need : Nat} {s : State} {bytes operand : List Byte} (hne : bytes ≠ [])
    (hplain : code ≠ 0x20#8 ∨ 5 ≤ operand.length) (hneed : operand.length + bytes.length = need) :
    bytes.foldl (fun u b => clockByte b u) (collecting code operand need s) =
      enqueueCommand code (operand ++ bytes) (collecting code (operand ++ bytes) need s) := by
  obtain ⟨head, b, rfl⟩ := List.eq_nil_or_concat bytes |>.resolve_left hne
  simp only [List.length_append, List.length_singleton, List.concat_eq_append] at hneed ⊢
  have hb : code ≠ 0x20#8 ∨ (operand ++ head).length ≠ 4 :=
    hplain.imp_right fun h => by simp only [List.length_append]; omega
  rw [List.foldl_append, foldl_clockByte_of_lt head operand (by tauto) (by omega), List.foldl_cons, List.foldl_nil,
    clockByte_collecting, needAfter_of_plain hb, if_pos (by simp; omega), List.append_assoc]

/-! ### A command's bytes -/

theorem halfOf_halfBytes (h : Half) : halfOf (h.extractLsb' 8 8) (h.extractLsb' 0 8) = h := by
  apply BitVec.eq_of_toNat_eq
  rw [halfOf, extractLsb'_high_byte, extractLsb'_low_byte, toNat_append_eq]
  have := h.isLt
  simp
  omega

/-- The bytes of a well-formed command spell it (Table 10.6). -/
theorem hostCommand_of_hostBytes {i : Instr} {code : Byte} {operand : List Byte} (hi : i.wellFormed = true)
    (h : hostBytes i = some (code, operand)) : hostCommand code operand = some i := by
  cases i <;> cases h
  case unknownCommand =>
    simp only [Instr.wellFormed, knownCodes, List.contains_cons, List.contains_nil, Bool.not_eq_true', Bool.or_eq_false_iff,
      beq_eq_false_iff_ne] at hi
    obtain ⟨h1, h2, h3, h4, h5, h6, h7, h8, h9, h10, h11, h12, -⟩ := hi
    simp only [hostCommand, if_neg, h1, h2, h3, h4, h5, h6, h7, h8, h9, h10, h11, h12, not_false_eq_true]
  case load tag dest lane len payload => simp [hostCommand, halfBytes, halfOf_halfBytes]
  case withdraw tag => simp [hostCommand, halfBytes, halfOf_halfBytes]
  all_goals rfl

/-- A part that has taken in the bytes of a command: it waits in the queue, the port stands ready to take it, and nothing
else has changed. -/
structure Spelled (code : Byte) (i : Instr) (s t : State) : Prop where
  queue : t = { s with pending := s.pending ++ [i], hpt := t.hpt }
  ready : portOpen code t = true
  port : t.hpt.notices = s.hpt.notices ∧ t.hpt.noticesLost = s.hpt.noticesLost ∧ t.hpt.counters = s.hpt.counters
    ∧ t.hpt.resetDue = s.hpt.resetDue

theorem spelled_of_collected {code : Byte} {i : Instr} {s : State} {operand : List Byte} {need : Nat}
    (hrst : s.rstLow = false) (h : hostCommand code operand = some i) :
    Spelled code i s (enqueueCommand code operand (collecting code operand need s)) := by
  constructor
  · rw [enqueueCommand, h]; rfl
  · simp [portOpen, enqueueCommand, collecting, hrst]
  · exact ⟨rfl, rfl, rfl, rfl⟩

theorem spelled_of_bare {code : Byte} {i : Instr} {s : State} (htxn : s.hpt.txn = .command) (hrst : s.rstLow = false)
    (h : hostCommand code [] = some i) :
    Spelled code i s (enqueueCommand code [] (s.setHpt { s.hpt with commandByte := some code })) := by
  constructor
  · rw [enqueueCommand, h]; rfl
  · simp [portOpen, enqueueCommand, htxn, hrst]
  · exact ⟨rfl, rfl, rfl, rfl⟩

section Spell

variable {code : Byte} {i : Instr} {s : State} (htxn : s.hpt.txn = .command) (hrst : s.rstLow = false)
include htxn hrst

/-- A command of a code byte alone. -/
theorem spelled_of_no_operand (hlen : operandLengthOf code = none ∨ operandLengthOf code = some 0)
    (h : hostCommand code [] = some i) : Spelled code i s ([code].foldl (fun u b => clockByte b u) s) := by
  rw [List.foldl_cons, List.foldl_nil, clockByte_of_bare_command htxn hlen]
  exact spelled_of_bare htxn hrst h

/-- A command of a fixed number of operand bytes. -/
theorem spelled_of_operand {operand : List Byte} (hload : code ≠ 0x20#8) (hne : operand ≠ [])
    (hlen : operandLengthOf code = some operand.length) (h : hostCommand code operand = some i) :
    Spelled code i s ((code :: operand).foldl (fun u b => clockByte b u) s) := by
  obtain ⟨b, rest, rfl⟩ := List.exists_cons_of_ne_nil hne
  rw [List.foldl_cons, clockByte_of_command htxn hlen, foldl_clockByte_of_last hne (.inl hload) (by simp)]
  exact spelled_of_collected hrst h

/-- LOAD: four bytes, the length byte, and the payload it announces (R172). -/
theorem spelled_of_load {tag : Half} {dest lane len : Byte} {payload : List Byte}
    (hwf : (Instr.load tag dest lane len payload).wellFormed = true) :
    Spelled 0x20#8 (.load tag dest lane len payload) s
      ((0x20#8 :: (halfBytes tag ++ dest :: lane :: len :: payload)).foldl (fun u b => clockByte b u) s) := by
  have hcommand := hostCommand_of_hostBytes hwf rfl
  have hsplit : halfBytes tag ++ dest :: lane :: len :: payload = (halfBytes tag ++ [dest, lane]) ++ len :: payload := by simp
  have hfour : (halfBytes tag ++ [dest, lane]).length = 4 := rfl
  have hfive : (halfBytes tag ++ [dest, lane] ++ [len]).length = 5 := rfl
  rw [List.foldl_cons, clockByte_of_command (n := 4) htxn rfl, hsplit, List.foldl_append,
    foldl_clockByte_of_lt _ [] (by simp [hfour]) (by simp [hfour]), List.nil_append, List.foldl_cons, clockByte_collecting, hfour]
  rw [hsplit] at hcommand
  simp only [Instr.wellFormed] at hwf
  split at hwf
  · rename_i hvalid
    have hpayload : payload.length = len.toNat := by simpa using hwf
    obtain ⟨hpos, -⟩ := (lengthValid_eq_true_iff len).mp hvalid
    have hneed : needAfter 0x20#8 (halfBytes tag ++ [dest, lane]) 5 len = 5 + len.toNat := if_pos ⟨⟨rfl, rfl⟩, hvalid⟩
    rw [hneed, if_neg (by omega), foldl_clockByte_of_last (by rintro rfl; simp at hpayload; omega) (.inr hfive.ge)
      (by rw [hfive, hpayload])]
    refine spelled_of_collected hrst ?_
    simpa using hcommand
  · rename_i hvalid
    have hneed : needAfter 0x20#8 (halfBytes tag ++ [dest, lane]) 5 len = 5 := if_neg fun h => hvalid h.2
    obtain rfl : payload = [] := by simpa using hwf
    rw [hneed, if_pos rfl, List.foldl_nil]
    exact spelled_of_collected hrst (by simpa using hcommand)

end Spell

theorem spelled_of_hostBytes {i : Instr} {code : Byte} {operand : List Byte} {s : State} (hi : i.wellFormed = true)
    (h : hostBytes i = some (code, operand)) (htxn : s.hpt.txn = .command) (hrst : s.rstLow = false) :
    Spelled code i s ((code :: operand).foldl (fun u b => clockByte b u) s) := by
  have hcommand := hostCommand_of_hostBytes hi h
  cases i <;> cases h
  case load => exact spelled_of_load htxn hrst hi
  case peer => exact spelled_of_operand htxn hrst (by decide) (by simp) rfl hcommand
  case setup => exact spelled_of_operand htxn hrst (by decide) (by simp) rfl hcommand
  case withdraw => exact spelled_of_operand htxn hrst (by decide) (by simp [halfBytes]) rfl hcommand
  case unknownCommand =>
    refine spelled_of_no_operand htxn hrst (.inl ?_) hcommand
    exact if_pos (show (!knownCodes.contains code) = true from hi)
  all_goals exact spelled_of_no_operand htxn hrst (.inr rfl) hcommand

/-- Settles O59. -/
theorem hostBytesSpellTheirCommand : Obligations.HostBytesSpellTheirCommand := by
  unfold Obligations.HostBytesSpellTheirCommand
  intro i code operand s hi h htxn hrst
  obtain ⟨hqueue, hready, hport⟩ := spelled_of_hostBytes hi h htxn hrst
  exact ⟨hqueue, hready, hport⟩

end Sys2Proof.Machine
end

