-- ==== Sys2Proof/Proofs/Ticks.lean ====
section
/-! SUPPORT. What a tick brings and leaves: the commands that a position, its sample and a host byte add to the queue. -/

namespace Sys2Proof.Machine

/-! ### A host byte -/

/-- A command that the host spells in bytes (Table 10.6). -/
def Clocked (c : Instr) : Prop := ∃ code operand, hostBytes c = some (code, operand)

theorem clocked_of_ite {p : Prop} [Decidable p] {u v : Option Instr} (hu : ∀ c, u = some c → Clocked c)
    (hv : ∀ c, v = some c → Clocked c) : ∀ c, (if p then u else v) = some c → Clocked c := by
  intro c h
  by_cases hp : p
  · exact hu c (by rwa [if_pos hp] at h)
  · exact hv c (by rwa [if_neg hp] at h)

theorem clocked_of_hostCommand {code : Byte} {operand : List Byte} :
    ∀ c, hostCommand code operand = some c → Clocked c := by
  unfold hostCommand
  repeat' apply clocked_of_ite
  all_goals intro c h
  all_goals repeat' split at h
  all_goals cases h
  all_goals exact ⟨_, _, rfl⟩

/-- The commands that one byte adds to the queue: at most the command it completes, whatever waits there already. -/
structure Adds (added : List Instr) (s t : State) : Prop where
  queue : t.pending = s.pending ++ added
  clocked : ∀ c ∈ added, Clocked c

theorem adds_none {s t : State} (h : t.pending = s.pending) : Adds [] s t := ⟨by simp [h], by simp⟩

theorem enqueueCommand_adds (code : Byte) (operand : List Byte) (s t : State) (h : t.pending = s.pending) :
    Adds (hostCommand code operand).toList s (enqueueCommand code operand t) :=
  ⟨by simp [enqueueCommand, h], fun c hc => clocked_of_hostCommand c (by simpa using hc)⟩

/-- A byte is taken in by the port alone: two parts with the same port take it in the same way. -/
theorem clockByte_of_hpt (b : Byte) {u v : State} (h : u.hpt = v.hpt) :
    (clockByte b u).hpt = (clockByte b v).hpt
      ∧ ∃ added, Adds added u (clockByte b u) ∧ Adds added v (clockByte b v) := by
  unfold clockByte commandByteIn operandByteIn
  simp only [h]
  repeat' split
  all_goals first
    | exact ⟨rfl, _, enqueueCommand_adds _ _ _ _ rfl, enqueueCommand_adds _ _ _ _ rfl⟩
    | exact ⟨rfl, _, adds_none rfl, adds_none rfl⟩
    | exact ⟨h, _, adds_none rfl, adds_none rfl⟩

theorem hostPosition_of_byte {s : State} {b : Byte} {rest : List Byte} (hsel : s.hostSelLow = true) (hin : s.hostIn = b :: rest) :
    hostPosition s = clockByte b { s with hostIn := rest } := by simp [hostPosition, hsel, hin]

theorem hostPosition_of_no_byte {s : State} (h : s.hostSelLow = false ∨ s.hostIn = []) : hostPosition s = s := by
  rcases h with h | h
  · simp [hostPosition, h]
  · cases hsel : s.hostSelLow <;> simp [hostPosition, h, hsel]

/-- The commands that fall due at a position stay as they are in the queue; the host's byte adds its own. -/
theorem mem_hostPosition_pending (s : State) (c : Instr) (hc : ¬ Clocked c) :
    c ∈ (hostPosition s).pending ↔ c ∈ s.pending := by
  by_cases h : s.hostSelLow = false ∨ s.hostIn = []
  · rw [hostPosition_of_no_byte h]
  · obtain ⟨hsel, hin⟩ := not_or.mp h
    obtain ⟨b, rest, hcons⟩ := List.exists_cons_of_ne_nil hin
    rw [hostPosition_of_byte (by simpa using hsel) hcons]
    obtain ⟨-, added, ⟨hqueue, hclocked⟩, -⟩ := clockByte_of_hpt b (u := { s with hostIn := rest }) rfl
    rw [hqueue, List.mem_append]
    exact or_iff_left fun h => hc (hclocked c h)

/-- What the host's byte brings to a part whose position has begun, in terms of the part before it. -/
theorem hostPosition_brings {s v : State} (hpending : s.pending = []) (hhpt : v.hpt = s.hpt) (hsel : v.hostSelLow = s.hostSelLow)
    (hin : v.hostIn = s.hostIn) (hdue : ∀ c ∈ v.pending, ¬ Clocked c) :
    (s.hostSelLow = false ∨ s.hostIn = [] →
        (hostPosition v).hpt = s.hpt ∧ (hostPosition v).hostIn = s.hostIn ∧ ∀ c ∈ (hostPosition v).pending, ¬ Clocked c)
      ∧ ∀ b rest, s.hostSelLow = true → s.hostIn = b :: rest →
        (hostPosition v).hpt = (clockByte b s).hpt ∧ (hostPosition v).hostIn = rest
          ∧ ∀ c, Clocked c → (c ∈ (hostPosition v).pending ↔ c ∈ (clockByte b s).pending) := by
  refine ⟨fun h => ?_, fun b rest hlow hcons => ?_⟩
  · rw [hostPosition_of_no_byte (by rwa [hsel, hin])]
    exact ⟨hhpt, hin, hdue⟩
  · rw [hostPosition_of_byte (hsel.trans hlow) (hin.trans hcons)]
    obtain ⟨hport, added, ⟨hqueue, -⟩, ⟨hqueue', -⟩⟩ := clockByte_of_hpt b (u := { v with hostIn := rest }) hhpt
    refine ⟨hport, by simp, fun c hc => ?_⟩
    rw [hqueue, hqueue', hpending, List.nil_append, List.mem_append]
    exact or_iff_right fun h => hdue c h hc

/-! ### What a position brings -/

theorem mem_ite_singleton {c d : Instr} {p : Prop} [Decidable p] : c ∈ (if p then [d] else []) ↔ p ∧ c = d := by
  by_cases h : p <;> simp [h]

/-- The commands that fall due at a position. -/
def positionDue (s : State) : List Instr :=
  conditionsDue (advanceCounts s) ++ endsDue (advanceCounts s) ++ beginsDue (advanceCounts s) ++ spanDue s

theorem beginPosition_pending {s : State} (h : s.pending = []) : (beginPosition s).pending = positionDue s := by
  simp [beginPosition, positionDue, h]

theorem mem_conditionsDue (s : State) (c : Instr) :
    c ∈ conditionsDue s ↔
      (s.lfe.active = true ∧ s.lfe.count = 514 ∧ s.lfe.stuckReported = false ∧ c = .lineStuck)
        ∨ (s.lfe.active = false ∧ s.lfe.count = 27 ∧ s.lfe.breakReported = false ∧ c = .frameGapBreak)
        ∨ (s.lfe.active = false ∧ s.lfe.count = 50 ∧ s.lfe.idleReported = false ∧ c = .lineIdle)
        ∨ (s.lfe.active = false ∧ s.lfe.count = 98 ∧ s.lfe.roundReported = false ∧ c = .roundGap) := by
  simp only [conditionsDue, stuckWidth, recognitionLag, breakGap, idleGap, roundGapLength, Nat.reduceAdd]
  cases s.lfe.active <;> simp [and_assoc]

theorem mem_endsDue (s : State) (c : Instr) :
    c ∈ endsDue s ↔
      (s.ctu.state = .lead ∧ endsAt s.ctu.drive 64 = true ∧ c = .leadRelease)
        ∨ (s.ctu.state ≠ .lead ∧ endsAt s.ctu.drive (8 * (claimDigitValue s + 1)) = true ∧ c = .digitRelease)
        ∨ (s.ftx.state.inFrame = true ∧ endsAt s.ftx.drive (txWidth s) = true ∧ c = .symbolRelease)
        ∨ (s.ftx.state = .answering ∧ (∃ k, s.ftx.answer = some k ∧ endsAt s.ftx.drive k.width = true)
          ∧ c = .answerRelease) := by
  have hctu : c ∈ (if endsAt s.ctu.drive (ctuWidth s) = true then [if s.ctu.state = .lead then Instr.leadRelease
        else .digitRelease] else []) ↔
      (s.ctu.state = .lead ∧ endsAt s.ctu.drive 64 = true ∧ c = .leadRelease)
        ∨ (s.ctu.state ≠ .lead ∧ endsAt s.ctu.drive (8 * (claimDigitValue s + 1)) = true ∧ c = .digitRelease) := by
    by_cases h : s.ctu.state = .lead <;> simp [ctuWidth, leadWidth, h, Nat.mul_comm 8]
  rw [endsDue, List.mem_append, List.mem_append, hctu, mem_ite_singleton]
  cases s.ftx.answer <;> simp [and_assoc, or_assoc]

theorem mem_beginsDue (s : State) (c : Instr) :
    c ∈ beginsDue s ↔ 8 ≤ sinceFall s ∧
      ((s.ctu.state = .claim ∧ s.ctu.drive.phase = .rest ∧ c = .digitDriveStart)
        ∨ (s.ftx.state.inFrame = true ∧ s.ftx.drive.phase = .rest ∧ c = .symbolDriveStart)
        ∨ (s.ftx.state = .answering ∧ s.ftx.drive.phase = .rest ∧ c = .answerDriveStart)) := by
  simp only [beginsDue, driveGap]
  by_cases h : 8 ≤ sinceFall s <;> simp [h, and_assoc]

theorem mem_spanDue (s : State) (c : Instr) :
    c ∈ spanDue s ↔ s.stc.spanRunning = true ∧ s.stc.spanCount = 2047 ∧ c = .spanExpiry := by
  simp [spanDue, spanLength, and_assoc]

/-- A drive ends at its width: its edge was one position younger before the position began. -/
theorem endsAt_ageEdge (d : Drive) {width : Nat} (hpos : 1 ≤ width) (hle : width ≤ 1022) :
    endsAt d.ageEdge width = true ↔ d.phase = .driving ∧ (d.edgeAge = some (width - 1) ∨ 64 ≤ d.timer) := by
  rw [endsAt_iff]
  refine and_congr_right fun _ => or_congr_left ?_
  simp only [Drive.ageEdge, countLimit]
  cases d.edgeAge with
  | none => simp
  | some n => simp only [Option.map_some, Option.some.injEq]; omega

theorem priorityDigit_le (kind : FrameKind) (lane : Lane) : priorityDigit kind lane ≤ 3 := by
  cases kind <;> cases lane <;> decide

theorem claimDigitValue_le {s : State} (h : s.stc.profile.address ≤ 30) : claimDigitValue s ≤ 3 := by
  have hdigit : lockedDigit s ≤ 3 := by
    unfold lockedDigit
    split
    · exact priorityDigit_le _ _
    · exact Nat.zero_le _
  simp only [claimDigitValue, ownAddress]
  repeat' split
  all_goals omega

theorem sinceFall_advanceCounts (s : State) :
    8 ≤ sinceFall (advanceCounts s) ↔ 7 ≤ if s.lfe.active then s.lfe.precedingGap + s.lfe.count else s.lfe.count := by
  cases h : s.lfe.active <;> simp only [sinceFall, advanceCounts, countLimit, h, if_true, Bool.false_eq_true, if_false] <;> omega

/-! ### The queue of a position that has begun -/

section Begins

variable {s : State}

theorem positionDue_condition (s : State) :
    (.frameGapBreak ∈ positionDue s ↔ s.lfe.active = false ∧ s.lfe.count = 26 ∧ s.lfe.breakReported = false)
      ∧ (.lineIdle ∈ positionDue s ↔ s.lfe.active = false ∧ s.lfe.count = 49 ∧ s.lfe.idleReported = false)
      ∧ (.roundGap ∈ positionDue s ↔ s.lfe.active = false ∧ s.lfe.count = 97 ∧ s.lfe.roundReported = false)
      ∧ (.lineStuck ∈ positionDue s ↔ s.lfe.active = true ∧ s.lfe.count = 513 ∧ s.lfe.stuckReported = false) := by
  have hcount (n : Nat) (h : n < 1022) : (advanceCounts s).lfe.count = n + 1 ↔ s.lfe.count = n := by
    simp only [advanceCounts, countLimit]; omega
  simp only [positionDue, List.mem_append, mem_conditionsDue, mem_endsDue, mem_beginsDue, mem_spanDue, reduceCtorEq, and_false,
    and_true, or_false, false_or, hcount 26 (by decide), hcount 49 (by decide), hcount 97 (by decide), hcount 513 (by decide)]
  exact ⟨Iff.rfl, Iff.rfl, Iff.rfl, Iff.rfl⟩

theorem leadRelease_mem_positionDue (s : State) :
    .leadRelease ∈ positionDue s ↔
      s.ctu.state = .lead ∧ s.ctu.drive.phase = .driving ∧ (s.ctu.drive.edgeAge = some 63 ∨ 64 ≤ s.ctu.drive.timer) := by
  rw [← endsAt_ageEdge s.ctu.drive (width := 64) (by decide) (by decide)]
  simp [positionDue, mem_conditionsDue, mem_endsDue, mem_beginsDue, mem_spanDue, advanceCounts]

theorem digitRelease_mem_positionDue (h : s.stc.profile.address ≤ 30) :
    .digitRelease ∈ positionDue s ↔
      s.ctu.state ≠ .lead ∧ s.ctu.drive.phase = .driving
        ∧ (s.ctu.drive.edgeAge = some (8 * (claimDigitValue s + 1) - 1) ∨ 64 ≤ s.ctu.drive.timer) := by
  have hle := claimDigitValue_le h
  rw [← endsAt_ageEdge s.ctu.drive (width := 8 * (claimDigitValue s + 1)) (by omega) (by omega)]
  simp only [positionDue, List.mem_append, mem_conditionsDue, mem_endsDue, mem_beginsDue, mem_spanDue, reduceCtorEq, and_false,
    and_true, or_false, false_or]
  rfl

theorem symbolRelease_mem_positionDue (s : State) :
    .symbolRelease ∈ positionDue s ↔
      s.ftx.state.inFrame = true ∧ s.ftx.drive.phase = .driving
        ∧ (s.ftx.drive.edgeAge = some ((if s.ftx.state = .endPulse then 48 else 8 * ((txSym s).toNat + 1)) - 1)
          ∨ 64 ≤ s.ftx.drive.timer) := by
  have hsym := (txSym s).isLt
  have hwidth : txWidth (advanceCounts s) = if s.ftx.state = .endPulse then 48 else 8 * ((txSym s).toNat + 1) := by
    show (if s.ftx.state = .endPulse then 48 else ((txSym s).toNat + 1) * 8) = _
    rw [Nat.mul_comm]
  rw [← endsAt_ageEdge s.ftx.drive (width := if s.ftx.state = .endPulse then 48 else 8 * ((txSym s).toNat + 1))
    (by split <;> omega) (by split <;> omega), ← hwidth]
  simp only [positionDue, List.mem_append, mem_conditionsDue, mem_endsDue, mem_beginsDue, mem_spanDue, reduceCtorEq, and_false,
    and_true, or_false, false_or]
  rfl

theorem answerRelease_mem_positionDue (s : State) :
    .answerRelease ∈ positionDue s ↔ s.ftx.state = .answering ∧
      ∃ k, s.ftx.answer = some k ∧ s.ftx.drive.phase = .driving
        ∧ (s.ftx.drive.edgeAge = some (k.width - 1) ∨ 64 ≤ s.ftx.drive.timer) := by
  have hends (k : AnswerKind) := endsAt_ageEdge s.ftx.drive (width := k.width) (by cases k <;> decide) (by cases k <;> decide)
  simp only [← hends, positionDue, List.mem_append, mem_conditionsDue, mem_endsDue, mem_beginsDue, mem_spanDue, reduceCtorEq,
    and_false, and_true, or_false, false_or]
  rfl

theorem positionDue_begin (s : State) :
    let eight := 7 ≤ (if s.lfe.active then s.lfe.precedingGap + s.lfe.count else s.lfe.count)
    (.digitDriveStart ∈ positionDue s ↔ eight ∧ s.ctu.state = .claim ∧ s.ctu.drive.phase = .rest)
      ∧ (.symbolDriveStart ∈ positionDue s ↔ eight ∧ s.ftx.state.inFrame = true ∧ s.ftx.drive.phase = .rest)
      ∧ (.answerDriveStart ∈ positionDue s ↔ eight ∧ s.ftx.state = .answering ∧ s.ftx.drive.phase = .rest) := by
  intro eight
  simp only [eight, ← sinceFall_advanceCounts, positionDue, List.mem_append, mem_conditionsDue, mem_endsDue, mem_beginsDue,
    mem_spanDue, reduceCtorEq, and_false, and_true, or_false, false_or]
  exact ⟨Iff.rfl, Iff.rfl, Iff.rfl⟩

theorem spanExpiry_mem_positionDue (s : State) :
    .spanExpiry ∈ positionDue s ↔ s.stc.spanRunning = true ∧ s.stc.spanCount = 2047 := by
  simp [positionDue, mem_conditionsDue, mem_endsDue, mem_beginsDue, mem_spanDue]

/-- The commands that can fall due at a position. -/
def positionCommands : List Instr :=
  [.frameGapBreak, .lineIdle, .roundGap, .lineStuck, .leadRelease, .digitRelease, .symbolRelease, .answerRelease,
    .digitDriveStart, .symbolDriveStart, .answerDriveStart, .spanExpiry]

theorem mem_positionCommands {c : Instr} (h : c ∈ positionDue s) : c ∈ positionCommands := by
  simp only [positionDue, List.mem_append, mem_conditionsDue, mem_endsDue, mem_beginsDue, mem_spanDue] at h
  simp only [positionCommands, List.mem_cons, List.not_mem_nil, or_false]
  tauto

theorem not_clocked_of_mem_positionCommands : ∀ c ∈ positionCommands, ¬ Clocked c := by
  simp [positionCommands, Clocked, hostBytes]

end Begins

/-! ### What a sample brings -/

/-- The commands that a sample brings. -/
def sampleDue (s : State) : List Instr :=
  edgeDue (readSample s) (edgeAt s) ++ windowDue (readSample s) (edgeAt s) ++ testsDue (readSample s)

theorem takeSample_pending {s : State} (h : s.pending = []) : (takeSample s).pending = sampleDue s := by
  simp [takeSample, sampleDue, h]

/-- An edge is recognised: the line has risen, or it has fallen (R142). -/
theorem edgeAt_iff (s : State) :
    edgeAt s = true ↔
      (s.lfe.active = false ∧ lineRx s = true ∧ s.lfe.raw1 = true ∧ s.lfe.raw2 = true)
        ∨ (s.lfe.active = true ∧ lineRx s = false ∧ s.lfe.raw1 = false ∧ s.lfe.raw2 = false) := by
  unfold edgeAt
  cases s.lfe.active <;> cases lineRx s <;> cases s.lfe.raw1 <;> cases s.lfe.raw2 <;> decide

theorem mem_edgeDue (s : State) (edge : Bool) (c : Instr) :
    c ∈ edgeDue s edge ↔ edge = true ∧
      ((s.lfe.active = true ∧ c = .pulseEvent (s.lfe.count - 2))
        ∨ (s.lfe.active = false ∧ c = .lineRisingEdge (s.lfe.count - 2))) := by
  cases edge <;> cases h : s.lfe.active <;> simp [edgeDue, recognitionLag, h]

theorem mem_windowDue (s : State) (edge : Bool) (c : Instr) :
    c ∈ windowDue s edge ↔ s.frx.state = .answerWait ∧ edge = false ∧
      ((s.lfe.active = false ∧ s.frx.window.phase = .waiting ∧ s.lfe.count = 26 ∧ c = .answerWindowClose)
        ∨ (s.lfe.active = true ∧ s.frx.window.phase = .inTime ∧ s.lfe.count = 46 ∧ c = .answerEarlyUnclassified)) := by
  simp only [windowDue, windowLength, answerLimit, recognitionLag, Nat.reduceAdd]
  by_cases hwait : s.frx.state = .answerWait <;> cases edge <;> cases hact : s.lfe.active <;> simp [hwait, and_assoc]

theorem mem_testsDue (s : State) (c : Instr) :
    c ∈ testsDue s ↔
      (s.ctu.drive.phase = .released ∧ s.ctu.drive.timer = 5 ∧ c = .lossTest)
        ∨ (s.ctu.drive.phase = .driving ∧ s.ctu.drive.timer = (if s.ctu.state = .lead then 9 else 5) ∧ c = .driveFaultCheck)
        ∨ (s.ftx.state.inFrame = true ∧ s.ftx.drive.phase ≠ .rest ∧ s.ftx.drive.timer = 5 ∧ c = .readbackTest)
        ∨ (s.ftx.state = .answering ∧ s.ftx.drive.phase = .driving ∧ s.ftx.drive.timer = 5 ∧ c = .answerDriveCheck) := by
  simp only [testsDue, List.mem_append, mem_ite_singleton, and_assoc, or_assoc]
  rfl

/-- A phase that is timed has lasted one sample more (R152). -/
theorem countSample_timer_iff {d : Drive} {n : Nat} (hphase : d.phase ≠ .rest) (h : n < 1022) :
    d.countSample.timer = n + 1 ↔ d.timer = n := by
  simp only [Drive.countSample, countLimit, if_neg hphase]
  omega

theorem mem_sampleDue (s : State) (c : Instr) :
    c ∈ sampleDue s ↔
      (edgeAt s = true ∧ ((s.lfe.active = true ∧ c = .pulseEvent (s.lfe.count - 2))
          ∨ (s.lfe.active = false ∧ c = .lineRisingEdge (s.lfe.count - 2))))
        ∨ (s.frx.state = .answerWait ∧ edgeAt s = false ∧
          ((s.lfe.active = false ∧ s.frx.window.phase = .waiting ∧ s.lfe.count = 26 ∧ c = .answerWindowClose)
            ∨ (s.lfe.active = true ∧ s.frx.window.phase = .inTime ∧ s.lfe.count = 46 ∧ c = .answerEarlyUnclassified)))
        ∨ c ∈ testsDue (readSample s) := by
  rw [sampleDue, List.mem_append, List.mem_append, mem_edgeDue, mem_windowDue, or_assoc]
  rfl

theorem sampleDue_edge (s : State) :
    (∀ gap, .lineRisingEdge gap ∈ sampleDue s ↔
        (s.lfe.active = false ∧ lineRx s = true ∧ s.lfe.raw1 = true ∧ s.lfe.raw2 = true) ∧ gap = s.lfe.count - 2)
      ∧ ∀ width, .pulseEvent width ∈ sampleDue s ↔
        (s.lfe.active = true ∧ lineRx s = false ∧ s.lfe.raw1 = false ∧ s.lfe.raw2 = false) ∧ width = s.lfe.count - 2 := by
  simp only [mem_sampleDue, mem_testsDue, edgeAt_iff]
  cases s.lfe.active <;> simp

theorem sampleDue_window (s : State) :
    (.answerWindowClose ∈ sampleDue s ↔
        s.frx.state = .answerWait ∧ s.frx.window.phase = .waiting ∧ s.lfe.active = false ∧ s.lfe.count = 26
          ∧ ¬ (s.lfe.active = false ∧ lineRx s = true ∧ s.lfe.raw1 = true ∧ s.lfe.raw2 = true))
      ∧ (.answerEarlyUnclassified ∈ sampleDue s ↔
        s.frx.state = .answerWait ∧ s.frx.window.phase = .inTime ∧ s.lfe.active = true ∧ s.lfe.count = 46
          ∧ ¬ (s.lfe.active = true ∧ lineRx s = false ∧ s.lfe.raw1 = false ∧ s.lfe.raw2 = false)) := by
  simp only [mem_sampleDue, mem_testsDue, ← Bool.not_eq_true, edgeAt_iff]
  cases s.lfe.active <;> simp <;> tauto

theorem sampleDue_test (s : State) :
    (.lossTest ∈ sampleDue s ↔ s.ctu.drive.phase = .released ∧ s.ctu.drive.timer = 4)
      ∧ (.driveFaultCheck ∈ sampleDue s ↔
        s.ctu.drive.phase = .driving ∧ s.ctu.drive.timer = if s.ctu.state = .lead then 8 else 4)
      ∧ (.readbackTest ∈ sampleDue s ↔
        s.ftx.state.inFrame = true ∧ s.ftx.drive.phase ≠ .rest ∧ s.ftx.drive.timer = 4)
      ∧ (.answerDriveCheck ∈ sampleDue s ↔
        s.ftx.state = .answering ∧ s.ftx.drive.phase = .driving ∧ s.ftx.drive.timer = 4) := by
  have hctu {n : Nat} (h : n < 1022) (hphase : s.ctu.drive.phase ≠ .rest) := countSample_timer_iff hphase h
  have hftx {n : Nat} (h : n < 1022) (hphase : s.ftx.drive.phase ≠ .rest) := countSample_timer_iff hphase h
  simp only [mem_sampleDue, mem_testsDue, reduceCtorEq, and_false, and_true, or_false, false_or]
  refine ⟨and_congr_right fun h => hctu (by decide) (by simp [show s.ctu.drive.phase = _ from h]),
    and_congr_right fun h => ?_,
    and_congr_right fun _ => and_congr_right fun h => hftx (by decide) h,
    and_congr_right fun _ => and_congr_right fun h => hftx (by decide) (by simp [show s.ftx.drive.phase = _ from h])⟩
  by_cases hlead : s.ctu.state = .lead
  · simpa only [readSample, hlead, if_true] using hctu (n := 8) (by decide) (by simp [show s.ctu.drive.phase = _ from h])
  · simpa only [readSample, hlead, if_false] using hctu (n := 4) (by decide) (by simp [show s.ctu.drive.phase = _ from h])

theorem mem_sampleCommands {s : State} {c : Instr} (h : c ∈ sampleDue s) :
    (∃ gap, c = .lineRisingEdge gap) ∨ (∃ width, c = .pulseEvent width)
      ∨ c ∈ [Instr.answerWindowClose, .answerEarlyUnclassified, .lossTest, .driveFaultCheck, .readbackTest,
          .answerDriveCheck] := by
  simp only [mem_sampleDue, mem_testsDue] at h
  simp only [List.mem_cons, List.not_mem_nil, or_false]
  rcases h with ⟨-, ⟨-, h⟩ | ⟨-, h⟩⟩ | ⟨-, -, ⟨-, -, -, h⟩ | ⟨-, -, -, h⟩⟩ | ⟨-, -, h⟩ | ⟨-, -, h⟩ | ⟨-, -, -, h⟩ | ⟨-, -, -, h⟩ <;>
    simp [h]

/-! ### The tick -/

/-- The line's level: the part's own drive where it reaches the line, and whatever else holds it (R154). -/
theorem lineRx_of_nil {s : State} (h : s.lineIn = []) : lineRx s = lineTx s := by
  simp [lineRx, h, LineSample.clear]

theorem lineRx_of_cons {s : State} {x : LineSample} {rest : List LineSample} (h : s.lineIn = x :: rest) :
    lineRx s = true ↔ (lineTx s = true ∧ x.driven = true) ∨ x.others = true := by
  simp [lineRx, h]

/-- What a tick that begins a position brings to the queue besides the host's bytes. -/
theorem mem_hostPosition_beginPosition {s : State} (h : s.pending = []) (c : Instr) (hc : ¬ Clocked c) :
    c ∈ (hostPosition (beginPosition s)).pending ↔ c ∈ positionDue s := by
  rw [mem_hostPosition_pending _ c hc, beginPosition_pending h]

/-- A tick that begins a position moves the counts; the host's byte bears on the port alone. -/
theorem hostPosition_beginPosition_counts (s : State) :
    (hostPosition (beginPosition s)).lfe = (advanceCounts s).lfe ∧ (hostPosition (beginPosition s)).stc = (advanceCounts s).stc
      ∧ (hostPosition (beginPosition s)).ctu = (advanceCounts s).ctu
      ∧ (hostPosition (beginPosition s)).ftx = (advanceCounts s).ftx
      ∧ (hostPosition (beginPosition s)).lineIn = s.lineIn := by simp [beginPosition]

/-- Settles O2. -/
theorem edgesNeedThreeAgreeingSamples : Obligations.EdgesNeedThreeAgreeingSamples := by
  unfold Obligations.EdgesNeedThreeAgreeingSamples
  intro s t hpending hstep
  obtain ⟨-, rfl⟩ | ⟨c, rest, hcons, -⟩ := step_cases hstep
  swap
  · exact absurd (hpending.symm.trans hcons) (by simp)
  extract_lets dues clocked later longer begins samples eight ends rises falls
  refine ⟨by simp, fun ⟨hon, hnot⟩ => ?_, fun ⟨hon, hdue⟩ => ?_, fun hoff => ?_, fun hnot => ?_⟩
  case refine_1 =>
    have htick := tick_of_between hon hnot
    have hdues (c : Instr) (hc : c ∈ positionCommands) : c ∈ (tick s).pending ↔ c ∈ positionDue s := by
      rw [htick, mem_hostPosition_beginPosition hpending c (not_clocked_of_mem_positionCommands c hc)]
    obtain ⟨hbreak, hidle, hround, hstuck⟩ := positionDue_condition s
    obtain ⟨hdigit, hsymbol, hanswer⟩ := positionDue_begin s
    obtain ⟨hlfe, hstc, hctu, hftx, hline⟩ := htick ▸ hostPosition_beginPosition_counts s
    refine ⟨hlfe, hstc, hctu, hftx, hline,
      (hdues _ (by decide)).trans hbreak, (hdues _ (by decide)).trans hidle, (hdues _ (by decide)).trans hround,
      (hdues _ (by decide)).trans hstuck, (hdues _ (by decide)).trans (leadRelease_mem_positionDue s),
      fun h => (hdues _ (by decide)).trans (digitRelease_mem_positionDue h),
      (hdues _ (by decide)).trans (symbolRelease_mem_positionDue s),
      (hdues _ (by decide)).trans ((answerRelease_mem_positionDue s).trans (and_congr_right fun _ => ?_)),
      (hdues _ (by decide)).trans hdigit, (hdues _ (by decide)).trans hsymbol, (hdues _ (by decide)).trans hanswer,
      (hdues _ (by decide)).trans (spanExpiry_mem_positionDue s), fun c hmem hc => ?_⟩
    · cases s.ftx.answer with
      | none => simp
      | some k => cases k <;> simp [ends, AnswerKind.width]
    · rw [htick, mem_hostPosition_beginPosition hpending c hc] at hmem
      exact mem_positionCommands hmem
  case refine_2 =>
    have htick := tick_of_sampleDue hon hdue
    have hdues (c : Instr) : c ∈ (tick s).pending ↔ c ∈ sampleDue s := by rw [htick, takeSample_pending hpending]
    obtain ⟨hrises, hfalls⟩ := sampleDue_edge s
    obtain ⟨hclose, hearly⟩ := sampleDue_window s
    obtain ⟨hloss, hfault, hreadback, hcheck⟩ := sampleDue_test s
    refine ⟨by rw [htick]; rfl, by rw [htick]; rfl, by rw [htick]; rfl, by rw [htick]; simp, by rw [htick]; simp,
      by rw [htick]; simp, by rw [htick]; rfl, lineRx_of_nil, fun x rest => lineRx_of_cons,
      fun gap => (hdues _).trans (hrises gap), fun width => (hdues _).trans (hfalls width), (hdues _).trans hclose,
      (hdues _).trans hearly, (hdues _).trans hloss, (hdues _).trans hfault, (hdues _).trans hreadback, (hdues _).trans hcheck,
      fun c hc => mem_sampleCommands ((hdues c).mp hc)⟩
  case refine_3 =>
    rw [tick_of_off hoff]
    refine ⟨by simp, by simp, by simp, by simp, by simp, fun c hmem => ?_⟩
    by_contra hc
    rw [mem_hostPosition_pending s c hc, hpending] at hmem
    exact List.not_mem_nil hmem
  case refine_4 =>
    cases hon : s.lfe.sampling with
    | false =>
      rw [tick_of_off hon]
      exact hostPosition_brings hpending rfl rfl rfl (by simp [hpending])
    | true =>
      rw [tick_of_between hon (by simpa [samples, hon] using hnot)]
      refine hostPosition_brings hpending (by simp) (by simp) (by simp) fun c hmem => ?_
      rw [beginPosition_pending hpending] at hmem
      exact not_clocked_of_mem_positionCommands c (mem_positionCommands hmem)

end Sys2Proof.Machine
end

