-- ==== Sys2Proof/Proofs/LineEdges.lean ====
section
/-! SUPPORT. A rising edge at each block, and the two statements about an edge that begins a pulse. -/

namespace Sys2Proof.Machine

/-! ### Gaps -/

theorem inFrameGap_iff (gap : Nat) : inFrameGap gap = true ↔ 5 ≤ gap ∧ gap ≤ 24 := by
  rw [inFrameGap, Bool.and_eq_true, decide_eq_true_eq, decide_eq_true_eq, windowLength]

theorem inFrameGap_min_iff (gap : Nat) : inFrameGap (min precedingGapLimit gap) = true ↔ 5 ≤ gap ∧ gap ≤ 24 := by
  rw [inFrameGap_iff, precedingGapLimit]
  omega

/-! ### A rising edge at the CTU -/

/-- The CTU has nothing to do with an edge: it is in no LEAD or claim and stands at no opportunity. -/
def Ctu.passive (x : Ctu) : Prop :=
  x.state = .off ∨ x.state = .won ∨ x.state = .lost ∨ (x.state = .waiting ∧ x.idleSeen = false)

theorem ctuRise_of_passive {s : State} (h : s.ctu.passive) : ctuRise s = s := by
  obtain h | h | h | ⟨h, hidle⟩ := h <;> simp [ctuRise, *]

theorem ctuRise_of_contest {s : State} (h : s.ctu.state = .lead ∨ s.ctu.state = .claim) :
    ctuRise s =
      s.setCtu { s.ctu with drive := { s.ctu.drive with edgeAge := some (s.ctu.drive.edgeAge.getD 2) } } := by
  obtain h | h := h <;> simp [ctuRise, h, recognitionLag]

/-- An edge at a join opportunity: idle seen is clear, and a named candidate joins the LEAD (R103). -/
theorem ctuRise_of_named {s : State} {c : Candidate} (h : s.ctu.state = .waiting) (hidle : s.ctu.idleSeen = true)
    (hname : name s = some c) : ctuRise s = joinLead c (s.setCtu { s.ctu with idleSeen := false }) := by
  have hname' : name (s.setCtu { s.ctu with idleSeen := false }) = some c := hname
  simp only [h] at hname'
  simp [ctuRise, h, hidle, hname']

theorem ctuRise_of_none {s : State} (h : s.ctu.state = .waiting) (hidle : s.ctu.idleSeen = true) (hname : name s = none) :
    ctuRise s = s.setCtu { s.ctu with idleSeen := false } := by
  have hname' : name (s.setCtu { s.ctu with idleSeen := false }) = none := hname
  simp only [h] at hname'
  simp [ctuRise, h, hidle, hname']

/-- The lock reads the store and the peer table alone. -/
theorem lockMessage_txs_of_peers {s u : State} (htxs : u.txs = s.txs) (hpeers : u.peers = s.peers) (c : Candidate) :
    (lockMessage c u).txs = (lockMessage c s).txs := by
  have hpick : pickable u c.lane = pickable s c.lane := by funext m; simp only [pickable, eligible, peerAt, hpeers]
  unfold lockMessage
  split
  · simp only [State.setTxs_txs, htxs, hpick]
  · exact htxs

/-! ### A rising edge at the FTX -/

theorem ftxRise_of_silent {s : State} (hframe : s.ftx.state.inFrame = false) (hanswer : s.ftx.state ≠ .answering) (gap : Nat) :
    ftxRise gap s = s := by simp [ftxRise, hframe, hanswer]

/-- An edge after a gap of 5..24 positions dates the FTX's own pulse (R113, R52). -/
theorem ftxRise_of_inTime {s : State} {gap : Nat} (h : s.ftx.state.inFrame = true ∨ s.ftx.state = .answering)
    (hgap : inFrameGap gap = true) :
    ftxRise gap s = s.setFtx { s.ftx with drive := { s.ftx.drive with edgeAge := some 2 } } := by
  by_cases hframe : s.ftx.state.inFrame = true
  · simp [ftxRise, hframe, hgap, recognitionLag]
  · simp [ftxRise, h.resolve_left hframe, TxState.inFrame, hgap, recognitionLag]

theorem ftxRise_of_frame_out_of_time {s : State} {gap : Nat} (h : s.ftx.state.inFrame = true) (hgap : ¬ inFrameGap gap = true) :
    ftxRise gap s = abortFrame s := by simp [ftxRise, h, hgap]

theorem ftxRise_of_answer_out_of_time {s : State} {gap : Nat} (h : s.ftx.state = .answering)
    (hgap : ¬ inFrameGap gap = true) : ftxRise gap s = answerMismatch s := by
  have hframe : s.ftx.state.inFrame = false := by rw [h]; rfl
  rw [ftxRise, if_neg (by simp [hframe]), if_pos h, if_neg hgap]

/-! ### A rising edge at the FRX -/

theorem rxRise_of_busy {f : Frx} (hidle : f.state ≠ .idle) (hopen : f.state = .answerWait → f.window.phase ≠ .waiting)
    (gap : Nat) : rxRise f gap = (f, .quiet) := by
  unfold rxRise
  split
  · contradiction
  · rename_i hwait
    rw [if_neg (hopen hwait)]
  · rfl

/-- An edge that decides no answer class moves the FRX as `risen` says and issues nothing (R129, R44). -/
theorem toFrx_rise {gap : Nat} {s u : State} (h : decidesNoAnswer gap s) (hfrx : u.frx = s.frx)
    (hstation : u.stc.station = s.stc.station) :
    toFrx false (fun f => rxRise f (min precedingGapLimit gap)) u = u.setFrx (risen gap s).frx := by
  have hsame : decoding u = decoding s := by rw [decoding, hstation]; rfl
  cases hd : decoding s with
  | false =>
    rw [toFrx_of_off (hsame.trans hd)]
    simp only [risen, hd, Bool.false_eq_true, false_and, if_false, ← hfrx]
    rfl
  | true =>
    rw [toFrx_of_decoding (hsame.trans hd), hfrx]
    by_cases hidle : s.frx.state = .idle
    · simp [rxRise, risen, hidle, hd, applyRx]
    by_cases hopen : s.frx.state = .answerWait ∧ s.frx.window.phase = .waiting
    · have hlate := h hopen.1 hopen.2
      have hnot : ¬ min precedingGapLimit gap < 5 := by rw [precedingGapLimit]; omega
      have hle : min precedingGapLimit gap ≤ windowLength ↔ gap ≤ 24 := by rw [precedingGapLimit, windowLength]; omega
      by_cases hgap : gap ≤ 24
      · simp [rxRise, risen, hopen, hd, hnot, hle.mpr hgap, hgap, applyRx]
      · simp [rxRise, risen, hopen, hd, hnot, mt hle.mp hgap, hgap, applyRx]
    · have hframe : (risen gap s).frx = s.frx := by
        simp only [risen, hidle, and_false, if_false]
        rw [if_neg (by tauto)]
      rw [rxRise_of_busy hidle (fun hwait hphase => hopen ⟨hwait, hphase⟩), hframe]
      rfl

/-! ### The edge -/

/-- The part once the LFE alone has taken a rising edge. -/
def lineRisen (gap : Nat) (s : State) : State :=
  s.setLfe { s.lfe with active := true, count := 2, precedingGap := min 255 gap, stuckReported := false }

theorem exec_lineRisingEdge {s : State} (hon : s.lfe.sampling = true) (hact : s.lfe.active = false) (gap : Nat) :
    exec (.lineRisingEdge gap) s = .next
      (toFrx false (fun f => rxRise f (min precedingGapLimit gap))
        (ctuRise (ftxRise (min precedingGapLimit gap) (lineRisen gap s)))) := by
  show execLineRisingEdge gap s = _
  rw [execLineRisingEdge, if_pos ⟨hon, by simp [hact]⟩]
  rfl

theorem bystander.passive {s : State} (h : bystander s) : s.ctu.passive := by
  obtain ⟨-, -, -, h | h | h⟩ := h
  exacts [.inl h, .inr (.inr (.inl h)), .inr (.inr (.inr h))]

/-- Settles O22. -/
theorem joinIsNamedAtTheEdge : Obligations.JoinIsNamedAtTheEdge := by
  unfold Obligations.JoinIsNamedAtTheEdge
  intro gap s hon hact hwindow hftx hctu hidle cleared
  have hquiet : ftxRise (min precedingGapLimit gap) (lineRisen gap s) = lineRisen gap s :=
    ftxRise_of_silent (s := lineRisen gap s) (by show s.ftx.state.inFrame = false; rw [hftx]; rfl)
      (by show s.ftx.state ≠ _; simp [hftx]) _
  rw [exec_lineRisingEdge hon hact, hquiet]
  refine ⟨fun hnone => ?_, fun c hc => ?_⟩
  · rw [ctuRise_of_none (s := lineRisen gap s) hctu hidle hnone, toFrx_rise hwindow] <;> rfl
  · have htxs : (lockMessage c ((lineRisen gap s).setCtu { s.ctu with idleSeen := false })).txs = (lockMessage c s).txs := by
      apply lockMessage_txs_of_peers <;> rfl
    rw [ctuRise_of_named (s := lineRisen gap s) hctu hidle hc, joinLead, lockMessage_eq]
    show Host.Outcome.next (toFrx false _ ((State.setTxs _ (lockMessage c ((lineRisen gap s).setCtu
      { s.ctu with idleSeen := false })).txs).setCtu _)) = _
    rw [htxs, toFrx_rise hwindow] <;> rfl

/-- Settles O23. -/
theorem risingEdgeDatesTheDrive : Obligations.RisingEdgeDatesTheDrive := by
  unfold Obligations.RisingEdgeDatesTheDrive
  intro gap s hon hact hwindow
  rw [exec_lineRisingEdge hon hact gap]
  refine ⟨fun hby => ?_, fun hftx hctu => ?_, fun hctu hftx hlow hhigh => ?_⟩
  · have hftx : (lineRisen gap s).ftx.state = .idle := hby.1
    rw [ftxRise_of_silent (by rw [hftx]; rfl) (by simp [hftx]), ctuRise_of_passive (s := lineRisen gap s) hby.passive,
      toFrx_rise hwindow] <;> rfl
  · have hftx : (lineRisen gap s).ftx.state = .idle := hftx
    rw [ftxRise_of_silent (by rw [hftx]; rfl) (by simp [hftx]), ctuRise_of_contest (s := lineRisen gap s) hctu,
      toFrx_rise hwindow]
    · show Host.Outcome.next { risen gap s with ctu := { s.ctu with drive := { s.ctu.drive with
        edgeAge := some (s.ctu.drive.edgeAge.getD 2) } } } = _
      cases s.ctu.drive.edgeAge <;> rfl
    all_goals rfl
  · rw [ftxRise_of_inTime (s := lineRisen gap s) hftx ((inFrameGap_min_iff gap).mpr ⟨hlow, hhigh⟩),
      ctuRise_of_passive (s := (lineRisen gap s).setFtx _) (.inr hctu), toFrx_rise hwindow] <;> rfl

end Sys2Proof.Machine
end

