-- ==== Sys2Proof/Proofs/ValidFrames.lean ====
section
/-! SUPPORT. A falling edge at each block, the END of a frame at the FRX, and the statements about a valid frame that a
bystander hears. -/

namespace Sys2Proof.Machine

/-! ### A CTU that stands at no opportunity -/

/-- Nothing is named: the CTU is not in WAITING with idle seen set. -/
def Ctu.closed (x : Ctu) : Prop := x.state ≠ .waiting ∨ x.idleSeen = false

theorem nameOnChange_of_closed {s t : State} (h : t.ctu.closed) : nameOnChange s t = t := by
  rcases nameOnChange_cases s t with h' | h'
  · rw [h', nameMoment_of_closed h]
  · exact h'

theorem Ctu.passive.closed {x : Ctu} (h : x.passive) : x.closed := by
  obtain h | h | h | ⟨-, h⟩ := h
  · exact .inl (by simp [h])
  · exact .inl (by simp [h])
  · exact .inl (by simp [h])
  · exact .inr h

theorem closed_halt (why : HaltReason) (s : State) : (halt why s).ctu.closed := .inl (by simp [halt, ctuOff, Ctu.reset])

theorem closed_answerEvent {s : State} (h : s.ctu.closed) (claim dest : Nat) (l : Lane) (cls : AnswerClass) :
    (answerEvent claim dest l cls s).ctu.closed := by
  by_cases hown : claim = ownAddress s ∧ s.ftx.state = .awaitAnswer
  · exact .inr (by simp [answerEvent, hown, attemptEnd])
  · simp only [answerEvent, hown, if_false]
    split
    · exact h
    · rwa [(observeAnswer_frame s dest l cls).2.2.2.2.2.1]

theorem closed_applyRx {s : State} (h : s.ctu.closed) (own : Bool) (e : RxEvent) : (applyRx own e s).ctu.closed := by
  cases e with
  | quiet => exact h
  | stray => exact h
  | failed k => exact h
  | answered claim dest l cls => exact closed_answerEvent h claim dest l cls
  | valid fr =>
    simp only [applyRx, validFrame]
    repeat' split
    · simpa using h
    · exact closed_halt _ _
    · simpa using h

theorem closed_toFrx {s : State} (h : s.ctu.closed) (own : Bool) (f : Frx → Frx × RxEvent) : (toFrx own f s).ctu.closed := by
  unfold toFrx
  split
  · exact closed_applyRx (s := s.setFrx (f s.frx).1) h own _
  · exact h

/-! ### A falling edge -/

/-- The part once the LFE alone has taken a falling edge. -/
def lineFallen (s : State) : State := s.setLfe (fallen s.lfe)

theorem exec_pulseEvent {s : State} (hon : s.lfe.sampling = true) (hact : s.lfe.active = true) (width : Nat) :
    exec (.pulseEvent width) s = .next
      (nameOnChange s
        (toFrx (completesAt (classOf width) s) (fun f => rxPulse f (classOf width) s.lfe.precedingGap)
          (ctuFall (ftxFall (classOf width) (lineFallen s))))) := by
  show execPulseEvent width s = _
  rw [execPulseEvent, if_pos ⟨hon, hact⟩]
  rfl

theorem ctuFall_of_idle {s : State} (h : s.ctu.drive = Drive.none) : ctuFall s = s := by
  have hsame : ({ s.ctu with drive := s.ctu.drive.forgetEdge } : Ctu) = s.ctu := by
    rw [h, show Drive.none.forgetEdge = Drive.none from rfl, ← h]
  rw [ctuFall, hsame]
  split <;> rfl

theorem ftxFall_of_silent {s : State} (hframe : s.ftx.state.inFrame = false) (hanswering : s.ftx.state ≠ .answering)
    (hanswer : s.ftx.answer = none) (cls : PulseClass) : ftxFall cls s = s := by
  have hbefore : beforeDrive s = false := by simp [beforeDrive, hframe, hanswering]
  simp [ftxFall, hbefore, hframe, hanswer]

theorem completesAt_of_silent {s : State} (h : s.ftx.state.inFrame = false) (cls : PulseClass) :
    completesAt cls s = false := by
  have hne : s.ftx.state ≠ .endPulse := fun h' => by simp [h', TxState.inFrame] at h
  simp [completesAt, hne]

/-- A falling edge to a part whose FTX reads nothing back and whose CTU drives nothing and stands at no opportunity: the
LFE and the FRX alone take it. -/
theorem exec_pulseEvent_of_silent {s : State} (hon : s.lfe.sampling = true) (hact : s.lfe.active = true)
    (hframe : s.ftx.state.inFrame = false) (hanswering : s.ftx.state ≠ .answering) (hanswer : s.ftx.answer = none)
    (hdrive : s.ctu.drive = Drive.none) (hclosed : s.ctu.closed) (width : Nat) :
    exec (.pulseEvent width) s = .next
      (toFrx false (fun f => rxPulse f (classOf width) s.lfe.precedingGap) (lineFallen s)) := by
  rw [exec_pulseEvent hon hact, completesAt_of_silent hframe,
    ftxFall_of_silent (s := lineFallen s) hframe hanswering hanswer, ctuFall_of_idle (s := lineFallen s) hdrive,
    nameOnChange_of_closed (closed_toFrx (s := lineFallen s) hclosed _ _)]

theorem exec_pulseEvent_of_bystander {s : State} (hon : s.lfe.sampling = true) (hact : s.lfe.active = true)
    (h : bystander s) (width : Nat) :
    exec (.pulseEvent width) s = .next
      (toFrx false (fun f => rxPulse f (classOf width) s.lfe.precedingGap) (lineFallen s)) := by
  have hclosed := h.passive.closed
  obtain ⟨hftx, hanswer, hdrive, -⟩ := h
  exact exec_pulseEvent_of_silent hon hact (by rw [hftx]; rfl) (by simp [hftx]) hanswer hdrive hclosed width

/-! ### The END at the FRX -/

/-- The frame that the FRX has received. -/
def Frx.frame (x : Frx) : Frame := frameOf x.claim x.header x.payload

/-- The FRX after the END of a frame: in the answer window of a DATA frame, otherwise in IDLE (R132). -/
def Frx.ended (x : Frx) : Frx :=
  { x with
    recent := ⟨x.recent.last, some .w6⟩
    state := if x.frame.kind = .data then .answerWait else .idle
    window := if x.frame.kind = .data then ⟨.waiting, x.frame.claim, x.frame.dest, x.frame.lane⟩ else x.window }

theorem rxPulse_end {f : Frx} {gap : Nat} (h : f.state = .endWait) (hgap : inFrameGap gap = true) :
    rxPulse f .w6 gap = (f.ended, .valid f.frame) := by
  have hframe : frameOf f.claim f.header f.payload = f.frame := rfl
  by_cases hdata : f.frame.kind = .data <;>
    simp [rxPulse, h, hgap, rxEnd, hframe, hdata, Frx.ended, PulsePair.push]

theorem classOf_of_w6 {width : Nat} (hlow : 45 ≤ width) (hhigh : width ≤ 51) : classOf width = .w6 :=
  (classOf_eq_iff_inWindow (n := 6) rfl width).mpr ⟨by omega, by omega⟩

/-- The END of a frame to a bystander. -/
theorem exec_end_of_bystander {s : State} {width : Nat} (hon : s.lfe.sampling = true) (hact : s.lfe.active = true)
    (hd : decoding s = true) (h : bystander s) (hend : s.frx.state = .endWait) (hlow : 45 ≤ width) (hhigh : width ≤ 51)
    (hgap : inFrameGap s.lfe.precedingGap = true) :
    exec (.pulseEvent width) s = .next (validFrame false s.frx.frame ((lineFallen s).setFrx s.frx.ended)) := by
  rw [exec_pulseEvent_of_bystander hon hact h, toFrx_of_decoding (s := lineFallen s) hd, classOf_of_w6 hlow hhigh]
  show Host.Outcome.next (applyRx false (rxPulse s.frx .w6 s.lfe.precedingGap).2 _) = _
  rw [rxPulse_end hend hgap]
  show Host.Outcome.next (validFrame false _ ((lineFallen s).setFrx (rxPulse s.frx .w6 s.lfe.precedingGap).1)) = _
  rw [rxPulse_end hend hgap]

/-! ### A frame of a peer -/

theorem markHeard_eq (s : State) :
    markHeard s = s.setStc { s.stc with frameHeard := s.stc.frameHeard || decide (s.stc.station = .listening) } := by
  unfold markHeard
  by_cases h : s.stc.station = .listening
  · simp [h]
  · simp [h, State.setStc]

/-- The notice that a frame of a peer posts, by what the peer was before (R22, R24). -/
def heardNotice (fr : Frame) (r : Peer) (s : State) : State :=
  match hearNotice r.presence fr.kind with
  | some k => postNotice k (some fr.claim) s
  | none => s

theorem hearFrame_of_peer {s : State} {fr : Frame} {r : Peer} (h : s.peers[fr.claim]? = some r) :
    hearFrame fr s = heardNotice fr r (s.setPeers (s.peers.set fr.claim (r.hear fr))) := by
  rw [hearFrame, peerAt_of_getElem? h, updatePeer, modify_of_getElem? h]
  rfl

theorem heardNotice_eq {fr : Frame} {r : Peer} (h : r.presence ≠ .self) (s : State) :
    heardNotice fr r s =
      if r.presence = .unknown ∨ r.presence = .silent then postNotice .peerUp (some fr.claim) s
      else if fr.kind = .join then postNotice .peerRestarted (some fr.claim) s
      else s := by
  unfold heardNotice hearNotice
  cases hp : r.presence with
  | unknown => simp
  | silent => simp
  | self => exact absurd hp h
  | present => by_cases hk : fr.kind = .join <;> simp [hk]

@[simp] theorem heardNotice_frame (fr : Frame) (r : Peer) (s : State) :
    (heardNotice fr r s).rstLow = s.rstLow ∧ (heardNotice fr r s).hostSelLow = s.hostSelLow
      ∧ (heardNotice fr r s).stc = s.stc ∧ (heardNotice fr r s).lfe = s.lfe ∧ (heardNotice fr r s).frx = s.frx
      ∧ (heardNotice fr r s).ctu = s.ctu ∧ (heardNotice fr r s).ftx = s.ftx ∧ (heardNotice fr r s).rxp = s.rxp
      ∧ (heardNotice fr r s).peers = s.peers ∧ (heardNotice fr r s).txs = s.txs ∧ (heardNotice fr r s).bcr = s.bcr := by
  unfold heardNotice
  split <;> simp

theorem Peer.hear_eq (r : Peer) (fr : Frame) :
    r.hear fr =
      { presence := .present, stale := false, view := fr.advert, age := 0, pollAge := .none
        txToggle := if fr.kind = .join then ⟨false, false, false⟩ else r.txToggle
        resyncPending := if fr.kind = .join then ⟨false, false, false⟩ else r.resyncPending
        rxExpected := if fr.kind = .join then ⟨false, false, false⟩ else r.rxExpected
        resyncHeld := if fr.kind = .join then ⟨false, false, false⟩ else r.resyncHeld } := by
  by_cases h : fr.kind = .join <;> simp [Peer.hear, h, Peer.clearSequence]

theorem validFrame_of_peer {s : State} {fr : Frame} (h : fr.claim ≠ s.stc.profile.address) (own : Bool) :
    validFrame own fr s = frameEffects fr (hearFrame fr (markHeard s)) := by
  simp only [validFrame]
  rw [if_neg (show ¬ fr.claim = ownAddress s from h)]

/-! ### What a frame does beyond its sender's record -/

/-- A frame that bears on its sender's record alone. -/
theorem frameEffects_of_plain {s : State} {fr : Frame}
    (h : fr.kind = .status ∨ fr.kind = .join ∨ (fr.kind = .broadcast ∧ s.stc.profile.broadcastStore = false)
      ∨ ((fr.kind = .poll ∨ fr.kind = .data) ∧ ¬ (fr.dest = s.stc.profile.address ∧ s.stc.station = .active))) :
    frameEffects fr s = s := by
  obtain h | h | ⟨h, hstore⟩ | ⟨h | h, hmine⟩ := h
  · simp [frameEffects, h]
  · simp [frameEffects, h]
  · simp [frameEffects, h, hstore]
  · simp only [frameEffects, h, ownAddress, hmine, if_false]
  · simp only [frameEffects, h, ownAddress, hmine, if_false]

/-- A decision changes the sender's record in its sequence state alone, and posts no notice. -/
theorem decideAnswer_peers (fr : Frame) (s : State) :
    ((decideAnswer fr s).peers = s.peers
        ∨ (decideAnswer fr s).peers = s.peers.modify fr.claim fun r => r.accepted fr)
      ∧ (decideAnswer fr s).hpt.notices = s.hpt.notices ∧ (decideAnswer fr s).hpt.noticesLost = s.hpt.noticesLost := by
  unfold decideAnswer
  repeat' split
  · exact ⟨.inr (by simp [startAnswer, updatePeer]), by simp [startAnswer], by simp [startAnswer]⟩
  · exact ⟨.inl (by simp [startAnswer]), rfl, rfl⟩
  · exact ⟨.inl (by simp [startAnswer]), rfl, rfl⟩

theorem frameEffects_peers (fr : Frame) (s : State) :
    ((frameEffects fr s).peers = s.peers
        ∨ (frameEffects fr s).peers = s.peers.modify fr.claim fun r => r.accepted fr)
      ∧ (frameEffects fr s).hpt.notices = s.hpt.notices ∧ (frameEffects fr s).hpt.noticesLost = s.hpt.noticesLost := by
  unfold frameEffects
  cases fr.kind with
  | status | join => exact ⟨.inl rfl, rfl, rfl⟩
  | data =>
    dsimp only
    split
    · exact decideAnswer_peers fr s
    · exact ⟨.inl rfl, rfl, rfl⟩
  | poll =>
    dsimp only
    split
    · exact ⟨.inl (by simp), by simp, by simp⟩
    · exact ⟨.inl rfl, rfl, rfl⟩
  | broadcast =>
    dsimp only
    split
    · obtain ⟨hnotices, hlost⟩ := storeBroadcast_notices fr s
      exact ⟨.inl (by simp), hnotices, hlost⟩
    · exact ⟨.inl rfl, rfl, rfl⟩

/-! ### The frames a bystander hears -/

/-- The record of a heard peer, whatever its frame does besides: its own sequence state alone may move further. -/
theorem frameEffects_record {fr : Frame} {s : State} {r : Peer} (h : s.peers[fr.claim]? = some r) :
    ∃ r', (frameEffects fr s).peers[fr.claim]? = some r' ∧ r'.presence = r.presence ∧ r'.stale = r.stale ∧ r'.view = r.view
      ∧ r'.age = r.age ∧ r'.pollAge = r.pollAge ∧ r'.txToggle = r.txToggle ∧ r'.resyncPending = r.resyncPending := by
  obtain ⟨hpeers | hpeers, -⟩ := frameEffects_peers fr s
  · exact ⟨r, by rw [hpeers, h], rfl, rfl, rfl, rfl, rfl, rfl, rfl⟩
  · exact ⟨r.accepted fr, by rw [hpeers, List.getElem?_modify_eq, h]; rfl, rfl, rfl, rfl, rfl, rfl, rfl, rfl⟩

theorem frameEffects_others {fr : Frame} (s : State) {p : Nat} (hp : p ≠ fr.claim) :
    (frameEffects fr s).peers[p]? = s.peers[p]? := by
  obtain ⟨hpeers | hpeers, -⟩ := frameEffects_peers fr s
  · rw [hpeers]
  · rw [hpeers, List.getElem?_modify_ne _ _ hp.symm]

/-- The part once the LFE and the FRX have taken the END of a frame. -/
def endHeard (s : State) : State :=
  { s with
    lfe := fallen s.lfe, frx := s.frx.ended
    stc := { s.stc with frameHeard := s.stc.frameHeard || decide (s.stc.station = .listening) } }

/-- The END of a peer's frame to a bystander: its record and notice first, then what the frame does besides. -/
theorem exec_end_of_peer {s : State} {width : Nat} (hon : s.lfe.sampling = true) (hact : s.lfe.active = true)
    (hd : decoding s = true) (h : bystander s) (hend : s.frx.state = .endWait) (hlow : 45 ≤ width) (hhigh : width ≤ 51)
    (hgap : 5 ≤ s.lfe.precedingGap ∧ s.lfe.precedingGap ≤ 24) (hclaim : s.frx.frame.claim ≠ s.stc.profile.address) :
    exec (.pulseEvent width) s = .next (frameEffects s.frx.frame (hearFrame s.frx.frame (endHeard s))) := by
  rw [exec_end_of_bystander hon hact hd h hend hlow hhigh ((inFrameGap_iff _).mpr hgap), validFrame_of_peer, markHeard_eq]
  · rfl
  · exact hclaim

/-- Settles O26. -/
theorem heardFrameRefreshesItsSender : Obligations.HeardFrameRefreshesItsSender := by
  unfold Obligations.HeardFrameRefreshesItsSender
  intro width s r hon hact hd hby hend hlow hhigh hgapLow hgapHigh fr hclaim hr hself mine posted refreshed
  have hposted (u : State) : heardNotice fr r u = posted u := heardNotice_eq hself u
  have hexec : exec (.pulseEvent width) s = .next (frameEffects fr (refreshed s.frx.ended)) := by
    rw [exec_end_of_peer hon hact hd hby hend hlow hhigh ⟨hgapLow, hgapHigh⟩ hclaim, hearFrame_of_peer (s := endHeard s) (fr := s.frx.frame) hr]
    show Host.Outcome.next (frameEffects fr (heardNotice fr r _)) = _
    rw [hposted, Peer.hear_eq]
    rfl
  have hframe (x : Frx) : (refreshed x).stc.profile = s.stc.profile ∧ (refreshed x).stc.station = s.stc.station := by
    simp [refreshed, ← hposted]
  obtain ⟨hprofile, hstation⟩ := hframe s.frx.ended
  have hplain : (fr.kind = .status ∨ fr.kind = .join ∨ (fr.kind = .broadcast ∧ s.stc.profile.broadcastStore = false)
      ∨ ((fr.kind = .poll ∨ fr.kind = .data) ∧ ¬ mine)) →
      frameEffects fr (refreshed s.frx.ended) = refreshed s.frx.ended := fun h =>
    frameEffects_of_plain (by rw [hprofile, hstation]; exact h)
  refine ⟨fun h => ?plain, fun hdata hmine => ?data, ?record⟩
  case plain =>
    have hkind : fr.kind ≠ .data := by rcases h with h | h | ⟨h, -⟩ | ⟨h, -⟩ <;> simp [h]
    have hended : s.frx.ended = { s.frx with state := .idle, recent := ⟨s.frx.recent.last, some .w6⟩ } := by
      simp only [Frx.ended, show s.frx.frame.kind ≠ .data from hkind, if_false]
    rw [hexec, hplain (by tauto), hended]
  case data =>
    have hended : s.frx.ended =
        { s.frx with
          state := .answerWait, window := ⟨.waiting, fr.claim, fr.dest, fr.lane⟩
          recent := ⟨s.frx.recent.last, some .w6⟩ } := by
      simp only [Frx.ended, show s.frx.frame.kind = .data from hdata, if_true]
      rfl
    rw [hexec, hplain (.inr (.inr (.inr ⟨.inr hdata, hmine⟩))), hended]
  case record =>
    obtain ⟨-, hnotices, hlost⟩ := frameEffects_peers fr (refreshed s.frx.ended)
    have hpeers : (refreshed s.frx.ended).peers = s.peers.set fr.claim (r.hear fr) := by
      simp only [refreshed, ← hposted, heardNotice_frame, Peer.hear_eq]
    have hhpt : (refreshed s.frx.ended).hpt = (posted s).hpt := by
      simp only [refreshed, posted]
      repeat' split
      all_goals first | rw [postNotice_hpt, postNotice_hpt] | rfl
    have hlt : fr.claim < s.peers.length := (List.getElem?_eq_some_iff.mp hr).1
    obtain ⟨r', hr', hpresence, hstale, hview, hage, hpoll, htoggle, hresync⟩ :=
      frameEffects_record (fr := fr) (s := refreshed s.frx.ended) (r := r.hear fr) (by rw [hpeers, List.getElem?_set_self hlt])
    rw [Peer.hear_eq] at hpresence hstale hview hage hpoll htoggle hresync
    refine ⟨_, r', hexec, hr', hpresence, hstale, hview, hage, hpoll,
      fun hjoin => ⟨htoggle.trans (if_neg hjoin), hresync.trans (if_neg hjoin)⟩, fun p hp => ?_, by rw [hnotices, hhpt],
      by rw [hlost, hhpt], ?_⟩
    · rw [frameEffects_others _ hp, hpeers, List.getElem?_set_ne hp.symm]
    · rw [(frameEffects_frame _ fr).2.2.1]
      simp only [refreshed, ← hposted, heardNotice_frame]

/-! ### Broadcasts and POLLs -/

theorem hearFrame_counters (fr : Frame) (s : State) : (hearFrame fr s).hpt.counters = s.hpt.counters := by
  unfold hearFrame
  dsimp only
  split
  · rw [postNotice_hpt]
    split <;> rfl
  · rfl

/-- A broadcast joins the back of a ring with room. -/
theorem storeBroadcast_of_room {fr : Frame} {s : State} (h : s.bcr.ring.length < 8) :
    storeBroadcast fr s =
      s.setBcr
        { ring := s.bcr.ring ++ [⟨fr.claim, fr.lane, fr.payload, s.bcr.arrivals⟩], arrivals := s.bcr.arrivals + 1#16 } := by
  have hroom : ¬ Config.ringSize ≤ s.bcr.ring.length := by rw [Config.ringSize]; omega
  simp [storeBroadcast, hroom]

/-- A broadcast that finds the ring full takes the place of the oldest, which is counted (R95). -/
theorem storeBroadcast_of_full {fr : Frame} {s : State} (h : 8 ≤ s.bcr.ring.length) :
    storeBroadcast fr s =
      (raise .bcastOverwritten s).setBcr
        { ring := s.bcr.ring.tail ++ [⟨fr.claim, fr.lane, fr.payload, s.bcr.arrivals⟩]
          arrivals := s.bcr.arrivals + 1#16 } := by
  have hfull : Config.ringSize ≤ s.bcr.ring.length := h
  simp [storeBroadcast, hfull]

/-- Settles O27. -/
theorem broadcastIsStoredAndPollOwes : Obligations.BroadcastIsStoredAndPollOwes := by
  unfold Obligations.BroadcastIsStoredAndPollOwes
  intro width s hon hact hd hby hend hlow hhigh hgapLow hgapHigh fr hclaim
  have hexec : exec (.pulseEvent width) s = .next (frameEffects fr (hearFrame fr (endHeard s))) :=
    exec_end_of_peer hon hact hd hby hend hlow hhigh ⟨hgapLow, hgapHigh⟩ hclaim
  have hcounters := hearFrame_counters fr (endHeard s)
  refine ⟨fun hkind => ⟨_, hexec, ?_⟩, fun hkind hdest => ⟨_, hexec, ?_⟩⟩
  · have heffects : frameEffects fr (hearFrame fr (endHeard s)) =
        if s.stc.profile.broadcastStore then storeBroadcast fr (hearFrame fr (endHeard s)) else hearFrame fr (endHeard s) := by
      simp only [frameEffects, hkind, hearFrame_frame, endHeard]
    rw [heffects]
    cases hstore : s.stc.profile.broadcastStore with
    | false =>
      rw [if_neg (by simp)]
      exact ⟨by simp [endHeard], by simp [endHeard], by simp [endHeard],
        fun _ => ⟨by simp [endHeard], congrArg Counters.bcastOverwritten hcounters⟩, by simp⟩
    | true =>
      refine ⟨by simp [endHeard], by simp [endHeard], by simp [endHeard], by simp, fun _ => ⟨?_, fun hroom => ?_, fun hfull => ?_⟩⟩
      · simp [storeBroadcast, endHeard]
      · rw [if_pos rfl, storeBroadcast_of_room (by simpa [endHeard] using hroom)]
        simpa [endHeard, fr, frameOf] using congrArg Counters.bcastOverwritten hcounters
      · rw [if_pos rfl, storeBroadcast_of_full (by simpa [endHeard] using hfull)]
        refine ⟨by simp [endHeard, fr, frameOf], ?_⟩
        show (bump (hearFrame fr (endHeard s)).hpt.counters.bcastOverwritten).toNat = _
        rw [bump_toNat, hcounters]
        rfl
  · have hown : fr.dest = ownAddress (hearFrame fr (endHeard s)) := by simpa [ownAddress, endHeard] using hdest
    by_cases hactive : s.stc.station = .active
    · have heffects : frameEffects fr (hearFrame fr (endHeard s)) = addCause .c (hearFrame fr (endHeard s)) := by
        simp only [frameEffects, hkind]
        exact if_pos ⟨hown, by simpa [endHeard] using hactive⟩
      rw [heffects]
      simp [endHeard, hactive, addCause_rxp, Causes.insert]
    · have heffects : frameEffects fr (hearFrame fr (endHeard s)) = hearFrame fr (endHeard s) :=
        frameEffects_of_plain (.inr (.inr (.inr ⟨.inl hkind, fun h => hactive (by simpa [endHeard] using h.2)⟩)))
      rw [heffects]
      simp [endHeard, hactive]

/-! ### The answer to a DATA frame -/

theorem isNew_eq_false_iff (r : Peer) (fr : Frame) :
    isNew r fr = false ↔
      (fr.resync = false ∨ r.resyncHeld.get fr.lane = true) ∧ fr.toggle ≠ r.rxExpected.get fr.lane := by
  unfold isNew
  cases fr.resync <;> cases r.resyncHeld.get fr.lane <;> simp

/-- The evaluation of causes (a) and (b) reads the pool and the profile alone. -/
theorem evalCauses_rxp_of_profile {u v : State} (hrxp : u.rxp = v.rxp) (hprofile : u.stc.profile = v.stc.profile) :
    (evalCauses u).rxp = (evalCauses v).rxp := by
  have hreserve (l : Lane) : freeReserve u l = freeReserve v l := by simp only [freeReserve, usedReserve, hrxp, hprofile]
  have hshared : freeShared u = freeShared v := by simp only [freeShared, sharedSize, usedShared, hrxp, hprofile]
  have hcredit : unadvertised u = unadvertised v := by simp only [unadvertised, hreserve, hshared, hrxp]
  have ha : conditionA u = conditionA v := by rw [conditionA, conditionA, hcredit, hprofile]
  have hb : conditionB u = conditionB v := by simp only [conditionB, laneShutOut, hreserve, hshared, hrxp]
  rw [evalCauses_rxp, evalCauses_rxp, ha, hb, hrxp]

theorem lend_getD (v : Advert) (l : Lane) :
    (v.lend l).getD v =
      if 0 < v.reserve.get l then { v with reserve := v.reserve.set l (v.reserve.get l - 1) }
      else if 0 < v.shared then { v with shared := v.shared - 1 } else v := by
  unfold Advert.lend
  repeat' split
  all_goals rfl

theorem peerAt_updatePeer_self {s : State} {p : Nat} {r : Peer} (h : s.peers[p]? = some r) (f : Peer → Peer) :
    peerAt (updatePeer p f s) p = f r :=
  peerAt_of_getElem? (by rw [updatePeer_peers, List.getElem?_modify_eq, h]; rfl)

/-- Settles O28. -/
theorem dataFrameIsAnsweredByToggleAndSpace : Obligations.DataFrameIsAnsweredByToggleAndSpace := by
  unfold Obligations.DataFrameIsAnsweredByToggleAndSpace
  intro width s r hon hact hactive hby hend hlow hhigh hgapLow hgapHigh fr hkind hdest hclaim hr rep space view
  obtain ⟨u, hu⟩ : ∃ u, u = hearFrame fr (endHeard s) := ⟨_, rfl⟩
  have hexec : exec (.pulseEvent width) s = .next (decideAnswer fr u) := by
    rw [exec_end_of_peer hon hact (decoding_of_onAir (.inr hactive)) hby hend hlow hhigh ⟨hgapLow, hgapHigh⟩ hclaim, hu]
    show Host.Outcome.next (frameEffects fr (hearFrame fr (endHeard s))) = _
    simp only [frameEffects, hkind]
    rw [if_pos ⟨by simpa [ownAddress, endHeard] using hdest, by simpa [endHeard] using hactive⟩]
  have hcounters : u.hpt.counters = s.hpt.counters := hu ▸ hearFrame_counters fr (endHeard s)
  have hrxp : u.rxp = s.rxp := by simp [hu, endHeard]
  have hprofile : u.stc.profile = s.stc.profile := by simp [hu, endHeard]
  have htxs : u.txs = s.txs := by simp [hu, endHeard]
  have hbcr : u.bcr = s.bcr := by simp [hu, endHeard]
  have hfaults : u.ftx.faultCount = s.ftx.faultCount := by simp [hu, endHeard]
  have hfrx : u.frx = s.frx.ended := by simp [hu, endHeard]
  have hpeers : u.peers = s.peers.set fr.claim (r.hear fr) := by
    rw [hu, hearFrame_of_peer (s := endHeard s) hr]; simp [endHeard]
  have hrecord : u.peers[fr.claim]? = some (r.hear fr) := by
    rw [hpeers, List.getElem?_set_self (List.getElem?_eq_some_iff.mp hr).1]
  have hexpected : (r.hear fr).rxExpected = r.rxExpected := by simp [Peer.hear, hkind]
  have hheld : (r.hear fr).resyncHeld = r.resyncHeld := by simp [Peer.hear, hkind]
  have hnew : isNew (peerAt u fr.claim) fr = false ↔ rep := by
    rw [peerAt_of_getElem? hrecord, isNew_eq_false_iff, hexpected, hheld]
  have hreserve (l : Lane) : freeReserve u l = freeReserve s l := by simp only [freeReserve, usedReserve, hrxp, hprofile]
  have hshared : freeShared u = freeShared s := by simp only [freeShared, sharedSize, usedShared, hrxp, hprofile]
  have hspace : hasSpace u fr.lane = true ↔ space := by
    simp only [hasSpace, hreserve, hshared, Bool.or_eq_true, decide_eq_true_eq, space]
  have hframe : (decideAnswer fr u).ftx.state = .answering ∧ (decideAnswer fr u).ftx.faultCount = s.ftx.faultCount := by
    rw [← hfaults]
    unfold decideAnswer
    repeat' split
    all_goals simp [startAnswer, ftxIdle]
  have hended : s.frx.ended.state = .answerWait ∧ s.frx.ended.window = ⟨.waiting, fr.claim, fr.dest, fr.lane⟩ := by
    have hdata : s.frx.frame.kind = .data := hkind
    exact ⟨by simp [Frx.ended, hdata], by rw [Frx.ended, if_pos hdata, if_pos hdata]; rfl⟩
  refine ⟨_, hexec, by simp [htxs], by simp [hbcr], hframe.1, hframe.2, by simpa [hfrx] using hended.1,
    by simpa [hfrx] using hended.2, fun hrep => ?repeated, fun hrep hfull => ?refused, fun hrep hroom => ?accepted⟩
  case repeated =>
    have hdecide : decideAnswer fr u = startAnswer .duplicate (raise .duplicatesSeen u) := by
      simp [decideAnswer, hnew.mpr hrep]
    rw [hdecide]
    have hat : peerAt (startAnswer .duplicate (raise .duplicatesSeen u)) fr.claim = r.hear fr := peerAt_of_getElem? hrecord
    refine ⟨rfl, hrxp, ?_, by rw [hat, hexpected], by rw [hat, hheld]⟩
    show (bump u.hpt.counters.duplicatesSeen).toNat = _
    rw [bump_toNat, hcounters]
  case refused =>
    have hdecide : decideAnswer fr u = startAnswer .refused (raise .refusedIssued (addCause .d u)) := by
      simp [decideAnswer, Bool.eq_true_of_not_eq_false (mt hnew.mp hrep), mt hspace.mp hfull]
    rw [hdecide]
    have hat : peerAt (startAnswer .refused (raise .refusedIssued (addCause .d u))) fr.claim = r.hear fr :=
      peerAt_of_getElem? hrecord
    refine ⟨rfl, ?_, ?_, by rw [hat, hexpected], by rw [hat, hheld]⟩
    · rw [← hrxp]; rfl
    · show (bump u.hpt.counters.refusedIssued).toNat = _
      rw [bump_toNat, hcounters]
  case accepted =>
    have hdecide : decideAnswer fr u =
        startAnswer .accept (updatePeer fr.claim (fun r => r.accepted fr) (storeRecord fr u)) := by
      simp [decideAnswer, Bool.eq_true_of_not_eq_false (mt hnew.mp hrep), hspace.mpr hroom]
    have hat : peerAt (decideAnswer fr u) fr.claim = (r.hear fr).accepted fr := by
      rw [hdecide]
      exact peerAt_updatePeer_self (s := storeRecord fr u) (by simpa using hrecord) _
    refine ⟨by rw [hdecide]; rfl, ?_, ?_, ?_, ?_⟩
    · rw [hdecide]
      show (storeRecord fr u).rxp = _
      refine evalCauses_rxp_of_profile ?_ hprofile
      show ({ u.rxp with
        queue := u.rxp.queue ++ [⟨fr.claim, fr.lane, fr.payload, u.rxp.arrivals, chargeFor u fr.lane⟩]
        arrivals := u.rxp.arrivals + 1#16
        selfView := (u.rxp.selfView.lend fr.lane).getD u.rxp.selfView } : Rxp) = _
      rw [hrxp, lend_getD, chargeFor, hreserve]
      rfl
    · rw [hdecide, ← hcounters]
      simp [startAnswer]
    · rw [hat]
      simp [Peer.accepted, hexpected]
    · rw [hat]
      simp [Peer.accepted, hheld]

/-! ### An address clash -/

/-- Settles O29. -/
theorem addressClashHaltsTheStation : Obligations.AddressClashHaltsTheStation := by
  unfold Obligations.AddressClashHaltsTheStation
  intro width s hon hact hd hby hend hlow hhigh hgapLow hgapHigh fr hclaim hqueued
  have hexec : exec (.pulseEvent width) s = .next (addressClash (markHeard ((lineFallen s).setFrx s.frx.ended))) := by
    rw [exec_end_of_bystander hon hact hd hby hend hlow hhigh ((inFrameGap_iff _).mpr ⟨hgapLow, hgapHigh⟩), validFrame,
      if_pos (show s.frx.frame.claim = ownAddress ((lineFallen s).setFrx s.frx.ended) from hclaim)]
    rfl
  rw [markHeard_eq] at hexec
  refine ⟨_, hexec, rfl, rfl, rfl, rfl, rfl, rfl, rfl, rfl, rfl, by simp [addressClash, halt, ctuOff]; rfl, rfl, rfl,
    by simp [addressClash, halt, ftxIdle]; rfl, by simp [addressClash, halt, haltFailures, failAll], ?_, ?_, by simp; rfl,
    by simp; rfl, by simp; rfl⟩
  · simp [addressClash, halt, haltFailures, failAll]
    rfl
  · simp only [addressClash, halt, haltFailures_frame, postNotice_hpt]
    rfl

end Sys2Proof.Machine
end

