-- ==== Sys2Proof/Proofs/AnswerWindow.lean ====
section
/-! SUPPORT. The answer window: what each event in it makes of the FRX, and what an answer does to the destination's record
and to the part's own message. -/

namespace Sys2Proof.Machine

/-! ### Classes -/

theorem answerClassOf_eq_accept_iff (width : Nat) :
    answerClassOf (classOf width) = .accept ↔ 13 ≤ width ∧ width ≤ 19 := by
  rw [← (widthClassesAreTheWindows width).2.1]
  cases classOf width <;> simp [answerClassOf]

theorem answerClassOf_eq_duplicate_iff (width : Nat) :
    answerClassOf (classOf width) = .duplicate ↔ 21 ≤ width ∧ width ≤ 27 := by
  rw [← (widthClassesAreTheWindows width).2.2.1]
  cases classOf width <;> simp [answerClassOf]

theorem answerClassOf_eq_refused_iff (width : Nat) :
    answerClassOf (classOf width) = .refused ↔ 37 ≤ width ∧ width ≤ 43 := by
  rw [← (widthClassesAreTheWindows width).2.2.2.2.1]
  cases classOf width <;> simp [answerClassOf]

theorem answerClassOf_of_outside {width : Nat} (haccept : ¬ (13 ≤ width ∧ width ≤ 19))
    (hduplicate : ¬ (21 ≤ width ∧ width ≤ 27)) (hrefused : ¬ (37 ≤ width ∧ width ≤ 43)) :
    answerClassOf (classOf width) = .unclassified := by
  rw [← answerClassOf_eq_accept_iff] at haccept
  rw [← answerClassOf_eq_duplicate_iff] at hduplicate
  rw [← answerClassOf_eq_refused_iff] at hrefused
  revert haccept hduplicate hrefused
  cases classOf width <;> simp [answerClassOf]

/-! ### The events of the window -/

/-- The part neither drives nor reads back a pulse, and its CTU stands at no opportunity. -/
structure Listens (s : State) : Prop where
  frame : s.ftx.state.inFrame = false
  answering : s.ftx.state ≠ .answering
  answer : s.ftx.answer = none
  drive : s.ctu.drive = Drive.none
  passive : s.ctu.passive

theorem bystander.listens {s : State} (h : bystander s) : Listens s := by
  have hpassive := h.passive
  obtain ⟨hftx, hanswer, hdrive, -⟩ := h
  exact ⟨by rw [hftx]; rfl, by simp [hftx], hanswer, hdrive, hpassive⟩

/-- The FRX with its answer window in a phase. -/
def Frx.windowed (x : Frx) (st : RxState) (ph : WindowPhase) : Frx :=
  { x with state := st, window := { x.window with phase := ph } }

/-- The answer event of the window that is open. -/
def windowAnswer (x : Frx) (cls : AnswerClass) (s : State) : State :=
  answerEvent x.window.claim x.window.dest x.window.lane cls s

theorem rxAnswer_eq (x : Frx) (st : RxState) (ph : WindowPhase) (cls : AnswerClass) :
    rxAnswer x st ph cls = (x.windowed st ph, .answered x.window.claim x.window.dest x.window.lane cls) := rfl

theorem exec_edge_of_listens {s : State} (hon : s.lfe.sampling = true) (h : Listens s) (hact : s.lfe.active = false) (gap : Nat) :
    exec (.lineRisingEdge gap) s = .next
      (toFrx false (fun f => rxRise f (min precedingGapLimit gap)) (lineRisen gap s)) := by
  rw [exec_lineRisingEdge hon hact, ftxRise_of_silent (s := lineRisen gap s) h.frame h.answering,
    ctuRise_of_passive (s := lineRisen gap s) h.passive]

section Window

variable {s : State} (hon : s.lfe.sampling = true) (hd : decoding s = true) (hwait : s.frx.state = .answerWait)
include hon hd hwait

theorem exec_answerWindowClose (hact : s.lfe.active = false) (hphase : s.frx.window.phase = .waiting) :
    exec .answerWindowClose s = .next (windowAnswer s.frx .none (s.setFrx (s.frx.windowed .idle .closed))) := by
  show execAnswerWindowClose s = _
  rw [execAnswerWindowClose, if_pos ⟨hon, by simp [hact]⟩, toFrx_of_decoding hd, rxWindowClose, if_pos ⟨hwait, hphase⟩]
  rfl

theorem exec_early_of_listens (h : Listens s) (hact : s.lfe.active = true) (hphase : s.frx.window.phase = .inTime) :
    exec .answerEarlyUnclassified s = .next
      (windowAnswer s.frx .unclassified (s.setFrx (s.frx.windowed .answerWait .classed))) := by
  have hftx : ftxEarly s = s := by rw [ftxEarly, h.answer]
  show execAnswerEarlyUnclassified s = _
  rw [execAnswerEarlyUnclassified, if_pos ⟨hon, hact⟩, hftx, ite_self, toFrx_of_decoding hd, rxEarlyAnswer,
    if_pos ⟨hwait, hphase⟩]
  rfl

theorem exec_edge_out_of_time (h : Listens s) (hact : s.lfe.active = false) (hphase : s.frx.window.phase = .waiting)
    {gap : Nat} (hgap : gap < 5) :
    exec (.lineRisingEdge gap) s = .next
      (windowAnswer s.frx .unclassified ((lineRisen gap s).setFrx (s.frx.windowed .answerWait .classed))) := by
  have hrise : rxRise s.frx (min precedingGapLimit gap) = rxAnswer s.frx .answerWait .classed .unclassified := by
    simp only [rxRise, hwait, hphase, if_true]
    rw [if_pos (by rw [precedingGapLimit]; omega)]
  rw [exec_edge_of_listens hon h hact, toFrx_of_decoding (s := lineRisen gap s) hd]
  show Host.Outcome.next (applyRx false (rxRise s.frx (min precedingGapLimit gap)).2
    ((lineRisen gap s).setFrx (rxRise s.frx (min precedingGapLimit gap)).1)) = _
  rw [hrise]
  rfl

theorem exec_edge_in_time (h : Listens s) (hact : s.lfe.active = false) (hphase : s.frx.window.phase = .waiting)
    {gap : Nat} (hlow : 5 ≤ gap) (hhigh : gap ≤ 24) :
    exec (.lineRisingEdge gap) s = .next ((lineRisen gap s).setFrx (s.frx.windowed .answerWait .inTime)) := by
  have hrisen : (risen gap s).frx = s.frx.windowed .answerWait .inTime := by
    simp [risen, hd, hwait, hphase, hhigh, Frx.windowed]
  rw [exec_edge_of_listens hon h hact, toFrx_rise (s := s) (fun _ _ => hlow), hrisen] <;> rfl

theorem exec_release_in_time (h : Listens s) (hact : s.lfe.active = true) (hphase : s.frx.window.phase = .inTime) (width : Nat) :
    exec (.pulseEvent width) s = .next
      (windowAnswer s.frx (answerClassOf (classOf width)) ((lineFallen s).setFrx (s.frx.windowed .idle .closed))) := by
  have hpulse : rxPulse s.frx (classOf width) s.lfe.precedingGap =
      rxAnswer s.frx .idle .closed (answerClassOf (classOf width)) := by simp [rxPulse, hwait, hphase]
  rw [exec_pulseEvent_of_silent hon hact h.frame h.answering h.answer h.drive h.passive.closed,
    toFrx_of_decoding (s := lineFallen s) hd]
  show Host.Outcome.next (applyRx false (rxPulse s.frx (classOf width) s.lfe.precedingGap).2
    ((lineFallen s).setFrx (rxPulse s.frx (classOf width) s.lfe.precedingGap).1)) = _
  rw [hpulse]
  rfl

theorem exec_release_of_classed (h : Listens s) (hact : s.lfe.active = true) (hphase : s.frx.window.phase = .classed)
    (width : Nat) :
    exec (.pulseEvent width) s = .next ((lineFallen s).setFrx (s.frx.windowed .idle .closed)) := by
  have hpulse : rxPulse s.frx (classOf width) s.lfe.precedingGap = (s.frx.windowed .idle .closed, .quiet) := by
    simp [rxPulse, hwait, hphase, Frx.windowed]
  rw [exec_pulseEvent_of_silent hon hact h.frame h.answering h.answer h.drive h.passive.closed,
    toFrx_of_decoding (s := lineFallen s) hd]
  show Host.Outcome.next (applyRx false (rxPulse s.frx (classOf width) s.lfe.precedingGap).2
    ((lineFallen s).setFrx (rxPulse s.frx (classOf width) s.lfe.precedingGap).1)) = _
  rw [hpulse]
  rfl

end Window

theorem lineRisen_of_le {gap : Nat} (h : gap ≤ 24) (s : State) :
    lineRisen gap s =
      s.setLfe { s.lfe with active := true, count := 2, precedingGap := gap, stuckReported := false } := by
  rw [lineRisen, Nat.min_eq_right (by omega)]

/-! ### An answer that the part observes -/

/-- The part does not await this answer: the destination's record alone may move, if it is a peer's. -/
theorem windowAnswer_of_own_dest {x : Frx} {s u : State} (hftx : s.ftx.state ≠ .awaitAnswer)
    (hdest : x.window.dest = s.stc.profile.address) (cls : AnswerClass) (hu : u.ftx = s.ftx) (hstc : u.stc = s.stc) :
    windowAnswer x cls u = u := by
  have hown : x.window.dest = ownAddress u := by rw [ownAddress, hstc]; exact hdest
  rw [windowAnswer, answerEvent, if_pos hown, if_neg (by rw [hu]; exact fun h => hftx h.2)]

theorem windowAnswer_of_observer {x : Frx} {s u : State} (hftx : s.ftx.state ≠ .awaitAnswer)
    (hdest : x.window.dest ≠ s.stc.profile.address) (cls : AnswerClass) (hu : u.ftx = s.ftx) (hstc : u.stc = s.stc) :
    windowAnswer x cls u = observeAnswer x.window.dest x.window.lane cls u := by
  have hown : x.window.dest ≠ ownAddress u := by rw [ownAddress, hstc]; exact hdest
  rw [windowAnswer, answerEvent, if_neg hown, if_neg (by rw [hu]; exact fun h => hftx h.2)]

section Observed

variable {u : State} {table : List Peer} {dest : Nat} {r : Peer} (h : table[dest]? = some r) (l : Lane) (hu : u.peers = table)
include h hu

/-- What an answer does to the record of its destination, and whether the view is doubted. -/
theorem observeAnswer_of_peer (cls : AnswerClass) :
    observeAnswer dest l cls u =
      if staleMark r l cls = true ∧ r.stale = false then
        raise .staleEvents (u.setPeers (u.peers.set dest (r.answered l cls)))
      else u.setPeers (u.peers.set dest (r.answered l cls)) := by
  rw [← hu] at h
  rw [observeAnswer, peerAt_of_getElem? h, updatePeer, modify_of_getElem? h]
  simp

theorem observeAnswer_none : observeAnswer dest l .none u = u := by
  rw [observeAnswer_of_peer h l hu, if_neg (by simp [staleMark])]
  show u.setPeers (u.peers.set dest r) = u
  rw [← hu] at h
  obtain ⟨hlt, rfl⟩ := List.getElem?_eq_some_iff.mp h
  rw [List.set_getElem_self]
  rfl

theorem observeAnswer_duplicate :
    observeAnswer dest l .duplicate u = u.setPeers (u.peers.set dest { r with age := 0 }) := by
  rw [observeAnswer_of_peer h l hu, if_neg (by simp [staleMark])]
  rfl

/-- An answer that puts the view in doubt: stale, and counted if it was fresh. -/
theorem observeAnswer_of_doubt {cls : AnswerClass} (hmark : staleMark r l cls = true) :
    observeAnswer dest l cls u =
      if r.stale then u.setPeers (u.peers.set dest (r.answered l cls))
      else counted .staleEvents (u.setPeers (u.peers.set dest (r.answered l cls))) := by
  rw [observeAnswer_of_peer h l hu, hmark]
  cases r.stale <;> rfl

/-- An ACCEPT takes its credit from the lane's reserve, then from the shared count; with neither it puts the view in doubt
(R27). -/
theorem observeAnswer_accept :
    observeAnswer dest l .accept u =
      if 0 < r.view.reserve.get l then
        u.setPeers (u.peers.set dest
          { r with view := { r.view with reserve := r.view.reserve.set l (r.view.reserve.get l - 1) }, age := 0 })
      else if 0 < r.view.shared then
        u.setPeers (u.peers.set dest { r with view := { r.view with shared := r.view.shared - 1 }, age := 0 })
      else if r.stale then u.setPeers (u.peers.set dest { r with stale := true, age := 0 })
      else counted .staleEvents (u.setPeers (u.peers.set dest { r with stale := true, age := 0 })) := by
  by_cases hreserve : 0 < r.view.reserve.get l
  · rw [observeAnswer_of_peer h l hu, if_pos hreserve, if_neg (by simp [staleMark, Advert.lend, hreserve])]
    simp [Peer.answered, Advert.lend, hreserve]
  by_cases hshared : 0 < r.view.shared
  · rw [observeAnswer_of_peer h l hu, if_neg hreserve, if_pos hshared,
      if_neg (by simp [staleMark, Advert.lend, hreserve, hshared])]
    simp [Peer.answered, Advert.lend, hreserve, hshared]
  · have hnone : r.view.lend l = none := (Advert.lend_eq_none_iff _ _).mpr ⟨by omega, by omega⟩
    rw [observeAnswer_of_doubt h l hu (by simp [staleMark, hnone]), if_neg hreserve, if_neg hshared]
    simp [Peer.answered, hnone]

end Observed

/-- Settles O30. -/
theorem observedAnswerMovesTheView : Obligations.ObservedAnswerMovesTheView := by
  unfold Obligations.ObservedAnswerMovesTheView
  intro s hon hd hby hwait closed raised
  have hlisten := hby.listens
  have hftx : s.ftx.state ≠ .awaitAnswer := by simp [hby.1]
  refine ⟨fun hdest => ⟨fun hact hphase => ⟨?_, fun gap hgap => ?_⟩, fun hact hphase => ?_, fun hact hphase width => ?_⟩,
    fun r hdest hr => ?peer⟩
  · rw [exec_answerWindowClose hon hd hwait hact hphase, windowAnswer_of_own_dest hftx hdest] <;> rfl
  · by_cases hlow : gap < 5
    · rw [exec_edge_out_of_time hon hd hwait hlisten hact hphase hlow, windowAnswer_of_own_dest hftx hdest,
        lineRisen_of_le hgap, if_pos hlow] <;> rfl
    · rw [exec_edge_in_time hon hd hwait hlisten hact hphase (by omega) hgap, lineRisen_of_le hgap, if_neg hlow]
      rfl
  · rw [exec_early_of_listens hon hd hwait hlisten hact hphase, windowAnswer_of_own_dest hftx hdest] <;> rfl
  · rcases hphase with hphase | hphase
    · rw [exec_release_in_time hon hd hwait hlisten hact hphase, windowAnswer_of_own_dest hftx hdest] <;> rfl
    · rw [exec_release_of_classed hon hd hwait hlisten hact hphase]
      rfl
  case peer =>
    intro l put doubt
    refine ⟨fun hact hphase => ?_, fun gap hgap hact hphase => ?_, fun gap hlow hhigh hact hphase => ?_, fun hact hphase => ?_,
      fun width hact hphase => ?_, fun width hact hphase => ?release⟩
    · rw [exec_answerWindowClose hon hd hwait hact hphase, windowAnswer_of_observer hftx hdest, observeAnswer_none hr] <;> rfl
    · rw [exec_edge_out_of_time hon hd hwait hlisten hact hphase hgap, windowAnswer_of_observer hftx hdest,
        observeAnswer_of_doubt hr, lineRisen_of_le (by omega)] <;> rfl
    · rw [exec_edge_in_time hon hd hwait hlisten hact hphase hlow hhigh, lineRisen_of_le hhigh]
      rfl
    · rw [exec_early_of_listens hon hd hwait hlisten hact hphase, windowAnswer_of_observer hftx hdest,
        observeAnswer_of_doubt hr] <;> rfl
    · rw [exec_release_of_classed hon hd hwait hlisten hact hphase]
      rfl
    case release =>
      intro heard
      have hobserve (cls : AnswerClass) (h : answerClassOf (classOf width) = cls) :
          exec (.pulseEvent width) s = .next (observeAnswer s.frx.window.dest l cls heard) := by
        rw [exec_release_in_time hon hd hwait hlisten hact hphase, h, windowAnswer_of_observer hftx hdest] <;> rfl
      refine ⟨fun hlow hhigh => ?_, fun hlow hhigh => ?_, fun hlow hhigh => ?_, fun haccept hduplicate hrefused => ?_⟩
      · rw [hobserve _ ((answerClassOf_eq_accept_iff width).mpr ⟨hlow, hhigh⟩), observeAnswer_accept hr] <;> rfl
      · rw [hobserve _ ((answerClassOf_eq_duplicate_iff width).mpr ⟨hlow, hhigh⟩), observeAnswer_duplicate hr] <;> rfl
      · rw [hobserve _ ((answerClassOf_eq_refused_iff width).mpr ⟨hlow, hhigh⟩), observeAnswer_of_doubt hr] <;> rfl
      · rw [hobserve _ (answerClassOf_of_outside haccept hduplicate hrefused), observeAnswer_of_doubt hr] <;> rfl

/-! ### The answer to the part's own frame -/

/-- The attempt of a DATA frame is over: the FTX in IDLE, the CTU in WAITING with nothing locked (R104). -/
def attemptOver (s : State) : State :=
  { s with
    ftx := { Ftx.reset with faultCount := s.ftx.faultCount }
    ctu := { s.ctu with state := .waiting, idleSeen := false, locked := none, drive := Drive.none } }

/-- The answer to the part's own frame: the destination's record, the end of the attempt, the resolution (R53). -/
theorem windowAnswer_of_own_claim {x : Frx} {s u : State} (hftx : s.ftx.state = .awaitAnswer)
    (hclaim : x.window.claim = s.stc.profile.address) (hdest : x.window.dest ≠ s.stc.profile.address) (cls : AnswerClass)
    (hu : u.ftx = s.ftx) (hstc : u.stc = s.stc) :
    windowAnswer x cls u =
      resolve (resolutionOf cls) (observeAnswer x.window.dest x.window.lane cls (attemptOver u)) := by
  have hown : x.window.dest ≠ ownAddress u := by rw [ownAddress, hstc]; exact hdest
  have hmine : x.window.claim = ownAddress u ∧ u.ftx.state = .awaitAnswer := ⟨by rw [ownAddress, hstc]; exact hclaim, hu ▸ hftx⟩
  have hcomm : ∀ d l, attemptEnd ((observeAnswer d l cls u).setFtx (ftxIdle (observeAnswer d l cls u).ftx)) =
      observeAnswer d l cls (attemptOver u) := by
    intro d l
    simp only [observeAnswer, show peerAt (attemptOver u) d = peerAt u d from rfl]
    split <;> rfl
  rw [windowAnswer, answerEvent, if_neg hown, if_pos hmine, hcomm]

/-- Settles O31. -/
theorem ownAnswerEndsTheAttempt : Obligations.OwnAnswerEndsTheAttempt := by
  unfold Obligations.OwnAnswerEndsTheAttempt
  intro s hon hd hwait hftx hanswer hctu hdrive hclaim hdest after
  have hlisten : Listens s := ⟨by rw [hftx]; rfl, by simp [hftx], hanswer, hdrive, .inr (.inl hctu)⟩
  refine ⟨fun hact hphase => ?_, fun gap hgap hact hphase => ?_, fun gap hlow hhigh hact hphase => ?_, fun hact hphase => ?_,
    fun width hact hphase => ?release⟩
  · rw [exec_answerWindowClose hon hd hwait hact hphase, windowAnswer_of_own_claim hftx hclaim hdest] <;> rfl
  · rw [exec_edge_out_of_time hon hd hwait hlisten hact hphase hgap, windowAnswer_of_own_claim hftx hclaim hdest,
      lineRisen_of_le (by omega)] <;> rfl
  · rw [exec_edge_in_time hon hd hwait hlisten hact hphase hlow hhigh, lineRisen_of_le hhigh, Frx.windowed, ← hwait]
    rfl
  · rw [exec_early_of_listens hon hd hwait hlisten hact hphase, windowAnswer_of_own_claim hftx hclaim hdest] <;> rfl
  case release =>
    have hresolve (cls : AnswerClass) (h : answerClassOf (classOf width) = cls) :
        exec (.pulseEvent width) s = .next (resolve (resolutionOf cls) (after cls .idle .closed (fallen s.lfe))) := by
      rw [exec_release_in_time hon hd hwait hlisten hact hphase, h, windowAnswer_of_own_claim hftx hclaim hdest] <;> rfl
    exact ⟨fun hlow hhigh => hresolve .accept ((answerClassOf_eq_accept_iff width).mpr ⟨hlow, hhigh⟩),
      fun hlow hhigh => hresolve .duplicate ((answerClassOf_eq_duplicate_iff width).mpr ⟨hlow, hhigh⟩),
      fun hlow hhigh => hresolve .refused ((answerClassOf_eq_refused_iff width).mpr ⟨hlow, hhigh⟩),
      fun haccept hduplicate hrefused => hresolve .unclassified (answerClassOf_of_outside haccept hduplicate hrefused)⟩

end Sys2Proof.Machine
end

