-- ==== Sys2Proof/Proofs/Resolutions.lean ====
section
/-! SUPPORT. What a resolution does to the IN_FLIGHT message, what silence does to a peer and its messages, and the span
expiry that brings silence. -/

namespace Sys2Proof.Machine

/-! ### The pieces of a resolution -/

theorem settleSilence_of_broadcast (s : State) : settleSilence 31 s = s := by
  have h : silenceDue s 31 = false := by simp [silenceDue, Config.stations]
  rw [settleSilence, h]
  rfl

theorem settleSilence_dest (m : Message) (s : State) :
    settleSilence m.dest s = if m.dest = 31 then s else settleSilence m.dest s := by
  split
  · rw [‹m.dest = 31›, settleSilence_of_broadcast]
  · rfl

theorem unicast_eq_true_iff (m : Message) : m.unicast = true ↔ m.dest ≠ 31 := by
  simp [Message.unicast, Config.broadcastDest]

theorem flipFor_eq (m : Message) (pending : Bool) (s : State) :
    flipFor m pending s =
      if m.dest = 31 then s else s.setPeers (s.peers.modify m.dest fun r => r.flipTx m.lane pending) := by
  unfold flipFor
  by_cases h : m.dest = 31
  · rw [if_neg (by simp [unicast_eq_true_iff, h]), if_pos h]
  · rw [if_pos ((unicast_eq_true_iff m).mpr h), if_neg h]
    rfl

section Resolve

variable {s : State} {before after : List Message} {m : Message} (hs : s.txs.store = before ++ m :: after)
  (hm : m.state = .inFlight) (hb : ∀ x ∈ before, x.state ≠ .inFlight)
include hs hm hb

/-- The IN_FLIGHT message moves to DONE out of its place in the store. -/
theorem moveToDone_inFlight (f : Message → Message) :
    moveToDone isInFlight f s =
      s.setTxs { s.txs with store := before ++ after, outcomes := s.txs.outcomes ++ [f m] } :=
  moveToDone_split hs (fun x hx => by simpa [isInFlight] using hb x hx) (by simp [isInFlight, hm]) f

/-- A returned message is QUEUED again in its place, or DONE when its withdrawal is pending. -/
theorem returnMessage_inFlight (tries : Nat) :
    returnMessage m tries s =
      if m.withdrawPending then
        s.setTxs
          { s.txs with
            store := before ++ after
            outcomes := s.txs.outcomes ++ [({ m with tries := tries } : Message).finish .withdrawn false] }
      else s.setTxs { s.txs with store := before ++ { m with state := .queued, tries := tries } :: after } := by
  unfold returnMessage
  rw [moveToDone_inFlight hs hm hb, hs,
    updateFirst_split (by simp [isInFlight, hm]) (fun x hx => by simpa [isInFlight] using hb x hx)]

end Resolve

/-- Settles O32. -/
theorem inFlightMessageIsResolvedByTheTable : Obligations.InFlightMessageIsResolvedByTheTable := by
  unfold Obligations.InFlightMessageIsResolvedByTheTable
  intro s before after m hs hm hb limit done back flip settled
  have hsettle (r : Resolution) : resolve r s = settled (resolveMessage r m s) := by
    rw [resolve_split hs hb hm, settleSilence_dest]
  refine ⟨fun note => ?_, ?_, ?_, fun hlt => ?_, fun hle => ?_⟩
  · rw [hsettle, resolveMessage, flipFor_eq, moveToDone_inFlight hs hm hb]
    rfl
  · rw [hsettle, resolveMessage, returnMessage_inFlight (s := raise .refusedReceived s) hs hm hb]
    by_cases hpending : m.withdrawPending = true
    · rw [if_pos hpending, if_pos hpending]
      rfl
    · rw [if_neg hpending, if_neg hpending]
      rfl
  · rw [hsettle, resolveMessage, returnMessage_inFlight hs hm hb]
    rfl
  · rw [hsettle, resolveMessage, if_neg (Nat.not_le.mpr hlt), returnMessage_inFlight (s := raise .retries s) hs hm hb]
    by_cases hpending : m.withdrawPending = true
    · rw [if_pos hpending, if_pos hpending]
      rfl
    · rw [if_neg hpending, if_neg hpending]
      rfl
  · rw [hsettle, resolveMessage, if_pos hle, flipFor_eq, moveToDone_inFlight (s := raise .retries s) hs hm hb]
    simp only [flip]
    split <;> rfl

/-! ### Silence -/

/-- The number of failed messages of a lane that had a try. -/
def triedIn (l : Lane) (ms : List Message) : Nat := (ms.filter fun m => m.lane == l && decide (0 < m.tries)).length

theorem triedIn_cons (l : Lane) (m : Message) (ms : List Message) :
    triedIn l (m :: ms) = triedIn l ms + if m.lane = l ∧ 0 < m.tries then 1 else 0 := by
  unfold triedIn
  by_cases h : m.lane = l ∧ 0 < m.tries
  · rw [List.filter_cons_of_pos (by simpa using h), List.length_cons, if_pos h]
  · rw [List.filter_cons_of_neg (by simpa using h), if_neg h, Nat.add_zero]

/-- Failures flip a lane's tx toggle once for each message with a try, and set its resync pending at the first. -/
theorem failedMessages_get (l : Lane) : ∀ (ms : List Message) (r : Peer),
    (r.failedMessages ms).txToggle.get l = (if triedIn l ms % 2 = 1 then !r.txToggle.get l else r.txToggle.get l)
      ∧ (r.failedMessages ms).resyncPending.get l = (r.resyncPending.get l || decide (0 < triedIn l ms))
  | [], r => by simp [Peer.failedMessages, triedIn]
  | m :: ms, r => by
    obtain ⟨htoggle, hresync⟩ := failedMessages_get l ms (if 0 < m.tries then r.flipTx m.lane true else r)
    have hcons : r.failedMessages (m :: ms) = (if 0 < m.tries then r.flipTx m.lane true else r).failedMessages ms := rfl
    rw [hcons, htoggle, hresync, triedIn_cons]
    by_cases htried : m.lane = l ∧ 0 < m.tries
    · have hflip : (r.flipTx m.lane true).txToggle.get l = (!r.txToggle.get l)
          ∧ (r.flipTx m.lane true).resyncPending.get l = true := by simp [Peer.flipTx, htried.1]
      have hcount : (if m.lane = l ∧ 0 < m.tries then 1 else 0) = 1 := if_pos htried
      rw [if_pos htried.2, hcount, hflip.1, hflip.2]
      refine ⟨?_, by simp⟩
      by_cases hodd : triedIn l ms % 2 = 1
      · rw [if_pos hodd, if_neg (by omega), Bool.not_not]
      · rw [if_neg hodd, if_pos (by omega)]
    · have hkeep : (if 0 < m.tries then r.flipTx m.lane true else r).txToggle.get l = r.txToggle.get l
          ∧ (if 0 < m.tries then r.flipTx m.lane true else r).resyncPending.get l = r.resyncPending.get l := by
        split
        · have hlane : l ≠ m.lane := fun h => htried ⟨h.symm, ‹_›⟩
          simp [Peer.flipTx, hlane]
        · exact ⟨rfl, rfl⟩
      have hcount : (if m.lane = l ∧ 0 < m.tries then 1 else 0) = 0 := if_neg htried
      rw [hcount, hkeep.1, hkeep.2, Nat.add_zero]
      exact ⟨rfl, rfl⟩

theorem failedMessages_rest : ∀ (ms : List Message) (r : Peer),
    r.failedMessages ms =
      { r with txToggle := (r.failedMessages ms).txToggle, resyncPending := (r.failedMessages ms).resyncPending }
  | [], _ => rfl
  | m :: ms, r => by
    have hcons : r.failedMessages (m :: ms) = (if 0 < m.tries then r.flipTx m.lane true else r).failedMessages ms := rfl
    rw [hcons, failedMessages_rest ms]
    split <;> rfl

theorem PerLane.ext_get {α : Type} {x y : PerLane α} (h : ∀ l, x.get l = y.get l) : x = y := by
  obtain ⟨a, b, c⟩ := x
  obtain ⟨a', b', c'⟩ := y
  rw [show a = a' from h .a, show b = b' from h .b, show c = c' from h .c]

/-- A silence expiry is due for a peer whose age has reached the limit, while no message to it is IN_FLIGHT (R36, R37). -/
theorem silenceDue_iff {s : State} {p : Nat} {r : Peer} (hp : p ≤ 30) (hr : s.peers[p]? = some r) :
    silenceDue s p = true ↔
      (r.presence = .unknown ∨ r.presence = .present) ∧ s.stc.profile.silenceLimit ≤ r.age
        ∧ ∀ m ∈ s.txs.store, m.dest = p → m.state ≠ .inFlight := by
  have hlt : p < 31 := by omega
  simp only [silenceDue, peerAt_of_getElem? hr, Config.stations, Bool.and_eq_true, Bool.or_eq_true, decide_eq_true_eq,
    beq_iff_eq, Bool.not_eq_true', List.any_eq_false, hlt, true_and, and_assoc]
  refine and_congr_right fun _ => and_congr_right fun _ => forall₂_congr fun m _ => ?_
  tauto

/-- Settles O41. -/
theorem silenceFailsThePeersMessages : Obligations.SilenceFailsThePeersMessages := by
  unfold Obligations.SilenceFailsThePeersMessages
  intro p s r hp hr due gone tried toggled pending quietly
  have hdue : silenceDue s p = true ↔ due := silenceDue_iff hp hr
  have hqueued : queuedTo p = gone := by
    funext m
    by_cases hdest : m.dest = p
    · have hunicast : m.unicast = true := (unicast_eq_true_iff m).mpr (by omega)
      simp [queuedTo, gone, hunicast]
    · simp [queuedTo, gone, hdest]
  have htried (l : Lane) : triedIn l (s.txs.store.filter gone) = tried l := by
    simp only [triedIn, tried, List.filter_filter]
    congr 2
    funext m
    cases gone m <;> simp
  refine ⟨fun hnot => ?_, fun hyes => ?_⟩
  · rw [settleSilence, if_neg (mt hdue.mp hnot)]
  · have hfailed (q : Peer) (htoggle : q.txToggle = r.txToggle) (hresync : q.resyncPending = r.resyncPending) :
        q.failedMessages (s.txs.store.filter gone) =
          { q with
            txToggle := ⟨toggled .a, toggled .b, toggled .c⟩, resyncPending := ⟨pending .a, pending .b, pending .c⟩ } := by
      have hget (l : Lane) := failedMessages_get l (s.txs.store.filter gone) q
      simp only [htried, htoggle, hresync] at hget
      rw [failedMessages_rest]
      congr 1
      · exact PerLane.ext_get fun l => (hget l).1.trans (by cases l <;> rfl)
      · exact PerLane.ext_get fun l => (hget l).2.trans (by cases l <;> rfl)
    rw [settleSilence, if_pos (hdue.mpr hyes), takeSilence, peerAt_of_getElem? hr, hqueued, updatePeer,
      modify_of_getElem? hr,
      hfailed { r with presence := .silent, view := Advert.zero, stale := true, pollAge := .none } rfl rfl]
    rfl

/-! ### The span expiry -/

theorem expirePeers_eq (s : State) :
    expirePeers s = (List.range 31).foldl (fun u p => settleSilence p u) (updatePeers Peer.expire s) := rfl

/-- The heartbeat at an expiry: one more, and cause (e) when it comes to half the silence limit (R165, R17). -/
theorem heartbeatExpiry_eq (s : State) :
    heartbeatExpiry s =
      if s.stc.heartbeat + 1 = s.stc.profile.silenceLimit / 2 ∧ s.stc.heartbeat < 255 then
        addCause .e (s.setStc { s.stc with heartbeat := min 255 (s.stc.heartbeat + 1) })
      else s.setStc { s.stc with heartbeat := min 255 (s.stc.heartbeat + 1) } := by
  unfold heartbeatExpiry
  by_cases h : s.stc.heartbeat + 1 = s.stc.profile.silenceLimit / 2 ∧ s.stc.heartbeat < 255
  · rw [if_pos h, if_pos (by omega)]
  · rw [if_neg h, if_neg (by omega)]

theorem newlySendable_iff (s t : State) :
    newlySendable s t = true ↔
      (∃ m ∈ t.txs.store, eligible t m = true ∧ eligible s m = false)
        ∨ ∃ p ≤ 30, pollOwed t p = true ∧ pollOwed s p = false := by
  simp only [newlySendable, Config.stations, Bool.or_eq_true, List.any_eq_true, List.mem_range, Bool.and_eq_true,
    Bool.not_eq_true', Nat.lt_succ_iff]

theorem nameOnChange_eq (s t : State) :
    nameOnChange s t =
      if (t.rxp.owed = true ∧ s.rxp.owed = false) ∨ newlySendable s t = true then nameMoment t else t := by
  simp only [nameOnChange, Bool.or_eq_true, Bool.and_eq_true, Bool.not_eq_true']

/-- Settles O40. -/
theorem spanExpiryAgesTheTable : Obligations.SpanExpiryAgesTheTable := by
  unfold Obligations.SpanExpiryAgesTheTable
  intro s hrun aged settled beaten done moment
  have haged : expirePeers (s.setStc { s.stc with spanCount := 0 }) = settled := rfl
  have hstc : settled.stc = { s.stc with spanCount := 0 } := by rw [← haged, (expirePeers_frame _).2.2.1]; rfl
  have hrxp : settled.rxp = s.rxp := by rw [← haged, (expirePeers_frame _).2.2.2.2.2.2.2.1]; rfl
  have hdone : heartbeatExpiry settled = done := by
    have hbeat : settled.stc.heartbeat = s.stc.heartbeat := by rw [hstc]
    have hlimit : settled.stc.profile = s.stc.profile := by rw [hstc]
    clear_value settled
    rw [heartbeatExpiry_eq, hbeat, hlimit]
    simp only [done, ← hrxp]
    rfl
  have hmoment : ((done.rxp.owed = true ∧ s.rxp.owed = false) ∨ newlySendable s done = true) ↔ moment :=
    or_congr_right (newlySendable_iff s done)
  have hexec : exec .spanExpiry s = .next (if moment then nameMoment done else done) := by
    show execSpanExpiry s = _
    rw [execSpanExpiry, if_pos hrun, haged, hdone, nameOnChange_eq, if_congr hmoment rfl rfl]
  exact ⟨fun h => by rw [hexec, if_pos h], fun h => by rw [hexec, if_neg h]⟩

end Sys2Proof.Machine
end

