-- ==== Sys2Proof/Proofs/OwnFrames.lean ====
section
/-! SUPPORT. The part's own pulses read back: a symbol, the END that completes the frame, and the mismatches that abort a frame
or an answer. -/

namespace Sys2Proof.Machine

/-! ### What a resolution does not read

A resolution reads the profile, the store, the peer table and the port: the line's blocks may be changed before it or
after it. -/

/-- The part with other line blocks. -/
def State.withLine (s : State) (x : Frx) (y : Ftx) (z : Ctu) : State := { s with frx := x, ftx := y, ctu := z }

section WithLine

variable (s : State) (x : Frx) (y : Ftx) (z : Ctu)

theorem postNotice_withLine (k : NoticeKind) (addr : Option Nat) :
    postNotice k addr (s.withLine x y z) = (postNotice k addr s).withLine x y z := by
  unfold postNotice
  rw [show (s.withLine x y z).hpt = s.hpt from rfl]
  split <;> rfl

theorem moveToDone_withLine (p : Message → Bool) (f : Message → Message) :
    moveToDone p f (s.withLine x y z) = (moveToDone p f s).withLine x y z := by
  unfold moveToDone
  rw [show (s.withLine x y z).txs = s.txs from rfl]
  split <;> rfl

theorem flipFor_withLine (m : Message) (pending : Bool) :
    flipFor m pending (s.withLine x y z) = (flipFor m pending s).withLine x y z := by
  unfold flipFor
  split <;> rfl

theorem returnMessage_withLine (m : Message) (tries : Nat) :
    returnMessage m tries (s.withLine x y z) = (returnMessage m tries s).withLine x y z := by
  unfold returnMessage
  split
  · exact moveToDone_withLine s x y z _ _
  · rfl

theorem resolveMessage_withLine (r : Resolution) (m : Message) :
    resolveMessage r m (s.withLine x y z) = (resolveMessage r m s).withLine x y z := by
  cases r with
  | sent note => simp only [resolveMessage, moveToDone_withLine, flipFor_withLine]
  | refused => exact returnMessage_withLine (raise .refusedReceived s) x y z m _
  | released => exact returnMessage_withLine s x y z m _
  | tried =>
    have hraise : raise .retries (s.withLine x y z) = (raise .retries s).withLine x y z := rfl
    simp only [resolveMessage, hraise, moveToDone_withLine, flipFor_withLine, returnMessage_withLine]
    exact (apply_ite (State.withLine · x y z) _ _ _).symm

theorem settleSilence_withLine (p : Nat) :
    settleSilence p (s.withLine x y z) = (settleSilence p s).withLine x y z := by
  have htake : takeSilence p (s.withLine x y z) = (takeSilence p s).withLine x y z := by
    unfold takeSilence
    dsimp only
    rw [apply_ite (State.withLine · x y z), ← postNotice_withLine]
    rfl
  unfold settleSilence
  rw [htake, apply_ite (State.withLine · x y z)]
  rfl

theorem resolve_withLine (r : Resolution) : resolve r (s.withLine x y z) = (resolve r s).withLine x y z := by
  unfold resolve
  rw [show inFlight (s.withLine x y z) = inFlight s from rfl]
  cases inFlight s with
  | none => rfl
  | some m =>
    show settleSilence m.dest (resolveMessage r m (s.withLine x y z)) = _
    rw [resolveMessage_withLine, settleSilence_withLine]

end WithLine

/-! ### A falling edge that the FTX reads back -/

/-- A falling edge after which the CTU drives nothing and stands at no opportunity: the FTX, then the FRX. -/
theorem exec_pulseEvent_of_fall {s v : State} {width : Nat} (hon : s.lfe.sampling = true) (hact : s.lfe.active = true)
    (hfall : ftxFall (classOf width) (lineFallen s) = v) (hdrive : v.ctu.drive = Drive.none) (hclosed : v.ctu.closed) :
    exec (.pulseEvent width) s = .next
      (toFrx (completesAt (classOf width) s) (fun f => rxPulse f (classOf width) s.lfe.precedingGap) v) := by
  rw [exec_pulseEvent hon hact, hfall, ctuFall_of_idle hdrive, nameOnChange_of_closed (closed_toFrx hclosed _ _)]

/-- The FRX takes its event as it stood before, whatever the FTX has done at the same edge. -/
theorem toFrx_heard {s v : State} {f : Frx → Frx × RxEvent} {x : Frx} {e : RxEvent} (hd : decoding s = true)
    (hevent : f s.frx = (x, e)) (own : Bool) (hfrx : v.frx = s.frx) (hstation : decoding v = decoding s) :
    toFrx own f v = applyRx own e (v.setFrx x) := by
  rw [toFrx_of_decoding (hstation.trans hd), hfrx, hevent]

theorem toFrx_of_quiet {s v : State} {f : Frx → Frx × RxEvent} (hd : decoding s = true) (hquiet : (f s.frx).2 = .quiet)
    (own : Bool) (hfrx : v.frx = s.frx) (hstation : decoding v = decoding s) :
    toFrx own f v = v.setFrx (f s.frx).1 :=
  toFrx_heard hd (Prod.ext rfl hquiet) own hfrx hstation

/-- A pulse driven and read back in its own class moves the frame on. -/
theorem ftxFall_of_symbol {s : State} (hframe : s.ftx.state.inFrame = true) (hend : s.ftx.state ≠ .endPulse)
    (hdriven : s.ftx.drive.phase ≠ .rest) : ftxFall (pulseOf (txSym s)) s = txAdvance s := by
  rw [ftxFall, beforeDrive_of_driven hdriven, if_neg (by simp), if_pos hframe, txClass, if_neg hend, if_pos rfl, if_neg hend]

theorem txAdvance_of_locked {s : State} {c : Candidate} (hc : s.ctu.locked = some c) :
    txAdvance s =
      s.setFtx
        { s.ftx with
          drive := Drive.none
          symbolIndex := if s.ftx.symbolIndex + 1 < 24 + 4 * c.payload.length then s.ftx.symbolIndex + 1 else s.ftx.symbolIndex
          state :=
            if s.ftx.symbolIndex + 1 < 16 then .header
            else if s.ftx.symbolIndex + 1 < 16 + 4 * c.payload.length then .payload
            else if s.ftx.symbolIndex + 1 < 24 + 4 * c.payload.length then .check
            else .endPulse } := by
  have hindex : txStateAt c.payload.length (s.ftx.symbolIndex + 1) = .endPulse ↔
      ¬ s.ftx.symbolIndex + 1 < 24 + 4 * c.payload.length := by
    unfold txStateAt
    split
    · simp; omega
    split
    · simp; omega
    split
    · simp; omega
    · simp; omega
  simp only [txAdvance, lockedLength, hc]
  congr 2
  by_cases h : s.ftx.symbolIndex + 1 < 24 + 4 * c.payload.length
  · rw [if_neg (mt hindex.mp (not_not.mpr h)), if_pos h]
  · rw [if_pos (hindex.mpr h), if_neg h]

/-- Settles O34. -/
theorem symbolReadBackMovesOn : Obligations.SymbolReadBackMovesOn := by
  unfold Obligations.SymbolReadBackMovesOn
  intro width s c hon hact hd hquiet hctu hdrive hstate hlocked n i heard
  have hframe : s.ftx.state.inFrame = true := by rcases hstate with h | h | h <;> rw [h] <;> rfl
  have hend : s.ftx.state ≠ .endPulse := by rcases hstate with h | h | h <;> simp [h]
  have hclosed : s.ctu.closed := .inl (by simp [hctu])
  refine ⟨fun hdriven hclass => ?_, fun hrest => ?_⟩
  · have hfall : ftxFall (classOf width) (lineFallen s) = txAdvance (lineFallen s) := by
      rw [hclass]; exact ftxFall_of_symbol (s := lineFallen s) hframe hend hdriven
    rw [txAdvance_of_locked (s := lineFallen s) hlocked] at hfall
    rw [exec_pulseEvent_of_fall hon hact hfall hdrive hclosed, toFrx_of_quiet hd hquiet] <;> rfl
  · have hfall : ftxFall (classOf width) (lineFallen s) =
        (lineFallen s).setFtx { s.ftx with drive := { s.ftx.drive with edgeAge := none } } :=
      ftxFall_of_beforeDrive (s := lineFallen s) (by simp [beforeDrive, lineFallen, hrest, hframe]) _
    rw [exec_pulseEvent_of_fall hon hact hfall hdrive hclosed, toFrx_of_quiet hd hquiet] <;> rfl

/-! ### The END of the part's own frame -/

/-- The pool and the counts at a completion, before its kind bears on the rest (R10, R165, R115). -/
def completed (adv : Advert) (s : State) : State := completeCounts (completeAdvert adv s)

theorem completed_eq (adv : Advert) (s : State) :
    completed adv s =
      { s with
        stc := { s.stc with heartbeat := 0 }, ftx := { s.ftx with faultCount := 0 }, rxp := (completeAdvert adv s).rxp
        hpt := { s.hpt with counters := s.hpt.counters.add .framesSent } } := by
  unfold completed completeCounts completeAdvert
  rw [evalCauses_eq]
  rfl

/-- The FTX finds its own END: the frame completes. -/
theorem ftxFall_of_end {s : State} (hstate : s.ftx.state = .endPulse) (hdriven : s.ftx.drive.phase ≠ .rest) :
    ftxFall .w6 s = completeFrame s := by
  rw [ftxFall, beforeDrive_of_driven hdriven, if_neg (by simp), if_pos (by rw [hstate]; rfl), txClass, if_pos hstate,
    if_pos rfl, if_pos hstate]

theorem completesAt_of_end {s : State} (hstate : s.ftx.state = .endPulse) (hdriven : s.ftx.drive.phase ≠ .rest) :
    completesAt .w6 s = true := by simp [completesAt, hstate, beforeDrive_of_driven hdriven]

theorem completeFrame_of_locked {s : State} {c : Candidate} {adv : Advert} (hc : s.ctu.locked = some c)
    (hadv : s.ftx.captured = some adv) :
    completeFrame s =
      if c.kind = .data then
        (completeKind c (completed adv s)).setFtx
          { ftxIdle (completeKind c (completed adv s)).ftx with state := .awaitAnswer }
      else attemptEnd ((completeKind c (completed adv s)).setFtx (ftxIdle (completeKind c (completed adv s)).ftx)) := by
  have hlocked : (completed adv s).ctu.locked = some c := by rw [completed_eq]; exact hc
  unfold completeFrame
  rw [hadv]
  show (match (completed adv s).ctu.locked with | some c => _ | none => _) = _
  rw [hlocked]
  rfl

/-- The attempt ends after any frame but a DATA frame (R104). -/
def attemptEnded (s : State) : State :=
  { s with ctu := { s.ctu with state := .waiting, idleSeen := false, locked := none, drive := Drive.none } }

/-- What a completion makes of the part besides its pool and counts, by the kind of the frame (R53, R60, R160, R39). -/
def kindCompleted (c : Candidate) (s : State) : State :=
  match c.kind with
  | .data => { s with ftx := { Ftx.reset with state := .awaitAnswer } }
  | .broadcast => attemptEnded (resolve (.sent false) s)
  | .status => attemptEnded s
  | .join =>
    if s.stc.station = .joining then
      attemptEnded (postNotice .joined none { s with stc := { s.stc with station := .active } })
    else attemptEnded s
  | .poll => attemptEnded { s with peers := s.peers.modify c.dest (fun r => { r with pollAge := .zero }) }

theorem completeFrame_setFrx {s : State} {c : Candidate} {adv : Advert} (hc : s.ctu.locked = some c)
    (hadv : s.ftx.captured = some adv) (x : Frx) :
    (completeFrame s).setFrx x = kindCompleted c ((completed adv s).withLine x Ftx.reset s.ctu) := by
  rw [completeFrame_of_locked hc hadv]
  obtain ⟨d, hd⟩ : ∃ d, d = completed adv s := ⟨_, rfl⟩
  have hfaults : d.ftx.faultCount = 0 := by rw [hd, completed_eq]
  have hctu : d.ctu = s.ctu := by rw [hd, completed_eq]
  have hidle : ftxIdle d.ftx = Ftx.reset := by rw [ftxIdle, hfaults]; rfl
  rw [← hd]
  unfold kindCompleted completeKind
  cases hkind : c.kind with
  | data => simp only [if_true, hidle, ← hctu]; rfl
  | broadcast =>
    rw [resolve_withLine]
    simp only [reduceCtorEq, if_false, attemptEnd, resolve_frame, State.setFtx_ctu, hidle, ← hctu]
    rfl
  | status => simp only [reduceCtorEq, if_false, hidle, ← hctu]; rfl
  | poll =>
    simp only [reduceCtorEq, if_false, updatePeer_frame, hidle, ← hctu]
    rfl
  | join =>
    simp only [reduceCtorEq, if_false]
    by_cases hjoining : d.stc.station = .joining
    · have hnotice : postNotice .joined none
          { d.withLine x Ftx.reset s.ctu with stc := { d.stc with station := .active } } =
          (postNotice .joined none (d.setStc { d.stc with station := .active })).withLine x Ftx.reset s.ctu :=
        postNotice_withLine (d.setStc { d.stc with station := .active }) x Ftx.reset s.ctu _ _
      rw [if_pos hjoining, if_pos (show (d.withLine x Ftx.reset s.ctu).stc.station = .joining from hjoining)]
      show _ = attemptEnded (postNotice .joined none
          { d.withLine x Ftx.reset s.ctu with stc := { d.stc with station := .active } })
      rw [hnotice]
      simp only [attemptEnd, postNotice_frame, State.setFtx_ctu, State.setStc_ftx, State.setStc_ctu, hidle, hctu]
      rfl
    · rw [if_neg hjoining, if_neg (show ¬ (d.withLine x Ftx.reset s.ctu).stc.station = .joining from hjoining), hidle, ← hctu]
      rfl

/-- The part after its frame: on the air, its CTU driving nothing and at no opportunity, its profile as it was. -/
theorem kindCompleted_rest {c : Candidate} {s : State} (hair : onAir s) (hdrive : s.ctu.drive = Drive.none)
    (hclosed : s.ctu.closed) :
    onAir (kindCompleted c s) ∧ (kindCompleted c s).stc.profile = s.stc.profile
      ∧ (kindCompleted c s).ctu.drive = Drive.none ∧ (kindCompleted c s).ctu.closed := by
  unfold kindCompleted
  repeat' split
  · exact ⟨hair, rfl, hdrive, hclosed⟩
  · exact ⟨by simpa [onAir, attemptEnded] using hair, by simp [attemptEnded], rfl, .inr rfl⟩
  · exact ⟨hair, rfl, rfl, .inr rfl⟩
  · exact ⟨by simp [onAir, attemptEnded], by simp [attemptEnded], rfl, .inr rfl⟩
  · exact ⟨hair, rfl, rfl, .inr rfl⟩
  · exact ⟨hair, rfl, rfl, .inr rfl⟩

theorem markHeard_of_onAir {s : State} (h : onAir s) : markHeard s = s := by
  unfold markHeard
  rw [if_neg]
  intro hl
  rcases h with h | h <;> simp [hl] at h

theorem rxPulse_of_discard {f : Frx} (h : f.state = .discard) (cls : PulseClass) (gap : Nat) :
    rxPulse f cls gap =
      ({ f with
         record := match f.record with | .turnOn => .turnOn | .pulses p => .pulses ⟨p.last, some cls⟩ }, .quiet) := by
  obtain ⟨state, digitIndex, symCount, claim, header, payload, partialByte, crc, check, recent, record, window⟩ := f
  cases h
  cases record <;> rfl

/-- Settles O33. -/
theorem ownFrameCompletesAtItsEnd : Obligations.OwnFrameCompletesAtItsEnd := by
  unfold Obligations.OwnFrameCompletesAtItsEnd
  intro width s c adv hon hact hair hstate hdriven hctu hdrive hlocked hcaptured hlow hhigh fr complete ended effect
  have hclass := classOf_of_w6 hlow hhigh
  have heffect (x : Frx) : (completeFrame (lineFallen s)).setFrx x = effect (complete x) := by
    have hcomplete : complete x = (completed adv (lineFallen s)).withLine x Ftx.reset s.ctu := by
      rw [completed_eq]
      simp only [complete, completeAdvert]
      rw [evalCauses_eq, evalCauses_eq]
      rfl
    have hkind (u : State) (hstation : u.stc.station = s.stc.station) (hpeers : u.peers = s.peers) :
        kindCompleted c u = effect u := by
      simp only [kindCompleted, effect]
      cases c.kind with
      | join => rw [hstation]; rfl
      | poll => rw [hpeers]; rfl
      | data => rfl
      | broadcast => rfl
      | status => rfl
    rw [completeFrame_setFrx (s := lineFallen s) hlocked hcaptured, hcomplete, completed_eq, hkind] <;> rfl
  obtain ⟨hairV, hprofile, hdriveV, hclosedV⟩ :
      onAir (completeFrame (lineFallen s)) ∧ (completeFrame (lineFallen s)).stc.profile = s.stc.profile
        ∧ (completeFrame (lineFallen s)).ctu.drive = Drive.none ∧ (completeFrame (lineFallen s)).ctu.closed := by
    have hrest := kindCompleted_rest (c := c) (s := (completed adv (lineFallen s)).withLine s.frx Ftx.reset (lineFallen s).ctu)
      (by rw [completed_eq]; exact hair) hdrive (.inl (show s.ctu.state ≠ .waiting by simp [hctu]))
    rw [← completeFrame_setFrx (s := lineFallen s) hlocked hcaptured, completed_eq] at hrest
    exact hrest
  have hfall : ftxFall (classOf width) (lineFallen s) = completeFrame (lineFallen s) := by
    rw [hclass]; exact ftxFall_of_end (s := lineFallen s) hstate hdriven
  have hheard {x : Frx} {e : RxEvent} (h : rxPulse s.frx .w6 s.lfe.precedingGap = (x, e)) :
      exec (.pulseEvent width) s = .next (applyRx true e (effect (complete x))) := by
    rw [exec_pulseEvent_of_fall hon hact hfall hdriveV hclosedV, hclass, completesAt_of_end hstate hdriven,
      toFrx_heard (s := lineFallen s) (decoding_of_onAir (s := lineFallen s) hair) h, heffect]
    · simp
    · rw [decoding_of_onAir hairV, decoding_of_onAir (s := lineFallen s) hair]
  refine ⟨fun hend hgapLow hgapHigh hclaim => ?_, fun hdiscard => ?_, fun hlead => ?_⟩
  · rw [hheard (rxPulse_end hend ((inFrameGap_iff _).mpr ⟨hgapLow, hgapHigh⟩)), ← heffect]
    have hown : s.frx.frame.claim = ownAddress ((completeFrame (lineFallen s)).setFrx s.frx.ended) := by
      show claimAddress s.frx.claim = (completeFrame (lineFallen s)).stc.profile.address
      rw [hprofile, hclaim]
    show Host.Outcome.next (validFrame true s.frx.frame _) = _
    rw [validFrame, if_pos hown, if_pos rfl, markHeard_of_onAir (s := (completeFrame (lineFallen s)).setFrx s.frx.ended) hairV,
      heffect]
    rfl
  · rw [hheard (rxPulse_of_discard hdiscard _ _)]
    rfl
  · have hpulse : rxPulse s.frx .w6 s.lfe.precedingGap = ({ s.frx with state := .idle }, .stray) := by simp [rxPulse, hlead]
    rw [hheard hpulse]
    rfl

end Sys2Proof.Machine
end

