-- ==== Sys2Proof/Proofs/Readback.lean ====
section
/-! SUPPORT. A readback that fails: the aborted frame, the mismatched answer, and the halt of the fourth fault. -/

namespace Sys2Proof.Machine

/-! ### The abort and the mismatch -/

/-- The part after a fault that is the fourth, or short of it (R115). -/
def orHalt (faults : Nat) (s : State) : State := if faults < 3 then s else halt .transmitFault s

/-- The FTX after a fault: IDLE with nothing captured, the fault counted (R114, R115). -/
def Ftx.faulted (x : Ftx) : Ftx := { Ftx.reset with faultCount := min 4 (x.faultCount + 1) }

/-- The CTU after its attempt: WAITING with idle seen clear and nothing locked (R104). -/
def Ctu.afterAttempt (x : Ctu) : Ctu :=
  { x with state := .waiting, idleSeen := false, locked := none, drive := Drive.none }

/-- A frame is given up: the fault counted, the attempt ended, a try of the message consumed (R114). -/
def frameAborted (s : State) : State := resolve .tried (s.withLine s.frx s.ftx.faulted s.ctu.afterAttempt)

theorem haltIfFaulty_eq {s : State} {n : Nat} (h : s.ftx.faultCount = min 4 (n + 1)) : haltIfFaulty s = orHalt n s := by
  rw [haltIfFaulty, faultLimit, h, orHalt]
  by_cases hlt : n < 3
  · rw [if_neg (by omega), if_pos hlt]
  · rw [if_pos (by omega), if_neg hlt]

theorem abortFrame_eq (s : State) : abortFrame s = orHalt s.ftx.faultCount (frameAborted s) :=
  haltIfFaulty_eq (s := frameAborted s) (by simp [frameAborted, State.withLine, Ftx.faulted])

theorem answerMismatch_eq (s : State) :
    answerMismatch s = orHalt s.ftx.faultCount { s with ftx := s.ftx.faulted } :=
  haltIfFaulty_eq (s := { s with ftx := s.ftx.faulted }) rfl

/-- An abort does not read the FRX, and leaves it as it is. -/
theorem frameAborted_setFrx (s : State) (x : Frx) : frameAborted (s.setFrx x) = (frameAborted s).setFrx x := by
  have h : frameAborted s = _ := resolve_withLine s s.frx s.ftx.faulted s.ctu.afterAttempt .tried
  have h' : frameAborted (s.setFrx x) = _ := resolve_withLine s x s.ftx.faulted s.ctu.afterAttempt .tried
  rw [h, h']
  rfl

theorem frameAborted_frame (s : State) :
    (frameAborted s).rxp = s.rxp ∧ (frameAborted s).frx = s.frx ∧ (frameAborted s).stc = s.stc
      ∧ (frameAborted s).ctu.state = .waiting ∧ (frameAborted s).ctu.idleSeen = false
      ∧ (frameAborted s).ctu.drive = Drive.none := by
  simp [frameAborted, State.withLine, Ctu.afterAttempt]

/-- A halt resets the line's blocks: what the FRX took at the same edge is gone. -/
theorem halt_setFrx (why : HaltReason) (s : State) (x : Frx) : halt why (s.setFrx x) = halt why s := rfl

theorem decoding_halt (why : HaltReason) (s : State) : decoding (halt why s) = false := rfl

theorem ctu_halt (why : HaltReason) (s : State) : (halt why s).ctu.passive ∧ (halt why s).ctu.drive = Drive.none :=
  ⟨.inl rfl, rfl⟩

/-- A part that goes on after a fault stands at no opportunity and drives nothing, and one that halts does neither. -/
theorem orHalt_ctu {n : Nat} {s : State} (hpassive : s.ctu.passive) (hdrive : s.ctu.drive = Drive.none) :
    (orHalt n s).ctu.passive ∧ (orHalt n s).ctu.drive = Drive.none := by
  unfold orHalt
  split
  · exact ⟨hpassive, hdrive⟩
  · exact ctu_halt _ _

theorem orHalt_frameAborted_ctu (n : Nat) (s : State) :
    (orHalt n (frameAborted s)).ctu.passive ∧ (orHalt n (frameAborted s)).ctu.drive = Drive.none := by
  obtain ⟨-, -, -, hstate, hidle, hdrive⟩ := frameAborted_frame s
  exact orHalt_ctu (.inr (.inr (.inr ⟨hstate, hidle⟩))) hdrive

/-- What the FRX takes at the same edge as a fault: nothing once the part has halted. -/
theorem toFrx_orHalt {own : Bool} {n : Nat} {f : Frx → Frx × RxEvent} {s : State} {x : Frx}
    (h : toFrx own f s = s.setFrx x) : toFrx own f (orHalt n s) = orHalt n (s.setFrx x) := by
  unfold orHalt
  split
  · exact h
  · rw [toFrx_of_off (decoding_halt _ _), halt_setFrx]

/-! ### The timed tests -/

theorem readbackFails_iff (s : State) :
    readbackFails s = true ↔
      (s.ftx.drive.phase = .driving ∧ s.ftx.drive.edgeAge = none)
        ∨ (s.ftx.drive.phase = .released ∧ s.lfe.active = true ∧ s.ftx.state ≠ .endPulse) := by
  simp [readbackFails, and_assoc]

/-! ### An answer that stands in the window of a frame to the part -/

/-- The event of a window whose frame was for the part itself moves the FRX alone. -/
theorem toFrx_of_own_window {s v : State} {f : Frx → Frx × RxEvent} {x : Frx} {cls : AnswerClass} (hd : decoding s = true)
    (hdest : s.frx.window.dest = s.stc.profile.address)
    (hevent : f s.frx = (x, .answered s.frx.window.claim s.frx.window.dest s.frx.window.lane cls)) (own : Bool)
    (hftx : v.ftx.state ≠ .awaitAnswer) (hfrx : v.frx = s.frx) (hstc : v.stc = s.stc) :
    toFrx own f v = v.setFrx x := by
  have hsame : decoding v = decoding s := by rw [decoding, hstc]; rfl
  rw [toFrx_heard hd hevent own hfrx hsame]
  exact windowAnswer_of_own_dest (x := s.frx) (s := v.setFrx x) hftx (by rw [State.setFrx_stc, hstc]; exact hdest) cls rfl rfl

/-- An answer of the part's own that has ended, or that it is driving. -/
def hasAnswered (s : State) : Prop := s.ftx.state = .idle ∨ (s.ftx.state = .answering ∧ s.ftx.drive.phase ≠ .rest)

theorem hasAnswered.inFrame {s : State} (h : hasAnswered s) : s.ftx.state.inFrame = false := by
  rcases h with h | ⟨h, -⟩ <;> rw [h] <;> rfl

theorem hasAnswered.beforeDrive {s : State} (h : hasAnswered s) : beforeDrive s = false := by
  rcases h with h | ⟨h, hdriven⟩
  · simp [Machine.beforeDrive, h, TxState.inFrame]
  · exact beforeDrive_of_driven hdriven

/-- The release of an answer of the part's own is read back by its class (R52). -/
theorem ftxFall_of_answer {s : State} {k : AnswerKind} (h : hasAnswered s) (hk : s.ftx.answer = some k) (cls : PulseClass) :
    ftxFall cls s = if cls = k.pulse then s.setFtx (ftxIdle s.ftx) else answerMismatch s := by
  rw [ftxFall, h.beforeDrive, if_neg (by simp), h.inFrame, if_neg (by simp), hk]

theorem ftxEarly_of_answer {s : State} {k : AnswerKind} (h : hasAnswered s) (hk : s.ftx.answer = some k) :
    ftxEarly s = answerMismatch s := by
  simp [ftxEarly, hk, h.beforeDrive]

/-! ### The mismatches -/

section Mismatch

variable {s : State}

/-- A rising edge out of time in a frame (R113). -/
theorem exec_edge_of_bad_frame (hon : s.lfe.sampling = true) (hact : s.lfe.active = false) {gap : Nat}
    (hwindow : decidesNoAnswer gap s) (hgap : gap < 5 ∨ 24 < gap) (hframe : s.ftx.state.inFrame = true) :
    exec (.lineRisingEdge gap) s = .next (orHalt s.ftx.faultCount (frameAborted (risen gap s))) := by
  have hbad : ¬ inFrameGap (min precedingGapLimit gap) = true := by rw [inFrameGap_min_iff]; omega
  rw [exec_lineRisingEdge hon hact, ftxRise_of_frame_out_of_time (s := lineRisen gap s) hframe hbad, abortFrame_eq,
    ctuRise_of_passive (orHalt_frameAborted_ctu _ _).1]
  obtain ⟨-, hfrx, hstc, -⟩ := frameAborted_frame (lineRisen gap s)
  rw [toFrx_orHalt (toFrx_rise hwindow hfrx (by rw [hstc]; rfl)), ← frameAborted_setFrx]
  rfl

/-- A rising edge out of time before the answer (R52). -/
theorem exec_edge_of_bad_answer (hon : s.lfe.sampling = true) (hact : s.lfe.active = false) {gap : Nat} {x : Frx}
    (hgap : gap < 5 ∨ 24 < gap) (hanswering : s.ftx.state = .answering) (hctu : s.ctu.passive)
    (hfrx : toFrx false (fun f => rxRise f (min precedingGapLimit gap)) { lineRisen gap s with ftx := s.ftx.faulted } =
      State.setFrx { lineRisen gap s with ftx := s.ftx.faulted } x) :
    exec (.lineRisingEdge gap) s = .next
      (orHalt s.ftx.faultCount (State.setFrx { lineRisen gap s with ftx := s.ftx.faulted } x)) := by
  have hbad : ¬ inFrameGap (min precedingGapLimit gap) = true := by rw [inFrameGap_min_iff]; omega
  have hpassive : (orHalt s.ftx.faultCount { lineRisen gap s with ftx := s.ftx.faulted }).ctu.passive := by
    unfold orHalt
    split
    · exact hctu
    · exact .inl rfl
  rw [exec_lineRisingEdge hon hact, ftxRise_of_answer_out_of_time (s := lineRisen gap s) hanswering hbad, answerMismatch_eq]
  show Host.Outcome.next (toFrx false _ (ctuRise (orHalt s.ftx.faultCount { lineRisen gap s with ftx := s.ftx.faulted }))) = _
  rw [ctuRise_of_passive hpassive, toFrx_orHalt hfrx]

/-- A pulse of another class than the one driven (R113). -/
theorem ftxFall_of_bad_symbol {cls : PulseClass} (hframe : s.ftx.state.inFrame = true) (hdriven : s.ftx.drive.phase ≠ .rest)
    (hclass : cls ≠ txClass s) : ftxFall cls s = orHalt s.ftx.faultCount (frameAborted s) := by
  rw [ftxFall, beforeDrive_of_driven hdriven, if_neg (by simp), if_pos hframe, if_neg hclass, abortFrame_eq]

theorem exec_release_of_bad_symbol {width : Nat} (hon : s.lfe.sampling = true) (hact : s.lfe.active = true)
    (hframe : s.ftx.state.inFrame = true) (hdriven : s.ftx.drive.phase ≠ .rest) (hclass : classOf width ≠ txClass s) :
    exec (.pulseEvent width) s = .next
      (toFrx (completesAt (classOf width) s) (fun f => rxPulse f (classOf width) s.lfe.precedingGap)
        (orHalt s.ftx.faultCount (frameAborted (lineFallen s)))) := by
  obtain ⟨hpassive, hdrive⟩ := orHalt_frameAborted_ctu s.ftx.faultCount (lineFallen s)
  exact exec_pulseEvent_of_fall hon hact (ftxFall_of_bad_symbol (s := lineFallen s) hframe hdriven hclass) hdrive hpassive.closed

/-- The release of an answer of the part's own: the FTX's reading of it, then the window's end; nothing is named. -/
theorem exec_release_of_answer {v : State} {width n : Nat} {x : Frx} (hon : s.lfe.sampling = true) (hact : s.lfe.active = true)
    (hfall : ftxFall (classOf width) (lineFallen s) = orHalt n v) (hctu : v.ctu = s.ctu)
    (hdrive : s.ctu.drive = Drive.none) (hpeers : v.peers = s.peers) (htxs : v.txs = s.txs) (hrxp : v.rxp = s.rxp)
    (hfrx : toFrx (completesAt (classOf width) s) (fun f => rxPulse f (classOf width) s.lfe.precedingGap) v = v.setFrx x) :
    exec (.pulseEvent width) s = .next (orHalt n (v.setFrx x)) := by
  have hidle : (orHalt n v).ctu.drive = Drive.none := by
    unfold orHalt
    split
    · rw [hctu, hdrive]
    · rfl
  rw [exec_pulseEvent hon hact, hfall, ctuFall_of_idle hidle, toFrx_orHalt hfrx]
  unfold orHalt
  split
  · rw [nameOnChange_of_peers (t := v.setFrx x) hpeers htxs, if_neg]
    rintro ⟨howed, hnot⟩
    rw [State.setFrx_rxp, hrxp, hnot] at howed
    contradiction
  · rw [nameOnChange_of_closed (closed_halt _ _)]

end Mismatch

/-- Settles O46. -/
theorem failedReadbackAbortsTheFrame : Obligations.FailedReadbackAbortsTheFrame := by
  unfold Obligations.FailedReadbackAbortsTheFrame
  intro s late held idle aborted orHalt'
  refine ⟨fun hframe hfail => ⟨?_, ?_⟩, fun hframe hlate hheld => ?_, fun hanswering hlate => ?_, fun hanswering hlate => ?_,
    fun gap hon hact hwindow hgap => ⟨fun hframe => ?_, fun hanswering hctu => ?_⟩,
    fun gap hon hact hd hgap hanswering hwait hphase hdest hctu => ?_,
    fun k hk hstate hon hact hd hwait hphase hdest => ?_, fun width hon hact hd => ?_⟩
  · simp [aborted]
  · show execReadbackTest s = _
    rw [execReadbackTest, if_pos ⟨hframe, (readbackFails_iff s).mpr hfail⟩, abortFrame_eq]
    rfl
  · exact next_of_neg fun h => ((readbackFails_iff s).mp h.2).elim hlate hheld
  · show execAnswerDriveCheck s = _
    rw [execAnswerDriveCheck, if_pos ⟨hanswering, hlate.1, hlate.2⟩, answerMismatch_eq]
    rfl
  · exact next_of_neg fun h => hlate h.2
  · exact exec_edge_of_bad_frame hon hact hwindow hgap hframe
  · refine exec_edge_of_bad_answer hon hact hgap hanswering hctu ?_
    rw [toFrx_rise hwindow] <;> rfl
  · have hrise : rxRise s.frx (min precedingGapLimit gap) = rxAnswer s.frx .answerWait .classed .unclassified := by
      simp only [rxRise, hwait, hphase, if_true]
      rw [if_pos (by rw [precedingGapLimit]; omega)]
    have hfrx : toFrx false (fun f => rxRise f (min precedingGapLimit gap)) { lineRisen gap s with ftx := s.ftx.faulted } =
        State.setFrx { lineRisen gap s with ftx := s.ftx.faulted } (s.frx.windowed .answerWait .classed) := by
      refine toFrx_of_own_window hd hdest (hrise.trans (rxAnswer_eq _ _ _ _)) false ?_ rfl rfl
      simp [Ftx.faulted, Ftx.reset]
    rw [exec_edge_of_bad_answer hon hact (.inl hgap) hanswering hctu hfrx, lineRisen_of_le (by omega), Frx.windowed, ← hwait]
    rfl
  · have hearly : classesEarly s = true := by simp [classesEarly, hd, hwait, hphase]
    have hevent : rxEarlyAnswer s.frx = rxAnswer s.frx .answerWait .classed .unclassified := if_pos ⟨hwait, hphase⟩
    have hfrx : toFrx false rxEarlyAnswer { s with ftx := s.ftx.faulted } =
        State.setFrx { s with ftx := s.ftx.faulted } (s.frx.windowed .answerWait .classed) := by
      refine toFrx_of_own_window hd hdest (hevent.trans (rxAnswer_eq _ _ _ _)) false ?_ rfl rfl
      simp [Ftx.faulted, Ftx.reset]
    show execAnswerEarlyUnclassified s = _
    rw [execAnswerEarlyUnclassified, if_pos ⟨hon, hact⟩, if_pos hearly, ftxEarly_of_answer hstate hk, answerMismatch_eq,
      toFrx_orHalt hfrx, Frx.windowed, ← hwait]
    rfl
  · refine ⟨fun hframe hdriven hclass => ?_, fun k hk hstate hdrive hwait hphase hdest => ?_⟩
    · intro heard
      have hexec := exec_release_of_bad_symbol hon hact hframe hdriven hclass
      obtain ⟨-, hfrx, hstc, -⟩ := frameAborted_frame (lineFallen s)
      have hsame : decoding (frameAborted (lineFallen s)) = decoding s := by rw [decoding, hstc]; rfl
      refine ⟨fun hquiet => ?_, fun hfailed => ?_⟩
      · rw [hexec, toFrx_orHalt (toFrx_of_quiet hd hquiet _ hfrx hsame), ← frameAborted_setFrx]
        rfl
      · rw [hexec, orHalt]
        split
        · rw [toFrx_heard hd (Prod.ext rfl hfailed) _ hfrx hsame, ← frameAborted_setFrx]
          rfl
        · rw [toFrx_of_off (decoding_halt _ _),
            ← halt_setFrx _ _ (rxPulse s.frx (classOf width) s.lfe.precedingGap).1, ← frameAborted_setFrx]
          rfl
    · intro heard driven
      have hdriven : k.pulse = driven := by cases k <;> rfl
      have hpulse : rxPulse s.frx (classOf width) s.lfe.precedingGap =
          rxAnswer s.frx .idle .closed (answerClassOf (classOf width)) := by simp [rxPulse, hwait, hphase]
      have hfrx (own : Bool) (y : Ftx) (hy : y.state ≠ .awaitAnswer) :
          toFrx own (fun f => rxPulse f (classOf width) s.lfe.precedingGap) { lineFallen s with ftx := y } =
            State.setFrx { lineFallen s with ftx := y } (s.frx.windowed .idle .closed) :=
        toFrx_of_own_window hd hdest (hpulse.trans (rxAnswer_eq _ _ _ _)) own hy rfl rfl
      refine ⟨fun hclass => ?_, fun hclass => ?_⟩
      · have hfall : ftxFall (classOf width) (lineFallen s) = orHalt 0 { lineFallen s with ftx := ftxIdle s.ftx } := by
          rw [ftxFall_of_answer (s := lineFallen s) hstate hk, if_pos (hclass.trans hdriven.symm), orHalt, if_pos (by decide)]
          rfl
        rw [exec_release_of_answer hon hact hfall rfl hdrive rfl rfl rfl
          (hfrx _ (ftxIdle s.ftx) (by simp [ftxIdle, Ftx.reset]))]
        rfl
      · have hfall : ftxFall (classOf width) (lineFallen s) =
            orHalt s.ftx.faultCount { lineFallen s with ftx := s.ftx.faulted } := by
          rw [ftxFall_of_answer (s := lineFallen s) hstate hk, if_neg (by rwa [hdriven]), answerMismatch_eq]
          rfl
        rw [exec_release_of_answer hon hact hfall rfl hdrive rfl rfl rfl
          (hfrx _ s.ftx.faulted (by simp [Ftx.faulted, Ftx.reset]))]
        rfl

end Sys2Proof.Machine
end

