-- ==== Sys2Proof/Proofs/LineConditions.lean ====
section
/-! SUPPORT. The reports of the line's conditions: LINE_IDLE, ROUND_GAP and LINE_STUCK at each block and in each station
state. -/

namespace Sys2Proof.Machine

/-! ### LINE_IDLE -/

/-- The LFE once it has reported LINE_IDLE, the count raised to its threshold (log entry 2). -/
def Lfe.toldIdle (x : Lfe) : Lfe := { x with idleReported := true, count := max 48 x.count }

/-- The LFE once it has reported ROUND_GAP. -/
def Lfe.toldRound (x : Lfe) : Lfe := { x with roundReported := true, count := max 96 x.count }

/-- The LFE once it has reported LINE_STUCK. -/
def Lfe.toldStuck (x : Lfe) : Lfe := { x with stuckReported := true, count := max 512 x.count }

/-- LINE_IDLE at an FRX that is on brings its verdict, which does not read the LFE. -/
theorem frxIdle_setLfe {s : State} (hd : decoding s = true) (x : Lfe) :
    frxIdle (s.setLfe x) = (verdictTaken s).setLfe x := by
  have hon : decoding (s.setLfe x) = true := hd
  unfold frxIdle verdictTaken
  by_cases hstate : s.frx.state = .discard
  · rw [if_pos ⟨hon, hstate⟩, if_pos hstate]
    dsimp only [State.setLfe_frx]
    cases s.frx.record with
    | turnOn => rfl
    | pulses p =>
      by_cases hlast : p.last = some .w6
      · simp only [answerPossible, hlast, bne_self_eq_false, Bool.false_eq_true, if_false, if_true]
        rfl
      · have hpossible : answerPossible p = true := by simpa [answerPossible] using hlast
        simp only [hpossible, hlast, if_true, if_false]
        rfl
  · rw [if_neg fun h => hstate h.2, if_neg hstate]

/-- The verdict moves the FRX, the peer table and the counters alone. -/
theorem verdictTaken_frame (s : State) :
    (verdictTaken s).stc = s.stc ∧ (verdictTaken s).ctu = s.ctu ∧ (verdictTaken s).ftx = s.ftx ∧ (verdictTaken s).rxp = s.rxp
      ∧ (verdictTaken s).txs = s.txs ∧ (verdictTaken s).bcr = s.bcr := by
  unfold verdictTaken
  repeat' split
  all_goals exact ⟨rfl, rfl, rfl, rfl, rfl, rfl⟩

theorem exec_lineIdle {s : State} (hon : s.lfe.sampling = true) (hact : s.lfe.active = false)
    (hnew : s.lfe.idleReported = false) (hd : decoding s = true) :
    exec .lineIdle s = .next
      (if s.stc.station = .listening ∧ s.stc.frameHeard = true then
        enterJoining (ctuIdle ((verdictTaken s).setLfe s.lfe.toldIdle))
      else ctuIdle ((verdictTaken s).setLfe s.lfe.toldIdle)) := by
  show execLineIdle s = _
  rw [execLineIdle, if_pos ⟨hon, by simp [hact], by simp [hnew]⟩]
  dsimp only
  rw [frxIdle_setLfe hd, (ctuIdle_frame _).2.2.1, State.setLfe_stc, (verdictTaken_frame s).1]
  rfl

/-- Settles O35. -/
theorem blindFrameVerdictAtLineIdle : Obligations.BlindFrameVerdictAtLineIdle := by
  unfold Obligations.BlindFrameVerdictAtLineIdle
  intro s hon hact hnew hd hstate
  obtain ⟨hstc, hctu, hftx, hrxp, htxs, hbcr⟩ := verdictTaken_frame s
  obtain ⟨u, hu⟩ : ∃ u, u = ctuIdle ((verdictTaken s).setLfe s.lfe.toldIdle) := ⟨_, rfl⟩
  have hu' : u.lfe = s.lfe.toldIdle ∧ u.frx = (verdictTaken s).frx ∧ u.ftx = s.ftx ∧ u.rxp = s.rxp ∧ u.bcr = s.bcr
      ∧ u.stc = s.stc ∧ u.peers = (verdictTaken s).peers ∧ u.hpt = (verdictTaken s).hpt := by simp [hu, hstc, hftx, hrxp, hbcr]
  obtain ⟨t, ht, htu⟩ : ∃ t, exec .lineIdle s = .next t
      ∧ (t.lfe = u.lfe ∧ t.frx = u.frx ∧ t.ftx = u.ftx ∧ t.rxp = u.rxp ∧ t.bcr = u.bcr ∧ t.stc.profile = u.stc.profile
        ∧ t.peers = u.peers ∧ t.hpt = u.hpt) := by
    refine ⟨_, exec_lineIdle hon hact hnew hd, ?_⟩
    rw [← hu]
    split <;> simp [enterJoining]
  obtain ⟨hlfe', hfrx', hftx', hrxp', hbcr', hstc', hpeers', hhpt'⟩ := hu'
  obtain ⟨hlfe, hfrx, hftx, hrxp, hbcr, hprofile, hpeers, hhpt⟩ := htu
  rw [hlfe'] at hlfe; rw [hfrx'] at hfrx; rw [hftx'] at hftx; rw [hrxp'] at hrxp; rw [hbcr'] at hbcr
  rw [hstc'] at hprofile; rw [hpeers'] at hpeers; rw [hhpt'] at hhpt
  refine ⟨t, ht, hlfe, ?_, hftx, hrxp, hbcr, hprofile, fun hrecord => ?_, fun p hrecord => ⟨fun hlast => ?_, fun hlast => ?_⟩⟩
  · rw [hfrx, verdictTaken, if_pos hstate]
    repeat' split
    all_goals rfl
  · rw [hpeers, hhpt, verdictTaken, if_pos hstate, hrecord]
    exact ⟨rfl, rfl⟩
  · rw [hpeers, hhpt, verdictTaken, if_pos hstate, hrecord]
    dsimp only
    rw [if_pos hlast]
    exact ⟨rfl, rfl⟩
  · rw [hpeers, hhpt, verdictTaken, if_pos hstate, hrecord]
    dsimp only
    rw [if_neg hlast]
    exact ⟨rfl, rfl⟩

/-! ### Opportunities in JOINING and ACTIVE -/

theorem exec_roundGap {s : State} (hon : s.lfe.sampling = true) (hact : s.lfe.active = false)
    (hnew : s.lfe.roundReported = false) :
    exec .roundGap s = .next
      (match s.stc.station with
      | .listening => enterJoining ((s.setLfe s.lfe.toldRound).setCtu { s.ctu with roundSpent := false })
      | .lineFault =>
        match s.stc.returnState with
        | some st => recoverTo st (s.setLfe s.lfe.toldRound)
        | none => s.setLfe s.lfe.toldRound
      | _ =>
        if s.ctu.state ≠ .off ∧ s.ctu.roundSpent = true then
          nameMoment ((s.setLfe s.lfe.toldRound).setCtu { s.ctu with roundSpent := false })
        else s.setLfe s.lfe.toldRound) := by
  show execRoundGap s = _
  rw [execRoundGap, if_pos ⟨hon, by simp [hact], by simp [hnew]⟩]
  rfl

/-- Settles O36. -/
theorem idleLineOpensOpportunities : Obligations.IdleLineOpensOpportunities := by
  unfold Obligations.IdleLineOpensOpportunities
  intro s hon hact hair told judged
  have hlistening : s.stc.station ≠ .listening := by rcases hair with h | h <;> simp [h]
  have hround (hnew : s.lfe.roundReported = false) : exec .roundGap s = .next
      (if s.ctu.state ≠ .off ∧ s.ctu.roundSpent = true then
        nameMoment (told.setCtu { s.ctu with roundSpent := false }) else told) := by
    rw [exec_roundGap hon hact hnew]
    rcases hair with h | h <;> rw [h] <;> rfl
  refine ⟨fun hnew hctu => ?_, fun hnew hoff hspent => ?_, fun hnew hoff hspent => ?_⟩
  · have hjudged : ((verdictTaken s).setLfe s.lfe.toldIdle).ctu = s.ctu := (verdictTaken_frame s).2.1
    rw [exec_lineIdle hon hact hnew (decoding_of_onAir hair), if_neg fun h => hlistening h.1, ctuIdle, hjudged]
    rcases hctu with h | h
    · have hsame : ({ s.ctu with idleSeen := true } : Ctu) = { s.ctu with state := .waiting, idleSeen := true } := by rw [← h]
      rw [h]
      dsimp only
      rw [hsame]
      rfl
    · rw [h]
      rfl
  · rw [hround hnew, if_pos ⟨hoff, hspent⟩]
    rfl
  · rw [hround hnew, if_neg fun h => by simp [hspent] at h]

/-! ### The end of LISTENING -/

/-- The JOIN that JOINING names (R76). -/
def joinCandidate : Candidate := { kind := .join, dest := 31, lane := .a, payload := [] }

/-- The CTU once it has started the LEAD of its JOIN. -/
def Ctu.joining (x : Ctu) : Ctu :=
  { x with
    state := .lead, idleSeen := false, joined := false, drive := ⟨.driving, 0, none⟩, locked := some joinCandidate }

/-- The end of LISTENING on a line released for 48 positions: the JOIN is named and its LEAD starts at once. -/
theorem enterJoining_of_quiet {s : State} (hquiet : quiet s = true) :
    enterJoining s =
      { s with stc := { s.stc with station := .joining, frameHeard := false }, ctu := s.ctu.joining } := by
  obtain ⟨w, hw⟩ : ∃ w, w = ctuEnterWaiting (s.setStc { s.stc with station := .joining, frameHeard := false }) := ⟨_, rfl⟩
  have hidle : w.ctu.idleSeen = true := by rw [hw]; exact hquiet
  have hactive : w.lfe.active = false := by
    rw [hw]
    simp only [quiet, Bool.and_eq_true, Bool.not_eq_true'] at hquiet
    exact hquiet.1
  have hname : name w = some joinCandidate := by rw [hw]; rfl
  have hstate : w.ctu.state = .waiting := by rw [hw]; rfl
  rw [enterJoining, ← hw, nameMoment, if_pos ⟨hstate, hidle, by simp [hactive]⟩, hname, hw]
  rfl

/-- Settles O37. -/
theorem listeningEndsInAJoin : Obligations.ListeningEndsInAJoin := by
  unfold Obligations.ListeningEndsInAJoin
  intro s hon hact hlistening hoff hspent judged joins
  obtain ⟨hstc, hctu, -⟩ := verdictTaken_frame s
  have hd : decoding s = true := (decoding_eq_true_iff s).mpr (.inl hlistening)
  refine ⟨fun hnew => ?_, fun hnew => ?_⟩
  · intro x
    have hquiet : quiet ((verdictTaken s).setLfe s.lfe.toldIdle) = true := by simp [quiet, Lfe.toldIdle, hact, idleGap]
    have hidle : ctuIdle ((verdictTaken s).setLfe s.lfe.toldIdle) = (verdictTaken s).setLfe s.lfe.toldIdle := by
      simp only [ctuIdle, State.setLfe_ctu, hctu, hoff]
    rw [exec_lineIdle hon hact hnew hd, hidle]
    by_cases hheard : s.stc.frameHeard = true
    · rw [if_pos ⟨hlistening, hheard⟩, if_pos hheard, enterJoining_of_quiet hquiet, State.setLfe_stc, State.setLfe_ctu, hstc, hctu]
      rfl
    · rw [if_neg fun h => hheard h.2, if_neg hheard]
      rfl
  · have hquiet : quiet ((s.setLfe s.lfe.toldRound).setCtu { s.ctu with roundSpent := false }) = true := by
      simp [quiet, Lfe.toldRound, hact, idleGap]
    have hsame : ({ s.ctu with roundSpent := false } : Ctu) = s.ctu := by rw [← hspent]
    rw [exec_roundGap hon hact hnew, hlistening]
    dsimp only
    rw [enterJoining_of_quiet hquiet, hsame]
    rfl

/-! ### LINE_FAULT -/

theorem exec_lineStuck {s : State} (hon : s.lfe.sampling = true) (hact : s.lfe.active = true)
    (hnew : s.lfe.stuckReported = false) :
    exec .lineStuck s = .next
      (if decoding s = true then enterLineFault (s.setLfe s.lfe.toldStuck) else s.setLfe s.lfe.toldStuck) := by
  show execLineStuck s = _
  rw [execLineStuck, if_pos ⟨hon, hact, by simp [hnew]⟩]
  rfl

theorem postNotice_setStc (k : NoticeKind) (addr : Option Nat) (s : State) (x : Stc) :
    postNotice k addr (s.setStc x) = (postNotice k addr s).setStc x := by
  unfold postNotice
  rw [State.setStc_hpt]
  split <;> rfl

theorem postNotice_eq (k : NoticeKind) (addr : Option Nat) (s : State) :
    postNotice k addr s = s.setHpt (postNotice k addr s).hpt := by
  unfold postNotice
  split <;> rfl

/-- With no IN_FLIGHT message there is nothing to resolve. -/
theorem resolve_eq_ite (r : Resolution) (s : State) :
    resolve r s = if s.txs.store.any isInFlight = true then resolve r s else s := by
  split
  · rfl
  · rename_i h
    refine resolve_of_none (List.find?_eq_none.mpr fun m hm hin => h ?_) r
    exact List.any_eq_true.mpr ⟨m, hm, hin⟩

/-- The part as it enters LINE_FAULT, before its message is resolved (R149). -/
def faultEntered (s : State) : State :=
  { postNotice .lineFault none s with
    stc := { s.stc with station := .lineFault, returnState := some s.stc.station, frameHeard := false }
    ctu := ctuOff s.ctu
    ftx := ftxIdle s.ftx
    frx := Frx.reset }

theorem enterLineFault_eq (s : State) : enterLineFault s = markAllStale (resolve .tried (faultEntered s)) := by
  simp only [enterLineFault, postNotice_setStc, faultEntered]
  rw [postNotice_eq]
  rfl

/-- Settles O38. -/
theorem stuckLineEntersLineFault : Obligations.StuckLineEntersLineFault := by
  unfold Obligations.StuckLineEntersLineFault
  intro s hon hact hnew told
  refine ⟨fun hstation => ?_, fun hfault => ?_⟩
  · intro entered resolved
    have hentered : faultEntered (s.setLfe s.lfe.toldStuck) = entered := rfl
    have hstore : entered.txs = s.txs := by simp only [entered, postNotice_frame, told]
    have hresolved : resolve .tried entered = resolved := by rw [resolve_eq_ite, hstore]
    rw [exec_lineStuck hon hact hnew, if_pos ((decoding_eq_true_iff s).mpr hstation), enterLineFault_eq, hentered, hresolved]
    rfl
  · have hd : decoding s = false := by rw [decoding, hfault]
    rw [exec_lineStuck hon hact hnew, if_neg (by simp [hd])]
    rfl

/-- Settles O39. -/
theorem roundGapEndsTheLineFault : Obligations.RoundGapEndsTheLineFault := by
  unfold Obligations.RoundGapEndsTheLineFault
  intro s back hon hact hnew hfault hback hoff hfrx told waits
  have hexec : exec .roundGap s = .next (recoverTo back (s.setLfe s.lfe.toldRound)) := by
    rw [exec_roundGap hon hact hnew, hfault, hback]
  have hquiet : quiet told = true := by
    have hlfe : told.lfe = s.lfe.toldRound := by simp only [told, postNotice_frame]; rfl
    rw [quiet, hlfe]
    simp [Lfe.toldRound, hact, idleGap]
  have hturnOn : told.setFrx (frxTurnOn (quiet told)) = told := by
    have hfrx' : told.frx = Frx.reset := by simp only [told, postNotice_frame, hfrx]
    rw [hquiet, frxTurnOn, if_pos rfl, ← hfrx']
    rfl
  have hctu : told.ctu = s.ctu := by simp only [told, postNotice_frame]
  have hrxp : told.rxp = s.rxp := by simp only [told, postNotice_frame]
  have hwaits : (fun t : State => t.setCtu { t.ctu with roundSpent := false }) (ctuEnterWaiting told) = waits := by
    simp only [ctuEnterWaiting, hquiet, waits, ← hctu]
    rfl
  have hrecover : recoverTo back (s.setLfe s.lfe.toldRound) =
      nameMoment
        (if back = .active then addCause .f (if back = .joining ∨ back = .active then waits else told)
         else if back = .joining ∨ back = .active then waits else told) := by
    rw [← hwaits, ← hturnOn]
    rfl
  rw [hexec, hrecover]
  refine ⟨fun h => ?_, fun h => ?_, fun h => ?_⟩
  · have hclosed : told.ctu.closed := .inl (by simp [hctu, hoff])
    subst h
    simp only [reduceCtorEq, or_false, if_false]
    rw [nameMoment_of_closed hclosed]
  · subst h
    simp
  · subst h
    simp only [or_true, if_true, addCause, Causes.insert]
    rw [show waits.rxp = s.rxp from hrxp]
    rfl

end Sys2Proof.Machine
end

