-- ==== Sys2Proof/Proofs/FrameTrains.lean ====
section
/-! SUPPORT. A frame's pulse train at the FRX: the symbols it hears phase by phase, and the frame it issues at the END. -/

namespace Sys2Proof.Machine

/-! ### A train of symbols -/

/-- The FRX after a train of pulses that carry these symbols, each after a gap of 5..24 positions. -/
def Hears (vs : List Sym) (g h : Frx) : Prop :=
  ∃ line : List (PulseClass × Nat), line.map Prod.fst = vs.map pulseOf ∧ (∀ p ∈ line, 5 ≤ p.2 ∧ p.2 ≤ 24)
    ∧ h = line.foldl (fun g p => (rxPulse g p.1 p.2).1) g

theorem Hears.nil {g h : Frx} (H : Hears [] g h) : h = g := by
  obtain ⟨line, hline, -, rfl⟩ := H
  rw [List.map_nil, List.map_eq_nil_iff] at hline
  rw [hline]
  rfl

theorem Hears.cons {v : Sym} {vs : List Sym} {g h : Frx} (H : Hears (v :: vs) g h) :
    ∃ gap, (5 ≤ gap ∧ gap ≤ 24) ∧ Hears vs (rxPulse g (pulseOf v) gap).1 h := by
  obtain ⟨line, hline, hgaps, rfl⟩ := H
  obtain ⟨⟨cls, gap⟩, rest, rfl, hcls, hrest⟩ := List.map_eq_cons_iff.mp hline
  obtain rfl : cls = pulseOf v := hcls
  exact ⟨gap, hgaps _ List.mem_cons_self, rest, hrest, fun p hp => hgaps p (List.mem_cons_of_mem _ hp), rfl⟩

theorem Hears.append {us vs : List Sym} {g h : Frx} (H : Hears (us ++ vs) g h) : ∃ m, Hears us g m ∧ Hears vs m h := by
  obtain ⟨line, hline, hgaps, rfl⟩ := H
  rw [List.map_append] at hline
  obtain ⟨first, second, rfl, hfirst, hsecond⟩ := List.map_eq_append_iff.mp hline
  refine ⟨_, ⟨first, hfirst, fun p hp => hgaps p (List.mem_append_left _ hp), rfl⟩,
    ⟨second, hsecond, fun p hp => hgaps p (List.mem_append_right _ hp), ?_⟩⟩
  rw [List.foldl_append]

/-- The FRX stands inside a frame, before its END. -/
def Frx.inTrain (g : Frx) : Prop := g.state = .claim ∨ g.state = .header ∨ g.state = .payload ∨ g.state = .check

/-- A pulse of class W1..W4 after a gap of 5..24 positions is its symbol's. -/
theorem rxPulse_symbol {g : Frx} {v : Sym} {gap : Nat} (h : g.inTrain) (hgap : 5 ≤ gap ∧ gap ≤ 24) :
    rxPulse g (pulseOf v) gap = rxSymbol { g with recent := g.recent.push (pulseOf v) } v := by
  have hin : inFrameGap gap = true := (inFrameGap_iff gap).mpr hgap
  rcases h with h | h | h | h <;> simp only [rxPulse, h, symOf_pulseOf, hin, if_true]

/-! ### The phases of a frame -/

/-- The claim digits fill the claim bits and run through the check (R130). -/
theorem Hears.claim : ∀ {vs : List Sym} {g h : Frx}, Hears vs g h → g.state = .claim → g.digitIndex + vs.length = 4 →
    vs ≠ [] →
    h.state = .header ∧ h.symCount = 0 ∧ h.payload = g.payload ∧ h.claim = vs.foldl shiftIn g.claim
      ∧ h.crc = crcSyms g.crc vs
  | [], _, _, _, _, _, hne => absurd rfl hne
  | v :: vs, g, h, H, hstate, hcount, _ => by
    obtain ⟨gap, hgap, H⟩ := H.cons
    rw [rxPulse_symbol (.inl hstate) hgap] at H
    simp only [rxSymbol, hstate, rxClaim] at H
    rw [List.length_cons] at hcount
    cases vs with
    | nil =>
      rw [H.nil, if_pos (by simp at hcount; omega)]
      exact ⟨rfl, rfl, rfl, rfl, rfl⟩
    | cons w ws =>
      have hlt : g.digitIndex ≠ 3 := by rw [List.length_cons] at hcount; omega
      rw [if_neg hlt] at H
      have hrest := Hears.claim H rfl (by show g.digitIndex + 1 + (w :: ws).length = 4; omega) (by simp)
      exact hrest

/-- The header symbols fill the header and run through the check; at the 16th a well-formed header leads on (R131, R126). -/
theorem Hears.header : ∀ {vs : List Sym} {g h : Frx}, Hears vs g h → g.state = .header → g.symCount + vs.length = 16 →
    vs ≠ [] → headerWellFormed g.claim (vs.foldl shiftIn g.header) = true →
    h.state = (if 0 < (headerFields (vs.foldl shiftIn g.header)).length then .payload else .check) ∧ h.symCount = 0
      ∧ h.payload = g.payload ∧ h.claim = g.claim ∧ h.header = vs.foldl shiftIn g.header ∧ h.crc = crcSyms g.crc vs
  | [], _, _, _, _, _, hne, _ => absurd rfl hne
  | v :: vs, g, h, H, hstate, hcount, _, hformed => by
    obtain ⟨gap, hgap, H⟩ := H.cons
    rw [rxPulse_symbol (.inr (.inl hstate)) hgap] at H
    simp only [rxSymbol, hstate, rxHeader] at H
    rw [List.length_cons] at hcount
    cases vs with
    | nil =>
      have hlast : g.symCount + 1 = 16 := by simp at hcount; omega
      rw [if_pos hlast, if_pos (show headerWellFormed g.claim (shiftIn g.header v) = true from hformed)] at H
      show _ = (if 0 < (headerFields (shiftIn g.header v)).length then _ else _) ∧ _
      split at H
      · rename_i hlen
        rw [H.nil, if_pos hlen]
        exact ⟨rfl, rfl, rfl, rfl, rfl, rfl⟩
      · rename_i hlen
        rw [H.nil, if_neg hlen]
        exact ⟨rfl, rfl, rfl, rfl, rfl, rfl⟩
    | cons w ws =>
      have hlt : g.symCount + 1 ≠ 16 := by rw [List.length_cons] at hcount; omega
      rw [if_neg hlt] at H
      have hrest := Hears.header H rfl (by show g.symCount + 1 + (w :: ws).length = 16; omega) (by simp) hformed
      exact hrest

/-- One payload symbol. -/
theorem rxPayload_eq (f : Frx) (v : Sym) :
    (rxPayload f v).1 =
      { f with
        partialByte := shiftIn f.partialByte v, crc := crcSym f.crc v
        payload := if (f.symCount + 1) % 4 = 0 then f.payload ++ [shiftIn f.partialByte v] else f.payload
        state := if f.symCount + 1 = 4 * (headerFields f.header).length then .check else f.state
        symCount := if f.symCount + 1 = 4 * (headerFields f.header).length then 0 else f.symCount + 1 } := by
  unfold rxPayload
  dsimp only
  split <;> rfl

theorem Hears.payload_symbol {v : Sym} {vs : List Sym} {g h : Frx} (H : Hears (v :: vs) g h) (hstate : g.state = .payload) :
    ∃ m, Hears vs m h
      ∧ m.state = (if g.symCount + 1 = 4 * (headerFields g.header).length then .check else .payload)
      ∧ m.symCount = (if g.symCount + 1 = 4 * (headerFields g.header).length then 0 else g.symCount + 1)
      ∧ m.payload = (if (g.symCount + 1) % 4 = 0 then g.payload ++ [shiftIn g.partialByte v] else g.payload)
      ∧ m.partialByte = shiftIn g.partialByte v ∧ m.crc = crcSym g.crc v ∧ m.claim = g.claim ∧ m.header = g.header := by
  obtain ⟨gap, hgap, H⟩ := H.cons
  rw [rxPulse_symbol (.inr (.inr (.inl hstate))) hgap] at H
  simp only [rxSymbol, hstate, rxPayload_eq] at H
  exact ⟨_, H, rfl, rfl, rfl, rfl, rfl, rfl, rfl⟩

/-- Four payload symbols complete a byte; the last byte leads to CHECK (R131). -/
theorem Hears.byte {b : Byte} {g h : Frx} (H : Hears (symsOf 4 b) g h) (hstate : g.state = .payload)
    (hcount : g.symCount % 4 = 0) :
    h.state = (if g.symCount + 4 = 4 * (headerFields g.header).length then .check else .payload)
      ∧ h.symCount = (if g.symCount + 4 = 4 * (headerFields g.header).length then 0 else g.symCount + 4)
      ∧ h.payload = g.payload ++ [b] ∧ h.crc = crcSyms g.crc (symsOf 4 b) ∧ h.claim = g.claim ∧ h.header = g.header := by
  have hfill := foldl_shiftIn_symsOf_self (k := 6) (n := 4) rfl b g.partialByte
  simp only [symsOf, List.foldl_cons, List.foldl_nil] at H hfill
  simp only [symsOf, crcSyms, List.foldl_cons, List.foldl_nil]
  obtain ⟨g1, H, hst1, hn1, hp1, hb1, hc1, hcl1, hh1⟩ := H.payload_symbol hstate
  rw [if_neg (by omega)] at hst1 hn1 hp1
  obtain ⟨g2, H, hst2, hn2, hp2, hb2, hc2, hcl2, hh2⟩ := H.payload_symbol hst1
  rw [hn1, hh1, if_neg (by omega)] at hst2 hn2
  rw [hn1, if_neg (by omega)] at hp2
  obtain ⟨g3, H, hst3, hn3, hp3, hb3, hc3, hcl3, hh3⟩ := H.payload_symbol hst2
  rw [hn2, hh2, hh1, if_neg (by omega)] at hst3 hn3
  rw [hn2, if_neg (by omega)] at hp3
  obtain ⟨g4, H, hst4, hn4, hp4, hb4, hc4, hcl4, hh4⟩ := H.payload_symbol hst3
  rw [hn3, hh3, hh2, hh1] at hst4 hn4
  rw [hn3, if_pos (by omega), hp3, hp2, hp1, hb3, hb2, hb1, hfill] at hp4
  rw [H.nil]
  exact ⟨hst4, hn4, hp4, by rw [hc4, hc3, hc2, hc1], by rw [hcl4, hcl3, hcl2, hcl1], by rw [hh4, hh3, hh2, hh1]⟩

/-- The payload's symbols give its bytes in order and lead to CHECK (R131). -/
theorem Hears.payload : ∀ {bytes : List Byte} {g h : Frx}, Hears (bytes.flatMap (symsOf 4)) g h → g.state = .payload →
    g.symCount % 4 = 0 → g.symCount + 4 * bytes.length = 4 * (headerFields g.header).length → bytes ≠ [] →
    h.state = .check ∧ h.symCount = 0 ∧ h.payload = g.payload ++ bytes
      ∧ h.crc = crcSyms g.crc (bytes.flatMap (symsOf 4)) ∧ h.claim = g.claim ∧ h.header = g.header
  | [], _, _, _, _, _, _, hne => absurd rfl hne
  | b :: bytes, g, h, H, hstate, hcount, htotal, _ => by
    rw [List.flatMap_cons] at H
    rw [List.length_cons] at htotal
    obtain ⟨m, Hbyte, H⟩ := H.append
    obtain ⟨hst, hn, hp, hc, hcl, hh⟩ := Hbyte.byte hstate hcount
    have hcrc : crcSyms g.crc ((b :: bytes).flatMap (symsOf 4)) = crcSyms m.crc (bytes.flatMap (symsOf 4)) := by
      rw [List.flatMap_cons, hc, crcSyms, crcSyms, crcSyms, List.foldl_append]
    cases bytes with
    | nil =>
      have hlast : g.symCount + 4 = 4 * (headerFields g.header).length := by simpa using htotal
      rw [if_pos hlast] at hst hn
      rw [H.nil]
      exact ⟨hst, hn, hp, hcrc.symm, hcl, hh⟩
    | cons b' rest =>
      have hlt : g.symCount + 4 ≠ 4 * (headerFields g.header).length := by rw [List.length_cons] at htotal; omega
      rw [if_neg hlt] at hst hn
      obtain ⟨hst', hn', hp', hc', hcl', hh'⟩ :=
        Hears.payload H hst (by omega) (by rw [hn, hh]; omega) (by simp)
      exact ⟨hst', hn', by rw [hp', hp]; simp, by rw [hc', hcrc], hcl'.trans hcl, hh'.trans hh⟩

/-- The check symbols fill the check; one that agrees with the register leads to END_WAIT (R131, R125). -/
theorem Hears.check : ∀ {vs : List Sym} {g h : Frx}, Hears vs g h → g.state = .check → g.symCount + vs.length = 8 →
    vs ≠ [] → g.crc = vs.foldl shiftIn g.check →
    h.state = .endWait ∧ h.payload = g.payload ∧ h.claim = g.claim ∧ h.header = g.header
  | [], _, _, _, _, _, hne, _ => absurd rfl hne
  | v :: vs, g, h, H, hstate, hcount, _, hcrc => by
    obtain ⟨gap, hgap, H⟩ := H.cons
    rw [rxPulse_symbol (.inr (.inr (.inr hstate))) hgap] at H
    simp only [rxSymbol, hstate, rxCheck] at H
    rw [List.length_cons] at hcount
    cases vs with
    | nil =>
      have hlast : g.symCount + 1 = 8 := by simp at hcount; omega
      rw [if_pos hlast, if_pos (show g.crc = shiftIn g.check v from hcrc)] at H
      rw [H.nil]
      exact ⟨rfl, rfl, rfl, rfl⟩
    | cons w ws =>
      have hlt : g.symCount + 1 ≠ 8 := by rw [List.length_cons] at hcount; omega
      rw [if_neg hlt] at H
      have hrest := Hears.check H rfl (by show g.symCount + 1 + (w :: ws).length = 8; omega) (by simp) hcrc
      exact hrest

/-! ### The frame of a candidate -/

/-- The header fields a part sends for a candidate. -/
def sentFields (c : Candidate) (adv : Advert) (toggle resync : Bool) : HeaderFields :=
  { kind := c.kind.code, dest := c.dest, lane := c.lane.code, toggle := toggle, resync := resync
    length := c.payload.length, advert := adv }

theorem Candidate.proper.bounds {own : Nat} {c : Candidate} (h : c.proper own) : c.dest ≤ 31 ∧ c.payload.length ≤ 32 := by
  unfold Candidate.proper at h
  cases hk : c.kind <;> rw [hk] at h <;> dsimp only at h
  · obtain ⟨hdest, -, -, hlen⟩ := h
    exact ⟨by omega, hlen⟩
  · obtain ⟨hdest, -, hlen⟩ := h
    exact ⟨hdest.le, hlen⟩
  · obtain ⟨hdest, -, hpay⟩ := h
    exact ⟨hdest.le, by simp [hpay]⟩
  · obtain ⟨hdest, -, hpay⟩ := h
    exact ⟨hdest.le, by simp [hpay]⟩
  · obtain ⟨hdest, -, -, hpay⟩ := h
    exact ⟨by omega, by simp [hpay]⟩

theorem headerFields_candidateHeader {own : Nat} {c : Candidate} {adv : Advert} (hc : c.proper own) (hadv : adv.inRange)
    (toggle resync : Bool) : headerFields (candidateHeader c adv toggle resync) = sentFields c adv toggle resync := by
  obtain ⟨hdest, hlen⟩ := hc.bounds
  obtain ⟨ha, hb, hcc, hs⟩ := hadv
  have hkind : c.kind.code ≤ 7 := by cases c.kind <;> decide
  have hlane : c.lane.code ≤ 3 := by cases c.lane <;> decide
  exact headerFields_headerBits _ hkind hdest hlane (hlen.trans (by decide)) ha hb hcc hs

/-- The header of a proper candidate meets R126. -/
theorem headerWellFormed_candidate {own : Nat} {c : Candidate} {adv : Advert} {toggle resync : Bool} (hown : own ≤ 30)
    (hc : c.proper own) (hadv : adv.inRange) (hseq : c.kind = .data ∨ (toggle = false ∧ resync = false)) :
    headerWellFormed (candidateClaim own c) (candidateHeader c adv toggle resync) = true := by
  have haddr : claimAddress (candidateClaim own c) = own := claimAddress_claimBits _ own (by omega)
  have hdigit : claimDigit (candidateClaim own c) = priorityDigit c.kind c.lane :=
    claimDigit_claimBits _ own (priorityDigit_le c.kind c.lane)
  rw [headerWellFormed, haddr, hdigit, headerFields_candidateHeader hc hadv]
  simp only [sentFields, kindOfCode_code, hown, decide_true, Bool.true_and]
  unfold Candidate.proper at hc
  cases hk : c.kind <;> rw [hk] at hc hseq <;> dsimp only at hc
  · obtain ⟨hdest, hne, hlow, hhigh⟩ := hc
    simp [kindRequirements, priorityDigit, hdest, hne, hlow, hhigh]
  · obtain ⟨hdest, hlow, hhigh⟩ := hc
    obtain ⟨rfl, rfl⟩ := hseq.resolve_left (by simp)
    simp [kindRequirements, priorityDigit, hdest, hlow, hhigh]
  · obtain ⟨hdest, hlane, hpay⟩ := hc
    obtain ⟨rfl, rfl⟩ := hseq.resolve_left (by simp)
    simp [kindRequirements, priorityDigit, hdest, hlane, hpay, Lane.code]
  · obtain ⟨hdest, hlane, hpay⟩ := hc
    obtain ⟨rfl, rfl⟩ := hseq.resolve_left (by simp)
    simp [kindRequirements, priorityDigit, hdest, hlane, hpay, Lane.code]
  · obtain ⟨hdest, hne, hlane, hpay⟩ := hc
    obtain ⟨rfl, rfl⟩ := hseq.resolve_left (by simp)
    simp [kindRequirements, priorityDigit, hdest, hne, hlane, hpay, Lane.code]

/-- The frame read back from the bits of a candidate is the candidate's. -/
theorem frameOf_candidate {own : Nat} {c : Candidate} {adv : Advert} (hown : own ≤ 30) (hc : c.proper own)
    (hadv : adv.inRange) (toggle resync : Bool) :
    frameOf (candidateClaim own c) (candidateHeader c adv toggle resync) c.payload =
      { kind := c.kind, claim := own, dest := c.dest, lane := c.lane, toggle := toggle, resync := resync
        advert := adv, payload := c.payload } := by
  have haddr : claimAddress (candidateClaim own c) = own := claimAddress_claimBits _ own (by omega)
  simp [frameOf, haddr, headerFields_candidateHeader hc hadv, sentFields]

/-- The train of a candidate, from its LEAD to the END, brings the FRX to END_WAIT with the candidate's bits (R129 to R131). -/
theorem Hears.candidate {own : Nat} {c : Candidate} {adv : Advert} {toggle resync : Bool} {f h : Frx} (hown : own ≤ 30)
    (hc : c.proper own) (hadv : adv.inRange) (hseq : c.kind = .data ∨ (toggle = false ∧ resync = false))
    (H : Hears (symsOf 4 (candidateClaim own c) ++ frameSyms own c adv toggle resync) (rxLead f) h) :
    h.state = .endWait ∧ h.claim = candidateClaim own c ∧ h.header = candidateHeader c adv toggle resync
      ∧ h.payload = c.payload := by
  rw [frameSyms, bodySyms] at H
  obtain ⟨g1, Hclaim, H⟩ := H.append
  obtain ⟨g3, Hbody, Hcheck⟩ := H.append
  obtain ⟨g2, Hheader, Hpayload⟩ := Hbody.append
  obtain ⟨hst1, hn1, hp1, hcl1, hc1⟩ := Hclaim.claim rfl rfl (by simp [symsOf])
  rw [foldl_shiftIn_symsOf_self (k := 6) rfl] at hcl1
  have hfill := foldl_shiftIn_symsOf_self (k := 30) (n := 16) rfl (candidateHeader c adv toggle resync) g1.header
  have hformed : headerWellFormed g1.claim ((symsOf 16 (candidateHeader c adv toggle resync)).foldl shiftIn g1.header) = true := by
    rw [hfill, hcl1]
    exact headerWellFormed_candidate hown hc hadv hseq
  obtain ⟨hst2, hn2, hp2, hcl2, hh2, hc2⟩ := Hheader.header hst1 (by rw [hn1]; rfl) (by simp [symsOf]) hformed
  rw [hfill] at hst2 hh2
  have hfields := headerFields_candidateHeader hc hadv toggle resync
  have hbody : g3.state = .check ∧ g3.symCount = 0 ∧ g3.payload = c.payload ∧ g3.claim = g2.claim ∧ g3.header = g2.header
      ∧ g3.crc = crcSyms g2.crc (c.payload.flatMap (symsOf 4)) := by
    rw [hfields] at hst2
    by_cases hempty : c.payload = []
    · rw [hempty] at Hpayload
      have hsame : g3 = g2 := Hpayload.nil
      rw [hsame, hempty]
      rw [if_neg (by simp [sentFields, hempty])] at hst2
      exact ⟨hst2, hn2, hp2.trans hp1, rfl, rfl, rfl⟩
    · rw [if_pos (show 0 < (sentFields c adv toggle resync).length from List.length_pos_iff.mpr hempty)] at hst2
      have htotal : g2.symCount + 4 * c.payload.length = 4 * (headerFields g2.header).length := by
        rw [hn2, hh2, hfields, Nat.zero_add]
        rfl
      obtain ⟨hst3, hn3, hp3, hc3, hcl3, hh3⟩ := Hpayload.payload hst2 (by rw [hn2]) htotal hempty
      exact ⟨hst3, hn3, by rw [hp3, hp2, hp1]; rfl, hcl3, hh3, hc3⟩
  obtain ⟨hst3, hn3, hp3, hcl3, hh3, hc3⟩ := hbody
  have hcrc : g3.crc = (symsOf 8 (frameCheck own c adv toggle resync)).foldl shiftIn g3.check := by
    rw [foldl_shiftIn_symsOf_self (k := 14) rfl, hc3, hc2, hc1, frameCheck, bodySyms]
    simp only [crcSyms, List.foldl_append]
    rfl
  obtain ⟨hst, hp, hcl, hh⟩ := Hcheck.check hst3 (by rw [hn3]; rfl) (by simp [symsOf]) hcrc
  exact ⟨hst, by rw [hcl, hcl3, hcl2, hcl1], by rw [hh, hh3, hh2], by rw [hp, hp3]⟩

/-! ### The places of the header's fields -/

theorem kindOfCode_getD {n : Nat} (h : n ≤ 4) :
    (kindOfCode n).getD .status =
      if n = 0 then .data else if n = 1 then .broadcast else if n = 2 then .status else if n = 3 then .join else .poll := by
  interval_cases n <;> rfl

theorem laneOfCode_getD {n : Nat} (h : n ≤ 2) :
    (laneOfCode n).getD .a = if n = 0 then .a else if n = 1 then .b else .c := by
  interval_cases n <;> rfl

/-- A header of Table 7.4 is read at its places. -/
theorem frameOf_tableHeader {claim : Byte} {header : Word} (payload : List Byte)
    (ht : tableHeader claim.toNat header.toNat) :
    frameOf claim header payload =
      { kind :=
          if header.toNat / 2 ^ 29 = 0 then .data else if header.toNat / 2 ^ 29 = 1 then .broadcast
          else if header.toNat / 2 ^ 29 = 2 then .status else if header.toNat / 2 ^ 29 = 3 then .join else .poll
        claim := claim.toNat % 64
        dest := header.toNat / 2 ^ 24 % 32
        lane := if header.toNat / 2 ^ 22 % 4 = 0 then .a else if header.toNat / 2 ^ 22 % 4 = 1 then .b else .c
        toggle := decide (header.toNat / 2 ^ 21 % 2 = 1)
        resync := decide (header.toNat / 2 ^ 20 % 2 = 1)
        advert := ⟨⟨header.toNat / 2 ^ 11 % 8, header.toNat / 2 ^ 8 % 8, header.toNat / 2 ^ 5 % 8⟩, header.toNat % 32⟩
        payload := payload } := by
  have hlt : header.toNat / 2 ^ 29 % 2 ^ 3 = header.toNat / 2 ^ 29 := Nat.mod_eq_of_lt (by have := header.isLt; omega)
  have hkind : header.toNat / 2 ^ 29 ≤ 4 := by
    obtain ⟨-, ⟨h, -⟩ | ⟨h, -⟩ | ⟨h, -⟩ | ⟨h, -⟩ | ⟨h, -⟩⟩ := ht <;> omega
  have hlane : header.toNat / 2 ^ 22 % 4 ≤ 2 := by
    obtain ⟨-, ⟨-, -, -, -, h⟩ | ⟨-, -, -, -, -, -, h⟩ | ⟨-, -, h, -⟩ | ⟨-, -, h, -⟩ | ⟨-, -, h, -⟩⟩ := ht <;> omega
  simp only [frameOf, headerFields, claimAddress, BitVec.extractLsb'_toNat, Nat.shiftRight_eq_div_pow, BitVec.getLsbD,
    Nat.testBit_eq_decide_div_mod_eq, hlt, Frame.mk.injEq]
  exact ⟨kindOfCode_getD hkind, by simp, trivial, laneOfCode_getD hlane, trivial, trivial, by simp, trivial⟩

/-- Settles O60. -/
theorem receiverReadsWhatTheTransmitterSends : Obligations.ReceiverReadsWhatTheTransmitterSends := by
  unfold Obligations.ReceiverReadsWhatTheTransmitterSends
  have hissue {f : Frx} {gap : Nat} (hend : f.state = .endWait) (hlow : 5 ≤ gap) (hhigh : gap ≤ 24) :
      (rxPulse f .w6 gap).2 = .valid (frameOf f.claim f.header f.payload) := by
    rw [rxPulse_end hend ((inFrameGap_iff gap).mpr ⟨hlow, hhigh⟩)]
    rfl
  refine ⟨fun f gap hend hlow hhigh ht => ?_, fun own c adv toggle resync f line gap hown hc hadv hseq hline hgaps hlow hhigh => ?_⟩
  · rw [hissue hend hlow hhigh, frameOf_tableHeader f.payload ht]
  · obtain ⟨hend, hclaim, hheader, hpayload⟩ := Hears.candidate (f := f) hown hc hadv hseq ⟨line, hline, hgaps, rfl⟩
    exact ⟨hend, by rw [hissue hend hlow hhigh, hclaim, hheader, hpayload, frameOf_candidate hown hc hadv]⟩

end Sys2Proof.Machine
end
